-- ==== Sys2Proof/Word.lean ====
section
/-! DEFINITION. The word types of ZCC: bytes and 32-bit host registers (00_scope.md R9, 10_state.md R21). -/

namespace Sys2Proof

/-- A byte is 8 bits (00_scope.md R9). -/
abbrev Byte := BitVec 8

/-- A host register, a length or a count is 32 bits wide (10_state.md R21, R28, R30). -/
abbrev Word := BitVec 32

/-- The 256 frequencies of a Huffman header or of the FrequencyTable (10_state.md R30, 30_encoding.md R95). -/
abbrev FreqTable := Vector Word 256

end Sys2Proof
end

