-- ==== Sys2Proof/Config.lean ====
section
/-! DEFINITION. What an instance of ZCC fixes (00_scope.md R7) and the values the spec leaves free. -/

namespace Sys2Proof

/-- The parameters of an instance (00_scope.md R7). State carries them as plain data that no step changes
(10_state.md R41; DESIGN CHOICE, notes/assumptions/1.md). -/
structure Config where
  /-- capacity of IN in bytes -/
  IN_CAP : Nat
  /-- capacity of OUT in bytes -/
  OUT_CAP : Nat
  /-- LZ77 window size, the largest legal offset -/
  W : Nat
  /-- LZ77 maximum match length -/
  M : Nat
  /-- smallest match length the LZ77 encoder emits as a MATCH -/
  MIN_MATCH : Nat
  deriving DecidableEq, Repr

/-- The defaults of 00_scope.md R7. -/
def Config.standard : Config :=
  { IN_CAP := 2 ^ 32 - 1, OUT_CAP := 2 ^ 32 - 1, W := 4096, M := 255, MIN_MATCH := 5 }

/-- The constraints of 00_scope.md R7. -/
abbrev Config.wf (c : Config) : Prop :=
  (1 ≤ c.IN_CAP ∧ c.IN_CAP ≤ 2 ^ 32 - 1) ∧ (1 ≤ c.OUT_CAP ∧ c.OUT_CAP ≤ 2 ^ 32 - 1) ∧
  (1 ≤ c.W ∧ c.W ≤ 65535) ∧ (1 ≤ c.M ∧ c.M ≤ 255) ∧ (1 ≤ c.MIN_MATCH ∧ c.MIN_MATCH ≤ c.M)

/-- The unspecified byte that a host read of IN or OUT returns while STATE = BUSY (20_memory.md R66), and that a
host read of a cell of IN never written returns (10_state.md R42). Free: no body, one value for each draw
(notes/assumptions/6.md). -/
opaque Config.freeByte : Nat → Byte

end Sys2Proof
end

