-- ==== Sys2Proof/Syntax.lean ====
section
/-! DEFINITION. The instructions of ZCC: one constructor per row of spec/opcode_table.json (30_encoding.md R110). -/

namespace Sys2Proof

/-- The six commands, the three tokens and the two parts of a Huffman buffer. -/
inductive Instr where
  /-- RLE.ENC, 41_rle.md R141 -/
  | rleEnc
  /-- HUF.ENC, 42_huffman_encode.md R160 -/
  | hufEnc
  /-- LZ.ENC, 44_lz77_encode.md R200 -/
  | lzEnc
  /-- RLE.DEC, 41_rle.md R145 -/
  | rleDec
  /-- HUF.DEC, 43_huffman_decode.md R180 -/
  | hufDec
  /-- LZ.DEC, 45_lz77_decode.md R220 -/
  | lzDec
  /-- RUN count, value: a token of an RLE stream, 41_rle.md R146 -/
  | run (count value : Byte)
  /-- LIT byte: a literal token of an LZ77 stream, 45_lz77_decode.md R222 -/
  | lit (byte : Byte)
  /-- MATCH offset, length: a back-reference token of an LZ77 stream, 45_lz77_decode.md R223 and R224 -/
  | matchRef (offset : BitVec 16) (length : Byte)
  /-- HUFHDR: the 1028-byte header of a Huffman buffer, 43_huffman_decode.md R181 to R183 -/
  | hufHdr (total : Word) (freq : FreqTable)
  /-- HUFPAY: the bit-packed payload of a Huffman buffer, 43_huffman_decode.md R185 -/
  | hufPay (payload : List Byte)
  deriving DecidableEq, Repr

end Sys2Proof
end

