-- ==== Sys2Proof/WellFormed.lean ====
section
/-! DEFINITION. Which instruction terms an encoding admits. Every field but the payload is a bit vector or a vector of
the width the format gives it, so only the payload has anything left to check. -/

namespace Sys2Proof

/-- A payload is at least one byte (30_encoding.md R97: "the payload is at least 1 byte"). -/
def payloadNonempty (payload : List Byte) : Bool := !payload.isEmpty

/-- A Huffman buffer fits a 32-bit IN_LEN (10_state.md R25), and 1028 bytes of it are the header (30_encoding.md R95). -/
def payloadFits (payload : List Byte) : Bool := decide (1028 + payload.length ≤ 2 ^ 32 - 1)

/-- The terms an encoding admits. Every count, offset and length of a token is encodable; the ranges of MATCH are
checked when it executes (45_lz77_decode.md R223). -/
def Instr.wf : Instr → Bool
  | .rleEnc => true
  | .hufEnc => true
  | .lzEnc => true
  | .rleDec => true
  | .hufDec => true
  | .lzDec => true
  | .run _ _ => true
  | .lit _ => true
  | .matchRef _ _ => true
  | .hufHdr _ _ => true
  | .hufPay payload => payloadNonempty payload && payloadFits payload

end Sys2Proof
end

