-- ==== Sys2Proof/Decode.lean ====
section
/-! DEFINITION. The encodings of ZCC read and written: field assembly, the decoder of each stream, the encoder, and the
reading of a row of the opcode table (30_encoding.md). -/

namespace Sys2Proof

/-! ## Field assembly (00_scope.md R12, 30_encoding.md R107) -/

/-- BE16: the more significant byte first. -/
def be16 (b0 b1 : Byte) : BitVec 16 := b0 ++ b1

/-- BE32: the most significant byte first. -/
def be32 (b0 b1 b2 b3 : Byte) : Word := b0 ++ b1 ++ b2 ++ b3

/-- Byte j of a 32-bit field v is v[31-8j : 24-8j] (R107). -/
def wordBytes (v : Word) : List Byte :=
  [v.extractLsb' 24 8, v.extractLsb' 16 8, v.extractLsb' 8 8, v.extractLsb' 0 8]

/-- The two bytes of an offset: offset[15:8], then offset[7:0] (R107). -/
def halfBytes (v : BitVec 16) : List Byte := [v.extractLsb' 8 8, v.extractLsb' 0 8]

/-- Bytes taken four at a time as 32-bit fields; bytes left over are dropped. -/
def wordsOf : List Byte → List Word
  | b0 :: b1 :: b2 :: b3 :: rest => be32 b0 b1 b2 b3 :: wordsOf rest
  | _ => []

/-- The frequency table whose entry s is the s-th word of the list (0 past its end). -/
def tableOf (ws : List Word) : FreqTable :=
  ⟨((List.range 256).map fun s => ws.getD s 0).toArray, by simp⟩

/-- The bits of a byte, most significant first (20_memory.md R67). -/
def byteBits (b : Byte) : List Bool :=
  [b.getMsbD 0, b.getMsbD 1, b.getMsbD 2, b.getMsbD 3, b.getMsbD 4, b.getMsbD 5, b.getMsbD 6, b.getMsbD 7]

/-! ## Decoding -/

/-- Where the bytes to decode stand: the command register or one of the streams of 30_encoding.md R90. -/
inductive Stream where
  /-- a word written to CMD -/
  | command
  /-- an RLE stream -/
  | rle
  /-- an LZ77 stream -/
  | lz
  /-- the start of a Huffman buffer -/
  | hufHeader
  /-- a Huffman buffer from byte 1028 -/
  | hufPayload
  deriving DecidableEq, Repr

/-- Why bytes are no instruction (30_encoding.md R105). -/
inductive DecodeError where
  /-- a command word that is none of the six -/
  | reservedCommand
  /-- an LZ77 marker byte 0x02..0xFF -/
  | reservedMarker
  /-- the bytes end inside the instruction -/
  | truncated
  deriving DecidableEq, Repr

/-- The command word, all 32 bits compared (30_encoding.md R92). -/
def decodeCommand (v : Word) : Except DecodeError Instr :=
  if v = 0x00000000 then .ok .rleEnc
  else if v = 0x00000001 then .ok .hufEnc
  else if v = 0x00000002 then .ok .lzEnc
  else if v = 0x00000004 then .ok .rleDec
  else if v = 0x00000005 then .ok .hufDec
  else if v = 0x00000006 then .ok .lzDec
  else .error .reservedCommand

/-- The length of an LZ77 token, told by its marker byte (30_encoding.md R101, R104). -/
def lzTokenLength (marker : Byte) : Option Nat :=
  if marker = 0x00 then some 2 else if marker = 0x01 then some 4 else none

/-- Length of the Huffman header in bytes (30_encoding.md R95). -/
def headerLength : Nat := 1028

/-- The instruction at the head of a stream, and the bytes after it. Total: bytes that are no instruction are rejected
by name. -/
def decode (st : Stream) (bytes : List Byte) : Except DecodeError (Instr × List Byte) :=
  match st with
  | .command =>
    match bytes with
    | b0 :: b1 :: b2 :: b3 :: rest =>
      match decodeCommand (be32 b0 b1 b2 b3) with
      | .ok i => .ok (i, rest)
      | .error e => .error e
    | _ => .error .truncated
  | .rle =>
    match bytes with
    | count :: value :: rest => .ok (.run count value, rest)
    | _ => .error .truncated
  | .lz =>
    match bytes with
    | [] => .error .truncated
    | marker :: operands =>
      if marker = 0x00 then
        match operands with
        | b :: rest => .ok (.lit b, rest)
        | _ => .error .truncated
      else if marker = 0x01 then
        match operands with
        | hi :: lo :: length :: rest => .ok (.matchRef (be16 hi lo) length, rest)
        | _ => .error .truncated
      else .error .reservedMarker
  | .hufHeader =>
    if bytes.length < headerLength then .error .truncated
    else
      match wordsOf (bytes.take headerLength) with
      | total :: freq => .ok (.hufHdr total (tableOf freq), bytes.drop headerLength)
      | [] => .error .truncated
  | .hufPayload =>
    match bytes with
    | [] => .error .truncated
    | b :: rest => .ok (.hufPay (b :: rest), [])

/-! ## Encoding -/

/-- The stream an instruction stands in. -/
def streamOf : Instr → Stream
  | .rleEnc => .command
  | .hufEnc => .command
  | .lzEnc => .command
  | .rleDec => .command
  | .hufDec => .command
  | .lzDec => .command
  | .run _ _ => .rle
  | .lit _ => .lz
  | .matchRef _ _ => .lz
  | .hufHdr _ _ => .hufHeader
  | .hufPay _ => .hufPayload

/-- The bytes of an instruction, byte 0 first; a command word is written most significant byte first
(30_encoding.md R92, R94, R95, R97, R99, R100). -/
def encode : Instr → List Byte
  | .rleEnc => wordBytes 0x00000000
  | .hufEnc => wordBytes 0x00000001
  | .lzEnc => wordBytes 0x00000002
  | .rleDec => wordBytes 0x00000004
  | .hufDec => wordBytes 0x00000005
  | .lzDec => wordBytes 0x00000006
  | .run count value => [count, value]
  | .lit b => [0x00, b]
  | .matchRef offset length => 0x01 :: (halfBytes offset ++ [length])
  | .hufHdr total freq => wordBytes total ++ freq.toList.flatMap wordBytes
  | .hufPay payload => payload

/-! ## Rows of the opcode table -/

/-- The `count` bytes of a number, most significant first: the table counts byte 0 as the most significant one
(30_encoding.md R110). -/
def bytesOfNat : Nat → Nat → List Byte
  | 0, _ => []
  | count + 1, w => BitVec.ofNat 8 (w >>> (8 * count)) :: bytesOfNat count w

/-- The stream a row's word stands in, told by the row's width and marker. Two widths are shared: of 16 bits a word
whose first byte is the marker 0x00 is read as LIT and any other as RUN; of 32 bits a word whose first byte is the
marker 0x01 is read as MATCH and any other as a command (notes/assumptions/10.md). -/
def tableStream (nbits w : Nat) : Option Stream :=
  if nbits = 16 then some (if w / 2 ^ 8 % 256 = 0 then .lz else .rle)
  else if nbits = 32 then some (if w / 2 ^ 24 % 256 = 1 then .lz else .command)
  else if nbits = 8 * headerLength then some .hufHeader
  else if nbits % 8 = 0 ∧ nbits ≠ 0 then some .hufPayload
  else none

/-- The instruction the decoder reads from a row's word. -/
def decodeTableWord (nbits w : Nat) : Option Instr :=
  match tableStream nbits w with
  | none => none
  | some st =>
    match decode st (bytesOfNat (nbits / 8) w) with
    | .ok (i, _) => some i
    | .error _ => none

end Sys2Proof
end

