-- ==== Sys2Proof/Machine/State.lean ====
section
/-! DEFINITION. The state of ZCC as plain data, what can stop a step, and the state after reset (10_state.md). -/

namespace Sys2Proof.Machine

/-- STATUS.STATE (10_state.md R24). -/
inductive OpState where
  /-- no operation since reset -/
  | idle
  /-- an operation is executing -/
  | busy
  /-- the last operation completed -/
  | done
  /-- the last operation raised -/
  | error
  deriving DecidableEq, Repr

/-- STATUS.ERR (10_state.md R24, 60_exceptions.md R240). -/
inductive ErrKind where
  /-- NONE -/
  | noError
  /-- EmptySequence -/
  | emptySequence
  /-- InvalidInput -/
  | invalidInput
  /-- CapacityOverflow -/
  | capacityOverflow
  deriving DecidableEq, Repr

/-- The phases of the sequencer (10_state.md R23). -/
inductive Phase where
  /-- P_ENTRY, every operation -/
  | pEntry
  /-- RE_SCAN, RLE.ENC -/
  | reScan
  /-- RE_FINAL, RLE.ENC -/
  | reFinal
  /-- RD_CHECK, RLE.DEC -/
  | rdCheck
  /-- RD_PAIR, RLE.DEC: a RUN token is fetched at ip -/
  | rdPair
  /-- RD_REP, RLE.DEC -/
  | rdRep
  /-- HE_FREQ, HUF.ENC -/
  | heFreq
  /-- HE_TREE, HUF.ENC -/
  | heTree
  /-- HE_HDR, HUF.ENC -/
  | heHdr
  /-- HE_CODE, HUF.ENC -/
  | heCode
  /-- HE_PACK, HUF.ENC -/
  | hePack
  /-- HE_FLUSH, HUF.ENC -/
  | heFlush
  /-- HD_HDR, HUF.DEC: the header is fetched at index 0 -/
  | hdHdr
  /-- HD_TREE, HUF.DEC -/
  | hdTree
  /-- HD_WALK, HUF.DEC: the payload is fetched from index 1028 -/
  | hdWalk
  /-- LE_SEARCH, LZ.ENC -/
  | leSearch
  /-- LE_EMIT, LZ.ENC -/
  | leEmit
  /-- LD_TOKEN, LZ.DEC: a LIT or MATCH token is fetched at ip -/
  | ldToken
  /-- LD_COPY, LZ.DEC -/
  | ldCopy
  deriving DecidableEq, Repr

/-- An entry of NODE (10_state.md R31). A child is a node number 0..510, or NONE = 511. -/
structure Node where
  w : Word
  left : BitVec 9
  right : BitVec 9
  deriving DecidableEq, Repr

/-- The tree table NODE[0..510] (10_state.md R31). -/
abbrev NodeTable := Vector Node 511

/-- A move of the host, or of the reset input, in the order issued (20_memory.md R60 to R66, 30_encoding.md R109,
70_reset_and_hazards.md R270). -/
inductive HostMove where
  /-- write a whole host register -/
  | writeReg (reg : Nat) (v : Word)
  /-- read a whole host register -/
  | readReg (reg : Nat)
  /-- write one byte of IN -/
  | writeIn (index : Nat) (b : Byte)
  /-- read one byte of IN -/
  | readIn (index : Nat)
  /-- write one byte of OUT (ignored, R64) -/
  | writeOut (index : Nat) (b : Byte)
  /-- read one byte of OUT -/
  | readOut (index : Nat)
  /-- read STATUS until STATE is not BUSY (R109); the sequencer has the turns until then -/
  | wait
  /-- the host does nothing for one turn, in which the sequencer takes one pseudocode step (notes/assumptions/8.md) -/
  | pass
  /-- the reset input is asserted (R270) -/
  | reset
  deriving DecidableEq, Repr

/-- What a host read was answered. -/
inductive Reply where
  /-- the value of a host register -/
  | word (v : Word)
  /-- a byte of IN or OUT -/
  | byte (b : Byte)
  deriving DecidableEq, Repr

/-- A byte memory: pairs (index, byte) with strictly rising indices. A cell that is not listed holds no value: nothing
has written it since reset (10_state.md R42, 20_memory.md R62; notes/assumptions/5.md). -/
abbrev Memory := List Host.Cell

/-- Why a step can stop. None of these is a status of ZCC. -/
inductive Fault where
  /-- Raised by a sequencer read of a byte of IN that the host has not written since reset: the operation has no defined
  result (20_memory.md R62, 93_implementation_defined.md U11). Safe. -/
  | inNeverWritten (index : Nat)
  /-- Raised by a sequencer read at or beyond IN_LEN, which R62 calls illegal; no run reaches it. Safe
  (notes/assumptions/14.md). -/
  | inBeyondLength (index : Nat)
  /-- Raised by a read of a cell of WIN that nothing has written; no run reaches it (45_lz77_decode.md R226). Safe
  (notes/assumptions/14.md). -/
  | winNeverWritten (index : Nat)
  /-- Raised by a host read of a committed byte of OUT that nothing has written; no run reaches it. Safe
  (notes/assumptions/14.md). -/
  | outNeverWritten (index : Nat)
  /-- Raised by a step of an operation in a phase of another operation; no run reaches it. Safe
  (notes/assumptions/14.md). -/
  | foreignPhase
  /-- Raised by a step while BUSY with ALG = 3, which no START latches. Safe (notes/assumptions/14.md). -/
  | reservedAlgorithm
  /-- Raised by building a tree from a table with no entry, which rules R161 and R182 exclude. Safe
  (notes/assumptions/14.md). -/
  | emptyForest
  /-- Raised by a tree walk that stands at NONE, which is no entry of NODE; no run reaches it. Safe
  (notes/assumptions/14.md). -/
  | nodeOutOfTable
  deriving DecidableEq, Repr

/-- Why a step can be refused. -/
inductive Refusal where
  /-- Raised by an arm of exec that has no meaning yet; no arm is left so. Safe. -/
  | notModelled (mnemonic : String)
  deriving DecidableEq, Repr

/-- The state of ZCC: every piece of state 10_state.md names, under the spec's names, and four fields of the model's own
(INVENTORY.md). -/
structure State where
  /-- the parameters of the instance (00_scope.md R7; the model's own field) -/
  cfg : Config
  /-- STATUS.STATE (R24) -/
  STATE : OpState
  /-- STATUS.ERR (R24) -/
  ERR : ErrKind
  /-- host register 2 (R25) -/
  IN_LEN : Word
  /-- host register 3 (R26) -/
  OUT_LEN : Word
  /-- latch of CMD[1:0] (R27) -/
  ALG : BitVec 2
  /-- latch of CMD[2] (R27) -/
  DIR : BitVec 1
  /-- the coarse half of the program counter (R23) -/
  phase : Phase
  /-- index in IN of the next byte to consume (R28) -/
  ip : Word
  /-- number of bytes emitted so far (R28) -/
  op : Word
  /-- RLE: the current byte value (R29) -/
  cur : Byte
  /-- RLE: the run counter (R29); LZ.DEC: bytes of the MATCH still to copy (R37) -/
  cnt : Byte
  /-- the FrequencyTable (R30) -/
  FREQ : FreqTable
  /-- the HuffmanTree (R31) -/
  NODE : NodeTable
  /-- number of the root (R31) -/
  ROOT : BitVec 9
  /-- number of leaves with non-zero frequency (R31) -/
  K : BitVec 9
  /-- the nodes not yet combined, a set as a bit vector (R32) -/
  ACTIVE : BitVec 511
  /-- the codes, root-most branch first (R33) -/
  CODE : Vector (List Bool) 256
  /-- the code lengths (R33) -/
  LEN : Vector Byte 256
  /-- bit-packer: the partial output byte (R34) -/
  acc : Byte
  /-- bit-packer: the number of bits in acc (R34) -/
  nbits : BitVec 3
  /-- bit-unpacker: the recorded output length (R35) -/
  N : Word
  /-- bit-unpacker: the current position of the walk (R35) -/
  node : BitVec 9
  /-- bit-unpacker: the index of the next payload bit (R35) -/
  bitpos : BitVec 35
  /-- bit-unpacker: the running sum of the frequencies (R35) -/
  fsum : BitVec 40
  /-- LZ.ENC: candidate offset (R36) -/
  o : BitVec 16
  /-- LZ.ENC: length of the candidate match (R36) -/
  k : Byte
  /-- LZ.ENC: longest match found (R36) -/
  best : Byte
  /-- LZ.ENC: offset of that match (R36) -/
  boff : BitVec 16
  /-- LZ.DEC: the ring buffer WIN[0..W-1] (R37) -/
  WIN : Memory
  /-- LZ.DEC: the write pointer (R37) -/
  wp : BitVec 16
  /-- LZ.DEC: offset of the current MATCH (R37) -/
  off : BitVec 16
  /-- LZ.DEC: length of the current MATCH (R37) -/
  len : Byte
  /-- the input buffer memory (R38) -/
  IN : Memory
  /-- the output buffer memory, hidden bytes included (R38, R39) -/
  OUT : Memory
  /-- the moves of the host still to come, oldest first (the model's own field) -/
  host : List HostMove
  /-- what the host's reads were answered, newest first (the model's own field) -/
  replies : List Reply
  /-- how many free bytes have been drawn (the model's own field) -/
  freeCtr : Nat
  deriving DecidableEq, Repr

/-- The machine right after reset (10_state.md R42, 70_reset_and_hazards.md R270): STATE, ERR, IN_LEN and OUT_LEN as the
rule gives them, no memory cell with a value, and the registers whose value the rule calls unspecified at zero
(DESIGN CHOICE, notes/assumptions/3.md and 4.md). -/
def State.reset : State where
  cfg := Config.standard
  STATE := .idle
  ERR := .noError
  IN_LEN := 0
  OUT_LEN := 0
  ALG := 0
  DIR := 0
  phase := .pEntry
  ip := 0
  op := 0
  cur := 0
  cnt := 0
  FREQ := Vector.replicate 256 0
  NODE := Vector.replicate 511 { w := 0, left := 0, right := 0 }
  ROOT := 0
  K := 0
  ACTIVE := 0
  CODE := Vector.replicate 256 []
  LEN := Vector.replicate 256 0
  acc := 0
  nbits := 0
  N := 0
  node := 0
  bitpos := 0
  fsum := 0
  o := 0
  k := 0
  best := 0
  boff := 0
  WIN := []
  wp := 0
  off := 0
  len := 0
  IN := []
  OUT := []
  host := []
  replies := []
  freeCtr := 0

end Sys2Proof.Machine
end

