-- ==== Sys2Proof/Machine/Ops.lean ====
section
/-! DEFINITION. The operations every engine shares: byte memories, `emit`, `complete`, `raise` (taking an error), START,
the entry checks, and the control flow of the pseudocode (40_command.md). -/

namespace Sys2Proof.Machine

/-! ## Byte memories -/

/-- The byte of a cell, or none where nothing has written it. -/
def Memory.read : Memory → Nat → Option Byte
  | [], _ => none
  | (a, b) :: m, i => if a = i then some b else Memory.read m i

/-- Writing one byte; the list stays in rising order of index. -/
def Memory.write : Memory → Nat → Byte → Memory
  | [], i, v => [(i, v)]
  | (a, b) :: m, i, v =>
    if i < a then (i, v) :: (a, b) :: m
    else if i = a then (i, v) :: m
    else (a, b) :: Memory.write m i v

/-- The canonical form: indices strictly rising. -/
abbrev Memory.wf (m : Memory) : Prop := m.Pairwise fun x y => x.1 < y.1

/-- Every listed index lies below a capacity. -/
abbrev Memory.below (m : Memory) (cap : Nat) : Prop := ∀ c ∈ m, c.1 < cap

/-! ## Control flow of the pseudocode -/

/-- Where a piece of pseudocode leaves the sequencer: it goes on, the operation has ended by `complete` or `raise`
(40_command.md R127: "no later line of its pseudocode executes"), or the model stops with a fault. -/
inductive Flow where
  | go (s : State)
  | ended (s : State)
  | stop (f : Fault)
  deriving DecidableEq, Repr

/-- One piece of pseudocode after another: the second runs only if the first goes on. -/
def Flow.bind : Flow → (State → Flow) → Flow
  | .go s, f => f s
  | .ended s, _ => .ended s
  | .stop e, _ => .stop e

/-- Going on with what a read gave, or stopping with its fault. -/
def Flow.onRead {α : Type} : Except Fault α → (α → Flow) → Flow
  | .ok v, f => f v
  | .error e, _ => .stop e

/-- The outcome of a machine step that ran a piece of pseudocode. -/
def Flow.outcome : Flow → Host.Outcome State Fault Refusal
  | .go s => .next s
  | .ended s => .next s
  | .stop e => .fault e

/-- A loop: repeat a step while the condition holds, at most the given number of times. -/
def iterate (stepOnce : State → Flow) (again : State → Bool) : Nat → State → Flow
  | 0, s => .go s
  | fuel + 1, s => if again s then (stepOnce s).bind (iterate stepOnce again fuel) else .go s

/-- An idle sequencer does nothing (60_exceptions.md R256); a busy one runs the pseudocode. -/
def whileBusy (f : State → Flow) (s : State) : Host.Outcome State Fault Refusal :=
  if s.STATE = .busy then (f s).outcome else .next s

/-- A bound on the pseudocode steps of any operation: a token of 2 input bytes takes at most 256, an input byte of any
other loop at most 8. An operation cut short by the bound would stay BUSY and resumable; none is
(notes/assumptions/9.md). -/
def stepBound (s : State) : Nat := 300 * (s.IN_LEN.toNat + 4)

/-- An operation run from its present phase to its end (40_command.md R128, R130). -/
def runOperation (stepOnce : State → Flow) (s : State) : Host.Outcome State Fault Refusal :=
  whileBusy (fun s => iterate stepOnce (fun _ => true) (stepBound s) s) s

/-! ## Errors, completion, output -/

/-- `raise E` (40_command.md R127, 60_exceptions.md R248): the operation ends in STATE = ERROR with its kind recorded.
Nothing is saved, nothing vectors, OUT_LEN stays as it is (0). -/
def raise (e : ErrKind) (s : State) : Flow := .ended { s with ERR := e, STATE := .error }

/-- `complete` (40_command.md R126): the commit. -/
def complete (s : State) : Flow := .ended { s with OUT_LEN := s.op, STATE := .done }

/-- The write of `emit`: OUT[op] <- v, then op <- op + 1. -/
def pushOut (v : Byte) (s : State) : State :=
  { s with OUT := s.OUT.write s.op.toNat v, op := s.op + 1 }

/-- `emit(v)` (40_command.md R125). -/
def emit (v : Byte) (s : State) : Flow :=
  if s.op.toNat = s.cfg.OUT_CAP then raise .capacityOverflow s else .go (pushOut v s)

/-- Several `emit`s in order; the first that raises ends the operation with the earlier bytes already in OUT
(10_state.md R39). -/
def emitAll : List Byte → State → Flow
  | [], s => .go s
  | v :: vs, s => (emit v s).bind (emitAll vs)

/-! ## Starting an operation -/

/-- START, one indivisible step (40_command.md R121). -/
def start (v : Word) (s : State) : State :=
  { s with
    ALG := v.extractLsb' 0 2
    DIR := v.extractLsb' 2 1
    STATE := .busy
    ERR := .noError
    OUT_LEN := 0
    ip := 0
    op := 0
    phase := .pEntry }

/-- Whether a word written to CMD is accepted (10_state.md R22). -/
def accepts (s : State) (v : Word) : Bool :=
  decide (s.STATE ≠ .busy) && decide (v.extractLsb' 0 2 ≠ 3) && decide (v.extractLsb' 3 29 = 0)

/-- A host write to CMD (10_state.md R22): accepted it is START, otherwise it changes no state
(notes/assumptions/7.md). -/
def writeCmd (v : Word) (s : State) : State := if accepts s v then start v s else s

/-- The operation that (ALG, DIR) selects (40_command.md R122, 30_encoding.md R92); ALG = 3 selects none. -/
def selected (s : State) : Option Instr :=
  match s.ALG.toNat, s.DIR.toNat with
  | 0, 0 => some .rleEnc
  | 1, 0 => some .hufEnc
  | 2, 0 => some .lzEnc
  | 0, 1 => some .rleDec
  | 1, 1 => some .hufDec
  | 2, 1 => some .lzDec
  | _, _ => none

/-- The entry checks, phase P_ENTRY, and on passing them the first phase of the operation (40_command.md R123). -/
def entryChecks (first : State → Flow) (s : State) : Flow :=
  if s.IN_LEN.toNat = 0 then raise .emptySequence s
  else if s.IN_LEN.toNat > s.cfg.IN_CAP then raise .capacityOverflow s
  else first s

end Sys2Proof.Machine
end

