-- ==== Sys2Proof/Machine/Operands.lean ====
section
/-! DEFINITION. The operands of the engines: single bytes of IN, the tokens the decoders fetch at ip, the Huffman header
and payload, and the payload's bits (20_memory.md R62, R67; 30_encoding.md R104, R107). -/

namespace Sys2Proof.Machine

/-- IN[i] read by the sequencer (20_memory.md R62): legal below IN_LEN, and a byte the host never wrote has no value. -/
def readIn (s : State) (i : Nat) : Except Fault Byte :=
  if i < s.IN_LEN.toNat then
    match s.IN.read i with
    | some b => .ok b
    | none => .error (.inNeverWritten i)
  else .error (.inBeyondLength i)

/-- `count` bytes of IN from index i, one at a time in rising order. -/
def readIns (s : State) (i : Nat) : Nat → Except Fault (List Byte)
  | 0 => .ok []
  | count + 1 =>
    match readIn s i with
    | .error e => .error e
    | .ok b =>
      match readIns s (i + 1) count with
      | .error e => .error e
      | .ok bs => .ok (b :: bs)

/-- What a fetch gives: an instruction, an error the decoder raises in place of one, or a fault. -/
inductive Fetched where
  | instr (i : Instr)
  | raises (e : ErrKind)
  | fails (f : Fault)
  deriving DecidableEq, Repr

/-- The instruction that bytes decode to; bytes that are no instruction raise InvalidInput (30_encoding.md R105). -/
def fetchedFrom (st : Stream) : Except Fault (List Byte) → Fetched
  | .error f => .fails f
  | .ok bytes =>
    match decode st bytes with
    | .ok (i, _) => .instr i
    | .error _ => .raises .invalidInput

/-- The RUN token at ip, both bytes read (41_rle.md R145, phase RD_PAIR). -/
def fetchRun (s : State) : Fetched := fetchedFrom .rle (readIns s s.ip.toNat 2)

/-- The LIT or MATCH token at ip: the marker is read first, then the length is checked, then the operands are read
(45_lz77_decode.md R221). -/
def fetchLz (s : State) : Fetched :=
  match readIn s s.ip.toNat with
  | .error f => .fails f
  | .ok marker =>
    match lzTokenLength marker with
    | none => .raises .invalidInput
    | some length =>
      if s.ip.toNat + length > s.IN_LEN.toNat then .raises .invalidInput
      else fetchedFrom .lz (readIns s s.ip.toNat length)

/-- The Huffman header, its length checked before any byte is read (43_huffman_decode.md R181). -/
def fetchHeader (s : State) : Fetched :=
  if s.IN_LEN.toNat < headerLength then .raises .invalidInput
  else fetchedFrom .hufHeader (readIns s 0 headerLength)

/-- The bytes of the Huffman payload, IN[1028..n-1], or the fault of the first that has no value. -/
def payloadBytes (s : State) : Except Fault (List Byte) :=
  readIns s headerLength (s.IN_LEN.toNat - headerLength)

/-- Bit t of the payload is bit 7 - (t mod 8) of payload byte t div 8 (20_memory.md R67, 43_huffman_decode.md R185). -/
def payloadBit (s : State) (t : Nat) : Except Fault Bool :=
  match readIn s (headerLength + t / 8) with
  | .error f => .error f
  | .ok b => .ok (b.getMsbD (t % 8))

/-- Running what was fetched: the instruction, the error in its place, or the fault. -/
def Fetched.run (begins : Instr → State → Flow) (s : State) : Fetched → Flow
  | .instr i => begins i s
  | .raises e => raise e s
  | .fails f => .stop f

end Sys2Proof.Machine
end

