-- ==== Sys2Proof/Machine/Flags.lean ====
section
/-! DEFINITION. The status ZCC leaves behind: the STATUS word (10_state.md R24). There are no condition codes. -/

namespace Sys2Proof.Machine

/-- The two bits of STATUS.STATE (R24). -/
def OpState.code : OpState → BitVec 2
  | .idle => 0
  | .busy => 1
  | .done => 2
  | .error => 3

/-- The two bits of STATUS.ERR (R24, 60_exceptions.md R240). -/
def ErrKind.code : ErrKind → BitVec 2
  | .noError => 0
  | .emptySequence => 1
  | .invalidInput => 2
  | .capacityOverflow => 3

/-- The STATUS register as the host reads it: STATE in bits 1:0, ERR in bits 3:2, bits 31:4 zero (R24). -/
def statusWord (s : State) : Word := 0#28 ++ s.ERR.code ++ s.STATE.code

end Sys2Proof.Machine
end

