-- ==== Sys2Proof/Machine/Huffman.lean ====
section
/-! DEFINITION. The Huffman tree both directions build from FREQ, with the tie-break both share
(42_huffman_encode.md R162 to R164, 43_huffman_decode.md R184, 70_reset_and_hazards.md R280). -/

namespace Sys2Proof.Machine

/-- NONE, the child that is not there (10_state.md R31). -/
def noChild : BitVec 9 := 511

/-- `is_leaf(x)` is x < 256 (10_state.md R31). -/
def isLeaf (x : Nat) : Bool := decide (x < 256)

/-- The tables the construction writes: NODE and the set ACTIVE (10_state.md R31, R32). -/
structure Forest where
  NODE : NodeTable
  ACTIVE : BitVec 511
  deriving DecidableEq, Repr

/-- The weight of a node. -/
def Forest.weight (f : Forest) (x : Nat) : Nat :=
  match f.NODE[x]? with
  | some nd => nd.w.toNat
  | none => 0

/-- x ∈ ACTIVE. -/
def Forest.active (f : Forest) (x : Nat) : Bool := f.ACTIVE.getLsbD x

/-- ACTIVE ∪ {x}. -/
def Forest.insert (f : Forest) (x : Nat) : Forest := { f with ACTIVE := f.ACTIVE ||| BitVec.twoPow 511 x }

/-- ACTIVE \ {x}. -/
def Forest.remove (f : Forest) (x : Nat) : Forest := { f with ACTIVE := f.ACTIVE &&& ~~~ BitVec.twoPow 511 x }

/-- NODE[x] <- nd. -/
def Forest.setNode (f : Forest) (x : Nat) (nd : Node) : Forest := { f with NODE := f.NODE.setIfInBounds x nd }

/-- The order of the choice: the pair (weight, node number), lexicographically (R163). -/
def Forest.before (f : Forest) (x y : Nat) : Bool :=
  decide (f.weight x < f.weight y ∨ (f.weight x = f.weight y ∧ x < y))

/-- The better of the choice so far and one more node. -/
def Forest.better (f : Forest) (choice : Option Nat) (x : Nat) : Option Nat :=
  if f.active x then
    match choice with
    | none => some x
    | some y => if f.before x y then some x else some y
  else choice

/-- The x ∈ ACTIVE with the smallest pair (NODE[x].w, x) (R163). -/
def Forest.lightest (f : Forest) : Option Nat := (List.range 511).foldl f.better none

/-- One leaf: a byte value that occurs (R162). Only the weight of a leaf is written. -/
def Forest.addLeaf (freq : FreqTable) (f : Forest) (x : Nat) : Forest :=
  match freq[x]?, f.NODE[x]? with
  | some w, some nd => if w.toNat > 0 then (f.setNode x { nd with w := w }).insert x else f
  | _, _ => f

/-- The leaves (R162); ACTIVE starts empty. -/
def leaves (freq : FreqTable) (nodes : NodeTable) : Forest :=
  (List.range 256).foldl (Forest.addLeaf freq) { NODE := nodes, ACTIVE := 0 }

/-- K, the number of byte values with non-zero frequency (R162). -/
def leafCount (freq : FreqTable) : Nat := freq.toList.countP fun w => decide (w.toNat > 0)

/-- One merge: the two lightest nodes under the new node t, the first of them on the left (R163). -/
def Forest.merge (f : Forest) (t : Nat) : Forest :=
  match f.lightest with
  | none => f
  | some a =>
    match (f.remove a).lightest with
    | none => f
    | some b =>
      (((f.remove a).remove b).setNode t
        { w := BitVec.ofNat 32 (f.weight a + f.weight b), left := BitVec.ofNat 9 a, right := BitVec.ofNat 9 b }).insert t

/-- The merges that make the nodes t, t + 1, ... (R163). -/
def Forest.merges : Nat → Nat → Forest → Forest
  | 0, _, f => f
  | count + 1, t, f => Forest.merges count (t + 1) (f.merge t)

/-- The single-symbol tree: the one leaf on the left of the root, nothing on its right (R164). -/
def Forest.single (f : Forest) : Forest :=
  match f.lightest with
  | none => f
  | some a => f.setNode 256 { w := BitVec.ofNat 32 (f.weight a), left := BitVec.ofNat 9 a, right := noChild }

/-- The tree of a frequency table over whatever NODE held before: with K ≥ 2 the K - 1 merges, with K = 1 the
single-symbol tree (R162 to R164). -/
def grow (freq : FreqTable) (nodes : NodeTable) : Forest :=
  if leafCount freq ≥ 2 then (leaves freq nodes).merges (leafCount freq - 1) 256
  else (leaves freq nodes).single

/-- The number of the root: 256 + K - 2 with K ≥ 2 (R163), 256 with K = 1 (R164). -/
def rootOf (freq : FreqTable) : Nat := 256 + (leafCount freq - 2)

/-- The tree built from FREQ, in NODE, ACTIVE, K and ROOT. -/
def plantTree (s : State) : State :=
  { s with
    NODE := (grow s.FREQ s.NODE).NODE
    ACTIVE := (grow s.FREQ s.NODE).ACTIVE
    K := BitVec.ofNat 9 (leafCount s.FREQ)
    ROOT := BitVec.ofNat 9 (rootOf s.FREQ) }

/-- Building the tree; K ≥ 1 by R161 and R182. -/
def buildTree (s : State) : Flow :=
  if leafCount s.FREQ = 0 then .stop .emptyForest else .go (plantTree s)

end Sys2Proof.Machine
end

