-- ==== Sys2Proof/Machine/HufDec.lean ====
section
/-! DEFINITION. The Huffman decoder: header, tree, tree walk (43_huffman_decode.md). -/

namespace Sys2Proof.Machine

/-! ## HUFHDR (R181 to R183) -/

/-- The sum of the frequencies, at most 256 · (2^32 - 1) (10_state.md R35). -/
def freqSum (freq : FreqTable) : Nat := (freq.toList.map BitVec.toNat).sum

/-- The header's fields in the registers (R181). -/
def loadHeader (total : Word) (freq : FreqTable) (s : State) : State :=
  { s with N := total, FREQ := freq, fsum := BitVec.ofNat 40 (freqSum freq), ip := 1028 }

/-- The checks on the loaded header (R182, R183). -/
def checkHeader (s : State) : Flow :=
  if s.fsum.toNat = 0 then raise .invalidInput s
  else if s.fsum.toNat ≠ s.N.toNat then raise .invalidInput s
  else .go { s with phase := .hdTree }

/-- The fetched header loaded and checked. -/
def beginHeader (total : Word) (freq : FreqTable) (s : State) : Flow := checkHeader (loadHeader total freq s)

/-- HUFHDR: the header of a Huffman buffer as HD_HDR reads it. -/
def execHufHdr (total : Word) (freq : FreqTable) (s : State) : Host.Outcome State Fault Refusal :=
  whileBusy (beginHeader total freq) s

/-- The header begun. -/
def beginHufHeader : Instr → State → Flow
  | .hufHdr total freq, s => beginHeader total freq s
  | _, _ => .stop .foreignPhase

/-! ## HD_TREE (R184) -/

/-- The lines of HD_WALK before its loop (R185). -/
def enterWalk (s : State) : State := { s with phase := .hdWalk, node := s.ROOT, bitpos := 0 }

/-- HD_TREE: the capacity check comes before the tree. -/
def treeStep (s : State) : Flow :=
  if s.N.toNat > s.cfg.OUT_CAP then raise .capacityOverflow s
  else (buildTree s).bind fun s => .go (enterWalk s)

/-! ## HD_WALK and HUFPAY (R185, R186) -/

/-- bitpos <- bitpos + 1, and ip after it. -/
def takeBit (s : State) : State :=
  { s with bitpos := s.bitpos + 1, ip := BitVec.ofNat 32 (headerLength + (s.bitpos.toNat + 1) / 8) }

/-- The walk arrives at node x: at NONE it raises, at a leaf it emits and restarts at the root. -/
def arrive (x : BitVec 9) (s : State) : Flow :=
  if x = noChild then raise .invalidInput s
  else if isLeaf x.toNat then
    (emit (x.setWidth 8) { s with node := x }).bind fun s => .go { s with node := s.ROOT }
  else .go { s with node := x }

/-- One payload bit: left on 0, right on 1. -/
def walkBit (c : Bool) (s : State) : Flow :=
  match s.NODE[s.node.toNat]? with
  | none => .stop .nodeOutOfTable
  | some nd => arrive (if c then nd.right else nd.left) (takeBit s)

/-- One turn of the loop of HD_WALK, or the way out of it. The loop ends at op = N, so no bit after the last code is
looked at (R186). -/
def walkStep (s : State) : Flow :=
  if s.op.toNat < s.N.toNat then
    if s.bitpos.toNat = 8 * (s.IN_LEN.toNat - headerLength) then raise .invalidInput s
    else Flow.onRead (payloadBit s s.bitpos.toNat) fun c => walkBit c s
  else complete s

/-- The loop of HD_WALK over the bits of a payload: they run out, or N symbols are decoded. -/
def walkBits : List Bool → State → Flow
  | [], s => if s.op.toNat < s.N.toNat then raise .invalidInput s else complete s
  | c :: cs, s => if s.op.toNat < s.N.toNat then (walkBit c s).bind (walkBits cs) else complete s

/-- HUFPAY: the payload of a Huffman buffer as HD_WALK reads it, from its first bit (R185). -/
def execHufPay (payload : List Byte) (s : State) : Host.Outcome State Fault Refusal :=
  whileBusy (fun s => walkBits (payload.flatMap byteBits) (enterWalk s)) s

/-! ## HUF.DEC (R180) -/

/-- One pseudocode step of HUF.DEC. -/
def hufDecStep (s : State) : Flow :=
  match s.phase with
  | .pEntry => entryChecks (fun s => .go { s with phase := .hdHdr }) s
  | .hdHdr => (fetchHeader s).run beginHufHeader s
  | .hdTree => treeStep s
  | .hdWalk => walkStep s
  | _ => .stop .foreignPhase

/-- HUF.DEC from its present phase to its end (R180). -/
def execHufDec (s : State) : Host.Outcome State Fault Refusal := runOperation hufDecStep s

end Sys2Proof.Machine
end

