-- ==== Sys2Proof/Machine/HufEnc.lean ====
section
/-! DEFINITION. The Huffman encoder: frequency analyzer, header, code generator, bit-packer (42_huffman_encode.md). -/

namespace Sys2Proof.Machine

/-! ## HE_FREQ (R161) -/

/-- The lines of HE_FREQ before its loop. -/
def enterFreq (s : State) : Flow := .go { s with phase := .heFreq, FREQ := Vector.replicate 256 0, ip := 0 }

/-- FREQ[b] <- FREQ[b] + 1. -/
def countByte (freq : FreqTable) (b : Byte) : FreqTable :=
  match freq[b.toNat]? with
  | some w => freq.setIfInBounds b.toNat (w + 1)
  | none => freq

/-- One turn of the loop of HE_FREQ, or the way out of it. -/
def freqStep (s : State) : Flow :=
  if s.ip.toNat < s.IN_LEN.toNat then
    Flow.onRead (readIn s s.ip.toNat) fun b => .go { s with FREQ := countByte s.FREQ b, ip := s.ip + 1 }
  else .go { s with phase := .heTree }

/-! ## HE_HDR (R165) -/

/-- The 1028 bytes of the header: N, then F[0..255], 32-bit big-endian. -/
def headerBytes (total : Word) (freq : FreqTable) : List Byte := encode (.hufHdr total freq)

/-- HE_HDR: N is the input length. -/
def headerStep (s : State) : Flow :=
  (emitAll (headerBytes s.IN_LEN s.FREQ) s).bind fun s => .go { s with phase := .heCode }

/-! ## HE_CODE (R166) -/

/-- The codes and their lengths (10_state.md R33). -/
structure CodeBook where
  CODE : Vector (List Bool) 256
  LEN : Vector Byte 256
  deriving DecidableEq, Repr

/-- The code of one leaf. -/
def CodeBook.set (book : CodeBook) (x : Nat) (path : List Bool) : CodeBook :=
  { CODE := book.CODE.setIfInBounds x path, LEN := book.LEN.setIfInBounds x (BitVec.ofNat 8 path.length) }

/-- `assign(x, p)` (R166): left is 0, right is 1. A path has at most 255 branches (10_state.md R33), which bounds the
depth. -/
def assign (nodes : NodeTable) : Nat → Nat → List Bool → CodeBook → CodeBook
  | 0, _, _, book => book
  | depth + 1, x, path, book =>
    if x = noChild.toNat then book
    else if isLeaf x then book.set x path
    else
      match nodes[x]? with
      | none => book
      | some nd =>
        assign nodes depth nd.right.toNat (path ++ [true])
          (assign nodes depth nd.left.toNat (path ++ [false]) book)

/-- The codes of the tree at a root; every length is zeroed first, a code not assigned keeps what it held. -/
def codesOf (nodes : NodeTable) (root : Nat) (codes : Vector (List Bool) 256) : CodeBook :=
  assign nodes 257 root [] { CODE := codes, LEN := Vector.replicate 256 0 }

/-- HE_CODE, and the lines of HE_PACK before its loop (R167). -/
def codeStep (s : State) : Flow :=
  .go { s with
    CODE := (codesOf s.NODE s.ROOT.toNat s.CODE).CODE
    LEN := (codesOf s.NODE s.ROOT.toNat s.CODE).LEN
    phase := .hePack
    ip := 0
    acc := 0
    nbits := 0 }

/-! ## HE_PACK and HE_FLUSH (R167, R168) -/

/-- The bits of a byte value's code: the first LEN of CODE. -/
def codeBits (codes : Vector (List Bool) 256) (lens : Vector Byte 256) (b : Byte) : List Bool :=
  match codes[b.toNat]?, lens[b.toNat]? with
  | some code, some n => code.take n.toNat
  | _, _ => []

/-- One bit into acc; the eighth completes a byte (R167). -/
def packBit (c : Bool) (s : State) : Flow :=
  let acc := s.acc <<< 1 ||| (BitVec.ofBool c).setWidth 8
  if s.nbits.toNat = 7 then (emit acc { s with acc := acc }).bind fun s => .go { s with acc := 0, nbits := 0 }
  else .go { s with acc := acc, nbits := s.nbits + 1 }

/-- The bits of one code, root-most branch first. -/
def packBits : List Bool → State → Flow
  | [], s => .go s
  | c :: cs, s => (packBit c s).bind (packBits cs)

/-- One turn of the loop of HE_PACK, or the way out of it. -/
def packStep (s : State) : Flow :=
  if s.ip.toNat < s.IN_LEN.toNat then
    Flow.onRead (readIn s s.ip.toNat) fun b =>
      (packBits (codeBits s.CODE s.LEN b) s).bind fun s => .go { s with ip := s.ip + 1 }
  else .go { s with phase := .heFlush }

/-- HE_FLUSH: the final partial byte is padded with zero bits (R168). -/
def flushStep (s : State) : Flow :=
  (if s.nbits.toNat > 0 then emit (s.acc <<< (8 - s.nbits.toNat)) s else .go s).bind complete

/-! ## HUF.ENC (R160) -/

/-- One pseudocode step of HUF.ENC. -/
def hufEncStep (s : State) : Flow :=
  match s.phase with
  | .pEntry => entryChecks enterFreq s
  | .heFreq => freqStep s
  | .heTree => (buildTree s).bind fun s => .go { s with phase := .heHdr }
  | .heHdr => headerStep s
  | .heCode => codeStep s
  | .hePack => packStep s
  | .heFlush => flushStep s
  | _ => .stop .foreignPhase

/-- HUF.ENC from its present phase to its end (R160). -/
def execHufEnc (s : State) : Host.Outcome State Fault Refusal := runOperation hufEncStep s

end Sys2Proof.Machine
end

