-- ==== Sys2Proof/Machine/LzDec.lean ====
section
/-! DEFINITION. The LZ77 decoder: ring-buffer manager and back-reference expander, with the LIT and MATCH tokens
(45_lz77_decode.md). -/

namespace Sys2Proof.Machine

/-! ## Ring-buffer manager (R225) -/

/-- The write of `append`: WIN[wp] <- v, then wp <- (wp + 1) mod W. -/
def pushWindow (v : Byte) (s : State) : State :=
  { s with WIN := s.WIN.write s.wp.toNat v, wp := BitVec.ofNat 16 ((s.wp.toNat + 1) % s.cfg.W) }

/-- `append(v)`: to OUT and to the Window; if `emit` raises, WIN is not written. -/
def append (v : Byte) (s : State) : Flow := (emit v s).bind fun s => .go (pushWindow v s)

/-! ## LIT (R222) -/

/-- The fetched LIT token. -/
def beginLit (b : Byte) (s : State) : Flow := (append b s).bind fun s => .go { s with ip := s.ip + 2 }

/-- LIT byte. -/
def execLit (b : Byte) (s : State) : Host.Outcome State Fault Refusal := whileBusy (beginLit b) s

/-! ## MATCH (R223, R224) -/

/-- The fetched MATCH token and its checks, and the first line of LD_COPY. -/
def beginMatch (offset : BitVec 16) (length : Byte) (s : State) : Flow :=
  let t := { s with off := offset, len := length }
  if offset.toNat = 0 ∨ offset.toNat > s.cfg.W then raise .invalidInput t
  else if length.toNat = 0 ∨ length.toNat > s.cfg.M then raise .invalidInput t
  else if offset.toNat > s.op.toNat then raise .invalidInput t
  else .go { t with cnt := length, phase := .ldCopy }

/-- (wp - off) mod W, the non-negative remainder: off ≤ W holds whenever a copy runs (R223, R224). -/
def copySource (s : State) : Nat := (s.wp.toNat + (s.cfg.W - s.off.toNat)) % s.cfg.W

/-- A MATCH token is done: on to the next token. -/
def endMatch (s : State) : State := { s with ip := s.ip + 4, phase := .ldToken }

/-- One turn of the loop of LD_COPY: the window is read before the byte is appended; the turn that leaves cnt at 0 ends
the token (R224, 70_reset_and_hazards.md R278). -/
def copyStep (s : State) : Flow :=
  if s.cnt.toNat > 0 then
    match s.WIN.read (copySource s) with
    | none => .stop (.winNeverWritten (copySource s))
    | some v =>
      (append v s).bind fun s =>
        if s.cnt.toNat - 1 = 0 then .go (endMatch { s with cnt := 0 }) else .go { s with cnt := s.cnt - 1 }
  else .go (endMatch s)

/-- MATCH offset, length: the checks and the whole copy. -/
def execMatch (offset : BitVec 16) (length : Byte) (s : State) : Host.Outcome State Fault Refusal :=
  whileBusy (fun s =>
    (beginMatch offset length s).bind (iterate copyStep (fun s => decide (s.phase = .ldCopy)) length.toNat)) s

/-! ## LZ.DEC (R220, R221) -/

/-- The lines of LD_TOKEN before its loop. -/
def enterTokens (s : State) : Flow := .go { s with ip := 0, wp := 0, phase := .ldToken }

/-- The token of an LZ77 stream begun. -/
def beginLzToken : Instr → State → Flow
  | .lit b, s => beginLit b s
  | .matchRef offset length, s => beginMatch offset length s
  | _, _ => .stop .foreignPhase

/-- LD_TOKEN: the next token, or the end of the stream. -/
def lzTokenStep (s : State) : Flow :=
  if s.ip.toNat < s.IN_LEN.toNat then (fetchLz s).run beginLzToken s else complete s

/-- One pseudocode step of LZ.DEC. -/
def lzDecStep (s : State) : Flow :=
  match s.phase with
  | .pEntry => entryChecks enterTokens s
  | .ldToken => lzTokenStep s
  | .ldCopy => copyStep s
  | _ => .stop .foreignPhase

/-- LZ.DEC from its present phase to its end (R220). -/
def execLzDec (s : State) : Host.Outcome State Fault Refusal := runOperation lzDecStep s

end Sys2Proof.Machine
end

