-- ==== Sys2Proof/Machine/LzEnc.lean ====
section
/-! DEFINITION. The LZ77 encoder: sliding-window matcher and back-reference encoder (44_lz77_encode.md). -/

namespace Sys2Proof.Machine

/-! ## LE_SEARCH (R202) -/

/-- Lmax = min(M, n - ip). -/
def lookahead (s : State) : Nat := min s.cfg.M (s.IN_LEN.toNat - s.ip.toNat)

/-- The inner loop: k grows from its start while k < lim and IN[ip - o + k] = IN[ip + k]. -/
def matchFrom (s : State) (o lim : Nat) : Nat → Nat → Except Fault Nat
  | 0, k => .ok k
  | fuel + 1, k =>
    if k < lim then
      match readIn s (s.ip.toNat - o + k) with
      | .error f => .error f
      | .ok a =>
        match readIn s (s.ip.toNat + k) with
        | .error f => .error f
        | .ok b => if a = b then matchFrom s o lim fuel (k + 1) else .ok k
    else .ok k

/-- k(o), the match at offset o, capped at Lmax and at o. -/
def matchAt (s : State) (o : Nat) : Except Fault Nat :=
  matchFrom s o (min (lookahead s) o) (min (lookahead s) o) 0

/-- One candidate offset: the strict comparison keeps the nearest on a tie. -/
def candidate (o k : Nat) (s : State) : State :=
  if k > s.best.toNat then
    { s with o := BitVec.ofNat 16 o, k := BitVec.ofNat 8 k, best := BitVec.ofNat 8 k, boff := BitVec.ofNat 16 o }
  else { s with o := BitVec.ofNat 16 o, k := BitVec.ofNat 8 k }

/-- The candidates in the order given. -/
def searchOver : List Nat → State → Flow
  | [], s => .go s
  | o :: os, s => Flow.onRead (matchAt s o) fun k => searchOver os (candidate o k s)

/-- The offsets 1..min(W, ip), nearest first (R202, 70_reset_and_hazards.md R282). -/
def offsets (s : State) : List Nat := List.range' 1 (min s.cfg.W s.ip.toNat)

/-- LE_SEARCH at the position ip. -/
def search (s : State) : Flow := searchOver (offsets s) { s with best := 0, boff := 0 }

/-- The head of the loop (R201): search while input is left, otherwise complete. -/
def searchStep (s : State) : Flow :=
  if s.ip.toNat < s.IN_LEN.toNat then (search s).bind fun s => .go { s with phase := .leEmit } else complete s

/-! ## LE_EMIT (R204) -/

/-- One token, and ip past what it covers. -/
def tokenStep (s : State) : Flow :=
  if s.best.toNat ≥ s.cfg.MIN_MATCH then
    (emitAll (encode (.matchRef s.boff s.best)) s).bind fun s =>
      .go { s with ip := s.ip + s.best.setWidth 32, phase := .leSearch }
  else
    Flow.onRead (readIn s s.ip.toNat) fun b =>
      (emitAll (encode (.lit b)) s).bind fun s => .go { s with ip := s.ip + 1, phase := .leSearch }

/-! ## LZ.ENC (R200, R201) -/

/-- One pseudocode step of LZ.ENC. -/
def lzEncStep (s : State) : Flow :=
  match s.phase with
  | .pEntry => entryChecks (fun s => .go { s with ip := 0, phase := .leSearch }) s
  | .leSearch => searchStep s
  | .leEmit => tokenStep s
  | _ => .stop .foreignPhase

/-- LZ.ENC from its present phase to its end (R200). -/
def execLzEnc (s : State) : Host.Outcome State Fault Refusal := runOperation lzEncStep s

end Sys2Proof.Machine
end

