-- ==== Sys2Proof/Machine/Rle.lean ====
section
/-! DEFINITION. The run-count-value sequencer: RLE.ENC, RLE.DEC and the RUN token (41_rle.md). -/

namespace Sys2Proof.Machine

/-! ## RLE.ENC (R141) -/

/-- The lines of RE_SCAN before its loop. -/
def enterScan (s : State) : Flow :=
  Flow.onRead (readIn s 0) fun b => .go { s with phase := .reScan, cur := b, cnt := 1, ip := 1 }

/-- One byte equal to cur: count it, or flush (255, cur) where the count would reach 255 (R142). -/
def sameByte (s : State) : Flow :=
  if s.cnt.toNat + 1 = 255 then (emitAll [255, s.cur] s).bind fun s => .go { s with cnt := 0 }
  else .go { s with cnt := s.cnt + 1 }

/-- The flush of the run counted so far; a zero count flushes nothing (R141, 90_conflicts.md C2). -/
def flushRun (s : State) : Flow := if s.cnt.toNat > 0 then emitAll [s.cnt, s.cur] s else .go s

/-- One byte that differs from cur: flush the run and start a new one. -/
def newByte (b : Byte) (s : State) : Flow := (flushRun s).bind fun s => .go { s with cur := b, cnt := 1 }

/-- One turn of the loop of RE_SCAN, or the way out of it. -/
def scanStep (s : State) : Flow :=
  if s.ip.toNat < s.IN_LEN.toNat then
    Flow.onRead (readIn s s.ip.toNat) fun b =>
      (if b = s.cur then sameByte s else newByte b s).bind fun s => .go { s with ip := s.ip + 1 }
  else .go { s with phase := .reFinal }

/-- RE_FINAL. -/
def finalStep (s : State) : Flow := (flushRun s).bind complete

/-- One pseudocode step of RLE.ENC. -/
def rleEncStep (s : State) : Flow :=
  match s.phase with
  | .pEntry => entryChecks enterScan s
  | .reScan => scanStep s
  | .reFinal => finalStep s
  | _ => .stop .foreignPhase

/-- RLE.ENC from its present phase to its end (R141). -/
def execRleEnc (s : State) : Host.Outcome State Fault Refusal := runOperation rleEncStep s

/-! ## RUN and RLE.DEC (R145, R146) -/

/-- The fetched RUN token in the registers (R145, phase RD_PAIR). -/
def beginRun (count value : Byte) (s : State) : Flow :=
  .go { s with cnt := count, cur := value, phase := .rdRep }

/-- A RUN token is done: on to the next pair. -/
def endRun (s : State) : State := { s with ip := s.ip + 2, phase := .rdPair }

/-- One turn of the loop of RD_REP; the turn that leaves cnt at 0 ends the token (R145). -/
def repStep (s : State) : Flow :=
  if s.cnt.toNat > 0 then
    (emit s.cur s).bind fun s =>
      if s.cnt.toNat - 1 = 0 then .go (endRun { s with cnt := 0 }) else .go { s with cnt := s.cnt - 1 }
  else .go (endRun s)

/-- RUN count, value: the whole token (R146); count 0 appends nothing (R147). -/
def execRun (count value : Byte) (s : State) : Host.Outcome State Fault Refusal :=
  whileBusy (fun s =>
    (beginRun count value s).bind (iterate repStep (fun s => decide (s.phase = .rdRep)) (count.toNat + 1))) s

/-- RD_CHECK (R145). -/
def parityCheck (s : State) : Flow :=
  if s.IN_LEN.toNat % 2 = 1 then raise .invalidInput s else .go { s with ip := 0, phase := .rdPair }

/-- The token of an RLE stream begun. -/
def beginRleToken : Instr → State → Flow
  | .run count value, s => beginRun count value s
  | _, _ => .stop .foreignPhase

/-- RD_PAIR: the next RUN token, or the end of the stream. -/
def pairStep (s : State) : Flow :=
  if s.ip.toNat < s.IN_LEN.toNat then (fetchRun s).run beginRleToken s else complete s

/-- One pseudocode step of RLE.DEC. -/
def rleDecStep (s : State) : Flow :=
  match s.phase with
  | .pEntry => entryChecks (fun s => .go { s with phase := .rdCheck }) s
  | .rdCheck => parityCheck s
  | .rdPair => pairStep s
  | .rdRep => repStep s
  | _ => .stop .foreignPhase

/-- RLE.DEC from its present phase to its end (R145). -/
def execRleDec (s : State) : Host.Outcome State Fault Refusal := runOperation rleDecStep s

end Sys2Proof.Machine
end

