-- ==== Sys2Proof/Machine/Fetch.lean ====
section
/-! DEFINITION. What a BUSY sequencer executes next: the operation latched in (ALG, DIR), or, where (phase, ip) stands at
one, the token, header or payload in IN (10_state.md R23, 40_command.md R122); and one pseudocode step of the operation. -/

namespace Sys2Proof.Machine

/-- The walk stands at the payload's first bit (43_huffman_decode.md R185). -/
def atPayload (s : State) : Bool :=
  decide (s.phase = .hdWalk) && decide (s.node = s.ROOT) && decide (s.bitpos = 0) && decide (s.op = 0)

/-- The payload as an instruction, if it has a byte and the host has written all of it; otherwise HUF.DEC goes on bit by
bit, reading only what it needs (notes/assumptions/13.md). -/
def fetchPayload (s : State) : Fetched :=
  match payloadBytes s with
  | .ok (b :: bs) => .instr (.hufPay (b :: bs))
  | .ok [] => .instr .hufDec
  | .error _ => .instr .hufDec

/-- The next instruction of a BUSY sequencer. -/
def fetch (s : State) : Fetched :=
  match selected s with
  | none => .fails .reservedAlgorithm
  | some .rleDec =>
    if s.phase = .rdPair ∧ s.ip.toNat < s.IN_LEN.toNat then fetchRun s else .instr .rleDec
  | some .lzDec =>
    if s.phase = .ldToken ∧ s.ip.toNat < s.IN_LEN.toNat then fetchLz s else .instr .lzDec
  | some .hufDec =>
    if s.phase = .hdHdr then fetchHeader s
    else if atPayload s then fetchPayload s
    else .instr .hufDec
  | some i => .instr i

/-- One pseudocode step of the operation in (ALG, DIR). -/
def sequencerStep (s : State) : Flow :=
  match selected s with
  | some .rleEnc => rleEncStep s
  | some .hufEnc => hufEncStep s
  | some .lzEnc => lzEncStep s
  | some .rleDec => rleDecStep s
  | some .hufDec => hufDecStep s
  | some .lzDec => lzDecStep s
  | _ => .stop .reservedAlgorithm

/-- Bytes placed in a memory from an index on. -/
def Memory.place (m : Memory) (i : Nat) : List Byte → Memory
  | [] => m
  | b :: bs => (Memory.place m (i + 1) bs).write i b

/-- The state whose next instruction stands in a stream with the given bytes: the command latched by a START, or the
bytes in IN with the sequencer at them (notes/assumptions/10.md). -/
def pointAt (st : Stream) (bytes : List Byte) (s : State) : State :=
  match st with
  | .command =>
    match bytes with
    | [b0, b1, b2, b3] => { start (be32 b0 b1 b2 b3) s with host := [] }
    | _ => s
  | .rle =>
    { s with
      STATE := .busy, ALG := 0, DIR := 1, phase := .rdPair, ip := 0, host := [], IN := s.IN.place 0 bytes,
      IN_LEN := BitVec.ofNat 32 bytes.length }
  | .lz =>
    { s with
      STATE := .busy, ALG := 2, DIR := 1, phase := .ldToken, ip := 0, host := [], IN := s.IN.place 0 bytes,
      IN_LEN := BitVec.ofNat 32 bytes.length }
  | .hufHeader =>
    { s with
      STATE := .busy, ALG := 1, DIR := 1, phase := .hdHdr, host := [], IN := s.IN.place 0 bytes,
      IN_LEN := BitVec.ofNat 32 bytes.length }
  | .hufPayload =>
    { s with
      STATE := .busy, ALG := 1, DIR := 1, phase := .hdWalk, node := s.ROOT, bitpos := 0, op := 0, host := [],
      IN := s.IN.place headerLength bytes, IN_LEN := BitVec.ofNat 32 (headerLength + bytes.length) }

/-- A row's word placed where the next step fetches; a command word that is none of the six is put among the host's moves,
where it is not accepted. -/
def placeTableWord (s : State) (nbits w : Nat) : State :=
  match tableStream nbits w, decodeTableWord nbits w with
  | some st, some _ => pointAt st (bytesOfNat (nbits / 8) w) s
  | some _, none => { s with host := [.writeReg 0 (BitVec.ofNat 32 w)] }
  | none, _ => s

end Sys2Proof.Machine
end

