-- ==== Sys2Proof/Machine/Dispatch.lean ====
section
/-! DEFINITION. One arm per instruction: the meaning of each row of the opcode table. -/
namespace Sys2Proof.Machine
-- The meaning of an instruction in a state.
def exec (i : Instr) (s : State) : Host.Outcome State Fault Refusal :=
  match i with
  | .rleEnc => Sys2Proof.Machine.execRleEnc s
  | .hufEnc => Sys2Proof.Machine.execHufEnc s
  | .lzEnc => Sys2Proof.Machine.execLzEnc s
  | .rleDec => Sys2Proof.Machine.execRleDec s
  | .hufDec => Sys2Proof.Machine.execHufDec s
  | .lzDec => Sys2Proof.Machine.execLzDec s
  | .run count value => Sys2Proof.Machine.execRun count value s
  | .lit b => Sys2Proof.Machine.execLit b s
  | .matchRef offset length => Sys2Proof.Machine.execMatch offset length s
  | .hufHdr total freq => Sys2Proof.Machine.execHufHdr total freq s
  | .hufPay payload => Sys2Proof.Machine.execHufPay payload s
end Sys2Proof.Machine
end

