-- ==== Sys2Proof/Machine/HostPort.lean ====
section
/-! DEFINITION. The moves of the host and of the reset input (20_memory.md R60 to R66, R71; 70_reset_and_hazards.md R270). -/

namespace Sys2Proof.Machine

/-- A host read is answered. -/
def answer (r : Reply) (s : State) : State := { s with replies := r :: s.replies }

/-- A host read whose byte the spec calls unspecified is answered with a free byte (notes/assumptions/6.md). -/
def answerFree (s : State) : State :=
  answer (.byte (Config.freeByte s.freeCtr)) { s with freeCtr := s.freeCtr + 1 }

/-- What a host register reads as (10_state.md R21): CMD and the registers that do not exist read 0, and OUT_LEN reads 0
while BUSY (20_memory.md R66). -/
def readRegister (s : State) (reg : Nat) : Word :=
  match reg with
  | 1 => statusWord s
  | 2 => s.IN_LEN
  | 3 => if s.STATE = .busy then 0 else s.OUT_LEN
  | _ => 0

/-- A host register write (R21): CMD starts an operation, IN_LEN is stored; STATUS, OUT_LEN and the registers that do not
exist ignore it, and while BUSY every write is ignored (20_memory.md R66). -/
def writeRegister (reg : Nat) (v : Word) (s : State) : State :=
  if s.STATE = .busy then s
  else
    match reg with
    | 0 => writeCmd v s
    | 2 => { s with IN_LEN := v }
    | _ => s

/-- A host write of IN (20_memory.md R65): ignored while BUSY and from IN_CAP on. -/
def hostWriteIn (index : Nat) (b : Byte) (s : State) : State :=
  if s.STATE = .busy then s
  else if index < s.cfg.IN_CAP then { s with IN := s.IN.write index b }
  else s

/-- A host read of IN (20_memory.md R65, R66, R71). While BUSY the byte is free at every index (R66), the reserved ones from
IN_CAP on among them: there R71 says 0, and that the byte is free is the model's choice (notes/assumptions/6.md). -/
def hostReadIn (index : Nat) (s : State) : State :=
  if s.STATE = .busy then answerFree s
  else if index < s.cfg.IN_CAP then
    match s.IN.read index with
    | some b => answer (.byte b) s
    | none => answerFree s
  else answer (.byte 0) s

/-- A host read of OUT (20_memory.md R64, R66): the committed bytes when DONE, 0x00 above OUT_LEN. While BUSY the byte is free
at every index (R66), the reserved ones from OUT_CAP on among them: there R71 says 0, and that the byte is free is the
model's choice (notes/assumptions/6.md). -/
def hostReadOut (index : Nat) (s : State) : Host.Outcome State Fault Refusal :=
  if s.STATE = .busy then .next (answerFree s)
  else if s.STATE = .done ∧ index < s.OUT_LEN.toNat then
    match s.OUT.read index with
    | some b => .next (answer (.byte b) s)
    | none => .fault (.outNeverWritten index)
  else .next (answer (.byte 0) s)

/-- The reset input (70_reset_and_hazards.md R270, R271): the state of reset, whatever was running; the parameters, the
host's own moves and the replies it holds are not ZCC's (notes/assumptions/15.md). -/
def resetInput (s : State) : State :=
  { State.reset with cfg := s.cfg, host := s.host, replies := s.replies, freeCtr := s.freeCtr }

/-- One move of the host. -/
def hostMove (m : HostMove) (s : State) : Host.Outcome State Fault Refusal :=
  match m with
  | .writeReg reg v => .next (writeRegister reg v s)
  | .readReg reg => .next (answer (.word (readRegister s reg)) s)
  | .writeIn index b => .next (hostWriteIn index b s)
  | .readIn index => .next (hostReadIn index s)
  | .writeOut _ _ => .next s
  | .readOut index => hostReadOut index s
  | .wait => .next (answer (.word (statusWord s)) s)
  | .pass => .next s
  | .reset => .next (resetInput s)

end Sys2Proof.Machine
end

