-- ==== Sys2Proof/Machine/Step.lean ====
section
/-! DEFINITION. One step of the machine: the host's next move, or the sequencer's turn (10_state.md R20). -/

namespace Sys2Proof.Machine

/-- The turn of the sequencer: idle it does nothing (60_exceptions.md R256); busy it executes the next instruction, or
takes the error that stands in its place. -/
def turn (s : State) : Host.Outcome State Fault Refusal :=
  if s.STATE = .busy then
    match fetch s with
    | .instr i => exec i s
    | .raises e => (raise e s).outcome
    | .fails f => .fault f
  else .next s

/-- One step. Without a host move to come, and while the host waits for completion, the sequencer has the turn; `pass`
gives it one pseudocode step (notes/assumptions/2.md and 8.md); any other move is carried out. -/
def step (s : State) : Host.Outcome State Fault Refusal :=
  match s.host with
  | [] => turn s
  | .wait :: rest => if s.STATE = .busy then turn s else hostMove .wait { s with host := rest }
  | .pass :: rest => whileBusy sequencerStep { s with host := rest }
  | m :: rest => hostMove m { s with host := rest }

/-- The state whose very next step runs the instruction of a row's word (notes/assumptions/10.md). -/
def State.withFetchWord (s : State) (nbits w : Nat) : State := placeTableWord s nbits w

end Sys2Proof.Machine
end

