-- ==== Sys2Proof/Machine/Reference.lean ====
section
/-! DEFINITION. The reference function of 40_command.md R130: each operation as a total function from the input bytes to
the output bytes or an error kind, on lists, without registers, phases or a ring buffer. No step of the machine calls it;
statements hold the machine against it. -/

namespace Sys2Proof.Machine.Reference

/-- How an operation ends: `Ok bytes` or `Err kind` (R130). -/
inductive Result where
  | ok (bytes : List Byte)
  | err (e : ErrKind)
  deriving DecidableEq, Repr

/-- An output that must fit OUT (R125). -/
def withinCapacity (c : Config) (out : List Byte) : Result :=
  if out.length ≤ c.OUT_CAP then .ok out else .err .capacityOverflow

/-! ## RLE (41_rle.md R143, R145) -/

/-- The maximal runs of a buffer, in order (R143). -/
def runs : List Byte → List (Byte × Nat)
  | [] => []
  | b :: rest =>
    match runs rest with
    | (v, n) :: more => if b = v then (v, n + 1) :: more else (b, 1) :: (v, n) :: more
    | [] => [(b, 1)]

/-- The pairs of one run: full pairs of 255, then the remainder if there is one (R143). -/
def pairsOfRun (v : Byte) (n : Nat) : List Byte :=
  (List.replicate (n / 255) [255#8, v]).flatten ++ (if n % 255 = 0 then [] else [BitVec.ofNat 8 (n % 255), v])

/-- The output of RLE.ENC (R143). -/
def rleEncoded (b : List Byte) : List Byte := (runs b).flatMap fun r => pairsOfRun r.1 r.2

/-- The bytes a list of RUN tokens stands for (R145, R147). -/
def rleExpanded : List Byte → List Byte
  | count :: value :: rest => List.replicate count.toNat value ++ rleExpanded rest
  | _ => []

/-! ## Huffman (30_encoding.md R95 to R97, 43_huffman_decode.md) -/

/-- The occurrence counts of a buffer (42_huffman_encode.md R161). -/
def freqOf (b : List Byte) : FreqTable :=
  tableOf ((List.range 256).map fun x => BitVec.ofNat 32 (b.count (BitVec.ofNat 8 x)))

/-- A NODE table with nothing in it. -/
def blankNodes : NodeTable := Vector.replicate 511 { w := 0, left := 0, right := 0 }

/-- The tree of a frequency table, "a function of FREQ alone" (42_huffman_encode.md R163). -/
def treeOf (freq : FreqTable) : NodeTable := (grow freq blankNodes).NODE

/-- The code of a byte value in the tree of a frequency table (42_huffman_encode.md R166). -/
def codeOf (freq : FreqTable) (b : Byte) : List Bool :=
  codeBits (codesOf (treeOf freq) (rootOf freq) (Vector.replicate 256 [])).CODE
    (codesOf (treeOf freq) (rootOf freq) (Vector.replicate 256 [])).LEN b

/-- Eight bits as a byte, the first of them bit 7 (20_memory.md R67). -/
def byteOfBits (c0 c1 c2 c3 c4 c5 c6 c7 : Bool) : Byte :=
  BitVec.ofBool c0 ++ BitVec.ofBool c1 ++ BitVec.ofBool c2 ++ BitVec.ofBool c3 ++
    BitVec.ofBool c4 ++ BitVec.ofBool c5 ++ BitVec.ofBool c6 ++ BitVec.ofBool c7

/-- A bit stream in bytes, MSB first, the last byte padded with zero bits (30_encoding.md R97). -/
def packed : List Bool → List Byte
  | [] => []
  | c0 :: c1 :: c2 :: c3 :: c4 :: c5 :: c6 :: c7 :: rest => byteOfBits c0 c1 c2 c3 c4 c5 c6 c7 :: packed rest
  | few => [byteOfBits (few.getD 0 false) (few.getD 1 false) (few.getD 2 false) (few.getD 3 false)
      (few.getD 4 false) (few.getD 5 false) (few.getD 6 false) (few.getD 7 false)]

/-- The output of HUF.ENC (30_encoding.md R95, R97). -/
def hufEncoded (b : List Byte) : List Byte :=
  headerBytes (BitVec.ofNat 32 b.length) (freqOf b) ++ packed (b.flatMap (codeOf (freqOf b)))

/-- The symbols a bit stream spells in a tree, from a node on, until the given number of them is decoded; none where the
bits run out or a branch leads nowhere (43_huffman_decode.md R185). -/
def walked (nodes : NodeTable) (root : BitVec 9) : List Bool → BitVec 9 → Nat → Option (List Byte)
  | _, _, 0 => some []
  | [], _, _ + 1 => none
  | c :: cs, x, left + 1 =>
    match nodes[x.toNat]? with
    | none => none
    | some nd =>
      let y := if c then nd.right else nd.left
      if y = noChild then none
      else if isLeaf y.toNat then (walked nodes root cs root left).map (y.setWidth 8 :: ·)
      else walked nodes root cs y (left + 1)

/-- HUF.DEC on a header and payload (43_huffman_decode.md R182 to R185). -/
def hufDecoded (c : Config) (total : Word) (freq : FreqTable) (payload : List Byte) : Result :=
  if freqSum freq = 0 then .err .invalidInput
  else if freqSum freq ≠ total.toNat then .err .invalidInput
  else if total.toNat > c.OUT_CAP then .err .capacityOverflow
  else
    match walked (treeOf freq) (BitVec.ofNat 9 (rootOf freq)) (payload.flatMap byteBits)
        (BitVec.ofNat 9 (rootOf freq)) total.toNat with
    | some out => .ok out
    | none => .err .invalidInput

/-! ## LZ77 (44_lz77_encode.md, 45_lz77_decode.md) -/

/-- Length of the longest common prefix. -/
def commonPrefix : List Byte → List Byte → Nat
  | a :: as, b :: bs => if a = b then commonPrefix as bs + 1 else 0
  | _, _ => 0

/-- k(o) at position p: the longest common prefix of what starts o bytes back and the lookahead, capped at Lmax and at o
(R202). -/
def matchLength (c : Config) (b : List Byte) (p o : Nat) : Nat :=
  min (commonPrefix (b.drop (p - o)) (b.drop p)) (min (min c.M (b.length - p)) o)

/-- The best length so far and its offset, and one more offset; a tie keeps the earlier. -/
def betterMatch (c : Config) (b : List Byte) (p : Nat) (found : Nat × Nat) (o : Nat) : Nat × Nat :=
  if matchLength c b p o > found.1 then (matchLength c b p o, o) else found

/-- best and boff at position p (R202). -/
def bestMatch (c : Config) (b : List Byte) (p : Nat) : Nat × Nat :=
  (List.range' 1 (min c.W p)).foldl (betterMatch c b p) (0, 0)

/-- The tokens from position p on (R201, R204). -/
def tokensFrom (c : Config) (b : List Byte) : Nat → Nat → List Instr
  | 0, _ => []
  | fuel + 1, p =>
    match b[p]? with
    | none => []
    | some v =>
      if (bestMatch c b p).1 ≥ c.MIN_MATCH then
        .matchRef (BitVec.ofNat 16 (bestMatch c b p).2) (BitVec.ofNat 8 (bestMatch c b p).1) ::
          tokensFrom c b fuel (p + (bestMatch c b p).1)
      else .lit v :: tokensFrom c b fuel (p + 1)

/-- The output of LZ.ENC (R201). -/
def lzEncoded (c : Config) (b : List Byte) : List Byte := (tokensFrom c b b.length 0).flatMap encode

/-- A copy of `count` bytes from `offset` back, byte by byte, onto what is decoded; none where OUT is full (R224, with
OUT[op - off] as the source: R226). -/
def copied (c : Config) (offset : Nat) : Nat → List Byte → Option (List Byte)
  | 0, out => some out
  | count + 1, out =>
    if out.length = c.OUT_CAP then none
    else copied c offset count (out ++ [out.getD (out.length - offset) 0])

/-- The tokens of a stream executed in order on what is decoded so far (R221 to R224). -/
def lzExpanded (c : Config) : Nat → List Byte → List Byte → Result
  | 0, _, out => .ok out
  | _ + 1, [], out => .ok out
  | fuel + 1, bytes, out =>
    match decode .lz bytes with
    | .ok (.lit b, rest) =>
      if out.length = c.OUT_CAP then .err .capacityOverflow else lzExpanded c fuel rest (out ++ [b])
    | .ok (.matchRef offset length, rest) =>
      if offset.toNat = 0 ∨ offset.toNat > c.W ∨ length.toNat = 0 ∨ length.toNat > c.M ∨ offset.toNat > out.length then
        .err .invalidInput
      else
        match copied c offset.toNat length.toNat out with
        | none => .err .capacityOverflow
        | some out' => lzExpanded c fuel rest out'
    | .ok _ => .err .invalidInput
    | .error _ => .err .invalidInput

/-! ## The six operations (40_command.md R122, R123, R130) -/

/-- The codec's own part of an operation; only the six commands are operations. -/
def codec (c : Config) (i : Instr) (b : List Byte) : Result :=
  match i with
  | .rleEnc => withinCapacity c (rleEncoded b)
  | .rleDec => if b.length % 2 = 1 then .err .invalidInput else withinCapacity c (rleExpanded b)
  | .hufEnc => withinCapacity c (hufEncoded b)
  | .hufDec =>
    match decode .hufHeader b with
    | .ok (.hufHdr total freq, payload) => hufDecoded c total freq payload
    | .ok _ => .err .invalidInput
    | .error _ => .err .invalidInput
  | .lzEnc => withinCapacity c (lzEncoded c b)
  | .lzDec => lzExpanded c b.length b []
  | .run _ _ => .err .noError
  | .lit _ => .err .noError
  | .matchRef _ _ => .err .noError
  | .hufHdr _ _ => .err .noError
  | .hufPay _ => .err .noError

/-- `run(ALG, DIR, bytes)` of R130, the entry checks first (R123). -/
def run (c : Config) (i : Instr) (b : List Byte) : Result :=
  if b.length = 0 then .err .emptySequence
  else if b.length > c.IN_CAP then .err .capacityOverflow
  else codec c i b

end Sys2Proof.Machine.Reference
end

