-- ==== Sys2Proof/Safety.lean ====
section
/-! DEFINITION. The vocabulary of the claims: what a START leaves, what the input is, how an operation ends, what it keeps,
and the invariant that holds of every reachable state. -/

namespace Sys2Proof.Machine

/-! ## The states operations start from and end in -/

/-- What START leaves (40_command.md R121): the operation is about to be entered. -/
abbrev AtEntry (s : State) : Prop :=
  s.STATE = .busy ∧ s.ERR = .noError ∧ s.OUT_LEN = 0 ∧ s.phase = .pEntry ∧ s.ip = 0 ∧ s.op = 0

/-- The input ByteBuffer is b: IN_LEN is its length and the host has written each of its bytes (10_state.md R38,
70_reset_and_hazards.md R273). -/
abbrev InputIs (s : State) (b : List Byte) : Prop :=
  s.IN_LEN.toNat = b.length ∧ ∀ i, i < b.length → s.IN.read i = b[i]?

/-- The operation completed with an output (40_command.md R126): the commit, each byte in its place, and every cell of OUT
past it as it was. -/
abbrev EndsDone (s t : State) (out : List Byte) : Prop :=
  t.STATE = .done ∧ t.ERR = .noError ∧ t.OUT_LEN.toNat = out.length ∧ t.op = t.OUT_LEN ∧
  (∀ j, j < out.length → t.OUT.read j = out[j]?) ∧ (∀ j, out.length ≤ j → t.OUT.read j = s.OUT.read j)

/-- The operation raised (40_command.md R127): the kind is recorded, nothing is committed, and every cell of OUT past what
it had emitted is as it was. -/
abbrev EndsRaised (s t : State) (e : ErrKind) : Prop :=
  t.STATE = .error ∧ t.ERR = e ∧ t.OUT_LEN = 0 ∧ (∀ j, t.op.toNat ≤ j → t.OUT.read j = s.OUT.read j)

/-- The operation ended as the reference function says (40_command.md R130). -/
def EndsAs (s t : State) : Reference.Result → Prop
  | .ok out => EndsDone s t out
  | .err e => EndsRaised s t e

/-- What a host can see of an operation's end (20_memory.md R64): STATUS, OUT_LEN and the bytes OUT reads as. -/
abbrev SameView (t u : State) : Prop :=
  t.STATE = u.STATE ∧ t.ERR = u.ERR ∧ t.OUT_LEN = u.OUT_LEN ∧ ∀ j, j < t.OUT_LEN.toNat → t.OUT.read j = u.OUT.read j

/-- The commands, the six operations of ZCC (00_scope.md R2). -/
def isCommand : Instr → Bool
  | .rleEnc => true
  | .hufEnc => true
  | .lzEnc => true
  | .rleDec => true
  | .hufDec => true
  | .lzDec => true
  | .run _ _ => false
  | .lit _ => false
  | .matchRef _ _ => false
  | .hufHdr _ _ => false
  | .hufPay _ => false

/-! ## Where an instruction is fetched -/

/-- The stream the sequencer reads its next token, header or payload from, and the index in IN where that starts; none
where the program counter (phase, ip) stands at none (10_state.md R23, 30_encoding.md R104). -/
def fetchPoint (s : State) : Option (Stream × Nat) :=
  match selected s, s.phase with
  | some .rleDec, .rdPair => some (.rle, s.ip.toNat)
  | some .lzDec, .ldToken => some (.lz, s.ip.toNat)
  | some .hufDec, .hdHdr => some (.hufHeader, 0)
  | some .hufDec, .hdWalk => if atPayload s then some (.hufPayload, headerLength) else none
  | _, _ => none

/-- Bytes that the host wrote stand in the input from an index on. -/
abbrev StandsAt (s : State) (bytes : List Byte) (i : Nat) : Prop :=
  i + bytes.length ≤ s.IN_LEN.toNat ∧ ∀ j, j < bytes.length → s.IN.read (i + j) = bytes[j]?

/-- No move of the host comes before the sequencer's turn: the host has none left, or it waits. -/
abbrev HostWaits (s : State) : Prop := s.host = [] ∨ ∃ rest, s.host = .wait :: rest

/-! ## What is kept -/

/-- The host's side: the parameters, the input, the latches, and the host's own moves and replies. -/
abbrev HostSideKept (s t : State) : Prop :=
  t.cfg = s.cfg ∧ t.IN = s.IN ∧ t.IN_LEN = s.IN_LEN ∧ t.ALG = s.ALG ∧ t.DIR = s.DIR ∧
  t.host = s.host ∧ t.replies = s.replies ∧ t.freeCtr = s.freeCtr

/-- STATUS and OUT_LEN. -/
abbrev StatusKept (s t : State) : Prop := t.STATE = s.STATE ∧ t.ERR = s.ERR ∧ t.OUT_LEN = s.OUT_LEN

/-- The RLE engine's registers (10_state.md R29). -/
abbrev RleKept (s t : State) : Prop := t.cur = s.cur ∧ t.cnt = s.cnt

/-- The Huffman tables (10_state.md R30 to R32). -/
abbrev TreeKept (s t : State) : Prop :=
  t.FREQ = s.FREQ ∧ t.NODE = s.NODE ∧ t.ROOT = s.ROOT ∧ t.K = s.K ∧ t.ACTIVE = s.ACTIVE

/-- The codes and the bit-packer (10_state.md R33, R34). -/
abbrev PackerKept (s t : State) : Prop := t.CODE = s.CODE ∧ t.LEN = s.LEN ∧ t.acc = s.acc ∧ t.nbits = s.nbits

/-- The bit-unpacker (10_state.md R35). -/
abbrev WalkKept (s t : State) : Prop := t.N = s.N ∧ t.node = s.node ∧ t.bitpos = s.bitpos ∧ t.fsum = s.fsum

/-- The LZ.ENC registers (10_state.md R36). -/
abbrev MatcherKept (s t : State) : Prop := t.o = s.o ∧ t.k = s.k ∧ t.best = s.best ∧ t.boff = s.boff

/-- The LZ.DEC state but for cnt, which RleKept holds (10_state.md R37). -/
abbrev WindowKept (s t : State) : Prop := t.WIN = s.WIN ∧ t.wp = s.wp ∧ t.off = s.off ∧ t.len = s.len

/-! ## The invariant -/

/-- The operations' phases (10_state.md R23). -/
def phaseBelongs (i : Instr) (p : Phase) : Bool :=
  match i, p with
  | .rleEnc, .reScan => true
  | .rleEnc, .reFinal => true
  | .rleDec, .rdCheck => true
  | .rleDec, .rdPair => true
  | .rleDec, .rdRep => true
  | .hufEnc, .heFreq => true
  | .hufEnc, .heTree => true
  | .hufEnc, .heHdr => true
  | .hufEnc, .heCode => true
  | .hufEnc, .hePack => true
  | .hufEnc, .heFlush => true
  | .hufDec, .hdHdr => true
  | .hufDec, .hdTree => true
  | .hufDec, .hdWalk => true
  | .lzEnc, .leSearch => true
  | .lzEnc, .leEmit => true
  | .lzDec, .ldToken => true
  | .lzDec, .ldCopy => true
  | i, .pEntry => isCommand i
  | _, _ => false

/-- "ERR ≠ NONE iff STATE = ERROR" (10_state.md R24), and OUT_LEN "is 0 whenever STATE is IDLE, BUSY or ERROR" (R26). -/
abbrev StatusLaw (s : State) : Prop :=
  (s.ERR ≠ .noError ↔ s.STATE = .error) ∧ (s.STATE ≠ .done → s.OUT_LEN = 0)

/-- The memories keep their canonical form and their capacities (20_memory.md R60). -/
abbrev MemoryLaw (s : State) : Prop :=
  (s.IN.wf ∧ s.IN.below s.cfg.IN_CAP) ∧ (s.OUT.wf ∧ s.OUT.below s.cfg.OUT_CAP) ∧ (s.WIN.wf ∧ s.WIN.below s.cfg.W)

/-- Every byte emitted or committed is in OUT, and neither count exceeds its capacity (10_state.md R26, R28). -/
abbrev OutputLaw (s : State) : Prop :=
  (s.STATE = .busy → s.op.toNat ≤ s.cfg.OUT_CAP ∧ ∀ j, j < s.op.toNat → (s.OUT.read j).isSome) ∧
  (s.STATE = .done → s.OUT_LEN.toNat ≤ s.cfg.OUT_CAP ∧ ∀ j, j < s.OUT_LEN.toNat → (s.OUT.read j).isSome)

/-- The latches select an operation, the phase is one of its phases, ip "never exceeds IN_LEN" (10_state.md R23), past the
entry checks the input is not empty and fits IN (40_command.md R123), and nothing is emitted before the phases that emit
(R121, 43_huffman_decode.md R181 to R184). -/
abbrev CounterLaw (s : State) : Prop :=
  (∃ i, selected s = some i ∧ phaseBelongs i s.phase = true) ∧ s.ip.toNat ≤ s.IN_LEN.toNat ∧
  (s.phase ≠ .pEntry → 1 ≤ s.IN_LEN.toNat ∧ s.IN_LEN.toNat ≤ s.cfg.IN_CAP) ∧
  (s.phase = .pEntry ∨ s.phase = .hdHdr ∨ s.phase = .hdTree → s.op = 0)

/-- RLE: "0 ≤ cnt ≤ 254" at the top of every iteration and at RE_FINAL (41_rle.md R142); a pair under expansion lies inside
a stream of even length (R145). -/
abbrev RleLaw (s : State) : Prop :=
  (s.phase = .reScan ∨ s.phase = .reFinal → s.cnt.toNat ≤ 254) ∧
  (s.phase = .rdPair ∨ s.phase = .rdRep → s.IN_LEN.toNat % 2 = 0 ∧ s.ip.toNat % 2 = 0) ∧
  (s.phase = .rdRep → s.ip.toNat + 2 ≤ s.IN_LEN.toNat)

/-- Huffman: the counts sum to what has been read (42_huffman_encode.md R161); the header passed its checks
(43_huffman_decode.md R181 to R183); the walk stands at a node of the table and inside the payload, and emits at most
N ≤ OUT_CAP bytes (R184, R185). -/
abbrev HuffmanLaw (s : State) : Prop :=
  (s.phase = .heFreq → freqSum s.FREQ = s.ip.toNat) ∧
  (s.phase = .heTree → freqSum s.FREQ = s.IN_LEN.toNat) ∧
  (s.phase = .hdTree ∨ s.phase = .hdWalk →
    headerLength ≤ s.IN_LEN.toNat ∧ freqSum s.FREQ = s.N.toNat ∧ s.N.toNat ≠ 0) ∧
  (s.phase = .hdWalk →
    s.ROOT ≠ noChild ∧ s.node ≠ noChild ∧ s.bitpos.toNat ≤ 8 * (s.IN_LEN.toNat - headerLength) ∧
    s.op.toNat ≤ s.N.toNat ∧ s.N.toNat ≤ s.cfg.OUT_CAP)

/-- LZ.ENC: a match never extends past the lookahead (44_lz77_encode.md R205). -/
abbrev MatcherLaw (s : State) : Prop :=
  s.phase = .leEmit → s.ip.toNat < s.IN_LEN.toNat ∧ s.ip.toNat + s.best.toNat ≤ s.IN_LEN.toNat

/-- LZ.DEC: "wp = t mod W" after t = op appends, and for every d from 1 to min(t, W) the cell d behind wp holds the byte
appended d appends ago, which is OUT[t - d] (45_lz77_decode.md R226); a copy runs with 1 ≤ off ≤ min(op, W) inside the
stream (R223). -/
abbrev WindowLaw (s : State) : Prop :=
  (s.phase = .ldToken ∨ s.phase = .ldCopy →
    s.wp.toNat = s.op.toNat % s.cfg.W ∧
    ∀ d, d < min s.op.toNat s.cfg.W →
      s.WIN.read ((s.wp.toNat + (s.cfg.W - (d + 1))) % s.cfg.W) = s.OUT.read (s.op.toNat - (d + 1))) ∧
  (s.phase = .ldCopy →
    1 ≤ s.off.toNat ∧ s.off.toNat ≤ s.op.toNat ∧ s.off.toNat ≤ s.cfg.W ∧ s.ip.toNat + 4 ≤ s.IN_LEN.toNat)

/-- The invariant of every reachable state. -/
structure Inv (s : State) : Prop where
  config : s.cfg.wf
  status : StatusLaw s
  memory : MemoryLaw s
  output : OutputLaw s
  counter : s.STATE = .busy → CounterLaw s
  rle : s.STATE = .busy → RleLaw s
  huffman : s.STATE = .busy → HuffmanLaw s
  matcher : s.STATE = .busy → MatcherLaw s
  window : s.STATE = .busy → WindowLaw s

end Sys2Proof.Machine
end

