-- ==== Sys2Proof/Certificates/Slice0/Obligations.lean ====
section
/-! DEFINITION. The statements made about ZCC, each with the rule of spec/ it formalises. Where one rests on a choice of
the model it says so. -/

open Sys2Proof Sys2Proof.Machine

/-! ## Encodings -/

/-- Each format's words, written out from 30_encoding.md, decode to the instruction they stand for (R92, R94, R99, R100), and
reserved ones are rejected (R105). A CMD word is a 32-bit value: that decode takes it as four bytes, most significant first,
is the model's choice, with the byte order R110 gives the table's rows (notes/assumptions/11.md). -/
def Obligations.WordsDecode : Prop :=
  decode .command [0x00, 0x00, 0x00, 0x00] = .ok (.rleEnc, []) ∧
  decode .command [0x00, 0x00, 0x00, 0x01] = .ok (.hufEnc, []) ∧
  decode .command [0x00, 0x00, 0x00, 0x02] = .ok (.lzEnc, []) ∧
  decode .command [0x00, 0x00, 0x00, 0x04] = .ok (.rleDec, []) ∧
  decode .command [0x00, 0x00, 0x00, 0x05] = .ok (.hufDec, []) ∧
  decode .command [0x00, 0x00, 0x00, 0x06] = .ok (.lzDec, []) ∧
  decode .command [0x00, 0x00, 0x00, 0x03] = .error .reservedCommand ∧
  decode .command [0x01, 0x00, 0x00, 0x00] = .error .reservedCommand ∧
  decode .rle [0x03, 0x61, 0xFF] = .ok (.run 3 0x61, [0xFF]) ∧
  decode .lz [0x00, 0x01] = .ok (.lit 0x01, []) ∧
  decode .lz [0x01, 0x12, 0x34, 0x07, 0x00] = .ok (.matchRef 0x1234 7, [0x00]) ∧
  decode .lz [0x02, 0x61] = .error .reservedMarker

/-- No bit of an encoding is dropped: an encoded well-formed instruction decodes to itself, with whatever follows it left
over; a payload has no end of its own, so it is decoded alone (30_encoding.md R92 to R107). The four bytes of a command word
are the model's choice (notes/assumptions/11.md). -/
def Obligations.DecodeOfEncode : Prop :=
  ∀ (i : Instr) (rest : List Byte), i.wf = true → (streamOf i = .hufPayload → rest = []) →
    decode (streamOf i) (encode i ++ rest) = .ok (i, rest)

/-- Every word has one meaning: what decodes is the encoding of what it decodes to (30_encoding.md R92 to R107). The four bytes
of a command word are the model's choice (notes/assumptions/11.md). -/
def Obligations.EncodeOfDecode : Prop :=
  ∀ (st : Stream) (bytes rest : List Byte) (i : Instr), decode st bytes = .ok (i, rest) →
    streamOf i = st ∧ bytes = encode i ++ rest

/-- 20_memory.md R67: bit t of a payload bit stream is bit 7 - (t mod 8) of byte t div 8; the bits past the end are 0
(30_encoding.md R97). -/
def Obligations.PayloadBitOrder : Prop :=
  ∀ bits : List Bool,
    (Reference.packed bits).length = (bits.length + 7) / 8 ∧
    (∀ t, t < bits.length → ((Reference.packed bits)[t / 8]?).map (fun b => b.getLsbD (7 - t % 8)) = bits[t]?) ∧
    (∀ t, bits.length ≤ t → t < 8 * (Reference.packed bits).length →
      ((Reference.packed bits)[t / 8]?).map (fun b => b.getLsbD (7 - t % 8)) = some false)

/-! ## Reset, the host registers and the buffer memories -/

/-- 10_state.md R42, for the values it gives: the machine right after reset. The registers R42 calls unspecified are not
spoken of (notes/assumptions/3.md and 4.md). That a cell of IN, OUT or WIN has no value is the model's reading of
"unspecified contents" (notes/assumptions/5.md). -/
def Obligations.ResetValues : Prop :=
  State.reset.STATE = .idle ∧ State.reset.ERR = .noError ∧ State.reset.IN_LEN = 0 ∧ State.reset.OUT_LEN = 0 ∧
  ∀ i, State.reset.IN.read i = none ∧ State.reset.OUT.read i = none ∧ State.reset.WIN.read i = none

/-- 70_reset_and_hazards.md R271: a reset abandons whatever runs. The parameters, the host's remaining moves and its replies
are not ZCC's state and stay (notes/assumptions/15.md). -/
def Obligations.ResetAbandonsTheOperation : Prop :=
  ∀ (s : State) (rest : List HostMove), s.host = .reset :: rest →
    ∃ t, step s = .next t ∧ t.STATE = .idle ∧ t.ERR = .noError ∧ t.IN_LEN = 0 ∧ t.OUT_LEN = 0 ∧
      (∀ i, t.IN.read i = none ∧ t.OUT.read i = none ∧ t.WIN.read i = none) ∧
      t.cfg = s.cfg ∧ t.host = rest ∧ t.replies = s.replies

/-- 10_state.md R21, R24 and 20_memory.md R66: what the host registers read as, whatever runs: STATUS has STATE in bits 1:0,
ERR in bits 3:2 and zeros above; OUT_LEN reads 0 while BUSY; CMD and the registers that do not exist read 0; and a read
changes nothing. -/
def Obligations.RegisterReads : Prop :=
  ∀ (s : State) (reg : Nat) (rest : List HostMove), s.host = .readReg reg :: rest →
    ∃ v : Word, step s = .next { s with host := rest, replies := .word v :: s.replies } ∧
      (reg = 1 →
        v.extractLsb' 0 2 = (match s.STATE with | .idle => 0 | .busy => 1 | .done => 2 | .error => 3) ∧
        v.extractLsb' 2 2 =
          (match s.ERR with | .noError => 0 | .emptySequence => 1 | .invalidInput => 2 | .capacityOverflow => 3) ∧
        v.extractLsb' 4 28 = 0) ∧
      (reg = 2 → v = s.IN_LEN) ∧ (reg = 3 → v = if s.STATE = .busy then 0 else s.OUT_LEN) ∧
      (reg = 0 ∨ 4 ≤ reg → v = 0)

/-- 10_state.md R22 and 40_command.md R121: a write to CMD is accepted iff STATE is not BUSY, v[1:0] is not 3 and v[31:3] is
0; accepted it is START, otherwise no state changes. IN_LEN takes any 32-bit value while STATE is not BUSY (R25,
20_memory.md R65); every other register write changes nothing (R21, R66). That a reserved word is a move that changes
nothing follows R22, where 93_implementation_defined.md U9 advises to refuse the run: the model's reading
(notes/assumptions/7.md). -/
def Obligations.RegisterWrites : Prop :=
  ∀ (s : State) (reg : Nat) (v : Word) (rest : List HostMove), s.host = .writeReg reg v :: rest →
    step s = .next
      (if reg = 0 ∧ s.STATE ≠ .busy ∧ v.extractLsb' 0 2 ≠ 3 ∧ v.extractLsb' 3 29 = 0 then
        { s with
          host := rest, ALG := v.extractLsb' 0 2, DIR := v.extractLsb' 2 1, STATE := .busy, ERR := .noError,
          OUT_LEN := 0, ip := 0, op := 0, phase := .pEntry }
      else if reg = 2 ∧ s.STATE ≠ .busy then { s with host := rest, IN_LEN := v }
      else { s with host := rest })

/-- 20_memory.md R65, R66, R71: a host write of IN changes the one byte it names, and is ignored while BUSY and from IN_CAP
on. -/
def Obligations.HostWritesOneByteOfIn : Prop :=
  ∀ (s : State) (i : Nat) (b : Byte) (rest : List HostMove), s.IN.wf → s.host = .writeIn i b :: rest →
    ∃ t, step s = .next t ∧ t = { s with host := rest, IN := t.IN } ∧ t.IN.wf ∧
      ∀ j, t.IN.read j = if j = i ∧ i < s.cfg.IN_CAP ∧ s.STATE ≠ .busy then some b else s.IN.read j

/-- 20_memory.md R65, R71: a host read of IN while STATE is not BUSY answers the byte last written, and 0 from IN_CAP on. A
cell never written answers some byte, which the spec does not give (notes/assumptions/6.md). -/
def Obligations.HostReadsIn : Prop :=
  ∀ (s : State) (i : Nat) (rest : List HostMove), s.host = .readIn i :: rest → s.STATE ≠ .busy →
    ∃ (b : Byte) (n : Nat), step s = .next { s with host := rest, replies := .byte b :: s.replies, freeCtr := n } ∧
      (i < s.cfg.IN_CAP → ∀ w, s.IN.read i = some w → b = w ∧ n = s.freeCtr) ∧ (s.cfg.IN_CAP ≤ i → b = 0)

/-- 20_memory.md R64: a host read of OUT answers the committed byte if STATE is DONE and the index is below OUT_LEN, and
0x00 otherwise, in every state but BUSY, and changes nothing; a host write of OUT is ignored in every state. That the
committed byte is there to read is the invariant's part. -/
def Obligations.HostReadsOut : Prop :=
  (∀ (s : State) (j : Nat) (rest : List HostMove), Inv s → s.host = .readOut j :: rest → s.STATE ≠ .busy →
    ∃ b : Byte, step s = .next { s with host := rest, replies := .byte b :: s.replies } ∧
      (s.STATE = .done → j < s.OUT_LEN.toNat → s.OUT.read j = some b) ∧
      (s.STATE ≠ .done ∨ s.OUT_LEN.toNat ≤ j → b = 0)) ∧
  (∀ (s : State) (j : Nat) (b : Byte) (rest : List HostMove), s.host = .writeOut j b :: rest →
    step s = .next { s with host := rest })

/-- 20_memory.md R66: while BUSY a host write changes nothing, and a host read of IN or OUT answers some byte, whichever, and
changes nothing (the byte is free, at the reserved indices of R71 too, notes/assumptions/6.md). -/
def Obligations.BusyShutsTheHostOut : Prop :=
  ∀ (s : State) (m : HostMove) (rest : List HostMove), s.STATE = .busy → s.host = m :: rest →
    ((∃ reg v, m = .writeReg reg v) ∨ (∃ i b, m = .writeIn i b) ∨ (∃ i b, m = .writeOut i b) →
      step s = .next { s with host := rest }) ∧
    ((∃ i, m = .readIn i) ∨ (∃ i, m = .readOut i) →
      ∃ (b : Byte) (n : Nat), step s = .next { s with host := rest, replies := .byte b :: s.replies, freeCtr := n })

/-! ## One step -/

/-- 40_command.md R121, R122: after the accepted write of a command's word the sequencer stands at the entry of that
command, and its turn runs it. The word is read through the model's four bytes (notes/assumptions/11.md). -/
def Obligations.CommandStarts : Prop :=
  ∀ (s : State) (v : Word) (i : Instr) (rest : List HostMove), s.STATE ≠ .busy → s.host = .writeReg 0 v :: rest →
    decode .command (wordBytes v) = .ok (i, []) →
    ∃ t, step s = .next t ∧ AtEntry t ∧ selected t = some i ∧ t.host = rest ∧ (HostWaits t → step t = exec i t)

/-- A step runs the decoded instruction: where the bytes at the program counter decode to a token, header or payload, the
sequencer's turn is that instruction (10_state.md R23, 30_encoding.md R104, 20_memory.md R77). A payload is fetched as a
whole, up to IN_LEN (the model's grain, notes/assumptions/13.md). -/
def Obligations.StepRunsTheDecodedInstruction : Prop :=
  ∀ (s : State) (st : Stream) (k : Nat) (bytes : List Byte) (i : Instr), s.STATE = .busy → HostWaits s →
    fetchPoint s = some (st, k) → StandsAt s bytes k → (st = .hufPayload → k + bytes.length = s.IN_LEN.toNat) →
    decode st bytes = .ok (i, []) → step s = exec i s

/-- Where the program counter stands at no token, or at the end of the stream, the sequencer's turn is the rest of the
latched operation (10_state.md R23, R27; the model's grain, notes/assumptions/8.md). -/
def Obligations.StepRunsTheLatchedCommand : Prop :=
  ∀ (s : State) (i : Instr), s.STATE = .busy → HostWaits s → selected s = some i →
    (fetchPoint s = none ∨ ((s.phase = .rdPair ∨ s.phase = .ldToken) ∧ s.IN_LEN.toNat ≤ s.ip.toNat)) →
    step s = exec i s

/-- 45_lz77_decode.md R221: a reserved marker, or a token that runs past the end of the buffer, raises InvalidInput before any
operand byte is read. -/
def Obligations.BadLzTokenRaises : Prop :=
  ∀ (s : State) (k : Nat) (m : Byte), s.STATE = .busy → HostWaits s → fetchPoint s = some (.lz, k) →
    k < s.IN_LEN.toNat → s.IN.read k = some m →
    (m = 0 ∧ k + 2 > s.IN_LEN.toNat) ∨ (m = 1 ∧ k + 4 > s.IN_LEN.toNat) ∨ 2 ≤ m.toNat →
    step s = .next { s with ERR := .invalidInput, STATE := .error }

/-- 60_exceptions.md R256: when STATE is not BUSY the sequencer does nothing; every instruction leaves the state as it is. -/
def Obligations.IdleSequencerDoesNothing : Prop :=
  ∀ (s : State) (i : Instr), s.STATE ≠ .busy → exec i s = .next s ∧ (s.host = [] → step s = .next s)

/-- The grain of a step cannot be told: one pseudocode step, and then the operation, ends as the operation does
(70_reset_and_hazards.md R284, 40_command.md R130; the two grains are the model's, notes/assumptions/8.md). -/
def Obligations.GrainDoesNotMatter : Prop :=
  ∀ (s u t : State) (i : Instr), s.STATE = .busy → selected s = some i → sequencerStep s = .go u → exec i s = .next t →
    t.STATE ≠ .busy → exec i u = .next t

/-! ## The shared operations -/

/-- 40_command.md R125: emit writes one byte of OUT and advances op, or raises CapacityOverflow and writes nothing. -/
def Obligations.EmitAppendsOneByte : Prop :=
  ∀ (v : Byte) (s : State), s.cfg.wf → s.OUT.wf → s.op.toNat ≤ s.cfg.OUT_CAP →
    (s.op.toNat < s.cfg.OUT_CAP → ∃ t, emit v s = .go t ∧ t = { s with OUT := t.OUT, op := t.op } ∧
      t.op.toNat = s.op.toNat + 1 ∧ t.OUT.wf ∧ t.OUT.read s.op.toNat = some v ∧
      ∀ j, j ≠ s.op.toNat → t.OUT.read j = s.OUT.read j) ∧
    (s.op.toNat = s.cfg.OUT_CAP → emit v s = .ended { s with ERR := .capacityOverflow, STATE := .error })

/-- 40_command.md R123, 60_exceptions.md R246: the entry checks of the six operations, in their order, before anything is
examined. -/
def Obligations.EntryChecks : Prop :=
  ∀ (i : Instr) (s : State), isCommand i = true → s.STATE = .busy → s.phase = .pEntry →
    (s.IN_LEN = 0 → exec i s = .next { s with ERR := .emptySequence, STATE := .error }) ∧
    (s.IN_LEN ≠ 0 → s.IN_LEN.toNat > s.cfg.IN_CAP →
      exec i s = .next { s with ERR := .capacityOverflow, STATE := .error })

/-- 60_exceptions.md R241: EmptySequence has one cause, and is never raised later in an operation. -/
def Obligations.EmptySequenceOnlyAtEntry : Prop :=
  ∀ (i : Instr) (s t : State), isCommand i = true → AtEntry s → exec i s = .next t →
    (t.ERR = .emptySequence ↔ s.IN_LEN = 0)

/-- 60_exceptions.md R245, the column InvalidInput: no encoder raises it, from any phase. -/
def Obligations.EncodersNeverRaiseInvalidInput : Prop :=
  ∀ (i : Instr) (s t : State), i = .rleEnc ∨ i = .hufEnc ∨ i = .lzEnc → s.STATE = .busy → s.ERR = .noError →
    exec i s = .next t → t.ERR ≠ .invalidInput

/-! ## RLE -/

/-- 41_rle.md R141, R143, R144: RLE.ENC runs to its end on every input, and ends with the pairs of the input's runs, or with
CapacityOverflow if they do not fit; the other engines' registers are kept. -/
def Obligations.RleEncRuns : Prop :=
  ∀ (s : State) (b : List Byte), s.cfg.wf → s.OUT.wf → AtEntry s → InputIs s b →
    ∃ t, exec .rleEnc s = .next t ∧ EndsAs s t (Reference.run s.cfg .rleEnc b) ∧ HostSideKept s t ∧
      TreeKept s t ∧ PackerKept s t ∧ WalkKept s t ∧ MatcherKept s t ∧ WindowKept s t

/-- 41_rle.md R143: the shape of the output of RLE.ENC, as the reference function gives it. -/
def Obligations.RleOutputShape : Prop :=
  ∀ b : List Byte, b ≠ [] →
    Reference.rleEncoded b = (Reference.runs b).flatMap (fun r =>
      (List.replicate (r.2 / 255) [255#8, r.1]).flatten ++
        if r.2 % 255 = 0 then [] else [BitVec.ofNat 8 (r.2 % 255), r.1]) ∧
    (Reference.rleEncoded b).length = 2 * ((Reference.runs b).map fun r => (r.2 + 254) / 255).sum ∧
    2 ≤ (Reference.rleEncoded b).length ∧ (Reference.rleEncoded b).length ≤ 2 * b.length ∧
    (∀ (i : Nat) (count : Byte), (Reference.rleEncoded b)[2 * i]? = some count → count ≠ 0) ∧
    (∀ r ∈ Reference.runs b, 1 ≤ r.2) ∧ ((Reference.runs b).IsChain fun r q => r.1 ≠ q.1) ∧
    (Reference.runs b).flatMap (fun r => List.replicate r.2 r.1) = b

/-- 41_rle.md R145: RLE.DEC runs to its end on every input; the other engines' registers are kept. -/
def Obligations.RleDecRuns : Prop :=
  ∀ (s : State) (b : List Byte), s.cfg.wf → s.OUT.wf → AtEntry s → InputIs s b →
    ∃ t, exec .rleDec s = .next t ∧ EndsAs s t (Reference.run s.cfg .rleDec b) ∧ HostSideKept s t ∧
      TreeKept s t ∧ PackerKept s t ∧ WalkKept s t ∧ MatcherKept s t ∧ WindowKept s t

/-- 41_rle.md R146: a RUN token, every count: `count` bytes of OUT, op, ip, and cnt down to 0; or CapacityOverflow at the
`emit` that finds OUT full. -/
def Obligations.RunToken : Prop :=
  ∀ (count value : Byte) (s : State), s.cfg.wf → s.OUT.wf → s.STATE = .busy → s.op.toNat ≤ s.cfg.OUT_CAP →
    ∃ t, exec (.run count value) s = .next t ∧ HostSideKept s t ∧ TreeKept s t ∧ PackerKept s t ∧ WalkKept s t ∧
      MatcherKept s t ∧ WindowKept s t ∧ t.cur = value ∧ s.op.toNat ≤ t.op.toNat ∧
      (∀ j, s.op.toNat ≤ j → j < t.op.toNat → t.OUT.read j = some value) ∧
      (∀ j, j < s.op.toNat ∨ t.op.toNat ≤ j → t.OUT.read j = s.OUT.read j) ∧
      (s.op.toNat + count.toNat ≤ s.cfg.OUT_CAP →
        StatusKept s t ∧ t.op.toNat = s.op.toNat + count.toNat ∧ t.ip = s.ip + 2 ∧ t.cnt = 0 ∧ t.phase = .rdPair) ∧
      (s.cfg.OUT_CAP < s.op.toNat + count.toNat →
        t.STATE = .error ∧ t.ERR = .capacityOverflow ∧ t.OUT_LEN = s.OUT_LEN ∧ t.op.toNat = s.cfg.OUT_CAP ∧ t.ip = s.ip)

/-- 41_rle.md R147: a count of 0 appends nothing and raises nothing, and RLE.DEC of a stream whose counts are all 0 is a
successful operation with an empty output. -/
def Obligations.ZeroCountAppendsNothing : Prop :=
  (∀ (value : Byte) (s : State), s.STATE = .busy →
    exec (.run 0 value) s = .next { s with cnt := 0, cur := value, ip := s.ip + 2, phase := .rdPair }) ∧
  (∀ (s : State) (b : List Byte), s.cfg.wf → AtEntry s → InputIs s b → b ≠ [] → b.length ≤ s.cfg.IN_CAP →
    b.length % 2 = 0 → (∀ i, 2 * i < b.length → b[2 * i]? = some 0) →
    ∃ t, exec .rleDec s = .next t ∧ t.STATE = .done ∧ t.ERR = .noError ∧ t.OUT_LEN = 0 ∧ t.OUT = s.OUT)

/-- 41_rle.md R148: the round trip; the decoding instance may have other capacities. -/
def Obligations.RleRoundTrip : Prop :=
  ∀ (c c' : Config) (b e : List Byte), Reference.run c .rleEnc b = .ok e → e.length ≤ c'.IN_CAP → b.length ≤ c'.OUT_CAP →
    Reference.run c' .rleDec e = .ok b

/-! ## The Huffman tree and codes -/

/-- 42_huffman_encode.md R161: the table counts each byte value, and the counts sum to the length. -/
def Obligations.FrequenciesCount : Prop :=
  ∀ b : List Byte, b.length < 2 ^ 32 →
    (∀ x : Byte, ∃ w, (Reference.freqOf b)[x.toNat]? = some w ∧ w.toNat = b.count x) ∧
    freqSum (Reference.freqOf b) = b.length

/-- 42_huffman_encode.md R163, the tie-break: the node chosen has the lowest weight, and among equal weights the lowest
number. -/
def Obligations.LightestBreaksTies : Prop :=
  ∀ (f : Forest) (a : Nat), f.lightest = some a ↔
    a < 511 ∧ f.active a = true ∧
    ∀ x, x < 511 → f.active x = true → f.weight a < f.weight x ∨ (f.weight a = f.weight x ∧ a ≤ x)

/-- 42_huffman_encode.md R163, one merge: the first node taken on the left, the second on the right, under a node of the
combined weight. -/
def Obligations.MergeCombinesTheTwoLightest : Prop :=
  ∀ (f : Forest) (t a b : Nat), 256 ≤ t → t < 511 → f.lightest = some a → (f.remove a).lightest = some b →
    (f.merge t).NODE[t]? =
      some { w := BitVec.ofNat 32 (f.weight a + f.weight b), left := BitVec.ofNat 9 a, right := BitVec.ofNat 9 b } ∧
    (∀ x, x ≠ t → (f.merge t).NODE[x]? = f.NODE[x]?) ∧
    (∀ x, x < 511 → ((f.merge t).active x = true ↔ x = t ∨ (f.active x = true ∧ x ≠ a ∧ x ≠ b)))

/-- 42_huffman_encode.md R163: with at least two byte values, the internal nodes 256 to ROOT each hold the combined weight of
two different earlier nodes, and the root's weight is the sum of the table. -/
def Obligations.TreeShape : Prop :=
  ∀ freq : FreqTable, 2 ≤ leafCount freq → freqSum freq < 2 ^ 32 →
    rootOf freq = 256 + leafCount freq - 2 ∧ rootOf freq ≤ 510 ∧
    (∀ x, 256 ≤ x → x ≤ rootOf freq → ∃ nd a b, (Reference.treeOf freq)[x]? = some nd ∧
      (Reference.treeOf freq)[nd.left.toNat]? = some a ∧ (Reference.treeOf freq)[nd.right.toNat]? = some b ∧
      nd.left ≠ nd.right ∧ nd.left.toNat < x ∧ nd.right.toNat < x ∧ nd.w.toNat = a.w.toNat + b.w.toNat) ∧
    (∃ nd, (Reference.treeOf freq)[rootOf freq]? = some nd ∧ nd.w.toNat = freqSum freq)

/-- 42_huffman_encode.md R164: with one byte value, the leaf is on the left of the root, nothing on its right, its code is
the single bit 0, and a 1 bit there leads nowhere. -/
def Obligations.SingleSymbolTree : Prop :=
  ∀ freq : FreqTable, leafCount freq = 1 →
    ∃ (x : Byte) (w : Word), freq[x.toNat]? = some w ∧ w ≠ 0 ∧ rootOf freq = 256 ∧
      (Reference.treeOf freq)[256]? = some { w := w, left := x.setWidth 9, right := noChild } ∧
      Reference.codeOf freq x = [false] ∧
      ∀ (bits : List Bool) (n : Nat), Reference.walked (Reference.treeOf freq) 256 (true :: bits) 256 (n + 1) = none

/-- 42_huffman_encode.md R163, "the tree is a function of FREQ alone": whatever an earlier operation left in NODE and CODE,
the walk and the codes are those of the reference tree (10_state.md R40). -/
def Obligations.TreeIsAFunctionOfFreqAlone : Prop :=
  ∀ (freq : FreqTable) (nodes : NodeTable) (codes : Vector (List Bool) 256), leafCount freq ≠ 0 →
    (∀ (bits : List Bool) (n : Nat),
      Reference.walked (grow freq nodes).NODE (BitVec.ofNat 9 (rootOf freq)) bits (BitVec.ofNat 9 (rootOf freq)) n =
        Reference.walked (Reference.treeOf freq) (BitVec.ofNat 9 (rootOf freq)) bits (BitVec.ofNat 9 (rootOf freq)) n) ∧
    (∀ x : Byte, codeBits (codesOf (grow freq nodes).NODE (rootOf freq) codes).CODE
        (codesOf (grow freq nodes).NODE (rootOf freq) codes).LEN x = Reference.codeOf freq x)

/-- 42_huffman_encode.md R166: the code of a byte value that occurs leads from the root to its leaf and has 1 to
max(1, K - 1) bits, and a byte value that does not occur has none. The walk stops at the first leaf: that no bit of the code
is left over there is not said here. -/
def Obligations.CodesLeadToTheirLeaves : Prop :=
  ∀ (freq : FreqTable) (x : Byte) (w : Word), freqSum freq < 2 ^ 32 → freq[x.toNat]? = some w →
    (w ≠ 0 →
      Reference.walked (Reference.treeOf freq) (BitVec.ofNat 9 (rootOf freq)) (Reference.codeOf freq x)
        (BitVec.ofNat 9 (rootOf freq)) 1 = some [x] ∧
      1 ≤ (Reference.codeOf freq x).length ∧ (Reference.codeOf freq x).length ≤ max 1 (leafCount freq - 1)) ∧
    (w = 0 → leafCount freq ≠ 0 → Reference.codeOf freq x = [])

/-- 42_huffman_encode.md R166: the codes are prefix-free. -/
def Obligations.CodesArePrefixFree : Prop :=
  ∀ (freq : FreqTable) (x y : Byte) (v w : Word), freqSum freq < 2 ^ 32 → freq[x.toNat]? = some v → freq[y.toNat]? = some w →
    v ≠ 0 → w ≠ 0 → x ≠ y → ¬ Reference.codeOf freq x <+: Reference.codeOf freq y

/-! ## The Huffman operations -/

/-- 42_huffman_encode.md R160 to R170: HUF.ENC runs to its end on every input, and ends with header and payload, or with
CapacityOverflow if they do not fit; FREQ, K and ROOT are those of the input; the other engines' registers are kept. -/
def Obligations.HufEncRuns : Prop :=
  ∀ (s : State) (b : List Byte), s.cfg.wf → s.OUT.wf → AtEntry s → InputIs s b →
    ∃ t, exec .hufEnc s = .next t ∧ EndsAs s t (Reference.run s.cfg .hufEnc b) ∧ HostSideKept s t ∧
      RleKept s t ∧ WalkKept s t ∧ MatcherKept s t ∧ WindowKept s t ∧
      (t.STATE = .done → t.FREQ = Reference.freqOf b ∧ t.K.toNat = leafCount t.FREQ ∧ t.ROOT.toNat = rootOf t.FREQ)

/-- 43_huffman_decode.md R180 to R185: HUF.DEC runs to its end on every input; the other engines' registers are kept. -/
def Obligations.HufDecRuns : Prop :=
  ∀ (s : State) (b : List Byte), s.cfg.wf → s.OUT.wf → AtEntry s → InputIs s b →
    ∃ t, exec .hufDec s = .next t ∧ EndsAs s t (Reference.run s.cfg .hufDec b) ∧ HostSideKept s t ∧
      RleKept s t ∧ PackerKept s t ∧ MatcherKept s t ∧ WindowKept s t

/-- 43_huffman_decode.md R181: phase HD_HDR. A buffer shorter than the header raises before any byte is read; otherwise the
header's fields are assembled most significant byte first, loaded and checked. -/
def Obligations.HeaderIsLoaded : Prop :=
  ∀ s : State, s.STATE = .busy → selected s = some .hufDec → s.phase = .hdHdr →
    (s.IN_LEN.toNat < 1028 → sequencerStep s = .ended { s with ERR := .invalidInput, STATE := .error }) ∧
    (∀ b : List Byte, InputIs s b → 1028 ≤ b.length →
      ∃ (total : Word) (freq : FreqTable), sequencerStep s = beginHeader total freq s ∧
        total.toNat = (b.getD 0 0).toNat * 2 ^ 24 + (b.getD 1 0).toNat * 2 ^ 16 + (b.getD 2 0).toNat * 2 ^ 8 +
          (b.getD 3 0).toNat ∧
        ∀ x, x < 256 → ∃ w, freq[x]? = some w ∧
          w.toNat = (b.getD (4 + 4 * x) 0).toNat * 2 ^ 24 + (b.getD (5 + 4 * x) 0).toNat * 2 ^ 16 +
            (b.getD (6 + 4 * x) 0).toNat * 2 ^ 8 + (b.getD (7 + 4 * x) 0).toNat)

/-- 43_huffman_decode.md R181 to R183: a fetched header loads N, FREQ, fsum and ip; it raises InvalidInput if every frequency
is 0 or if the frequencies do not sum to N, and otherwise the tree comes next. -/
def Obligations.HeaderToken : Prop :=
  ∀ (total : Word) (freq : FreqTable) (s : State), s.STATE = .busy →
    (freqSum freq = total.toNat → freqSum freq ≠ 0 →
      ∃ t, exec (.hufHdr total freq) s = .next t ∧ t.fsum.toNat = freqSum freq ∧
        t = { s with N := total, FREQ := freq, fsum := t.fsum, ip := 1028, phase := .hdTree }) ∧
    (freqSum freq = 0 ∨ freqSum freq ≠ total.toNat →
      ∃ t, exec (.hufHdr total freq) s = .next t ∧ t.fsum.toNat = freqSum freq ∧
        t = { s with
          N := total, FREQ := freq, fsum := t.fsum, ip := 1028, ERR := .invalidInput, STATE := .error })

/-- 43_huffman_decode.md R185: the payload, walked in whatever tree stands in NODE under ROOT. It completes with the N symbols
the bits spell, or raises InvalidInput where the bits run out or a branch leads nowhere. -/
def Obligations.PayloadToken : Prop :=
  ∀ (payload : List Byte) (s : State), s.cfg.wf → s.OUT.wf → s.STATE = .busy → s.ERR = .noError → s.OUT_LEN = 0 → s.op = 0 →
    s.ROOT ≠ noChild → s.N.toNat ≤ s.cfg.OUT_CAP →
    (∀ out, Reference.walked s.NODE s.ROOT (payload.flatMap byteBits) s.ROOT s.N.toNat = some out →
      ∃ t, exec (.hufPay payload) s = .next t ∧ EndsDone s t out ∧ t.OUT_LEN = s.N ∧ t.node = s.ROOT ∧
        HostSideKept s t ∧ RleKept s t ∧ TreeKept s t ∧ PackerKept s t ∧ MatcherKept s t ∧ WindowKept s t ∧
        t.N = s.N ∧ t.fsum = s.fsum) ∧
    (Reference.walked s.NODE s.ROOT (payload.flatMap byteBits) s.ROOT s.N.toNat = none →
      ∃ t, exec (.hufPay payload) s = .next t ∧ EndsRaised s t .invalidInput ∧
        HostSideKept s t ∧ RleKept s t ∧ TreeKept s t ∧ PackerKept s t ∧ MatcherKept s t ∧ WindowKept s t ∧
        t.N = s.N ∧ t.fsum = s.fsum)

/-- 43_huffman_decode.md R186: a payload that agrees with a decoded one up to the last bit taken gives the same end,
whatever padding and bytes follow. -/
def Obligations.BitsAfterTheLastCodeAreIgnored : Prop :=
  ∀ (p q : List Byte) (s t : State), (Instr.hufPay p).wf = true → s.STATE = .busy → exec (.hufPay p) s = .next t →
    t.STATE = .done → (p.flatMap byteBits).take t.bitpos.toNat <+: q.flatMap byteBits → exec (.hufPay q) s = .next t

/-- 43_huffman_decode.md R187: the round trip; the decoding instance may have other capacities. -/
def Obligations.HuffmanRoundTrip : Prop :=
  ∀ (c c' : Config) (b e : List Byte), c.wf → Reference.run c .hufEnc b = .ok e → e.length ≤ c'.IN_CAP →
    b.length ≤ c'.OUT_CAP → Reference.run c' .hufDec e = .ok b

/-! ## LZ77 -/

/-- 44_lz77_encode.md R200 to R207: LZ.ENC runs to its end on every input, and ends with the tokens of the input, or with
CapacityOverflow if they do not fit; the other engines' registers are kept. -/
def Obligations.LzEncRuns : Prop :=
  ∀ (s : State) (b : List Byte), s.cfg.wf → s.OUT.wf → AtEntry s → InputIs s b →
    ∃ t, exec .lzEnc s = .next t ∧ EndsAs s t (Reference.run s.cfg .lzEnc b) ∧ HostSideKept s t ∧
      RleKept s t ∧ TreeKept s t ∧ PackerKept s t ∧ WalkKept s t ∧ WindowKept s t

/-- 44_lz77_encode.md R202, R205: phase LE_SEARCH finds the longest match in the window, the nearest on a tie; it lies inside
the window and the lookahead and repeats the input; nothing else changes. -/
def Obligations.SearchFindsTheLongestNearestMatch : Prop :=
  ∀ (s : State) (b : List Byte), s.cfg.wf → s.STATE = .busy → selected s = some .lzEnc → s.phase = .leSearch →
    InputIs s b → s.ip.toNat < b.length →
    ∃ t, sequencerStep s = .go t ∧
      t = { s with o := t.o, k := t.k, best := t.best, boff := t.boff, phase := .leEmit } ∧
      (∀ d, 1 ≤ d → d ≤ min s.cfg.W s.ip.toNat → Reference.matchLength s.cfg b s.ip.toNat d ≤ t.best.toNat) ∧
      (t.best = 0 → t.boff = 0) ∧
      (t.best ≠ 0 → 1 ≤ t.boff.toNat ∧ t.boff.toNat ≤ min s.cfg.W s.ip.toNat ∧
        Reference.matchLength s.cfg b s.ip.toNat t.boff.toNat = t.best.toNat ∧
        (∀ d, 1 ≤ d → d < t.boff.toNat → Reference.matchLength s.cfg b s.ip.toNat d < t.best.toNat)) ∧
      t.best.toNat ≤ min (min s.cfg.M (b.length - s.ip.toNat)) t.boff.toNat ∧
      (∀ i, i < t.best.toNat → b[s.ip.toNat - t.boff.toNat + i]? = b[s.ip.toNat + i]?)

/-- 44_lz77_encode.md R204: phase LE_EMIT writes one token where OUT has room for it, and moves ip past what it covers. -/
def Obligations.OneTokenIsEmitted : Prop :=
  ∀ (s : State) (v : Byte), s.cfg.wf → s.OUT.wf → s.STATE = .busy → selected s = some .lzEnc → s.phase = .leEmit →
    s.ip.toNat < s.IN_LEN.toNat → s.IN.read s.ip.toNat = some v →
    (s.cfg.MIN_MATCH ≤ s.best.toNat → s.op.toNat + 4 ≤ s.cfg.OUT_CAP →
      ∃ t, sequencerStep s = .go t ∧
        t = { s with OUT := t.OUT, op := t.op, ip := s.ip + s.best.setWidth 32, phase := .leSearch } ∧
        t.op.toNat = s.op.toNat + 4 ∧ t.OUT.read s.op.toNat = some 0x01 ∧
        t.OUT.read (s.op.toNat + 1) = some (s.boff.extractLsb' 8 8) ∧
        t.OUT.read (s.op.toNat + 2) = some (s.boff.extractLsb' 0 8) ∧ t.OUT.read (s.op.toNat + 3) = some s.best ∧
        ∀ j, j < s.op.toNat ∨ s.op.toNat + 4 ≤ j → t.OUT.read j = s.OUT.read j) ∧
    (s.best.toNat < s.cfg.MIN_MATCH → s.op.toNat + 2 ≤ s.cfg.OUT_CAP →
      ∃ t, sequencerStep s = .go t ∧ t = { s with OUT := t.OUT, op := t.op, ip := s.ip + 1, phase := .leSearch } ∧
        t.op.toNat = s.op.toNat + 2 ∧ t.OUT.read s.op.toNat = some 0x00 ∧ t.OUT.read (s.op.toNat + 1) = some v ∧
        ∀ j, j < s.op.toNat ∨ s.op.toNat + 2 ≤ j → t.OUT.read j = s.OUT.read j)

/-- 45_lz77_decode.md R220, R221: LZ.DEC runs to its end on every input; the other engines' registers are kept. -/
def Obligations.LzDecRuns : Prop :=
  ∀ (s : State) (b : List Byte), s.cfg.wf → s.OUT.wf → s.WIN.wf → AtEntry s → InputIs s b →
    ∃ t, exec .lzDec s = .next t ∧ EndsAs s t (Reference.run s.cfg .lzDec b) ∧ HostSideKept s t ∧
      t.cur = s.cur ∧ TreeKept s t ∧ PackerKept s t ∧ WalkKept s t ∧ MatcherKept s t

/-- 45_lz77_decode.md R222: a literal appends one byte to OUT and to the window; or OUT is full, and it raises with nothing
written. -/
def Obligations.LitToken : Prop :=
  ∀ (b : Byte) (s : State), s.cfg.wf → s.OUT.wf → s.WIN.wf → s.STATE = .busy → s.op.toNat ≤ s.cfg.OUT_CAP →
    ∃ t, exec (.lit b) s = .next t ∧ HostSideKept s t ∧ RleKept s t ∧ TreeKept s t ∧ PackerKept s t ∧ WalkKept s t ∧
      MatcherKept s t ∧ t.off = s.off ∧ t.len = s.len ∧ t.phase = s.phase ∧
      (s.op.toNat < s.cfg.OUT_CAP →
        StatusKept s t ∧ t.op.toNat = s.op.toNat + 1 ∧ t.ip = s.ip + 2 ∧ t.wp.toNat = (s.wp.toNat + 1) % s.cfg.W ∧
        t.OUT.read s.op.toNat = some b ∧ t.WIN.read s.wp.toNat = some b ∧
        (∀ j, j ≠ s.op.toNat → t.OUT.read j = s.OUT.read j) ∧ (∀ j, j ≠ s.wp.toNat → t.WIN.read j = s.WIN.read j)) ∧
      (s.op.toNat = s.cfg.OUT_CAP →
        t.STATE = .error ∧ t.ERR = .capacityOverflow ∧ t.OUT_LEN = s.OUT_LEN ∧ t.op = s.op ∧ t.ip = s.ip ∧ t.wp = s.wp ∧
        t.OUT = s.OUT ∧ t.WIN = s.WIN)

/-- 45_lz77_decode.md R223: the fetch and checks of a MATCH. A rejected one raises InvalidInput with nothing appended; an
accepted one goes on to the copy. -/
def Obligations.MatchChecks : Prop :=
  ∀ (offset : BitVec 16) (length : Byte) (s : State), s.STATE = .busy →
    (offset.toNat = 0 ∨ offset.toNat > s.cfg.W ∨ length.toNat = 0 ∨ length.toNat > s.cfg.M ∨ offset.toNat > s.op.toNat →
      exec (.matchRef offset length) s =
        .next { s with off := offset, len := length, ERR := .invalidInput, STATE := .error }) ∧
    (1 ≤ offset.toNat → offset.toNat ≤ s.cfg.W → 1 ≤ length.toNat → length.toNat ≤ s.cfg.M → offset.toNat ≤ s.op.toNat →
      beginMatch offset length s = .go { s with off := offset, len := length, cnt := length, phase := .ldCopy })

/-- 45_lz77_decode.md R224, R226, 70_reset_and_hazards.md R278: the copy of a MATCH, in every state of the invariant that
stands at a token. Each byte is the one `offset` behind it, those of this copy included; the window goes on holding the
last W bytes; or OUT fills and CapacityOverflow is raised. -/
def Obligations.MatchCopies : Prop :=
  ∀ (offset : BitVec 16) (length : Byte) (s : State), Inv s → s.STATE = .busy → s.phase = .ldToken →
    1 ≤ offset.toNat → offset.toNat ≤ s.cfg.W → 1 ≤ length.toNat → length.toNat ≤ s.cfg.M → offset.toNat ≤ s.op.toNat →
    ∃ t, exec (.matchRef offset length) s = .next t ∧ HostSideKept s t ∧ t.cur = s.cur ∧ TreeKept s t ∧ PackerKept s t ∧
      WalkKept s t ∧ MatcherKept s t ∧ t.off = offset ∧ t.len = length ∧ s.op.toNat ≤ t.op.toNat ∧
      (∀ j, s.op.toNat ≤ j → j < t.op.toNat → ∃ v, t.OUT.read j = some v ∧ t.OUT.read (j - offset.toNat) = some v) ∧
      (∀ j, j < s.op.toNat ∨ t.op.toNat ≤ j → t.OUT.read j = s.OUT.read j) ∧
      (∀ c, (∀ i, i < t.op.toNat - s.op.toNat → c ≠ (s.wp.toNat + i) % s.cfg.W) → t.WIN.read c = s.WIN.read c) ∧
      t.wp.toNat = t.op.toNat % s.cfg.W ∧
      (∀ d, 1 ≤ d → d ≤ min t.op.toNat s.cfg.W →
        t.WIN.read ((t.wp.toNat + (s.cfg.W - d)) % s.cfg.W) = t.OUT.read (t.op.toNat - d)) ∧
      (s.op.toNat + length.toNat ≤ s.cfg.OUT_CAP →
        StatusKept s t ∧ t.op.toNat = s.op.toNat + length.toNat ∧ t.ip = s.ip + 4 ∧ t.cnt = 0 ∧ t.phase = .ldToken) ∧
      (s.cfg.OUT_CAP < s.op.toNat + length.toNat →
        t.STATE = .error ∧ t.ERR = .capacityOverflow ∧ t.OUT_LEN = 0 ∧ t.op.toNat = s.cfg.OUT_CAP ∧ t.ip = s.ip)

/-- 45_lz77_decode.md R227, 70_reset_and_hazards.md R274: the round trip; the decoding instance may have other capacities, a
larger window and a larger maximum length. -/
def Obligations.LzRoundTrip : Prop :=
  ∀ (c c' : Config) (b e : List Byte), c.wf → c.W ≤ c'.W → c.M ≤ c'.M → Reference.run c .lzEnc b = .ok e →
    e.length ≤ c'.IN_CAP → b.length ≤ c'.OUT_CAP → Reference.run c' .lzDec e = .ok b

/-! ## The whole machine -/

/-- Each of the six commands completes: where the reference function gives an output, the command ends DONE with it
(40_command.md R126, R130). -/
def Obligations.CommandsComplete : Prop :=
  ∀ (i : Instr) (s : State) (b out : List Byte),
    i = .rleEnc ∨ i = .hufEnc ∨ i = .lzEnc ∨ i = .rleDec ∨ i = .hufDec ∨ i = .lzDec →
    s.cfg.wf → s.OUT.wf → s.WIN.wf → AtEntry s → InputIs s b → Reference.run s.cfg i b = .ok out →
    ∃ t, exec i s = .next t ∧ EndsDone s t out

/-- 40_command.md R131: what an encoder committed, given to the matching decoder on an instance of the same parameters,
comes back. -/
def Obligations.RoundTrip : Prop :=
  ∀ (enc dec : Instr) (s s' t : State) (b e : List Byte),
    (enc, dec) = (.rleEnc, .rleDec) ∨ (enc, dec) = (.hufEnc, .hufDec) ∨ (enc, dec) = (.lzEnc, .lzDec) →
    s.cfg.wf → s'.cfg = s.cfg → s.OUT.wf → s'.OUT.wf → s'.WIN.wf → AtEntry s → AtEntry s' → InputIs s b →
    exec enc s = .next t → t.STATE = .done → t.OUT_LEN.toNat = e.length → (∀ j, j < e.length → t.OUT.read j = e[j]?) →
    InputIs s' e → e.length ≤ s.cfg.IN_CAP → b.length ≤ s.cfg.OUT_CAP →
    ∃ t', exec dec s' = .next t' ∧ EndsDone s' t' b

/-- 40_command.md R129: what a host can see of an operation's end is a function of the operation, the input and the
parameters; no earlier operation, no reset value of working state, and nothing left in OUT or the window matters; and IN
and IN_LEN stay. -/
def Obligations.OutcomeDependsOnTheInputAlone : Prop :=
  ∀ (i : Instr) (s s' : State) (b : List Byte), isCommand i = true → s.cfg.wf → s'.cfg = s.cfg → s.OUT.wf → s'.OUT.wf →
    s.WIN.wf → s'.WIN.wf → AtEntry s → AtEntry s' → InputIs s b → InputIs s' b →
    ∃ t t', exec i s = .next t ∧ exec i s' = .next t' ∧ SameView t t' ∧ t.STATE ≠ .busy ∧
      t.IN = s.IN ∧ t.IN_LEN = s.IN_LEN ∧ t'.IN = s'.IN ∧ t'.IN_LEN = s'.IN_LEN

/-- 40_command.md R128: from every state of the invariant the running operation reaches its end, or reads a byte the host never
wrote, within the bound of notes/assumptions/9.md. -/
def Obligations.EveryOperationEnds : Prop :=
  ∀ (s : State) (i : Instr), Inv s → s.STATE = .busy → selected s = some i →
    (∃ t, exec i s = .next t ∧ (t.STATE = .done ∨ t.STATE = .error)) ∨
    (∃ k, exec i s = .fault (.inNeverWritten k) ∧ k < s.IN_LEN.toNat ∧ s.IN.read k = none)

/-- Every step keeps the invariant: ERR and STATE agree (10_state.md R24), OUT_LEN is 0 unless DONE (R26), the memories are
canonical and inside their capacities (20_memory.md R60), ip never passes IN_LEN (R23) nor op OUT_CAP (R28), the RLE count
stays at most 254 (41_rle.md R142), the walk stays in the tree and the payload, and the ring buffer holds the last W
bytes (45_lz77_decode.md R226). -/
def Obligations.StepKeepsTheInvariant : Prop :=
  ∀ s t : State, Inv s → step s = .next t → Inv t

/-- The state after reset meets the invariant; that reset lists no cell is notes/assumptions/5.md. -/
def Obligations.ResetMeetsTheInvariant : Prop := Inv State.reset

/-- 20_memory.md R62, 93_implementation_defined.md U11: from a state of the invariant, the only thing that stops a step is a
sequencer read of a byte of IN, below IN_LEN, that the host never wrote. -/
def Obligations.OnlyAnUnwrittenByteStops : Prop :=
  ∀ (s : State) (f : Fault), Inv s → step s = .fault f →
    ∃ k, f = .inNeverWritten k ∧ k < s.IN_LEN.toNat ∧ s.IN.read k = none

/-- And it does stop: HUF.ENC, whose first pass reads all of IN in order, stops at the first byte never written
(20_memory.md R62, 70_reset_and_hazards.md R273; that it is a fault is the spec's advice, notes/assumptions/5.md). -/
def Obligations.UnwrittenByteStopsHufEnc : Prop :=
  ∀ (s : State) (k : Nat), AtEntry s → s.IN_LEN.toNat ≤ s.cfg.IN_CAP → k < s.IN_LEN.toNat → s.IN.read k = none →
    (∀ j, j < k → (s.IN.read j).isSome) → exec .hufEnc s = .fault (.inNeverWritten k)

/-- No step is refused: every instruction has its meaning, and every move of the host too. The latter is the model's choice:
the spec advises to refuse a run with a reserved command word (30_encoding.md R105, 93_implementation_defined.md U9;
notes/assumptions/7.md) or with a host read of IN or OUT while BUSY (20_memory.md R66, U10; notes/assumptions/6.md). -/
def Obligations.NothingIsRefused : Prop :=
  ∀ (s : State) (r : Refusal), step s ≠ .refused r
end

