-- ==== Sys2Proof/Laws/Memory.lean ====
section
/-! SUPPORT. The laws of the byte memories: what a read after a write gives, and that a write keeps the canonical form. -/

namespace Sys2Proof.Machine.Memory

@[simp] theorem read_nil (i : Nat) : Memory.read [] i = none := rfl

theorem read_cons (c : Host.Cell) (m : Memory) (i : Nat) :
    Memory.read (c :: m) i = if c.1 = i then some c.2 else Memory.read m i := rfl

/-- A cell below every listed index holds no value. -/
theorem read_none_of_lt {m : Memory} {i : Nat} (h : ∀ c ∈ m, i < c.1) : m.read i = none := by
  induction m with
  | nil => rfl
  | cons c m ih =>
    have hc := h c (by simp)
    rw [read_cons, if_neg (by omega)]
    exact ih fun d hd => h d (by simp [hd])

/-- Where a written memory reads what was written, and where it reads as before. -/
theorem read_write (m : Memory) (i j : Nat) (v : Byte) (h : m.wf) :
    (m.write i v).read j = if j = i then some v else m.read j := by
  induction m with
  | nil => simp [write, read_cons, eq_comm]
  | cons c m ih =>
    obtain ⟨hc, hm⟩ := List.pairwise_cons.1 h
    simp only [write]
    split
    · rename_i hlt
      simp only [read_cons]
      by_cases hji : j = i
      · simp [hji]
      · simp [hji, Ne.symm hji]
    · split
      · rename_i hne heq
        subst heq
        simp only [read_cons]
        by_cases hji : j = c.1
        · simp [hji]
        · simp [hji, Ne.symm hji]
      · rename_i hlt hne
        simp only [read_cons, ih hm]
        by_cases hcj : c.1 = j
        · have : j ≠ i := by omega
          simp [hcj, this]
        · simp [hcj]

@[simp] theorem read_write_same (m : Memory) (i : Nat) (v : Byte) (h : m.wf) : (m.write i v).read i = some v := by
  simp [read_write m i i v h]

theorem read_write_other (m : Memory) {i j : Nat} (v : Byte) (h : m.wf) (hne : j ≠ i) :
    (m.write i v).read j = m.read j := by
  simp [read_write m i j v h, hne]

/-- The cells of a written memory are the written one and old ones. -/
theorem mem_write {m : Memory} {i : Nat} {v : Byte} {c : Host.Cell} (h : c ∈ m.write i v) : c = (i, v) ∨ c ∈ m := by
  induction m with
  | nil => simpa [write] using h
  | cons d m ih =>
    simp only [write] at h
    split at h
    · simpa using h
    · split at h
      · rcases List.mem_cons.1 h with h | h
        · exact .inl h
        · exact .inr (List.mem_cons_of_mem _ h)
      · rcases List.mem_cons.1 h with h | h
        · exact .inr (h ▸ List.mem_cons_self ..)
        · exact (ih h).imp id (List.mem_cons_of_mem _)

/-- A write keeps the canonical form. -/
theorem wf_write {m : Memory} (i : Nat) (v : Byte) (h : m.wf) : (m.write i v).wf := by
  induction m with
  | nil => simp [write]
  | cons c m ih =>
    obtain ⟨hc, hm⟩ := List.pairwise_cons.1 h
    simp only [write]
    split
    · rename_i hlt
      refine List.pairwise_cons.2 ⟨fun d hd => ?_, h⟩
      rcases List.mem_cons.1 hd with rfl | hd
      · exact hlt
      · exact Nat.lt_trans hlt (hc d hd)
    · split
      · rename_i heq
        subst heq
        exact List.pairwise_cons.2 ⟨hc, hm⟩
      · rename_i hlt hne
        refine List.pairwise_cons.2 ⟨fun d hd => ?_, ih hm⟩
        rcases mem_write hd with rfl | hd
        · show c.1 < i
          omega
        · exact hc d hd

/-- A write below a capacity keeps every index below it. -/
theorem below_write {m : Memory} {cap i : Nat} (v : Byte) (h : m.below cap) (hi : i < cap) : (m.write i v).below cap := by
  intro c hc
  rcases mem_write hc with rfl | hc
  · exact hi
  · exact h c hc

/-- A canonical memory holds nothing from a capacity on. -/
theorem read_below {m : Memory} {cap i : Nat} (h : m.below cap) (hi : cap ≤ i) : m.read i = none := by
  induction m with
  | nil => rfl
  | cons c m ih =>
    have hc := h c (by simp)
    rw [read_cons, if_neg (by omega)]
    exact ih fun d hd => h d (by simp [hd])

/-- In canonical form, equal reads are equal data. -/
theorem eq_of_read_eq {m n : Memory} (hm : m.wf) (hn : n.wf) (h : ∀ i, m.read i = n.read i) : m = n := by
  induction m generalizing n with
  | nil =>
    cases n with
    | nil => rfl
    | cons d n => simpa [read_cons] using h d.1
  | cons c m ih =>
    obtain ⟨hc, hm'⟩ := List.pairwise_cons.1 hm
    cases n with
    | nil => simpa [read_cons] using h c.1
    | cons d n =>
      obtain ⟨hd, hn'⟩ := List.pairwise_cons.1 hn
      have hcd : c.1 = d.1 := by
        rcases Nat.lt_trichotomy c.1 d.1 with hlt | heq | hlt
        · have := h c.1
          rw [read_cons, if_pos rfl, read_cons, if_neg (by omega),
            read_none_of_lt fun e he => Nat.lt_trans hlt (hd e he)] at this
          simp at this
        · exact heq
        · have := h d.1
          rw [read_cons, if_neg (by omega), read_none_of_lt fun e he => Nat.lt_trans hlt (hc e he),
            read_cons, if_pos rfl] at this
          simp at this
      have hval : c.2 = d.2 := by simpa [read_cons, hcd] using h c.1
      have hrest : m = n := by
        refine ih hm' hn' fun i => ?_
        have hi := h i
        simp only [read_cons, hcd, hval] at hi
        by_cases hdi : d.1 = i
        · rw [read_none_of_lt fun e he => by have := hc e he; omega,
            read_none_of_lt fun e he => by have := hd e he; omega]
        · simpa [hdi] using hi
      rw [hrest, show c = d from Prod.ext hcd hval]

/-- Placing bytes keeps the canonical form. -/
theorem wf_place {m : Memory} (i : Nat) (bs : List Byte) (h : m.wf) : (m.place i bs).wf := by
  induction bs generalizing i with
  | nil => exact h
  | cons b bs ih => exact wf_write _ _ (ih (i + 1))

/-- What placed bytes read as. -/
theorem read_place {m : Memory} (i j : Nat) (bs : List Byte) (h : m.wf) :
    (m.place i bs).read j = if i ≤ j ∧ j < i + bs.length then bs[j - i]? else m.read j := by
  induction bs generalizing i with
  | nil =>
    have : ¬(i ≤ j ∧ j < i + ([] : List Byte).length) := by simp
    rw [if_neg this]
    rfl
  | cons b bs ih =>
    rw [place, read_write _ _ _ _ (wf_place (i + 1) bs h), ih (i + 1)]
    by_cases hji : j = i
    · simp [hji]
    · by_cases hr : i + 1 ≤ j ∧ j < i + 1 + bs.length
      · have h2 : i ≤ j ∧ j < i + (b :: bs).length := by simp; omega
        rw [if_neg hji, if_pos hr, if_pos h2, show j - i = (j - (i + 1)) + 1 by omega]
        simp
      · have h2 : ¬(i ≤ j ∧ j < i + (b :: bs).length) := by simp; omega
        rw [if_neg hji, if_neg hr, if_neg h2]

end Sys2Proof.Machine.Memory
end

