-- ==== Sys2Proof/Laws/State.lean ====
section
/-! SUPPORT. What each named update of the state does to each field, one lemma per field, true by rfl. -/

namespace Sys2Proof.Machine

/-! ## START (40_command.md R121) -/

@[simp] theorem start_cfg (v : Word) (s : State) : (start v s).cfg = s.cfg := rfl
@[simp] theorem start_STATE (v : Word) (s : State) : (start v s).STATE = .busy := rfl
@[simp] theorem start_ERR (v : Word) (s : State) : (start v s).ERR = .noError := rfl
@[simp] theorem start_IN_LEN (v : Word) (s : State) : (start v s).IN_LEN = s.IN_LEN := rfl
@[simp] theorem start_OUT_LEN (v : Word) (s : State) : (start v s).OUT_LEN = 0 := rfl
@[simp] theorem start_ALG (v : Word) (s : State) : (start v s).ALG = v.extractLsb' 0 2 := rfl
@[simp] theorem start_DIR (v : Word) (s : State) : (start v s).DIR = v.extractLsb' 2 1 := rfl
@[simp] theorem start_phase (v : Word) (s : State) : (start v s).phase = .pEntry := rfl
@[simp] theorem start_ip (v : Word) (s : State) : (start v s).ip = 0 := rfl
@[simp] theorem start_op (v : Word) (s : State) : (start v s).op = 0 := rfl
@[simp] theorem start_cur (v : Word) (s : State) : (start v s).cur = s.cur := rfl
@[simp] theorem start_cnt (v : Word) (s : State) : (start v s).cnt = s.cnt := rfl
@[simp] theorem start_FREQ (v : Word) (s : State) : (start v s).FREQ = s.FREQ := rfl
@[simp] theorem start_NODE (v : Word) (s : State) : (start v s).NODE = s.NODE := rfl
@[simp] theorem start_ROOT (v : Word) (s : State) : (start v s).ROOT = s.ROOT := rfl
@[simp] theorem start_K (v : Word) (s : State) : (start v s).K = s.K := rfl
@[simp] theorem start_ACTIVE (v : Word) (s : State) : (start v s).ACTIVE = s.ACTIVE := rfl
@[simp] theorem start_CODE (v : Word) (s : State) : (start v s).CODE = s.CODE := rfl
@[simp] theorem start_LEN (v : Word) (s : State) : (start v s).LEN = s.LEN := rfl
@[simp] theorem start_acc (v : Word) (s : State) : (start v s).acc = s.acc := rfl
@[simp] theorem start_nbits (v : Word) (s : State) : (start v s).nbits = s.nbits := rfl
@[simp] theorem start_N (v : Word) (s : State) : (start v s).N = s.N := rfl
@[simp] theorem start_node (v : Word) (s : State) : (start v s).node = s.node := rfl
@[simp] theorem start_bitpos (v : Word) (s : State) : (start v s).bitpos = s.bitpos := rfl
@[simp] theorem start_fsum (v : Word) (s : State) : (start v s).fsum = s.fsum := rfl
@[simp] theorem start_o (v : Word) (s : State) : (start v s).o = s.o := rfl
@[simp] theorem start_k (v : Word) (s : State) : (start v s).k = s.k := rfl
@[simp] theorem start_best (v : Word) (s : State) : (start v s).best = s.best := rfl
@[simp] theorem start_boff (v : Word) (s : State) : (start v s).boff = s.boff := rfl
@[simp] theorem start_WIN (v : Word) (s : State) : (start v s).WIN = s.WIN := rfl
@[simp] theorem start_wp (v : Word) (s : State) : (start v s).wp = s.wp := rfl
@[simp] theorem start_off (v : Word) (s : State) : (start v s).off = s.off := rfl
@[simp] theorem start_len (v : Word) (s : State) : (start v s).len = s.len := rfl
@[simp] theorem start_IN (v : Word) (s : State) : (start v s).IN = s.IN := rfl
@[simp] theorem start_OUT (v : Word) (s : State) : (start v s).OUT = s.OUT := rfl
@[simp] theorem start_host (v : Word) (s : State) : (start v s).host = s.host := rfl
@[simp] theorem start_replies (v : Word) (s : State) : (start v s).replies = s.replies := rfl
@[simp] theorem start_freeCtr (v : Word) (s : State) : (start v s).freeCtr = s.freeCtr := rfl

/-! ## The write of `emit` (40_command.md R125) -/

@[simp] theorem pushOut_cfg (v : Byte) (s : State) : (pushOut v s).cfg = s.cfg := rfl
@[simp] theorem pushOut_STATE (v : Byte) (s : State) : (pushOut v s).STATE = s.STATE := rfl
@[simp] theorem pushOut_ERR (v : Byte) (s : State) : (pushOut v s).ERR = s.ERR := rfl
@[simp] theorem pushOut_IN_LEN (v : Byte) (s : State) : (pushOut v s).IN_LEN = s.IN_LEN := rfl
@[simp] theorem pushOut_OUT_LEN (v : Byte) (s : State) : (pushOut v s).OUT_LEN = s.OUT_LEN := rfl
@[simp] theorem pushOut_ALG (v : Byte) (s : State) : (pushOut v s).ALG = s.ALG := rfl
@[simp] theorem pushOut_DIR (v : Byte) (s : State) : (pushOut v s).DIR = s.DIR := rfl
@[simp] theorem pushOut_phase (v : Byte) (s : State) : (pushOut v s).phase = s.phase := rfl
@[simp] theorem pushOut_ip (v : Byte) (s : State) : (pushOut v s).ip = s.ip := rfl
@[simp] theorem pushOut_op (v : Byte) (s : State) : (pushOut v s).op = s.op + 1 := rfl
@[simp] theorem pushOut_cur (v : Byte) (s : State) : (pushOut v s).cur = s.cur := rfl
@[simp] theorem pushOut_cnt (v : Byte) (s : State) : (pushOut v s).cnt = s.cnt := rfl
@[simp] theorem pushOut_FREQ (v : Byte) (s : State) : (pushOut v s).FREQ = s.FREQ := rfl
@[simp] theorem pushOut_NODE (v : Byte) (s : State) : (pushOut v s).NODE = s.NODE := rfl
@[simp] theorem pushOut_ROOT (v : Byte) (s : State) : (pushOut v s).ROOT = s.ROOT := rfl
@[simp] theorem pushOut_K (v : Byte) (s : State) : (pushOut v s).K = s.K := rfl
@[simp] theorem pushOut_ACTIVE (v : Byte) (s : State) : (pushOut v s).ACTIVE = s.ACTIVE := rfl
@[simp] theorem pushOut_CODE (v : Byte) (s : State) : (pushOut v s).CODE = s.CODE := rfl
@[simp] theorem pushOut_LEN (v : Byte) (s : State) : (pushOut v s).LEN = s.LEN := rfl
@[simp] theorem pushOut_acc (v : Byte) (s : State) : (pushOut v s).acc = s.acc := rfl
@[simp] theorem pushOut_nbits (v : Byte) (s : State) : (pushOut v s).nbits = s.nbits := rfl
@[simp] theorem pushOut_N (v : Byte) (s : State) : (pushOut v s).N = s.N := rfl
@[simp] theorem pushOut_node (v : Byte) (s : State) : (pushOut v s).node = s.node := rfl
@[simp] theorem pushOut_bitpos (v : Byte) (s : State) : (pushOut v s).bitpos = s.bitpos := rfl
@[simp] theorem pushOut_fsum (v : Byte) (s : State) : (pushOut v s).fsum = s.fsum := rfl
@[simp] theorem pushOut_o (v : Byte) (s : State) : (pushOut v s).o = s.o := rfl
@[simp] theorem pushOut_k (v : Byte) (s : State) : (pushOut v s).k = s.k := rfl
@[simp] theorem pushOut_best (v : Byte) (s : State) : (pushOut v s).best = s.best := rfl
@[simp] theorem pushOut_boff (v : Byte) (s : State) : (pushOut v s).boff = s.boff := rfl
@[simp] theorem pushOut_WIN (v : Byte) (s : State) : (pushOut v s).WIN = s.WIN := rfl
@[simp] theorem pushOut_wp (v : Byte) (s : State) : (pushOut v s).wp = s.wp := rfl
@[simp] theorem pushOut_off (v : Byte) (s : State) : (pushOut v s).off = s.off := rfl
@[simp] theorem pushOut_len (v : Byte) (s : State) : (pushOut v s).len = s.len := rfl
@[simp] theorem pushOut_IN (v : Byte) (s : State) : (pushOut v s).IN = s.IN := rfl
@[simp] theorem pushOut_OUT (v : Byte) (s : State) : (pushOut v s).OUT = s.OUT.write s.op.toNat v := rfl
@[simp] theorem pushOut_host (v : Byte) (s : State) : (pushOut v s).host = s.host := rfl
@[simp] theorem pushOut_replies (v : Byte) (s : State) : (pushOut v s).replies = s.replies := rfl
@[simp] theorem pushOut_freeCtr (v : Byte) (s : State) : (pushOut v s).freeCtr = s.freeCtr := rfl

/-! ## The write of `append` (45_lz77_decode.md R225) -/

@[simp] theorem pushWindow_cfg (v : Byte) (s : State) : (pushWindow v s).cfg = s.cfg := rfl
@[simp] theorem pushWindow_STATE (v : Byte) (s : State) : (pushWindow v s).STATE = s.STATE := rfl
@[simp] theorem pushWindow_ERR (v : Byte) (s : State) : (pushWindow v s).ERR = s.ERR := rfl
@[simp] theorem pushWindow_IN_LEN (v : Byte) (s : State) : (pushWindow v s).IN_LEN = s.IN_LEN := rfl
@[simp] theorem pushWindow_OUT_LEN (v : Byte) (s : State) : (pushWindow v s).OUT_LEN = s.OUT_LEN := rfl
@[simp] theorem pushWindow_ALG (v : Byte) (s : State) : (pushWindow v s).ALG = s.ALG := rfl
@[simp] theorem pushWindow_DIR (v : Byte) (s : State) : (pushWindow v s).DIR = s.DIR := rfl
@[simp] theorem pushWindow_phase (v : Byte) (s : State) : (pushWindow v s).phase = s.phase := rfl
@[simp] theorem pushWindow_ip (v : Byte) (s : State) : (pushWindow v s).ip = s.ip := rfl
@[simp] theorem pushWindow_op (v : Byte) (s : State) : (pushWindow v s).op = s.op := rfl
@[simp] theorem pushWindow_cur (v : Byte) (s : State) : (pushWindow v s).cur = s.cur := rfl
@[simp] theorem pushWindow_cnt (v : Byte) (s : State) : (pushWindow v s).cnt = s.cnt := rfl
@[simp] theorem pushWindow_FREQ (v : Byte) (s : State) : (pushWindow v s).FREQ = s.FREQ := rfl
@[simp] theorem pushWindow_NODE (v : Byte) (s : State) : (pushWindow v s).NODE = s.NODE := rfl
@[simp] theorem pushWindow_ROOT (v : Byte) (s : State) : (pushWindow v s).ROOT = s.ROOT := rfl
@[simp] theorem pushWindow_K (v : Byte) (s : State) : (pushWindow v s).K = s.K := rfl
@[simp] theorem pushWindow_ACTIVE (v : Byte) (s : State) : (pushWindow v s).ACTIVE = s.ACTIVE := rfl
@[simp] theorem pushWindow_CODE (v : Byte) (s : State) : (pushWindow v s).CODE = s.CODE := rfl
@[simp] theorem pushWindow_LEN (v : Byte) (s : State) : (pushWindow v s).LEN = s.LEN := rfl
@[simp] theorem pushWindow_acc (v : Byte) (s : State) : (pushWindow v s).acc = s.acc := rfl
@[simp] theorem pushWindow_nbits (v : Byte) (s : State) : (pushWindow v s).nbits = s.nbits := rfl
@[simp] theorem pushWindow_N (v : Byte) (s : State) : (pushWindow v s).N = s.N := rfl
@[simp] theorem pushWindow_node (v : Byte) (s : State) : (pushWindow v s).node = s.node := rfl
@[simp] theorem pushWindow_bitpos (v : Byte) (s : State) : (pushWindow v s).bitpos = s.bitpos := rfl
@[simp] theorem pushWindow_fsum (v : Byte) (s : State) : (pushWindow v s).fsum = s.fsum := rfl
@[simp] theorem pushWindow_o (v : Byte) (s : State) : (pushWindow v s).o = s.o := rfl
@[simp] theorem pushWindow_k (v : Byte) (s : State) : (pushWindow v s).k = s.k := rfl
@[simp] theorem pushWindow_best (v : Byte) (s : State) : (pushWindow v s).best = s.best := rfl
@[simp] theorem pushWindow_boff (v : Byte) (s : State) : (pushWindow v s).boff = s.boff := rfl
@[simp] theorem pushWindow_WIN (v : Byte) (s : State) : (pushWindow v s).WIN = s.WIN.write s.wp.toNat v := rfl
@[simp] theorem pushWindow_wp (v : Byte) (s : State) : (pushWindow v s).wp = BitVec.ofNat 16 ((s.wp.toNat + 1) % s.cfg.W) := rfl
@[simp] theorem pushWindow_off (v : Byte) (s : State) : (pushWindow v s).off = s.off := rfl
@[simp] theorem pushWindow_len (v : Byte) (s : State) : (pushWindow v s).len = s.len := rfl
@[simp] theorem pushWindow_IN (v : Byte) (s : State) : (pushWindow v s).IN = s.IN := rfl
@[simp] theorem pushWindow_OUT (v : Byte) (s : State) : (pushWindow v s).OUT = s.OUT := rfl
@[simp] theorem pushWindow_host (v : Byte) (s : State) : (pushWindow v s).host = s.host := rfl
@[simp] theorem pushWindow_replies (v : Byte) (s : State) : (pushWindow v s).replies = s.replies := rfl
@[simp] theorem pushWindow_freeCtr (v : Byte) (s : State) : (pushWindow v s).freeCtr = s.freeCtr := rfl

/-! ## The end of a RUN token (41_rle.md R146) -/

@[simp] theorem endRun_cfg (s : State) : (endRun s).cfg = s.cfg := rfl
@[simp] theorem endRun_STATE (s : State) : (endRun s).STATE = s.STATE := rfl
@[simp] theorem endRun_ERR (s : State) : (endRun s).ERR = s.ERR := rfl
@[simp] theorem endRun_IN_LEN (s : State) : (endRun s).IN_LEN = s.IN_LEN := rfl
@[simp] theorem endRun_OUT_LEN (s : State) : (endRun s).OUT_LEN = s.OUT_LEN := rfl
@[simp] theorem endRun_ALG (s : State) : (endRun s).ALG = s.ALG := rfl
@[simp] theorem endRun_DIR (s : State) : (endRun s).DIR = s.DIR := rfl
@[simp] theorem endRun_phase (s : State) : (endRun s).phase = .rdPair := rfl
@[simp] theorem endRun_ip (s : State) : (endRun s).ip = s.ip + 2 := rfl
@[simp] theorem endRun_op (s : State) : (endRun s).op = s.op := rfl
@[simp] theorem endRun_cur (s : State) : (endRun s).cur = s.cur := rfl
@[simp] theorem endRun_cnt (s : State) : (endRun s).cnt = s.cnt := rfl
@[simp] theorem endRun_FREQ (s : State) : (endRun s).FREQ = s.FREQ := rfl
@[simp] theorem endRun_NODE (s : State) : (endRun s).NODE = s.NODE := rfl
@[simp] theorem endRun_ROOT (s : State) : (endRun s).ROOT = s.ROOT := rfl
@[simp] theorem endRun_K (s : State) : (endRun s).K = s.K := rfl
@[simp] theorem endRun_ACTIVE (s : State) : (endRun s).ACTIVE = s.ACTIVE := rfl
@[simp] theorem endRun_CODE (s : State) : (endRun s).CODE = s.CODE := rfl
@[simp] theorem endRun_LEN (s : State) : (endRun s).LEN = s.LEN := rfl
@[simp] theorem endRun_acc (s : State) : (endRun s).acc = s.acc := rfl
@[simp] theorem endRun_nbits (s : State) : (endRun s).nbits = s.nbits := rfl
@[simp] theorem endRun_N (s : State) : (endRun s).N = s.N := rfl
@[simp] theorem endRun_node (s : State) : (endRun s).node = s.node := rfl
@[simp] theorem endRun_bitpos (s : State) : (endRun s).bitpos = s.bitpos := rfl
@[simp] theorem endRun_fsum (s : State) : (endRun s).fsum = s.fsum := rfl
@[simp] theorem endRun_o (s : State) : (endRun s).o = s.o := rfl
@[simp] theorem endRun_k (s : State) : (endRun s).k = s.k := rfl
@[simp] theorem endRun_best (s : State) : (endRun s).best = s.best := rfl
@[simp] theorem endRun_boff (s : State) : (endRun s).boff = s.boff := rfl
@[simp] theorem endRun_WIN (s : State) : (endRun s).WIN = s.WIN := rfl
@[simp] theorem endRun_wp (s : State) : (endRun s).wp = s.wp := rfl
@[simp] theorem endRun_off (s : State) : (endRun s).off = s.off := rfl
@[simp] theorem endRun_len (s : State) : (endRun s).len = s.len := rfl
@[simp] theorem endRun_IN (s : State) : (endRun s).IN = s.IN := rfl
@[simp] theorem endRun_OUT (s : State) : (endRun s).OUT = s.OUT := rfl
@[simp] theorem endRun_host (s : State) : (endRun s).host = s.host := rfl
@[simp] theorem endRun_replies (s : State) : (endRun s).replies = s.replies := rfl
@[simp] theorem endRun_freeCtr (s : State) : (endRun s).freeCtr = s.freeCtr := rfl

/-! ## The end of a MATCH token (45_lz77_decode.md R224) -/

@[simp] theorem endMatch_cfg (s : State) : (endMatch s).cfg = s.cfg := rfl
@[simp] theorem endMatch_STATE (s : State) : (endMatch s).STATE = s.STATE := rfl
@[simp] theorem endMatch_ERR (s : State) : (endMatch s).ERR = s.ERR := rfl
@[simp] theorem endMatch_IN_LEN (s : State) : (endMatch s).IN_LEN = s.IN_LEN := rfl
@[simp] theorem endMatch_OUT_LEN (s : State) : (endMatch s).OUT_LEN = s.OUT_LEN := rfl
@[simp] theorem endMatch_ALG (s : State) : (endMatch s).ALG = s.ALG := rfl
@[simp] theorem endMatch_DIR (s : State) : (endMatch s).DIR = s.DIR := rfl
@[simp] theorem endMatch_phase (s : State) : (endMatch s).phase = .ldToken := rfl
@[simp] theorem endMatch_ip (s : State) : (endMatch s).ip = s.ip + 4 := rfl
@[simp] theorem endMatch_op (s : State) : (endMatch s).op = s.op := rfl
@[simp] theorem endMatch_cur (s : State) : (endMatch s).cur = s.cur := rfl
@[simp] theorem endMatch_cnt (s : State) : (endMatch s).cnt = s.cnt := rfl
@[simp] theorem endMatch_FREQ (s : State) : (endMatch s).FREQ = s.FREQ := rfl
@[simp] theorem endMatch_NODE (s : State) : (endMatch s).NODE = s.NODE := rfl
@[simp] theorem endMatch_ROOT (s : State) : (endMatch s).ROOT = s.ROOT := rfl
@[simp] theorem endMatch_K (s : State) : (endMatch s).K = s.K := rfl
@[simp] theorem endMatch_ACTIVE (s : State) : (endMatch s).ACTIVE = s.ACTIVE := rfl
@[simp] theorem endMatch_CODE (s : State) : (endMatch s).CODE = s.CODE := rfl
@[simp] theorem endMatch_LEN (s : State) : (endMatch s).LEN = s.LEN := rfl
@[simp] theorem endMatch_acc (s : State) : (endMatch s).acc = s.acc := rfl
@[simp] theorem endMatch_nbits (s : State) : (endMatch s).nbits = s.nbits := rfl
@[simp] theorem endMatch_N (s : State) : (endMatch s).N = s.N := rfl
@[simp] theorem endMatch_node (s : State) : (endMatch s).node = s.node := rfl
@[simp] theorem endMatch_bitpos (s : State) : (endMatch s).bitpos = s.bitpos := rfl
@[simp] theorem endMatch_fsum (s : State) : (endMatch s).fsum = s.fsum := rfl
@[simp] theorem endMatch_o (s : State) : (endMatch s).o = s.o := rfl
@[simp] theorem endMatch_k (s : State) : (endMatch s).k = s.k := rfl
@[simp] theorem endMatch_best (s : State) : (endMatch s).best = s.best := rfl
@[simp] theorem endMatch_boff (s : State) : (endMatch s).boff = s.boff := rfl
@[simp] theorem endMatch_WIN (s : State) : (endMatch s).WIN = s.WIN := rfl
@[simp] theorem endMatch_wp (s : State) : (endMatch s).wp = s.wp := rfl
@[simp] theorem endMatch_off (s : State) : (endMatch s).off = s.off := rfl
@[simp] theorem endMatch_len (s : State) : (endMatch s).len = s.len := rfl
@[simp] theorem endMatch_IN (s : State) : (endMatch s).IN = s.IN := rfl
@[simp] theorem endMatch_OUT (s : State) : (endMatch s).OUT = s.OUT := rfl
@[simp] theorem endMatch_host (s : State) : (endMatch s).host = s.host := rfl
@[simp] theorem endMatch_replies (s : State) : (endMatch s).replies = s.replies := rfl
@[simp] theorem endMatch_freeCtr (s : State) : (endMatch s).freeCtr = s.freeCtr := rfl

/-! ## A loaded Huffman header (43_huffman_decode.md R181) -/

@[simp] theorem loadHeader_cfg (total : Word) (freq : FreqTable) (s : State) : (loadHeader total freq s).cfg = s.cfg := rfl
@[simp] theorem loadHeader_STATE (total : Word) (freq : FreqTable) (s : State) : (loadHeader total freq s).STATE = s.STATE := rfl
@[simp] theorem loadHeader_ERR (total : Word) (freq : FreqTable) (s : State) : (loadHeader total freq s).ERR = s.ERR := rfl
@[simp] theorem loadHeader_IN_LEN (total : Word) (freq : FreqTable) (s : State) : (loadHeader total freq s).IN_LEN = s.IN_LEN := rfl
@[simp] theorem loadHeader_OUT_LEN (total : Word) (freq : FreqTable) (s : State) : (loadHeader total freq s).OUT_LEN = s.OUT_LEN := rfl
@[simp] theorem loadHeader_ALG (total : Word) (freq : FreqTable) (s : State) : (loadHeader total freq s).ALG = s.ALG := rfl
@[simp] theorem loadHeader_DIR (total : Word) (freq : FreqTable) (s : State) : (loadHeader total freq s).DIR = s.DIR := rfl
@[simp] theorem loadHeader_phase (total : Word) (freq : FreqTable) (s : State) : (loadHeader total freq s).phase = s.phase := rfl
@[simp] theorem loadHeader_ip (total : Word) (freq : FreqTable) (s : State) : (loadHeader total freq s).ip = 1028 := rfl
@[simp] theorem loadHeader_op (total : Word) (freq : FreqTable) (s : State) : (loadHeader total freq s).op = s.op := rfl
@[simp] theorem loadHeader_cur (total : Word) (freq : FreqTable) (s : State) : (loadHeader total freq s).cur = s.cur := rfl
@[simp] theorem loadHeader_cnt (total : Word) (freq : FreqTable) (s : State) : (loadHeader total freq s).cnt = s.cnt := rfl
@[simp] theorem loadHeader_FREQ (total : Word) (freq : FreqTable) (s : State) : (loadHeader total freq s).FREQ = freq := rfl
@[simp] theorem loadHeader_NODE (total : Word) (freq : FreqTable) (s : State) : (loadHeader total freq s).NODE = s.NODE := rfl
@[simp] theorem loadHeader_ROOT (total : Word) (freq : FreqTable) (s : State) : (loadHeader total freq s).ROOT = s.ROOT := rfl
@[simp] theorem loadHeader_K (total : Word) (freq : FreqTable) (s : State) : (loadHeader total freq s).K = s.K := rfl
@[simp] theorem loadHeader_ACTIVE (total : Word) (freq : FreqTable) (s : State) : (loadHeader total freq s).ACTIVE = s.ACTIVE := rfl
@[simp] theorem loadHeader_CODE (total : Word) (freq : FreqTable) (s : State) : (loadHeader total freq s).CODE = s.CODE := rfl
@[simp] theorem loadHeader_LEN (total : Word) (freq : FreqTable) (s : State) : (loadHeader total freq s).LEN = s.LEN := rfl
@[simp] theorem loadHeader_acc (total : Word) (freq : FreqTable) (s : State) : (loadHeader total freq s).acc = s.acc := rfl
@[simp] theorem loadHeader_nbits (total : Word) (freq : FreqTable) (s : State) : (loadHeader total freq s).nbits = s.nbits := rfl
@[simp] theorem loadHeader_N (total : Word) (freq : FreqTable) (s : State) : (loadHeader total freq s).N = total := rfl
@[simp] theorem loadHeader_node (total : Word) (freq : FreqTable) (s : State) : (loadHeader total freq s).node = s.node := rfl
@[simp] theorem loadHeader_bitpos (total : Word) (freq : FreqTable) (s : State) : (loadHeader total freq s).bitpos = s.bitpos := rfl
@[simp] theorem loadHeader_fsum (total : Word) (freq : FreqTable) (s : State) : (loadHeader total freq s).fsum = BitVec.ofNat 40 (freqSum freq) := rfl
@[simp] theorem loadHeader_o (total : Word) (freq : FreqTable) (s : State) : (loadHeader total freq s).o = s.o := rfl
@[simp] theorem loadHeader_k (total : Word) (freq : FreqTable) (s : State) : (loadHeader total freq s).k = s.k := rfl
@[simp] theorem loadHeader_best (total : Word) (freq : FreqTable) (s : State) : (loadHeader total freq s).best = s.best := rfl
@[simp] theorem loadHeader_boff (total : Word) (freq : FreqTable) (s : State) : (loadHeader total freq s).boff = s.boff := rfl
@[simp] theorem loadHeader_WIN (total : Word) (freq : FreqTable) (s : State) : (loadHeader total freq s).WIN = s.WIN := rfl
@[simp] theorem loadHeader_wp (total : Word) (freq : FreqTable) (s : State) : (loadHeader total freq s).wp = s.wp := rfl
@[simp] theorem loadHeader_off (total : Word) (freq : FreqTable) (s : State) : (loadHeader total freq s).off = s.off := rfl
@[simp] theorem loadHeader_len (total : Word) (freq : FreqTable) (s : State) : (loadHeader total freq s).len = s.len := rfl
@[simp] theorem loadHeader_IN (total : Word) (freq : FreqTable) (s : State) : (loadHeader total freq s).IN = s.IN := rfl
@[simp] theorem loadHeader_OUT (total : Word) (freq : FreqTable) (s : State) : (loadHeader total freq s).OUT = s.OUT := rfl
@[simp] theorem loadHeader_host (total : Word) (freq : FreqTable) (s : State) : (loadHeader total freq s).host = s.host := rfl
@[simp] theorem loadHeader_replies (total : Word) (freq : FreqTable) (s : State) : (loadHeader total freq s).replies = s.replies := rfl
@[simp] theorem loadHeader_freeCtr (total : Word) (freq : FreqTable) (s : State) : (loadHeader total freq s).freeCtr = s.freeCtr := rfl

/-! ## A built tree (42_huffman_encode.md R162 to R164) -/

@[simp] theorem plantTree_cfg (s : State) : (plantTree s).cfg = s.cfg := rfl
@[simp] theorem plantTree_STATE (s : State) : (plantTree s).STATE = s.STATE := rfl
@[simp] theorem plantTree_ERR (s : State) : (plantTree s).ERR = s.ERR := rfl
@[simp] theorem plantTree_IN_LEN (s : State) : (plantTree s).IN_LEN = s.IN_LEN := rfl
@[simp] theorem plantTree_OUT_LEN (s : State) : (plantTree s).OUT_LEN = s.OUT_LEN := rfl
@[simp] theorem plantTree_ALG (s : State) : (plantTree s).ALG = s.ALG := rfl
@[simp] theorem plantTree_DIR (s : State) : (plantTree s).DIR = s.DIR := rfl
@[simp] theorem plantTree_phase (s : State) : (plantTree s).phase = s.phase := rfl
@[simp] theorem plantTree_ip (s : State) : (plantTree s).ip = s.ip := rfl
@[simp] theorem plantTree_op (s : State) : (plantTree s).op = s.op := rfl
@[simp] theorem plantTree_cur (s : State) : (plantTree s).cur = s.cur := rfl
@[simp] theorem plantTree_cnt (s : State) : (plantTree s).cnt = s.cnt := rfl
@[simp] theorem plantTree_FREQ (s : State) : (plantTree s).FREQ = s.FREQ := rfl
@[simp] theorem plantTree_NODE (s : State) : (plantTree s).NODE = (grow s.FREQ s.NODE).NODE := rfl
@[simp] theorem plantTree_ROOT (s : State) : (plantTree s).ROOT = BitVec.ofNat 9 (rootOf s.FREQ) := rfl
@[simp] theorem plantTree_K (s : State) : (plantTree s).K = BitVec.ofNat 9 (leafCount s.FREQ) := rfl
@[simp] theorem plantTree_ACTIVE (s : State) : (plantTree s).ACTIVE = (grow s.FREQ s.NODE).ACTIVE := rfl
@[simp] theorem plantTree_CODE (s : State) : (plantTree s).CODE = s.CODE := rfl
@[simp] theorem plantTree_LEN (s : State) : (plantTree s).LEN = s.LEN := rfl
@[simp] theorem plantTree_acc (s : State) : (plantTree s).acc = s.acc := rfl
@[simp] theorem plantTree_nbits (s : State) : (plantTree s).nbits = s.nbits := rfl
@[simp] theorem plantTree_N (s : State) : (plantTree s).N = s.N := rfl
@[simp] theorem plantTree_node (s : State) : (plantTree s).node = s.node := rfl
@[simp] theorem plantTree_bitpos (s : State) : (plantTree s).bitpos = s.bitpos := rfl
@[simp] theorem plantTree_fsum (s : State) : (plantTree s).fsum = s.fsum := rfl
@[simp] theorem plantTree_o (s : State) : (plantTree s).o = s.o := rfl
@[simp] theorem plantTree_k (s : State) : (plantTree s).k = s.k := rfl
@[simp] theorem plantTree_best (s : State) : (plantTree s).best = s.best := rfl
@[simp] theorem plantTree_boff (s : State) : (plantTree s).boff = s.boff := rfl
@[simp] theorem plantTree_WIN (s : State) : (plantTree s).WIN = s.WIN := rfl
@[simp] theorem plantTree_wp (s : State) : (plantTree s).wp = s.wp := rfl
@[simp] theorem plantTree_off (s : State) : (plantTree s).off = s.off := rfl
@[simp] theorem plantTree_len (s : State) : (plantTree s).len = s.len := rfl
@[simp] theorem plantTree_IN (s : State) : (plantTree s).IN = s.IN := rfl
@[simp] theorem plantTree_OUT (s : State) : (plantTree s).OUT = s.OUT := rfl
@[simp] theorem plantTree_host (s : State) : (plantTree s).host = s.host := rfl
@[simp] theorem plantTree_replies (s : State) : (plantTree s).replies = s.replies := rfl
@[simp] theorem plantTree_freeCtr (s : State) : (plantTree s).freeCtr = s.freeCtr := rfl

/-! ## The start of a walk (43_huffman_decode.md R185) -/

@[simp] theorem enterWalk_cfg (s : State) : (enterWalk s).cfg = s.cfg := rfl
@[simp] theorem enterWalk_STATE (s : State) : (enterWalk s).STATE = s.STATE := rfl
@[simp] theorem enterWalk_ERR (s : State) : (enterWalk s).ERR = s.ERR := rfl
@[simp] theorem enterWalk_IN_LEN (s : State) : (enterWalk s).IN_LEN = s.IN_LEN := rfl
@[simp] theorem enterWalk_OUT_LEN (s : State) : (enterWalk s).OUT_LEN = s.OUT_LEN := rfl
@[simp] theorem enterWalk_ALG (s : State) : (enterWalk s).ALG = s.ALG := rfl
@[simp] theorem enterWalk_DIR (s : State) : (enterWalk s).DIR = s.DIR := rfl
@[simp] theorem enterWalk_phase (s : State) : (enterWalk s).phase = .hdWalk := rfl
@[simp] theorem enterWalk_ip (s : State) : (enterWalk s).ip = s.ip := rfl
@[simp] theorem enterWalk_op (s : State) : (enterWalk s).op = s.op := rfl
@[simp] theorem enterWalk_cur (s : State) : (enterWalk s).cur = s.cur := rfl
@[simp] theorem enterWalk_cnt (s : State) : (enterWalk s).cnt = s.cnt := rfl
@[simp] theorem enterWalk_FREQ (s : State) : (enterWalk s).FREQ = s.FREQ := rfl
@[simp] theorem enterWalk_NODE (s : State) : (enterWalk s).NODE = s.NODE := rfl
@[simp] theorem enterWalk_ROOT (s : State) : (enterWalk s).ROOT = s.ROOT := rfl
@[simp] theorem enterWalk_K (s : State) : (enterWalk s).K = s.K := rfl
@[simp] theorem enterWalk_ACTIVE (s : State) : (enterWalk s).ACTIVE = s.ACTIVE := rfl
@[simp] theorem enterWalk_CODE (s : State) : (enterWalk s).CODE = s.CODE := rfl
@[simp] theorem enterWalk_LEN (s : State) : (enterWalk s).LEN = s.LEN := rfl
@[simp] theorem enterWalk_acc (s : State) : (enterWalk s).acc = s.acc := rfl
@[simp] theorem enterWalk_nbits (s : State) : (enterWalk s).nbits = s.nbits := rfl
@[simp] theorem enterWalk_N (s : State) : (enterWalk s).N = s.N := rfl
@[simp] theorem enterWalk_node (s : State) : (enterWalk s).node = s.ROOT := rfl
@[simp] theorem enterWalk_bitpos (s : State) : (enterWalk s).bitpos = 0 := rfl
@[simp] theorem enterWalk_fsum (s : State) : (enterWalk s).fsum = s.fsum := rfl
@[simp] theorem enterWalk_o (s : State) : (enterWalk s).o = s.o := rfl
@[simp] theorem enterWalk_k (s : State) : (enterWalk s).k = s.k := rfl
@[simp] theorem enterWalk_best (s : State) : (enterWalk s).best = s.best := rfl
@[simp] theorem enterWalk_boff (s : State) : (enterWalk s).boff = s.boff := rfl
@[simp] theorem enterWalk_WIN (s : State) : (enterWalk s).WIN = s.WIN := rfl
@[simp] theorem enterWalk_wp (s : State) : (enterWalk s).wp = s.wp := rfl
@[simp] theorem enterWalk_off (s : State) : (enterWalk s).off = s.off := rfl
@[simp] theorem enterWalk_len (s : State) : (enterWalk s).len = s.len := rfl
@[simp] theorem enterWalk_IN (s : State) : (enterWalk s).IN = s.IN := rfl
@[simp] theorem enterWalk_OUT (s : State) : (enterWalk s).OUT = s.OUT := rfl
@[simp] theorem enterWalk_host (s : State) : (enterWalk s).host = s.host := rfl
@[simp] theorem enterWalk_replies (s : State) : (enterWalk s).replies = s.replies := rfl
@[simp] theorem enterWalk_freeCtr (s : State) : (enterWalk s).freeCtr = s.freeCtr := rfl

/-! ## A payload bit taken (43_huffman_decode.md R185) -/

@[simp] theorem takeBit_cfg (s : State) : (takeBit s).cfg = s.cfg := rfl
@[simp] theorem takeBit_STATE (s : State) : (takeBit s).STATE = s.STATE := rfl
@[simp] theorem takeBit_ERR (s : State) : (takeBit s).ERR = s.ERR := rfl
@[simp] theorem takeBit_IN_LEN (s : State) : (takeBit s).IN_LEN = s.IN_LEN := rfl
@[simp] theorem takeBit_OUT_LEN (s : State) : (takeBit s).OUT_LEN = s.OUT_LEN := rfl
@[simp] theorem takeBit_ALG (s : State) : (takeBit s).ALG = s.ALG := rfl
@[simp] theorem takeBit_DIR (s : State) : (takeBit s).DIR = s.DIR := rfl
@[simp] theorem takeBit_phase (s : State) : (takeBit s).phase = s.phase := rfl
@[simp] theorem takeBit_ip (s : State) : (takeBit s).ip = BitVec.ofNat 32 (headerLength + (s.bitpos.toNat + 1) / 8) := rfl
@[simp] theorem takeBit_op (s : State) : (takeBit s).op = s.op := rfl
@[simp] theorem takeBit_cur (s : State) : (takeBit s).cur = s.cur := rfl
@[simp] theorem takeBit_cnt (s : State) : (takeBit s).cnt = s.cnt := rfl
@[simp] theorem takeBit_FREQ (s : State) : (takeBit s).FREQ = s.FREQ := rfl
@[simp] theorem takeBit_NODE (s : State) : (takeBit s).NODE = s.NODE := rfl
@[simp] theorem takeBit_ROOT (s : State) : (takeBit s).ROOT = s.ROOT := rfl
@[simp] theorem takeBit_K (s : State) : (takeBit s).K = s.K := rfl
@[simp] theorem takeBit_ACTIVE (s : State) : (takeBit s).ACTIVE = s.ACTIVE := rfl
@[simp] theorem takeBit_CODE (s : State) : (takeBit s).CODE = s.CODE := rfl
@[simp] theorem takeBit_LEN (s : State) : (takeBit s).LEN = s.LEN := rfl
@[simp] theorem takeBit_acc (s : State) : (takeBit s).acc = s.acc := rfl
@[simp] theorem takeBit_nbits (s : State) : (takeBit s).nbits = s.nbits := rfl
@[simp] theorem takeBit_N (s : State) : (takeBit s).N = s.N := rfl
@[simp] theorem takeBit_node (s : State) : (takeBit s).node = s.node := rfl
@[simp] theorem takeBit_bitpos (s : State) : (takeBit s).bitpos = s.bitpos + 1 := rfl
@[simp] theorem takeBit_fsum (s : State) : (takeBit s).fsum = s.fsum := rfl
@[simp] theorem takeBit_o (s : State) : (takeBit s).o = s.o := rfl
@[simp] theorem takeBit_k (s : State) : (takeBit s).k = s.k := rfl
@[simp] theorem takeBit_best (s : State) : (takeBit s).best = s.best := rfl
@[simp] theorem takeBit_boff (s : State) : (takeBit s).boff = s.boff := rfl
@[simp] theorem takeBit_WIN (s : State) : (takeBit s).WIN = s.WIN := rfl
@[simp] theorem takeBit_wp (s : State) : (takeBit s).wp = s.wp := rfl
@[simp] theorem takeBit_off (s : State) : (takeBit s).off = s.off := rfl
@[simp] theorem takeBit_len (s : State) : (takeBit s).len = s.len := rfl
@[simp] theorem takeBit_IN (s : State) : (takeBit s).IN = s.IN := rfl
@[simp] theorem takeBit_OUT (s : State) : (takeBit s).OUT = s.OUT := rfl
@[simp] theorem takeBit_host (s : State) : (takeBit s).host = s.host := rfl
@[simp] theorem takeBit_replies (s : State) : (takeBit s).replies = s.replies := rfl
@[simp] theorem takeBit_freeCtr (s : State) : (takeBit s).freeCtr = s.freeCtr := rfl

/-! ## A host read answered (20_memory.md R64) -/

@[simp] theorem answer_cfg (r : Reply) (s : State) : (answer r s).cfg = s.cfg := rfl
@[simp] theorem answer_STATE (r : Reply) (s : State) : (answer r s).STATE = s.STATE := rfl
@[simp] theorem answer_ERR (r : Reply) (s : State) : (answer r s).ERR = s.ERR := rfl
@[simp] theorem answer_IN_LEN (r : Reply) (s : State) : (answer r s).IN_LEN = s.IN_LEN := rfl
@[simp] theorem answer_OUT_LEN (r : Reply) (s : State) : (answer r s).OUT_LEN = s.OUT_LEN := rfl
@[simp] theorem answer_ALG (r : Reply) (s : State) : (answer r s).ALG = s.ALG := rfl
@[simp] theorem answer_DIR (r : Reply) (s : State) : (answer r s).DIR = s.DIR := rfl
@[simp] theorem answer_phase (r : Reply) (s : State) : (answer r s).phase = s.phase := rfl
@[simp] theorem answer_ip (r : Reply) (s : State) : (answer r s).ip = s.ip := rfl
@[simp] theorem answer_op (r : Reply) (s : State) : (answer r s).op = s.op := rfl
@[simp] theorem answer_cur (r : Reply) (s : State) : (answer r s).cur = s.cur := rfl
@[simp] theorem answer_cnt (r : Reply) (s : State) : (answer r s).cnt = s.cnt := rfl
@[simp] theorem answer_FREQ (r : Reply) (s : State) : (answer r s).FREQ = s.FREQ := rfl
@[simp] theorem answer_NODE (r : Reply) (s : State) : (answer r s).NODE = s.NODE := rfl
@[simp] theorem answer_ROOT (r : Reply) (s : State) : (answer r s).ROOT = s.ROOT := rfl
@[simp] theorem answer_K (r : Reply) (s : State) : (answer r s).K = s.K := rfl
@[simp] theorem answer_ACTIVE (r : Reply) (s : State) : (answer r s).ACTIVE = s.ACTIVE := rfl
@[simp] theorem answer_CODE (r : Reply) (s : State) : (answer r s).CODE = s.CODE := rfl
@[simp] theorem answer_LEN (r : Reply) (s : State) : (answer r s).LEN = s.LEN := rfl
@[simp] theorem answer_acc (r : Reply) (s : State) : (answer r s).acc = s.acc := rfl
@[simp] theorem answer_nbits (r : Reply) (s : State) : (answer r s).nbits = s.nbits := rfl
@[simp] theorem answer_N (r : Reply) (s : State) : (answer r s).N = s.N := rfl
@[simp] theorem answer_node (r : Reply) (s : State) : (answer r s).node = s.node := rfl
@[simp] theorem answer_bitpos (r : Reply) (s : State) : (answer r s).bitpos = s.bitpos := rfl
@[simp] theorem answer_fsum (r : Reply) (s : State) : (answer r s).fsum = s.fsum := rfl
@[simp] theorem answer_o (r : Reply) (s : State) : (answer r s).o = s.o := rfl
@[simp] theorem answer_k (r : Reply) (s : State) : (answer r s).k = s.k := rfl
@[simp] theorem answer_best (r : Reply) (s : State) : (answer r s).best = s.best := rfl
@[simp] theorem answer_boff (r : Reply) (s : State) : (answer r s).boff = s.boff := rfl
@[simp] theorem answer_WIN (r : Reply) (s : State) : (answer r s).WIN = s.WIN := rfl
@[simp] theorem answer_wp (r : Reply) (s : State) : (answer r s).wp = s.wp := rfl
@[simp] theorem answer_off (r : Reply) (s : State) : (answer r s).off = s.off := rfl
@[simp] theorem answer_len (r : Reply) (s : State) : (answer r s).len = s.len := rfl
@[simp] theorem answer_IN (r : Reply) (s : State) : (answer r s).IN = s.IN := rfl
@[simp] theorem answer_OUT (r : Reply) (s : State) : (answer r s).OUT = s.OUT := rfl
@[simp] theorem answer_host (r : Reply) (s : State) : (answer r s).host = s.host := rfl
@[simp] theorem answer_replies (r : Reply) (s : State) : (answer r s).replies = r :: s.replies := rfl
@[simp] theorem answer_freeCtr (r : Reply) (s : State) : (answer r s).freeCtr = s.freeCtr := rfl

end Sys2Proof.Machine
end

