-- ==== Sys2Proof/Laws/Flow.lean ====
section
/-! SUPPORT. What the shared operations can do, said once: sequencing, loops, `emit`, `append`, reads of IN, fetches, and
the shape of a step. -/

namespace Sys2Proof.Machine

/-! ## Sequencing -/

@[simp] theorem Flow.bind_go (s : State) (f : State → Flow) : (Flow.go s).bind f = f s := rfl
@[simp] theorem Flow.bind_ended (s : State) (f : State → Flow) : (Flow.ended s).bind f = .ended s := rfl
@[simp] theorem Flow.bind_stop (e : Fault) (f : State → Flow) : (Flow.stop e).bind f = .stop e := rfl
@[simp] theorem Flow.onRead_ok {α : Type} (v : α) (f : α → Flow) : Flow.onRead (.ok v) f = f v := rfl
@[simp] theorem Flow.onRead_error {α : Type} (e : Fault) (f : α → Flow) : Flow.onRead (.error e) f = .stop e := rfl
@[simp] theorem Flow.outcome_go (s : State) : (Flow.go s).outcome = .next s := rfl
@[simp] theorem Flow.outcome_ended (s : State) : (Flow.ended s).outcome = .next s := rfl
@[simp] theorem Flow.outcome_stop (e : Fault) : (Flow.stop e).outcome = .fault e := rfl

theorem Flow.bind_assoc (x : Flow) (f g : State → Flow) : (x.bind f).bind g = x.bind fun s => (f s).bind g := by
  cases x <;> rfl

/-- Where a piece of pseudocode can leave the sequencer: `goes` of every state it goes on in, `ends` of every state it ends
in, `fails` of every fault it stops with. -/
def Flow.Leaves (goes ends : State → Prop) (fails : Fault → Prop) : Flow → Prop
  | .go s => goes s
  | .ended s => ends s
  | .stop e => fails e

@[simp] theorem Flow.leaves_go {p q : State → Prop} {r : Fault → Prop} {s : State} : (Flow.go s).Leaves p q r ↔ p s := Iff.rfl
@[simp] theorem Flow.leaves_ended {p q : State → Prop} {r : Fault → Prop} {s : State} :
    (Flow.ended s).Leaves p q r ↔ q s := Iff.rfl
@[simp] theorem Flow.leaves_stop {p q : State → Prop} {r : Fault → Prop} {e : Fault} :
    (Flow.stop e).Leaves p q r ↔ r e := Iff.rfl

/-- The rule for one piece after another. -/
theorem Flow.Leaves.bind {p p' q : State → Prop} {r : Fault → Prop} {x : Flow} {f : State → Flow}
    (hx : x.Leaves p q r) (hf : ∀ s, p s → (f s).Leaves p' q r) : (x.bind f).Leaves p' q r := by
  cases x with
  | go s => exact hf s hx
  | ended s => exact hx
  | stop e => exact hx

/-- The rule for weakening what is known. -/
theorem Flow.Leaves.mono {p p' q q' : State → Prop} {r r' : Fault → Prop} {x : Flow} (hx : x.Leaves p q r)
    (hp : ∀ s, p s → p' s) (hq : ∀ s, q s → q' s) (hr : ∀ e, r e → r' e) : x.Leaves p' q' r' := by
  cases x with
  | go s => exact hp s hx
  | ended s => exact hq s hx
  | stop e => exact hr e hx

/-- The rule for a read. -/
theorem Flow.Leaves.onRead {α : Type} {p q : State → Prop} {r : Fault → Prop} {x : Except Fault α} {f : α → Flow}
    (hok : ∀ v, x = .ok v → (f v).Leaves p q r) (herr : ∀ e, x = .error e → r e) : (Flow.onRead x f).Leaves p q r := by
  cases x with
  | ok v => exact hok v rfl
  | error e => exact herr e rfl

/-- What the outcome of a piece of pseudocode can be. -/
theorem Flow.Leaves.outcome {p q : State → Prop} {r : Fault → Prop} {x : Flow} (hx : x.Leaves p q r) :
    (∃ s, x.outcome = .next s ∧ (p s ∨ q s)) ∨ ∃ e, x.outcome = .fault e ∧ r e := by
  cases x with
  | go s => exact .inl ⟨s, rfl, .inl hx⟩
  | ended s => exact .inl ⟨s, rfl, .inr hx⟩
  | stop e => exact .inr ⟨e, rfl, hx⟩

/-! ## Loops -/

@[simp] theorem iterate_zero (f : State → Flow) (again : State → Bool) (s : State) : iterate f again 0 s = .go s := rfl

theorem iterate_succ (f : State → Flow) (again : State → Bool) (n : Nat) (s : State) :
    iterate f again (n + 1) s = if again s then (f s).bind (iterate f again n) else .go s := rfl

/-- The rule for a loop: what every turn keeps, the loop keeps. -/
theorem iterate_leaves {p q : State → Prop} {r : Fault → Prop} {f : State → Flow} {again : State → Bool}
    (h : ∀ s, p s → again s = true → (f s).Leaves p q r) (n : Nat) (s : State) (hs : p s) :
    (iterate f again n s).Leaves p q r := by
  induction n generalizing s with
  | zero => exact hs
  | succ n ih =>
    rw [iterate_succ]
    split
    · exact (h s hs ‹_›).bind ih
    · exact hs

theorem whileBusy_busy {f : State → Flow} {s : State} (h : s.STATE = .busy) : whileBusy f s = (f s).outcome := if_pos h

theorem whileBusy_idle {f : State → Flow} {s : State} (h : s.STATE ≠ .busy) : whileBusy f s = .next s := if_neg h

/-- What an operation run to its end can answer. -/
theorem runOperation_cases {p q : State → Prop} {r : Fault → Prop} {f : State → Flow} {s : State}
    (hbusy : s.STATE = .busy) (h : ∀ s, p s → (f s).Leaves p q r) (hs : p s) :
    (∃ t, runOperation f s = .next t ∧ (p t ∨ q t)) ∨ ∃ e, runOperation f s = .fault e ∧ r e := by
  rw [runOperation, whileBusy_busy hbusy]
  exact (iterate_leaves (fun s hs _ => h s hs) _ s hs).outcome

/-! ## Errors, completion, output -/

theorem raise_eq (e : ErrKind) (s : State) : raise e s = .ended { s with ERR := e, STATE := .error } := rfl

theorem complete_eq (s : State) : complete s = .ended { s with OUT_LEN := s.op, STATE := .done } := rfl

/-- What `emit` can do. -/
theorem emit_cases (v : Byte) (s : State) :
    (s.op.toNat = s.cfg.OUT_CAP ∧ emit v s = raise .capacityOverflow s) ∨
    (s.op.toNat ≠ s.cfg.OUT_CAP ∧ emit v s = .go (pushOut v s)) := by
  unfold emit
  split
  · exact .inl ⟨‹_›, rfl⟩
  · exact .inr ⟨‹_›, rfl⟩

@[simp] theorem emitAll_nil (s : State) : emitAll [] s = .go s := rfl
@[simp] theorem emitAll_cons (v : Byte) (vs : List Byte) (s : State) :
    emitAll (v :: vs) s = (emit v s).bind (emitAll vs) := rfl

theorem emitAll_append (us vs : List Byte) (s : State) : emitAll (us ++ vs) s = (emitAll us s).bind (emitAll vs) := by
  induction us generalizing s with
  | nil => rfl
  | cons u us ih =>
    simp only [List.cons_append, emitAll_cons, Flow.bind_assoc]
    congr 1
    funext t
    exact ih t

/-- What `append` can do. -/
theorem append_cases (v : Byte) (s : State) :
    (s.op.toNat = s.cfg.OUT_CAP ∧ append v s = raise .capacityOverflow s) ∨
    (s.op.toNat ≠ s.cfg.OUT_CAP ∧ append v s = .go (pushWindow v (pushOut v s))) := by
  unfold append
  rcases emit_cases v s with ⟨h, e⟩ | ⟨h, e⟩
  · exact .inl ⟨h, by rw [e]; rfl⟩
  · exact .inr ⟨h, by rw [e]; rfl⟩

/-- What the entry checks can do (40_command.md R123). -/
theorem entryChecks_cases (first : State → Flow) (s : State) :
    (s.IN_LEN.toNat = 0 ∧ entryChecks first s = raise .emptySequence s) ∨
    (s.IN_LEN.toNat ≠ 0 ∧ s.IN_LEN.toNat > s.cfg.IN_CAP ∧ entryChecks first s = raise .capacityOverflow s) ∨
    (1 ≤ s.IN_LEN.toNat ∧ s.IN_LEN.toNat ≤ s.cfg.IN_CAP ∧ entryChecks first s = first s) := by
  unfold entryChecks
  split
  · exact .inl ⟨‹_›, rfl⟩
  · split
    · exact .inr (.inl ⟨‹_›, ‹_›, rfl⟩)
    · exact .inr (.inr ⟨by omega, by omega, rfl⟩)

/-! ## Reads of IN -/

/-- When a read of IN gives a byte. -/
theorem readIn_ok {s : State} {i : Nat} {b : Byte} :
    readIn s i = .ok b ↔ i < s.IN_LEN.toNat ∧ s.IN.read i = some b := by
  unfold readIn
  split
  · split
    · simp_all
    · simp_all
  · simp_all

/-- When a read of IN stops. -/
theorem readIn_error {s : State} {i : Nat} {f : Fault} :
    readIn s i = .error f ↔
      (i < s.IN_LEN.toNat ∧ s.IN.read i = none ∧ f = .inNeverWritten i) ∨
      (s.IN_LEN.toNat ≤ i ∧ f = .inBeyondLength i) := by
  unfold readIn
  split
  · rename_i hi
    have hnot : ¬s.IN_LEN.toNat ≤ i := by omega
    cases hr : s.IN.read i with
    | some b => simp [hnot]
    | none => simp [hi, hnot, eq_comm]
  · rename_i h
    simp [h, eq_comm, Nat.le_of_not_lt h]

/-- Reads depend on IN and IN_LEN alone. -/
theorem readIn_congr {s t : State} (hin : t.IN = s.IN) (hlen : t.IN_LEN = s.IN_LEN) (i : Nat) : readIn t i = readIn s i := by
  unfold readIn
  rw [hin, hlen]

theorem readIns_congr {s t : State} (hin : t.IN = s.IN) (hlen : t.IN_LEN = s.IN_LEN) (n i : Nat) :
    readIns t i n = readIns s i n := by
  induction n generalizing i with
  | zero => rfl
  | succ n ih => simp only [readIns, readIn_congr hin hlen, ih]

/-- When several reads of IN all give bytes. -/
theorem readIns_ok {s : State} {n i : Nat} {bs : List Byte} :
    readIns s i n = .ok bs ↔ bs.length = n ∧ ∀ k (hk : k < bs.length), readIn s (i + k) = .ok bs[k] := by
  induction n generalizing i bs with
  | zero =>
    simp only [readIns, Except.ok.injEq]
    constructor
    · rintro rfl
      simp
    · rintro ⟨h, -⟩
      exact (List.length_eq_zero_iff.1 h).symm
  | succ n ih =>
    simp only [readIns]
    constructor
    · intro h
      split at h
      · cases h
      · rename_i b hb
        split at h
        · cases h
        · rename_i cs hcs
          cases h
          obtain ⟨hl, hk⟩ := ih.1 hcs
          refine ⟨by simp [hl], fun k hk' => ?_⟩
          cases k with
          | zero => simpa using hb
          | succ k =>
            simp only [List.length_cons, Nat.add_lt_add_iff_right] at hk'
            simpa [Nat.add_assoc, Nat.add_comm 1 k] using hk k hk'
    · rintro ⟨hl, hk⟩
      cases bs with
      | nil => simp at hl
      | cons b bs =>
        have h0 := hk 0 (by simp)
        simp only [Nat.add_zero, List.getElem_cons_zero] at h0
        rw [h0]
        have hrest : readIns s (i + 1) n = .ok bs := by
          refine ih.2 ⟨by simpa using hl, fun k hk' => ?_⟩
          have := hk (k + 1) (by simpa using hk')
          simpa [Nat.add_assoc, Nat.add_comm 1 k] using this
        simp [hrest]

/-- When several reads of IN stop, one of them stops. -/
theorem readIns_error {s : State} {n i : Nat} {f : Fault} (h : readIns s i n = .error f) :
    ∃ k, k < n ∧ readIn s (i + k) = .error f := by
  induction n generalizing i with
  | zero => simp [readIns] at h
  | succ n ih =>
    simp only [readIns] at h
    split at h
    · rename_i e he
      cases h
      exact ⟨0, by omega, by simpa using he⟩
    · split at h
      · rename_i e he
        cases h
        obtain ⟨k, hk, hr⟩ := ih he
        exact ⟨k + 1, by omega, by simpa [Nat.add_assoc, Nat.add_comm 1 k] using hr⟩
      · cases h

/-! ## Steps -/

/-- A step with no host move to come, or with the host waiting on a BUSY machine, is the sequencer's turn. -/
theorem step_turn {s : State} (h : s.host = [] ∨ (s.STATE = .busy ∧ ∃ rest, s.host = .wait :: rest)) : step s = turn s := by
  unfold step
  rcases h with h | ⟨hb, rest, h⟩
  · rw [h]
  · rw [h]
    simp [hb]

/-- The turn of a BUSY sequencer. -/
theorem turn_busy {s : State} (h : s.STATE = .busy) :
    turn s = match fetch s with
      | .instr i => exec i s
      | .raises e => (raise e s).outcome
      | .fails f => .fault f := if_pos h

/-- The turn of an idle sequencer does nothing (60_exceptions.md R256). -/
theorem turn_idle {s : State} (h : s.STATE ≠ .busy) : turn s = .next s := if_neg h

/-- What a step can be. -/
theorem step_cases (s : State) :
    (step s = turn s ∧ (s.host = [] ∨ (s.STATE = .busy ∧ ∃ rest, s.host = .wait :: rest))) ∨
    (∃ rest, s.host = .pass :: rest ∧ step s = whileBusy sequencerStep { s with host := rest }) ∨
    (∃ m rest, s.host = m :: rest ∧ m ≠ .pass ∧ (m = .wait → s.STATE ≠ .busy) ∧
      step s = hostMove m { s with host := rest }) := by
  rcases hh : s.host with _ | ⟨m, rest⟩
  · exact .inl ⟨step_turn (.inl hh), .inl rfl⟩
  · by_cases hm : m = .pass
    · subst hm
      exact .inr (.inl ⟨rest, rfl, by unfold step; rw [hh]⟩)
    · by_cases hw : m = .wait ∧ s.STATE = .busy
      · obtain ⟨rfl, hb⟩ := hw
        exact .inl ⟨step_turn (.inr ⟨hb, rest, hh⟩), .inr ⟨hb, rest, rfl⟩⟩
      · refine .inr (.inr ⟨m, rest, rfl, hm, fun h hb => hw ⟨h, hb⟩, ?_⟩)
        unfold step
        rw [hh]
        cases m <;> simp_all

end Sys2Proof.Machine
end

