-- ==== Sys2Proof/Laws/Invariant.lean ====
section
/-! SUPPORT. What each pseudocode step can do to a state of the invariant: the lemmas about the invariant that are cited
instead of unfolding a step. -/

namespace Sys2Proof.Machine

/-! ## Inside an operation -/

/-- The parts of the invariant that hold whether or not an operation runs. -/
structure InvBase (s : State) : Prop where
  config : s.cfg.wf
  status : StatusLaw s
  memory : MemoryLaw s
  output : OutputLaw s

theorem Inv.base {s} (h : Inv s) : InvBase s := ⟨h.1, h.2, h.3, h.4⟩
theorem InvBase.inv {s} (h : InvBase s) (hn : s.STATE ≠ .busy) : Inv s :=
  ⟨h.1, h.2, h.3, h.4, fun e => absurd e hn, fun e => absurd e hn, fun e => absurd e hn, fun e => absurd e hn,
      fun e => absurd e hn⟩

/-- What no step of an operation changes. -/
structure SameInput (s t : State) : Prop where
  cfg : t.cfg = s.cfg
  IN : t.IN = s.IN
  IN_LEN : t.IN_LEN = s.IN_LEN
  ALG : t.ALG = s.ALG
  DIR : t.DIR = s.DIR
theorem SameInput.refl {s} : SameInput s s := ⟨rfl, rfl, rfl, rfl, rfl⟩

/-- The one fault a step of the invariant can end in: a read of a byte of IN that the host never wrote
    (20_memory.md R62). -/
def ReadsUnwritten (s : State) (f : Fault) : Prop := ∃ i, f = .inNeverWritten i ∧ i < s.IN_LEN.toNat ∧
    s.IN.read i = none
theorem ReadsUnwritten.read {s t} (h : SameInput s t) {i f} (hi : i < t.IN_LEN.toNat)
    (hr : readIn t i = .error f) : ReadsUnwritten s f := by
  rcases readIn_error.1 hr with ⟨a, b, c⟩ | ⟨a, b⟩
  · exact ⟨i, c, by rw [← h.IN_LEN]; exact a, by rw [← h.IN]; exact b⟩
  · omega

/-- `raise` ends an operation in a state of the invariant. -/
theorem raise_keeps {s e} (h : InvBase s) (hb : s.STATE = .busy)
    (he : e ≠ .noError) : Inv { s with ERR := e, STATE := .error } := by
  apply InvBase.inv
  · refine ⟨h.1, ⟨by simp [he], fun _ => h.2.2 (by simp [hb])⟩, h.3, by simp, by simp⟩
  · simp

/-- `complete` ends an operation in a state of the invariant. -/
theorem complete_keeps {s} (h : InvBase s) (hb : s.STATE = .busy) : Inv { s with OUT_LEN := s.op, STATE := .done } := by
  apply InvBase.inv
  · refine ⟨h.1, ⟨?_, by simp⟩, h.3, by simp, fun _ => h.4.1 hb⟩
    have := h.2.1
    simp [hb] at this
    simp [this]
  · simp

/-- op does not wrap where OUT has room (30_encoding.md R108). -/
theorem op_succ {s : State} (h : InvBase s) (hb : s.STATE = .busy) (hne : s.op.toNat ≠ s.cfg.OUT_CAP) :
    (s.op + 1).toNat = s.op.toNat + 1 ∧ s.op.toNat < s.cfg.OUT_CAP := by
  have h1 := (h.4.1 hb).1
  have h2 := h.1.2.1.2
  have : s.op.toNat < s.cfg.OUT_CAP := by omega
  refine ⟨?_, this⟩
  rw [BitVec.toNat_add]
  simp
  omega

/-- The write of `emit` keeps what holds of every state. -/
theorem pushOut_base {s : State} (v) (h : InvBase s) (hb : s.STATE = .busy)
    (hne : s.op.toNat ≠ s.cfg.OUT_CAP) : InvBase (pushOut v s) := by
  obtain ⟨e, hl⟩ := op_succ h hb hne
  refine ⟨h.1, h.2, ⟨h.3.1, ⟨Memory.wf_write _ _ h.3.2.1.1, Memory.below_write _ h.3.2.1.2 hl⟩, h.3.2.2⟩, ?_, ?_⟩
  · intro _
    refine ⟨by simp only [pushOut_op, e, pushOut_cfg]; omega, fun j hj => ?_⟩
    simp only [pushOut_op, e, pushOut_OUT] at *
    rw [Memory.read_write _ _ _ _ h.3.2.1.1]
    split
    · simp
    · exact (h.4.1 hb).2 j (by omega)
  · intro hd
    simp [hb] at hd

/-- Inside an operation that started from s: what always holds, and the same input. -/
structure MidRun (s t : State) : Prop where
  base : InvBase t
  busy : t.STATE = .busy
  same : SameInput s t

/-- What `emit` can do inside an operation. -/
theorem emit_runs {s0 s : State} (v) (h : MidRun s0 s) :
    (emit v s).Leaves (fun t => t = pushOut v s ∧ MidRun s0 t ∧
        t.op.toNat = s.op.toNat + 1) Inv (ReadsUnwritten s0) := by
  rcases emit_cases v s with ⟨_, e⟩ | ⟨hn, e⟩
  · rw [e]; exact raise_keeps h.base h.busy (by simp)
  · rw [e]; exact ⟨rfl, ⟨pushOut_base v h.base h.busy hn, h.busy, ⟨h.same.1, h.same.2, h.same.3, h.same.4, h.same.5⟩⟩,
      (op_succ h.base h.busy hn).1⟩

/-- Several emits change only OUT and op. -/
theorem emitAll_runs {s0 : State} (vs) : ∀ {s : State}, MidRun s0 s →
    (emitAll vs s).Leaves (fun t => (∃ O p, t = {s with OUT := O, op := p}) ∧ MidRun s0 t) Inv (ReadsUnwritten s0) := by
  induction vs with
  | nil => intro s h; exact ⟨⟨s.OUT, s.op, rfl⟩, h⟩
  | cons v vs ih =>
    intro s h
    rw [emitAll_cons]
    refine (emit_runs v h).bind ?_
    rintro t ⟨rfl, hm, -⟩
    refine (ih hm).mono ?_ (fun _ h => h) (fun _ h => h)
    rintro u ⟨⟨O, p, rfl⟩, hu⟩
    exact ⟨⟨O, p, rfl⟩, hu⟩

theorem Inv.mid {s} (h : Inv s) (hb : s.STATE = .busy) : MidRun s s := ⟨h.base, hb, SameInput.refl⟩

/-- An update of other registers keeps what always holds. -/
theorem InvBase.congr {s t : State} (h : InvBase s) (a : t.cfg = s.cfg) (b : t.STATE = s.STATE) (c : t.ERR = s.ERR)
    (d : t.OUT_LEN = s.OUT_LEN)
    (e : t.IN = s.IN) (f : t.OUT = s.OUT) (g : t.op = s.op) (w : t.WIN = s.WIN) : InvBase t := by
  obtain ⟨h1, h2, h3, h4⟩ := h
  refine ⟨?_, ?_, ?_, ?_⟩
  · rw [a]; exact h1
  · unfold StatusLaw; rw [b, c, d]; exact h2
  · unfold MemoryLaw; rw [a, e, f, w]; exact h3
  · unfold OutputLaw; rw [a, b, d, f, g]; exact h4

/-- A step that goes on inside the operation: the invariant holds again, and the input is the same. -/
def RunsOn (s0 t : State) : Prop := Inv t ∧ t.STATE = .busy ∧ SameInput s0 t

theorem selected_congr {s t} (h : SameInput s t) : selected t = selected s := by unfold selected; rw [h.ALG, h.DIR]

/-- ip does not wrap below IN_LEN. -/
theorem ip_add {s : State} (k : Nat) (h : s.ip.toNat + k ≤ s.IN_LEN.toNat) :
    (s.ip + BitVec.ofNat 32 k).toNat = s.ip.toNat + k := by
  have := s.IN_LEN.isLt
  rw [BitVec.toNat_add]; simp; omega

/-! ## RLE.ENC -/
theorem phase_of_selected {s} (h : Inv s) (hb : s.STATE = .busy) {i}
    (hi : selected s = some i) : phaseBelongs i s.phase = true := by
  obtain ⟨⟨j, hj, hp⟩, -⟩ := h.counter hb
  rw [hi] at hj; cases hj; exact hp

/-- What the phases of RLE.ENC need. -/
theorem runsOn_rleEnc {s0 t : State} (m : MidRun s0 t) (hs : selected s0 = some .rleEnc) (hp : t.phase = .reScan ∨
    t.phase = .reFinal)
   (hip : t.ip.toNat ≤ t.IN_LEN.toNat) (hl : 1 ≤ t.IN_LEN.toNat ∧
       t.IN_LEN.toNat ≤ t.cfg.IN_CAP) (hc : t.cnt.toNat ≤ 254) : RunsOn s0 t := by
  have hsel := (selected_congr m.same).trans hs
  refine ⟨⟨m.base.1, m.base.2, m.base.3, m.base.4, fun _ => ⟨⟨_, hsel, ?_⟩, hip, fun _ => hl, ?_⟩,
      fun _ => ⟨fun _ => hc, ?_, ?_⟩, fun _ => ⟨?_, ?_, ?_, ?_⟩, fun _ => ?_, fun _ => ⟨?_, ?_⟩⟩, m.busy, m.same⟩ <;>
   rcases hp with hp | hp <;> simp [hp, phaseBelongs]

theorem MidRun.set {s0 s t : State} (m : MidRun s0 s) (a : t.cfg = s.cfg := by rfl) (b : t.STATE = s.STATE := by rfl)
    (c : t.ERR = s.ERR := by rfl) (d : t.OUT_LEN = s.OUT_LEN := by rfl)
    (e : t.IN = s.IN := by rfl) (f : t.OUT = s.OUT := by rfl) (g : t.op = s.op := by rfl)
        (w : t.WIN = s.WIN := by rfl) (n : t.IN_LEN = s.IN_LEN := by rfl) (al : t.ALG = s.ALG := by rfl)
        (di : t.DIR = s.DIR := by rfl) : MidRun s0 t :=
  ⟨m.base.congr a b c d e f g w, b.trans m.busy, ⟨a.trans m.same.1, e.trans m.same.2, n.trans m.same.3,
      al.trans m.same.4, di.trans m.same.5⟩⟩

/-- The entry checks keep the invariant if the first phase does. -/
theorem entryChecks_keeps {s0 s : State} (m : MidRun s0 s) {first : State → Flow} {p}
   (h : 1 ≤ s.IN_LEN.toNat → s.IN_LEN.toNat ≤ s.cfg.IN_CAP →
       (first s).Leaves p Inv (ReadsUnwritten s0)) : (entryChecks first s).Leaves p Inv (ReadsUnwritten s0) := by
  rcases entryChecks_cases first s with ⟨_, e⟩ | ⟨_, _, e⟩ | ⟨a, b, e⟩
  · rw [e]; exact raise_keeps m.base m.busy (by simp)
  · rw [e]; exact raise_keeps m.base m.busy (by simp)
  · rw [e]; exact h a b

theorem flushRun_runs {s0 s : State} (m : MidRun s0 s) : (flushRun s).Leaves (fun t => (∃ O p,
    t = {s with OUT := O, op := p}) ∧ MidRun s0 t) Inv (ReadsUnwritten s0) := by
  unfold flushRun; split
  · exact emitAll_runs _ m
  · exact ⟨⟨s.OUT, s.op, rfl⟩, m⟩

/-- A step of RLE.ENC keeps the invariant. -/
theorem rleEncStep_keeps {s : State} (h : Inv s) (hb : s.STATE = .busy) (hs : selected s = some .rleEnc) :
    (rleEncStep s).Leaves (RunsOn s) Inv (ReadsUnwritten s) := by
  have hp := phase_of_selected h hb hs
  obtain ⟨-, hip, hlen, -⟩ := h.counter hb
  have hcnt := (h.rle hb).1
  unfold rleEncStep
  split <;> rename_i hph <;> try (simp_all [phaseBelongs]; done)
  · refine entryChecks_keeps (h.mid hb) fun a b => ?_
    refine Flow.Leaves.onRead (fun v hv => ?_) (fun e he => ReadsUnwritten.read SameInput.refl (by omega) he)
    exact runsOn_rleEnc (h.mid hb).set hs (.inl rfl) (by simpa using a) ⟨a,b⟩ (by simp)
  · have hl := hlen (by simp [hph])
    have hc := hcnt (.inl hph)
    unfold scanStep; split
    · rename_i hlt
      refine Flow.Leaves.onRead (fun v hv => ?_) (fun e he => ReadsUnwritten.read SameInput.refl (by omega) he)
      refine Flow.Leaves.bind (p := fun t => MidRun s t ∧ t.ip = s.ip ∧ t.phase = s.phase ∧ t.cnt.toNat ≤ 254) ?_ ?_
      · split
        · unfold sameByte; split
          · refine (emitAll_runs _ (h.mid hb)).bind ?_
            rintro t ⟨⟨O, p, rfl⟩, hm⟩
            exact ⟨hm.set, rfl, rfl, by simp⟩
          · refine ⟨(h.mid hb).set, rfl, rfl, ?_⟩
            simp [BitVec.toNat_add]; omega
        · refine (flushRun_runs (h.mid hb)).bind ?_
          rintro t ⟨⟨O, p, rfl⟩, hm⟩
          exact ⟨hm.set, rfl, rfl, by simp⟩
      · rintro t ⟨hm, e1, e2, e3⟩
        have e4 := hm.same.IN_LEN
        have e5 := hm.same.cfg
        refine runsOn_rleEnc hm.set hs (.inl (by simp [e2, hph])) ?_ (by simp [e4, e5, hl]) e3
        have := ip_add (s := s) 1 (by omega)
        simp only [e1, e4] at *
        show (s.ip + 1).toNat ≤ _
        have h2 : (s.ip + 1).toNat = s.ip.toNat + 1 := this
        omega
    · exact runsOn_rleEnc (h.mid hb).set hs (.inr rfl) hip hl hc
  · unfold finalStep
    refine (flushRun_runs (h.mid hb)).bind ?_
    rintro t ⟨-, hm⟩
    exact complete_keeps hm.base hm.busy

theorem ip_add_two {s : State} (h : s.ip.toNat + 2 ≤ s.IN_LEN.toNat) : (s.ip + 2).toNat = s.ip.toNat + 2 :=
  ip_add (s := s) 2 h
theorem ip_add_four {s : State} (h : s.ip.toNat + 4 ≤ s.IN_LEN.toNat) : (s.ip + 4).toNat = s.ip.toNat + 4 :=
  ip_add (s := s) 4 h
theorem ip_add_one {s : State} (h : s.ip.toNat + 1 ≤ s.IN_LEN.toNat) : (s.ip + 1).toNat = s.ip.toNat + 1 :=
  ip_add (s := s) 1 h

/-- What the phases of RLE.DEC need. -/
theorem runsOn_rleDec {s0 t : State} (m : MidRun s0 t) (hs : selected s0 = some .rleDec)
   (hip : t.ip.toNat ≤ t.IN_LEN.toNat) (hl : 1 ≤ t.IN_LEN.toNat ∧ t.IN_LEN.toNat ≤ t.cfg.IN_CAP)
   (hp : t.phase = .rdCheck ∨ (t.phase = .rdPair ∧ t.IN_LEN.toNat % 2 = 0 ∧ t.ip.toNat % 2 = 0) ∨ (t.phase = .rdRep ∧
       t.IN_LEN.toNat % 2 = 0 ∧ t.ip.toNat % 2 = 0 ∧ t.ip.toNat + 2 ≤ t.IN_LEN.toNat)) : RunsOn s0 t := by
  have hsel := (selected_congr m.same).trans hs
  refine ⟨⟨m.base.1, m.base.2, m.base.3, m.base.4, fun _ => ⟨⟨_, hsel, ?_⟩, hip, fun _ => hl, ?_⟩, fun _ => ⟨?_, ?_,
      ?_⟩, fun _ => ⟨?_, ?_, ?_, ?_⟩, fun _ => ?_, fun _ => ⟨?_, ?_⟩⟩, m.busy, m.same⟩ <;>
   rcases hp with hp | ⟨hp, h1, h2⟩ | ⟨hp, h1, h2, h3⟩ <;> simp [hp, phaseBelongs] <;> simp [*]

theorem MidRun.trans {a b c : State} (x : MidRun a b) (y : MidRun b c) : MidRun a c :=
  ⟨y.base, y.busy, ⟨y.same.1.trans x.same.1, y.same.2.trans x.same.2, y.same.3.trans x.same.3, y.same.4.trans x.same.4,
      y.same.5.trans x.same.5⟩⟩

theorem repStep_keeps {s0 s : State} (m : MidRun s0 s) (hs : selected s0 = some .rleDec) (hph : s.phase = .rdRep)
   (hl : 1 ≤ s.IN_LEN.toNat ∧ s.IN_LEN.toNat ≤ s.cfg.IN_CAP)
   (h : s.IN_LEN.toNat % 2 = 0 ∧ s.ip.toNat % 2 = 0 ∧ s.ip.toNat + 2 ≤ s.IN_LEN.toNat) :
    (repStep s).Leaves (RunsOn s0) Inv (ReadsUnwritten s0) := by
  have e := ip_add_two h.2.2
  unfold repStep; split
  · refine (emit_runs _ m).bind ?_
    rintro t ⟨rfl, hm, -⟩
    split
    · refine runsOn_rleDec hm.set hs ?_ hl (.inr (.inl ⟨rfl, h.1, ?_⟩)) <;>
        simp only [endRun_ip, endRun_IN_LEN, pushOut_ip, pushOut_IN_LEN, e] <;> omega
    · exact runsOn_rleDec hm.set hs (by simp; omega) hl (.inr (.inr ⟨hph, h.1, h.2.1, h.2.2⟩))
  · refine runsOn_rleDec m.set hs ?_ hl (.inr (.inl ⟨rfl, h.1, ?_⟩)) <;>
      simp only [endRun_ip, endRun_IN_LEN, e] <;> omega

/-- What the fetch of a RUN token can give. -/
theorem fetchRun_cases {s0 s : State} (m : SameInput s0 s) (h : s.ip.toNat + 2 ≤ s.IN_LEN.toNat) :
    (∃ c v, fetchRun s = .instr (.run c v)) ∨ (∃ f, fetchRun s = .fails f ∧ ReadsUnwritten s0 f) := by
  unfold fetchRun
  cases hr : readIns s s.ip.toNat 2 with
  | error f =>
    obtain ⟨k, hk, hr⟩ := readIns_error hr
    exact .inr ⟨f, rfl, ReadsUnwritten.read m (by omega) hr⟩
  | ok bs =>
    obtain ⟨hl, -⟩ := readIns_ok.1 hr
    match bs, hl with
    | [a, b], _ => exact .inl ⟨a, b, rfl⟩

/-- A step of RLE.DEC keeps the invariant. -/
theorem rleDecStep_keeps {s : State} (h : Inv s) (hb : s.STATE = .busy) (hs : selected s = some .rleDec) :
    (rleDecStep s).Leaves (RunsOn s) Inv (ReadsUnwritten s) := by
  have hp := phase_of_selected h hb hs
  obtain ⟨-, hip, hlen, -⟩ := h.counter hb
  obtain ⟨-, hr1, hr2⟩ := h.rle hb
  unfold rleDecStep
  split <;> rename_i hph <;> try (simp_all [phaseBelongs]; done)
  · refine entryChecks_keeps (h.mid hb) fun a b => ?_
    exact runsOn_rleDec (h.mid hb).set hs hip ⟨a,b⟩ (.inl rfl)
  · unfold parityCheck; split
    · exact raise_keeps h.base hb (by simp)
    · exact runsOn_rleDec (h.mid hb).set hs (by simp) (hlen (by simp [hph])) (.inr (.inl ⟨rfl, by simp; omega,
        by simp⟩))
  · have hh := hr1 (.inl hph)
    unfold pairStep; split
    · rcases fetchRun_cases (s := s) SameInput.refl (by omega) with ⟨c, v, e⟩ | ⟨f, e, hf⟩
      · rw [e]
        exact runsOn_rleDec (h.mid hb).set hs hip (hlen (by simp [hph])) (.inr (.inr ⟨rfl, hh.1, hh.2,
            by simp; omega⟩))
      · rw [e]; exact hf
    · exact complete_keeps h.base hb
  · have hh := hr1 (.inr hph)
    exact repStep_keeps (h.mid hb) hs hph (hlen (by simp [hph])) ⟨hh.1, hh.2, hr2 hph⟩

/-! ## LZ.ENC -/
/-- What the phases of LZ.ENC need. -/
theorem runsOn_lzEnc {s0 t : State} (m : MidRun s0 t) (hs : selected s0 = some .lzEnc)
   (hip : t.ip.toNat ≤ t.IN_LEN.toNat) (hl : 1 ≤ t.IN_LEN.toNat ∧ t.IN_LEN.toNat ≤ t.cfg.IN_CAP)
   (hp : t.phase = .leSearch ∨ (t.phase = .leEmit ∧ t.ip.toNat < t.IN_LEN.toNat ∧
       t.ip.toNat + t.best.toNat ≤ t.IN_LEN.toNat)) : RunsOn s0 t := by
  have hsel := (selected_congr m.same).trans hs
  refine ⟨⟨m.base.1, m.base.2, m.base.3, m.base.4, fun _ => ⟨⟨_, hsel, ?_⟩, hip, fun _ => hl, ?_⟩, fun _ => ⟨?_, ?_,
      ?_⟩, fun _ => ⟨?_, ?_, ?_, ?_⟩, fun _ => ?_, fun _ => ⟨?_, ?_⟩⟩, m.busy, m.same⟩ <;>
   rcases hp with hp | ⟨hp, h1, h2⟩ <;> simp [hp, phaseBelongs] <;> simp [*]

/-- A match stays below its limit, and reads only below IN_LEN (44_lz77_encode.md R202). -/
theorem matchFrom_cases {s0 s : State} (m : SameInput s0 s) {o lim : Nat} (ho : 1 ≤ o ∧
    o ≤ s.ip.toNat) (hlim : lim ≤ o ∧ s.ip.toNat + lim ≤ s.IN_LEN.toNat) :
   ∀ fuel k, k ≤ lim → (∃ r, matchFrom s o lim fuel k = .ok r ∧ r ≤ lim) ∨ (∃ f, matchFrom s o lim fuel k = .error f ∧
       ReadsUnwritten s0 f) := by
  intro fuel
  induction fuel with
  | zero => intro k hk; exact .inl ⟨k, rfl, hk⟩
  | succ n ih =>
    intro k hk
    simp only [matchFrom]
    split
    · cases h1 : readIn s (s.ip.toNat - o + k) with
      | error f => exact .inr ⟨f, rfl, ReadsUnwritten.read m (by omega) h1⟩
      | ok a =>
        cases h2 : readIn s (s.ip.toNat + k) with
        | error f => exact .inr ⟨f, rfl, ReadsUnwritten.read m (by omega) h2⟩
        | ok b =>
          dsimp only
          split
          · exact ih _ (by omega)
          · exact .inl ⟨k, rfl, hk⟩
    · exact .inl ⟨k, rfl, hk⟩

/-- A search keeps the best match inside the lookahead (44_lz77_encode.md R205). -/
theorem searchOver_keeps {s0 : State} (hw : s0.cfg.wf) : ∀ os (s : State), MidRun s0 s → s.ip = s0.ip →
    s.ip.toNat + s.best.toNat ≤ s.IN_LEN.toNat → (∀ o ∈ os, 1 ≤ o ∧ o ≤ s.ip.toNat) → s.ip.toNat < s.IN_LEN.toNat →
   (searchOver os s).Leaves (fun t => MidRun s0 t ∧ t.ip = s0.ip ∧ t.ip.toNat + t.best.toNat ≤ t.IN_LEN.toNat ∧
       t.phase = s.phase) Inv (ReadsUnwritten s0) := by
  intro os
  induction os with
  | nil => intro s m e h _ _; exact ⟨m, e, h, rfl⟩
  | cons o os ih =>
    intro s m e h ho hlt
    simp only [searchOver]
    have hL : lookahead s = min s.cfg.M (s.IN_LEN.toNat - s.ip.toNat) := rfl
    have hM : s.cfg.M ≤ 255 := by rw [m.same.cfg]; exact hw.2.2.2.1.2
    rcases matchFrom_cases m.same (o := o) (lim := min (lookahead s) o) (ho o (by simp)) (by omega) (min
        (lookahead s) o) 0 (by omega) with ⟨k, hk, hle⟩ | ⟨f, hk, hf⟩
    · rw [matchAt, hk, Flow.onRead_ok]
      have hk2 : (BitVec.ofNat 8 k).toNat = k := by simp; omega
      have := ih (candidate o k s) ?_ ?_ ?_ ?_ ?_
      · refine this.mono ?_ (fun _ h => h) (fun _ h => h)
        rintro t ⟨a,b,c,d⟩
        exact ⟨a,b,c,by rw [d]; unfold candidate; split <;> rfl⟩
      · unfold candidate; split <;> exact m.set
      · unfold candidate; split <;> exact e
      · unfold candidate; split
        · simp only [hk2]; omega
        · exact h
      · intro o' ho'
        have := ho o' (by simp [ho'])
        unfold candidate; split <;> exact this
      · unfold candidate; split <;> exact hlt
    · rw [matchAt, hk]; exact hf

/-- A step of LZ.ENC keeps the invariant. -/
theorem lzEncStep_keeps {s : State} (h : Inv s) (hb : s.STATE = .busy) (hs : selected s = some .lzEnc) :
    (lzEncStep s).Leaves (RunsOn s) Inv (ReadsUnwritten s) := by
  have hp := phase_of_selected h hb hs
  obtain ⟨-, hip, hlen, -⟩ := h.counter hb
  have hm := h.matcher hb
  unfold lzEncStep
  split <;> rename_i hph <;> try (simp_all [phaseBelongs]; done)
  · refine entryChecks_keeps (h.mid hb) fun a b => ?_
    exact runsOn_lzEnc (h.mid hb).set hs (by simp) ⟨a,b⟩ (.inl rfl)
  · unfold searchStep; split
    · rename_i hlt
      have := searchOver_keeps (s0 := s) h.config (offsets s) { s with best := 0, boff := 0 } (h.mid hb).set rfl
          (by simpa using hip) ?_ hlt
      · refine this.bind ?_
        rintro t ⟨a, b, c, d⟩
        refine runsOn_lzEnc (a.set) hs ?_ ?_ (.inr ⟨rfl, ?_, c⟩)
        · simp only [b, a.same.IN_LEN]; exact hip
        · simp only [a.same.IN_LEN, a.same.cfg]; exact hlen (by simp [hph])
        · simp only [b, a.same.IN_LEN]; exact hlt
      · intro o ho
        simp only [offsets, List.mem_range'_1] at ho
        show 1 ≤ o ∧ o ≤ s.ip.toNat
        omega
    · exact complete_keeps h.base hb
  · obtain ⟨h1, h2⟩ := hm hph
    have hl := hlen (by simp [hph])
    unfold tokenStep; split
    · refine (emitAll_runs _ (h.mid hb)).bind ?_
      rintro t ⟨⟨O, p, rfl⟩, hm⟩
      refine runsOn_lzEnc hm.set hs ?_ hl (.inl rfl)
      show (s.ip + s.best.setWidth 32).toNat ≤ _
      have := s.IN_LEN.isLt
      have := s.best.isLt
      rw [BitVec.toNat_add, BitVec.toNat_setWidth]
      show _ ≤ s.IN_LEN.toNat
      omega
    · refine Flow.Leaves.onRead (fun v hv => ?_) (fun e he => ReadsUnwritten.read SameInput.refl h1 he)
      refine (emitAll_runs _ (h.mid hb)).bind ?_
      rintro t ⟨⟨O, p, rfl⟩, hm⟩
      refine runsOn_lzEnc hm.set hs ?_ hl (.inl rfl)
      have := ip_add_one (s := s) (by omega)
      show (s.ip + 1).toNat ≤ s.IN_LEN.toNat
      omega

/-- The ring-buffer invariant (45_lz77_decode.md R226). -/
def WinOk (t : State) : Prop := t.wp.toNat = t.op.toNat % t.cfg.W ∧
    ∀ d, d < min t.op.toNat t.cfg.W →
      t.WIN.read ((t.wp.toNat + (t.cfg.W - (d + 1))) % t.cfg.W) = t.OUT.read (t.op.toNat - (d + 1))

/-- What the phases of LZ.DEC need. -/
theorem runsOn_lzDec {s0 t : State} (m : MidRun s0 t) (hs : selected s0 = some .lzDec)
   (hip : t.ip.toNat ≤ t.IN_LEN.toNat) (hl : 1 ≤ t.IN_LEN.toNat ∧ t.IN_LEN.toNat ≤ t.cfg.IN_CAP) (hw : WinOk t)
   (hp : t.phase = .ldToken ∨ (t.phase = .ldCopy ∧ 1 ≤ t.off.toNat ∧ t.off.toNat ≤ t.op.toNat ∧ t.off.toNat ≤ t.cfg.W ∧
       t.ip.toNat + 4 ≤ t.IN_LEN.toNat)) : RunsOn s0 t := by
  have hsel := (selected_congr m.same).trans hs
  refine ⟨⟨m.base.1, m.base.2, m.base.3, m.base.4, fun _ => ⟨⟨_, hsel, ?_⟩, hip, fun _ => hl, ?_⟩, fun _ => ⟨?_, ?_,
      ?_⟩, fun _ => ⟨?_, ?_, ?_, ?_⟩, fun _ => ?_, fun _ => ⟨fun _ => hw, ?_⟩⟩, m.busy, m.same⟩ <;>
   rcases hp with hp | ⟨hp, h1, h2, h3, h4⟩ <;> simp [hp, phaseBelongs] <;> simp [*]

theorem mod_ne_self {W a d : Nat} (ha : a < W) (hd : 1 ≤ d) (hd2 : d < W) : (a + (W - d)) % W ≠ a := by
  intro h
  rcases Nat.lt_or_ge (a + (W - d)) W with h1 | h1
  · rw [Nat.mod_eq_of_lt h1] at h; omega
  · rw [Nat.mod_eq_sub_mod h1, Nat.mod_eq_of_lt (by omega)] at h; omega

theorem mod_shift {W a d : Nat} (hd2 : d < W) : ((a+1) % W + (W - (d+1))) % W = (a +
    (W - d)) % W := by
  rw [Nat.mod_add_mod]
  congr 1; omega

/-- `append` keeps the ring-buffer invariant. -/
theorem append_runs {s0 s : State} (v) (m : MidRun s0 s) (hw : WinOk s) :
    (append v s).Leaves (fun t => t = pushWindow v (pushOut v s) ∧ MidRun s0 t ∧ WinOk t ∧
        t.op.toNat = s.op.toNat + 1) Inv (ReadsUnwritten s0) := by
  have hcfg : s.cfg.wf := m.base.config
  obtain ⟨hW1, hW2⟩ := hcfg.2.2.1
  have hwlt : s.wp.toNat < s.cfg.W := by rw [hw.1]; exact Nat.mod_lt _ (by omega)
  rcases append_cases v s with ⟨_, e⟩ | ⟨hn, e⟩
  · rw [e]; exact raise_keeps m.base m.busy (by simp)
  · rw [e]
    obtain ⟨e1, e2⟩ := op_succ m.base m.busy hn
    have hb := pushOut_base v m.base m.busy hn
    have hwfW := m.base.memory.2.2.1
    have hwfO := m.base.memory.2.1.1
    have e3 : (BitVec.ofNat 16 ((s.wp.toNat + 1) % s.cfg.W)).toNat = (s.wp.toNat + 1) % s.cfg.W := by
      have := Nat.mod_lt (s.wp.toNat + 1) (show 0 < s.cfg.W by omega)
      simp; omega
    refine ⟨rfl, ⟨⟨hb.1, hb.2, ⟨hb.3.1, hb.3.2.1, ?_, ?_⟩, hb.4⟩, m.busy, ⟨m.same.1, m.same.2, m.same.3, m.same.4,
        m.same.5⟩⟩, ⟨?_, ?_⟩, e1⟩
    · exact Memory.wf_write _ _ hwfW
    · exact Memory.below_write _ m.base.memory.2.2.2 hwlt
    · simp only [pushWindow_wp, pushOut_wp, pushOut_cfg, e3, pushWindow_op, pushOut_op, e1, pushWindow_cfg]
      rw [hw.1, Nat.mod_add_mod]
    · intro d hd
      simp only [pushWindow_wp, pushOut_wp, pushOut_cfg, e3, pushWindow_op, pushOut_op, e1, pushWindow_cfg,
          pushWindow_WIN, pushOut_WIN, pushWindow_OUT, pushOut_OUT] at hd ⊢
      rw [mod_shift (by omega), Memory.read_write _ _ _ _ hwfW, Memory.read_write _ _ _ _ hwfO]
      cases d with
      | zero => simp [Nat.mod_eq_of_lt hwlt]
      | succ d =>
        have : (s.wp.toNat + (s.cfg.W - (d+1))) % s.cfg.W ≠ s.wp.toNat := mod_ne_self hwlt (by omega) (by omega)
        rw [if_neg this, if_neg (by omega), hw.2 d (by omega)]
        congr 1; omega

/-- One turn of the copy of a MATCH. -/
theorem copyStep_keeps {s0 s : State} (m : MidRun s0 s) (hs : selected s0 = some .lzDec) (hph : s.phase = .ldCopy)
   (hl : 1 ≤ s.IN_LEN.toNat ∧ s.IN_LEN.toNat ≤ s.cfg.IN_CAP) (hw : WinOk s)
   (h : 1 ≤ s.off.toNat ∧ s.off.toNat ≤ s.op.toNat ∧ s.off.toNat ≤ s.cfg.W ∧ s.ip.toNat + 4 ≤ s.IN_LEN.toNat) :
    (copyStep s).Leaves (RunsOn s0) Inv (ReadsUnwritten s0) := by
  have e := ip_add_four h.2.2.2
  unfold copyStep; split
  · have hr := hw.2 (s.off.toNat - 1) (by omega)
    have hsome := (m.base.output.1 m.busy).2 (s.op.toNat - s.off.toNat) (by omega)
    rw [show s.off.toNat - 1 + 1 = s.off.toNat by omega] at hr
    split
    · rename_i hnone
      rw [copySource, hr] at hnone
      simp [hnone] at hsome
    · refine (append_runs _ m hw).bind ?_
      rintro t ⟨rfl, hm, hw', ho⟩
      split
      · refine runsOn_lzDec hm.set hs ?_ hl hw' (.inl rfl)
        simp; omega
      · refine runsOn_lzDec hm.set hs ?_ hl hw' (.inr ⟨hph, h.1, ?_, h.2.2⟩)
        · simp; omega
        · simp only [pushWindow_op, pushOut_op] at ho
          show s.off.toNat ≤ (s.op + 1).toNat
          omega
  · refine runsOn_lzDec m.set hs ?_ hl hw (.inl rfl)
    simp; omega

/-- What the fetch of an LZ77 token can give. -/
theorem fetchLz_cases {s0 s : State} (m : SameInput s0 s) (h : s.ip.toNat < s.IN_LEN.toNat) :
    (∃ b, fetchLz s = .instr (.lit b) ∧ s.ip.toNat + 2 ≤ s.IN_LEN.toNat) ∨ (∃ o l, fetchLz s = .instr (.matchRef o l) ∧
        s.ip.toNat + 4 ≤ s.IN_LEN.toNat) ∨ fetchLz s = .raises .invalidInput ∨ (∃ f, fetchLz s = .fails f ∧
        ReadsUnwritten s0 f) := by
  unfold fetchLz
  cases hr : readIn s s.ip.toNat with
  | error f => exact .inr (.inr (.inr ⟨f, rfl, ReadsUnwritten.read m h hr⟩))
  | ok mk =>
    dsimp only
    unfold lzTokenLength
    by_cases h0 : mk = 0
    · subst h0
      simp only [if_true]
      split
      · exact .inr (.inr (.inl rfl))
      · cases hrs : readIns s s.ip.toNat 2 with
        | error f =>
          obtain ⟨k, hk, hr⟩ := readIns_error hrs
          exact .inr (.inr (.inr ⟨f, rfl, ReadsUnwritten.read m (by omega) hr⟩))
        | ok bs =>
          obtain ⟨hl, hk⟩ := readIns_ok.1 hrs
          match bs, hl with
          | [a, b], _ =>
            have := hk 0 (by simp)
            simp [hr] at this
            subst this
            exact .inl ⟨b, rfl, by omega⟩
    · by_cases h1 : mk = 1
      · subst h1
        simp only [if_neg h0, if_true]
        split
        · exact .inr (.inr (.inl rfl))
        · cases hrs : readIns s s.ip.toNat 4 with
          | error f =>
            obtain ⟨k, hk, hr⟩ := readIns_error hrs
            exact .inr (.inr (.inr ⟨f, rfl, ReadsUnwritten.read m (by omega) hr⟩))
          | ok bs =>
            obtain ⟨hl, hk⟩ := readIns_ok.1 hrs
            match bs, hl with
            | [a, b, c, d], _ =>
              have := hk 0 (by simp)
              simp [hr] at this
              subst this
              exact .inr (.inl ⟨be16 b c, d, rfl, by omega⟩)
      · rw [if_neg h0, if_neg h1]
        exact .inr (.inr (.inl rfl))

theorem beginLit_keeps {s0 s : State} (b) (m : MidRun s0 s) (hs : selected s0 = some .lzDec) (hph : s.phase = .ldToken)
   (hl : 1 ≤ s.IN_LEN.toNat ∧ s.IN_LEN.toNat ≤ s.cfg.IN_CAP) (hw : WinOk s) (h : s.ip.toNat + 2 ≤ s.IN_LEN.toNat) :
    (beginLit b s).Leaves (RunsOn s0) Inv (ReadsUnwritten s0) := by
  have e := ip_add_two h
  refine (append_runs b m hw).bind ?_
  rintro t ⟨rfl, hm, hw', ho⟩
  refine runsOn_lzDec hm.set hs ?_ hl hw' (.inl hph)
  simp; omega

theorem beginMatch_keeps {s0 s : State} (o l) (m : MidRun s0 s) (hs : selected s0 = some .lzDec)
    (_hph : s.phase = .ldToken)
   (hl : 1 ≤ s.IN_LEN.toNat ∧ s.IN_LEN.toNat ≤ s.cfg.IN_CAP) (hw : WinOk s) (h : s.ip.toNat + 4 ≤ s.IN_LEN.toNat) :
    (beginMatch o l s).Leaves (RunsOn s0) Inv (ReadsUnwritten s0) := by
  have hm : MidRun s0 {s with off := o, len := l} := m.set
  unfold beginMatch; dsimp only
  split
  · exact raise_keeps hm.base hm.busy (by simp)
  · split
    · exact raise_keeps hm.base hm.busy (by simp)
    · split
      · exact raise_keeps hm.base hm.busy (by simp)
      · refine runsOn_lzDec m.set hs ?_ hl hw (.inr ⟨rfl, ?_, ?_, ?_, h⟩) <;> simp <;> omega

/-- A step of LZ.DEC keeps the invariant. -/
theorem lzDecStep_keeps {s : State} (h : Inv s) (hb : s.STATE = .busy) (hs : selected s = some .lzDec) :
    (lzDecStep s).Leaves (RunsOn s) Inv (ReadsUnwritten s) := by
  have hp := phase_of_selected h hb hs
  obtain ⟨-, hip, hlen, hop⟩ := h.counter hb
  obtain ⟨hw1, hw2⟩ := h.window hb
  unfold lzDecStep
  split <;> rename_i hph <;> try (simp_all [phaseBelongs]; done)
  · refine entryChecks_keeps (h.mid hb) fun a b => ?_
    have := hop (.inl hph)
    exact runsOn_lzDec (h.mid hb).set hs (by simp) ⟨a,b⟩ ⟨by simp [this], by simp [this]⟩ (.inl rfl)
  · unfold lzTokenStep; split
    · rename_i hlt
      rcases fetchLz_cases (s := s) SameInput.refl hlt with ⟨b, e, h2⟩ | ⟨o, l, e, h4⟩ | e | ⟨f, e, hf⟩
      · rw [e]; exact beginLit_keeps b (h.mid hb) hs hph (hlen (by simp [hph])) (hw1 (.inl hph)) h2
      · rw [e]; exact beginMatch_keeps o l (h.mid hb) hs hph (hlen (by simp [hph])) (hw1 (.inl hph)) h4
      · rw [e]; exact raise_keeps h.base hb (by simp)
      · rw [e]; exact hf
    · exact complete_keeps h.base hb
  · exact copyStep_keeps (h.mid hb) hs hph (hlen (by simp [hph])) (hw1 (.inr hph)) (hw2 hph)

/-- What the phases of HUF.ENC need. -/
theorem runsOn_hufEnc {s0 t : State} (m : MidRun s0 t) (hs : selected s0 = some .hufEnc)
   (hip : t.ip.toNat ≤ t.IN_LEN.toNat) (hl : 1 ≤ t.IN_LEN.toNat ∧ t.IN_LEN.toNat ≤ t.cfg.IN_CAP)
   (hp : (t.phase = .heFreq ∧ freqSum t.FREQ = t.ip.toNat) ∨ (t.phase = .heTree ∧
       freqSum t.FREQ = t.IN_LEN.toNat) ∨ t.phase = .heHdr ∨ t.phase = .heCode ∨ t.phase = .hePack ∨
       t.phase = .heFlush) : RunsOn s0 t := by
  have hsel := (selected_congr m.same).trans hs
  refine ⟨⟨m.base.1, m.base.2, m.base.3, m.base.4, fun _ => ⟨⟨_, hsel, ?_⟩, hip, fun _ => hl, ?_⟩, fun _ => ⟨?_, ?_,
      ?_⟩, fun _ => ⟨?_, ?_, ?_, ?_⟩, fun _ => ?_, fun _ => ⟨?_, ?_⟩⟩, m.busy, m.same⟩ <;>
   rcases hp with ⟨hp, h1⟩ | ⟨hp, h1⟩ | hp | hp | hp | hp <;> simp [hp, phaseBelongs] <;> simp [*]

theorem sum_set (l : List Word) : ∀ (i : Nat) (w : Word) (h : i < l.length),
    ((l.set i w).map BitVec.toNat).sum + l[i].toNat = (l.map BitVec.toNat).sum + w.toNat := by
  induction l with
  | nil => intro i w h; simp at h
  | cons a l ih =>
    intro i w h
    cases i with
    | zero => simp; omega
    | succ i =>
      have := ih i w (by simpa using h)
      simp only [List.set_cons_succ, List.map_cons, List.sum_cons, List.getElem_cons_succ]
      omega

theorem getElem_le_sum (l : List Nat) (i : Nat) (h : i < l.length) : l[i] ≤ l.sum := List.single_le_sum (by simp) _
    (List.getElem_mem h)

/-- Counting one byte adds one to the sum (42_huffman_encode.md R161). -/
theorem freqSum_count (F : FreqTable) (b : Byte) (h : freqSum F < 2^32 - 1) : freqSum
    (countByte F b) = freqSum F + 1 := by
  have hb : b.toNat < 256 := b.isLt
  unfold countByte
  simp only [Vector.getElem?_eq_getElem hb]
  unfold freqSum at *
  have hlen : b.toNat < F.toList.length := by simpa using hb
  have := sum_set F.toList b.toNat (F[b.toNat] + 1) hlen
  have hle := getElem_le_sum (F.toList.map BitVec.toNat) b.toNat (by simpa using hb)
  have e0 : F.toList[b.toNat] = F[b.toNat] := by simp
  have e : (F.setIfInBounds b.toNat (F[b.toNat] + 1)).toList = F.toList.set b.toNat (F[b.toNat] + 1) := by
    rw [Vector.setIfInBounds]
    simp [Vector.toList]
  rw [e]
  simp only [List.getElem_map] at hle
  rw [e0] at this hle
  have e2 : (F[b.toNat] + 1).toNat = F[b.toNat].toNat + 1 := by
    rw [BitVec.toNat_add]; simp; omega
  omega

theorem leafCount_zero (F : FreqTable) : leafCount F = 0 → freqSum F = 0 := by
  intro h
  unfold leafCount at h
  unfold freqSum
  rw [List.countP_eq_zero] at h
  apply List.sum_eq_zero
  intro x hx
  obtain ⟨w, hw, rfl⟩ := List.mem_map.1 hx
  have := h w hw
  simp at this
  simp [this]

theorem leafCount_le (F : FreqTable) : leafCount F ≤ 256 := by
  have := List.countP_le_length (p := fun w : Word => decide (w.toNat > 0)) (l := F.toList)
  simpa [leafCount] using this

/-- What packing bits can do. -/
theorem packBits_runs {s0 : State} (cs) : ∀ {s : State}, MidRun s0 s →
    (packBits cs s).Leaves (fun t => MidRun s0 t ∧ t.ip = s.ip ∧ t.phase = s.phase) Inv (ReadsUnwritten s0) := by
  induction cs with
  | nil => intro s m; exact ⟨m, rfl, rfl⟩
  | cons c cs ih =>
    intro s m
    refine Flow.Leaves.bind (p := fun t => MidRun s0 t ∧ t.ip = s.ip ∧ t.phase = s.phase) ?_ ?_
    · unfold packBit; dsimp only; split
      · have hm : MidRun s0 { s with acc := s.acc <<< 1 ||| BitVec.setWidth 8 (BitVec.ofBool c) } := m.set
        refine (emit_runs _ hm).bind ?_
        rintro t ⟨rfl, hm, -⟩
        exact ⟨hm.set, rfl, rfl⟩
      · exact ⟨m.set, rfl, rfl⟩
    · rintro t ⟨a, b, c⟩
      refine (ih a).mono ?_ (fun _ h => h) (fun _ h => h)
      rintro u ⟨d, e, f⟩
      exact ⟨d, e.trans b, f.trans c⟩

/-- A step of HUF.ENC keeps the invariant. -/
theorem hufEncStep_keeps {s : State} (h : Inv s) (hb : s.STATE = .busy) (hs : selected s = some .hufEnc) :
    (hufEncStep s).Leaves (RunsOn s) Inv (ReadsUnwritten s) := by
  have hp := phase_of_selected h hb hs
  obtain ⟨-, hip, hlen, hop⟩ := h.counter hb
  obtain ⟨h1, h2, -, -⟩ := h.huffman hb
  have hlt32 := s.IN_LEN.isLt
  unfold hufEncStep
  split <;> rename_i hph <;> try (simp_all [phaseBelongs]; done)
  · refine entryChecks_keeps (h.mid hb) fun a b => ?_
    refine runsOn_hufEnc (h.mid hb).set hs (by simp) ⟨a,b⟩ (.inl ⟨rfl, ?_⟩)
    unfold freqSum
    rw [show (Vector.replicate 256 (0:Word)).toList = List.replicate 256 0 from Vector.toList_replicate,
        List.map_replicate, List.sum_replicate]
    rfl
  · unfold freqStep; split
    · rename_i hlt
      refine Flow.Leaves.onRead (fun v hv => ?_) (fun e he => ReadsUnwritten.read SameInput.refl hlt he)
      have e := ip_add_one (s := s) (by omega)
      refine runsOn_hufEnc (h.mid hb).set hs ?_ (hlen (by simp [hph])) (.inl ⟨hph, ?_⟩)
      · show (s.ip + 1).toNat ≤ s.IN_LEN.toNat; omega
      · show _ = (s.ip + 1).toNat
        rw [freqSum_count _ _ (by rw [h1 hph]; omega), h1 hph, e]
    · refine runsOn_hufEnc (h.mid hb).set hs hip (hlen (by simp [hph])) (.inr (.inl ⟨rfl, ?_⟩))
      show freqSum s.FREQ = s.IN_LEN.toNat
      rw [h1 hph]; omega
  · unfold buildTree; split
    · rename_i hz
      have := leafCount_zero _ hz
      have := h2 hph
      have := (hlen (by simp [hph])).1
      omega
    · exact runsOn_hufEnc (h.mid hb).set hs hip (hlen (by simp [hph])) (.inr (.inr (.inl rfl)))
  · refine (emitAll_runs _ (h.mid hb)).bind ?_
    rintro t ⟨⟨O, p, rfl⟩, hm⟩
    exact runsOn_hufEnc hm.set hs hip (hlen (by simp [hph])) (by simp)
  · exact runsOn_hufEnc (h.mid hb).set hs (by simp) (hlen (by simp [hph])) (by simp)
  · unfold packStep; split
    · rename_i hlt
      refine Flow.Leaves.onRead (fun v hv => ?_) (fun e he => ReadsUnwritten.read SameInput.refl hlt he)
      refine (packBits_runs _ (h.mid hb)).bind ?_
      rintro t ⟨hm, e1, e2⟩
      have e := ip_add_one (s := s) (by omega)
      refine runsOn_hufEnc hm.set hs ?_ ?_ (by simp [e2, hph])
      · show (t.ip + 1).toNat ≤ t.IN_LEN.toNat; rw [e1, hm.same.IN_LEN]; omega
      · show 1 ≤ t.IN_LEN.toNat ∧ t.IN_LEN.toNat ≤ t.cfg.IN_CAP
        rw [hm.same.IN_LEN, hm.same.cfg]; exact hlen (by simp [hph])
    · exact runsOn_hufEnc (h.mid hb).set hs hip (hlen (by simp [hph])) (by simp)
  · unfold flushStep
    refine Flow.Leaves.bind (p := fun t => MidRun s t) ?_ (fun t hm => complete_keeps hm.base hm.busy)
    split
    · exact (emit_runs _ (h.mid hb)).mono (fun _ h => h.2.1) (fun _ h => h) (fun _ h => h)
    · exact h.mid hb

/-! ## HUF.DEC -/
/-- The header has passed its checks. -/
def HufOk (t : State) : Prop := headerLength ≤ t.IN_LEN.toNat ∧ freqSum t.FREQ = t.N.toNat ∧ t.N.toNat ≠ 0
/-- The walk stands in the tree and emits at most N bytes. -/
def WalkOk (t : State) : Prop := t.ROOT ≠ noChild ∧ t.node ≠ noChild ∧
    t.op.toNat ≤ t.N.toNat ∧ t.N.toNat ≤ t.cfg.OUT_CAP

/-- What the phases of HUF.DEC need. -/
theorem runsOn_hufDec {s0 t : State} (m : MidRun s0 t) (hs : selected s0 = some .hufDec)
   (hip : t.ip.toNat ≤ t.IN_LEN.toNat) (hl : 1 ≤ t.IN_LEN.toNat ∧ t.IN_LEN.toNat ≤ t.cfg.IN_CAP)
   (hp : (t.phase = .hdHdr ∧ t.op = 0) ∨ (t.phase = .hdTree ∧ t.op = 0 ∧ HufOk t) ∨ (t.phase = .hdWalk ∧ HufOk t ∧
       WalkOk t ∧ t.bitpos.toNat ≤ 8 * (t.IN_LEN.toNat - headerLength))) : RunsOn s0 t := by
  have hsel := (selected_congr m.same).trans hs
  refine ⟨⟨m.base.1, m.base.2, m.base.3, m.base.4, fun _ => ⟨⟨_, hsel, ?_⟩, hip, fun _ => hl, ?_⟩, fun _ => ⟨?_, ?_,
      ?_⟩, fun _ => ⟨?_, ?_, ?_, ?_⟩, fun _ => ?_, fun _ => ⟨?_, ?_⟩⟩, m.busy, m.same⟩ <;>
   rcases hp with ⟨hp, h1⟩ | ⟨hp, h1, h2⟩ | ⟨hp, h1, h2, h3⟩ <;> simp [hp, phaseBelongs] <;> try simp [*]
  · exact h2
  · exact h1
  · exact ⟨h2.1, h2.2.1, h2.2.2⟩

/-- fsum has 40 bits (10_state.md R35). -/
theorem freqSum_lt (F : FreqTable) : freqSum F < 2^40 := by
  have : freqSum F ≤ F.toList.length * (2^32 - 1) := by
    unfold freqSum
    have := List.sum_le_card_nsmul (F.toList.map BitVec.toNat) (2^32-1) (by
      intro x hx
      obtain ⟨w, hw, rfl⟩ := List.mem_map.1 hx
      have := w.isLt
      omega)
    simpa using this
  simp at this
  omega

/-- What the fetch of a Huffman header can give. -/
theorem fetchHeader_cases {s0 s : State} (m : SameInput s0 s) :
    (∃ t F, fetchHeader s = .instr (.hufHdr t F) ∧
        headerLength ≤ s.IN_LEN.toNat) ∨ fetchHeader s = .raises .invalidInput ∨ (∃ f, fetchHeader s = .fails f ∧
        ReadsUnwritten s0 f) := by
  unfold fetchHeader
  split
  · exact .inr (.inl rfl)
  · cases hr : readIns s 0 headerLength with
    | error f =>
      obtain ⟨k, hk, hr⟩ := readIns_error hr
      exact .inr (.inr ⟨f, rfl, ReadsUnwritten.read m (by omega) hr⟩)
    | ok bs =>
      obtain ⟨hl, -⟩ := readIns_ok.1 hr
      unfold fetchedFrom decode
      simp only [hl, Nat.lt_irrefl, if_false]
      have htake : bs.take headerLength = bs := List.take_of_length_le (by omega)
      rw [htake]
      match bs, hl with
      | a :: b :: c :: d :: r, _ => exact .inl ⟨_, _, rfl, by omega⟩

theorem beginHeader_keeps {s0 s : State} (t F) (m : MidRun s0 s) (hs : selected s0 = some .hufDec) (hop : s.op = 0)
   (hl : 1 ≤ s.IN_LEN.toNat ∧ s.IN_LEN.toNat ≤ s.cfg.IN_CAP) (h : headerLength ≤ s.IN_LEN.toNat) :
    (beginHeader t F s).Leaves (RunsOn s0) Inv (ReadsUnwritten s0) := by
  have hm : MidRun s0 (loadHeader t F s) := m.set
  have e : (BitVec.ofNat 40 (freqSum F)).toNat = freqSum F := by
    have := freqSum_lt F
    simp; omega
  unfold beginHeader checkHeader
  split
  · exact raise_keeps hm.base hm.busy (by simp)
  · split
    · exact raise_keeps hm.base hm.busy (by simp)
    · rename_i h1 h2
      simp only [loadHeader_fsum, e, loadHeader_N] at h1 h2
      refine runsOn_hufDec hm.set hs ?_ hl (.inr (.inl ⟨rfl, hop, h, ?_, ?_⟩))
      · simpa [headerLength] using h
      · show freqSum F = t.toNat; omega
      · show t.toNat ≠ 0; omega

theorem rootOf_ne_noChild (F : FreqTable) : (BitVec.ofNat 9 (rootOf F)) ≠ noChild := by
  have := leafCount_le F
  intro h
  have := congrArg BitVec.toNat h
  simp [rootOf, noChild] at this
  omega

/-- One payload bit keeps the walk inside the tree (43_huffman_decode.md R185). -/
theorem walkBit_keeps {s0 s : State} (c) (m : MidRun s0 s) (hs : selected s0 = some .hufDec) (hph : s.phase = .hdWalk)
   (hl : 1 ≤ s.IN_LEN.toNat ∧ s.IN_LEN.toNat ≤ s.cfg.IN_CAP) (h1 : HufOk s) (h2 : WalkOk s)
       (hlt : s.op.toNat < s.N.toNat)
   (h3 : s.bitpos.toNat < 8 * (s.IN_LEN.toNat - headerLength)) :
    (walkBit c s).Leaves (fun t => RunsOn s0 t ∧ t.phase = .hdWalk ∧ HufOk t ∧ WalkOk t ∧
        t.bitpos.toNat = s.bitpos.toNat + 1) Inv (ReadsUnwritten s0) := by
  have hm : MidRun s0 (takeBit s) := m.set
  have hn := s.IN_LEN.isLt
  have eb : (s.bitpos + 1).toNat = s.bitpos.toNat + 1 := by
    rw [BitVec.toNat_add]; simp; omega
  have hH := h1.1
  have hip : (BitVec.ofNat 32 (headerLength + (s.bitpos.toNat + 1) / 8)).toNat ≤ s.IN_LEN.toNat := by
    simp only [BitVec.toNat_ofNat]
    rw [Nat.mod_eq_of_lt] <;> omega
  unfold walkBit
  split
  · rename_i hnone
    have : s.node.toNat < 511 := by
      have := s.node.isLt
      have h4 := h2.2.1
      rcases Nat.lt_or_ge s.node.toNat 511 with h | h
      · exact h
      · exfalso; apply h4; apply BitVec.eq_of_toNat_eq; simp [noChild]; omega
    simp [Vector.getElem?_eq_getElem this] at hnone
  · generalize (if c then _ else _ : BitVec 9) = x
    unfold arrive
    split
    · exact raise_keeps hm.base hm.busy (by simp)
    · rename_i hx
      have fin : ∀ t, MidRun s0 t → t.phase = .hdWalk → HufOk t → WalkOk t → t.bitpos = s.bitpos + 1 →
          t.ip = (takeBit s).ip → RunsOn s0 t ∧ t.phase = .hdWalk ∧ HufOk t ∧ WalkOk t ∧
          t.bitpos.toNat = s.bitpos.toNat + 1 := by
        intro t mt pt a b c d
        have e2 : t.IN_LEN = s.IN_LEN := mt.same.IN_LEN.trans m.same.IN_LEN.symm
        have e3 : t.cfg = s.cfg := mt.same.cfg.trans m.same.cfg.symm
        refine ⟨runsOn_hufDec mt hs ?_ (by rw [e2, e3]; exact hl) (.inr (.inr ⟨pt, a, b, ?_⟩)), pt, a, b, by rw [c, eb]⟩
        · rw [d, e2]; exact hip
        · rw [c, e2, eb]; omega
      split
      · have hm2 : MidRun s0 { takeBit s with node := x } := hm.set
        refine (emit_runs _ hm2).bind ?_
        rintro t ⟨rfl, hm', ho⟩
        refine fin _ hm'.set hph h1 ⟨h2.1, h2.1, ?_, h2.2.2.2⟩ rfl rfl
        simp only [pushOut_op, takeBit_op] at ho
        show (s.op + 1).toNat ≤ s.N.toNat
        omega
      · exact fin _ hm.set hph h1 ⟨h2.1, hx, h2.2.2⟩ rfl rfl

/-- A step of HUF.DEC keeps the invariant. -/
theorem hufDecStep_keeps {s : State} (h : Inv s) (hb : s.STATE = .busy) (hs : selected s = some .hufDec) :
    (hufDecStep s).Leaves (RunsOn s) Inv (ReadsUnwritten s) := by
  have hp := phase_of_selected h hb hs
  obtain ⟨-, hip, hlen, hop⟩ := h.counter hb
  obtain ⟨-, -, h3, h4⟩ := h.huffman hb
  unfold hufDecStep
  split <;> rename_i hph <;> try (simp_all [phaseBelongs]; done)
  · refine entryChecks_keeps (h.mid hb) fun a b => ?_
    exact runsOn_hufDec (h.mid hb).set hs hip ⟨a,b⟩ (.inl ⟨rfl, hop (.inl hph)⟩)
  · rcases fetchHeader_cases (s := s) SameInput.refl with ⟨t, F, e, hh⟩ | e | ⟨f, e, hf⟩
    · rw [e]; exact beginHeader_keeps t F (h.mid hb) hs (hop (.inr (.inl hph))) (hlen (by simp [hph])) hh
    · rw [e]; exact raise_keeps h.base hb (by simp)
    · rw [e]; exact hf
  · unfold treeStep; split
    · exact raise_keeps h.base hb (by simp)
    · rename_i hcap
      have hh := h3 (.inl hph)
      unfold buildTree; split
      · rename_i hz
        have := leafCount_zero _ hz
        omega
      · have hr := rootOf_ne_noChild s.FREQ
        refine runsOn_hufDec (h.mid hb).set hs hip (hlen (by simp [hph])) (.inr (.inr ⟨rfl, hh, ⟨hr, hr, ?_,
            by simpa using hcap⟩, by simp⟩))
        have := hop (.inr (.inr hph))
        simp [this]
  · have h5 := h4 hph
    unfold walkStep; split
    · split
      · exact raise_keeps h.base hb (by simp)
      · rename_i h6 h7
        refine Flow.Leaves.onRead (fun v hv => ?_) (fun e he => ?_)
        · refine (walkBit_keeps v (h.mid hb) hs hph (hlen (by simp [hph])) (h3 (.inr hph)) ⟨h5.1, h5.2.1,
            h5.2.2.2⟩ h6 (by omega)).mono (fun _ h => h.1) (fun _ h => h) (fun _ h => h)
        · unfold payloadBit at he
          cases hr : readIn s (headerLength + s.bitpos.toNat / 8) with
          | ok b => simp [hr] at he
          | error f =>
            simp [hr] at he; subst he
            exact ReadsUnwritten.read SameInput.refl (by omega) hr
    · exact complete_keeps h.base hb

/-- A pseudocode step of a BUSY state of the invariant goes on or ends in one, or reads a byte the host never wrote. -/
theorem sequencerStep_keeps {s : State} (h : Inv s) (hb : s.STATE = .busy) : (sequencerStep s).Leaves (RunsOn s) Inv
    (ReadsUnwritten s) := by
  obtain ⟨⟨i, hi, hp⟩, -⟩ := h.counter hb
  unfold sequencerStep
  rw [hi]
  have hi' := hi
  unfold selected at hi'
  split at hi' <;> cases hi'
  · exact rleEncStep_keeps h hb hi
  · exact hufEncStep_keeps h hb hi
  · exact lzEncStep_keeps h hb hi
  · exact rleDecStep_keeps h hb hi
  · exact hufDecStep_keeps h hb hi
  · exact lzDecStep_keeps h hb hi

end Sys2Proof.Machine
end

