-- ==== Sys2Proof/Laws/PerInstr.lean ====
section
/-! SUPPORT. Statements made for every instruction, one lemma per constructor. -/

namespace Sys2Proof.Laws.EncodeLength

/-- The length of an instruction in bytes (30_encoding.md R90, R104). -/
def byteLength : Instr → Nat
  | .rleEnc => 4
  | .hufEnc => 4
  | .lzEnc => 4
  | .rleDec => 4
  | .hufDec => 4
  | .lzDec => 4
  | .run _ _ => 2
  | .lit _ => 2
  | .matchRef _ _ => 4
  | .hufHdr _ _ => 1028
  | .hufPay payload => payload.length

/-- The encoder writes as many bytes as the format has. -/
def Statement (i : Instr) : Prop := (encode i).length = byteLength i

theorem rleEnc : Statement .rleEnc := rfl
theorem hufEnc : Statement .hufEnc := rfl
theorem lzEnc : Statement .lzEnc := rfl
theorem rleDec : Statement .rleDec := rfl
theorem hufDec : Statement .hufDec := rfl
theorem lzDec : Statement .lzDec := rfl
theorem run (count value : Byte) : Statement (.run count value) := rfl
theorem lit (byte : Byte) : Statement (.lit byte) := rfl
theorem matchRef (offset : BitVec 16) (length : Byte) : Statement (.matchRef offset length) := rfl

theorem length_flatMap_wordBytes (ws : List Word) : (ws.flatMap wordBytes).length = 4 * ws.length := by
  induction ws with
  | nil => rfl
  | cons w ws ih => simp [wordBytes, ih]; omega

theorem hufHdr (total : Word) (freq : FreqTable) : Statement (.hufHdr total freq) := by
  unfold Statement encode byteLength
  rw [List.length_append, length_flatMap_wordBytes, Vector.length_toList]
  rfl

theorem hufPay (payload : List Byte) : Statement (.hufPay payload) := rfl

end Sys2Proof.Laws.EncodeLength
end

