-- ==== Sys2Proof/Tests/Slice0.lean ====
section
/-! SUPPORT. The model's own tests: ill-formed terms that are refused, words written out from the spec's encodings, one small
step for each instruction with the result the spec gives, and a witness for the hypotheses of each statement. -/

namespace Sys2Proof.Tests

open Sys2Proof.Machine

/-! ## Ill-formed terms -/

/-- 30_encoding.md R97: a payload is at least one byte. -/
theorem test_wf_refuses_empty_payload : (Instr.hufPay []).wf = false := rfl

/-- 10_state.md R25: IN_LEN has 32 bits. -/
theorem test_wf_refuses_overlong_payload (payload : List Byte) (h : payload.length = 4294966268) :
    (Instr.hufPay payload).wf = false := by
  simp [Instr.wf, payloadFits, h]

theorem test_wf_accepts_payload : (Instr.hufPay [0xFC, 0x50]).wf = true := by decide

/-! ## Words written out from 30_encoding.md -/

theorem test_decode_rleEnc : decode .command [0x00, 0x00, 0x00, 0x00] = .ok (.rleEnc, []) := by rfl
theorem test_decode_hufEnc : decode .command [0x00, 0x00, 0x00, 0x01] = .ok (.hufEnc, []) := by rfl
theorem test_decode_lzEnc : decode .command [0x00, 0x00, 0x00, 0x02] = .ok (.lzEnc, []) := by rfl
theorem test_decode_rleDec : decode .command [0x00, 0x00, 0x00, 0x04] = .ok (.rleDec, []) := by rfl
theorem test_decode_hufDec : decode .command [0x00, 0x00, 0x00, 0x05] = .ok (.hufDec, []) := by rfl
theorem test_decode_lzDec : decode .command [0x00, 0x00, 0x00, 0x06] = .ok (.lzDec, []) := by rfl

/-- R105: ALG = 3, and any bit of 31:3. -/
theorem test_decode_reserved_commands :
    decode .command [0x00, 0x00, 0x00, 0x07] = .error .reservedCommand ∧
    decode .command [0x80, 0x00, 0x00, 0x00] = .error .reservedCommand := ⟨by rfl, by rfl⟩

/-- R94: count, then value. -/
theorem test_decode_run : decode .rle [0x2D, 0x76] = .ok (.run 45 0x76, []) := by rfl

/-- R99: the operand 0x01 is no marker. -/
theorem test_decode_lit : decode .lz [0x00, 0x01] = .ok (.lit 0x01, []) := by rfl

/-- R100: offset 0x1001 = 4097, high byte first. -/
theorem test_decode_match : decode .lz [0x01, 0x10, 0x01, 0x05] = .ok (.matchRef 4097 5, []) := by rfl

/-- R105: a reserved marker, and a token cut short. -/
theorem test_decode_bad_tokens :
    decode .lz [0x02, 0x61] = .error .reservedMarker ∧ decode .lz [0x01, 0x00, 0x01] = .error .truncated :=
  ⟨by rfl, by rfl⟩

/-- R95: N = 8 at byte 3, F[0] = 0x01020304 at bytes 4 to 7, F[255] = 5 at byte 1027. -/
def headerWord : List Byte :=
  [0x00, 0x00, 0x00, 0x08, 0x01, 0x02, 0x03, 0x04] ++ List.replicate 1019 0x00 ++ [0x05]

theorem test_decode_header :
    (match decode .hufHeader headerWord with
      | .ok (.hufHdr total freq, rest) =>
        total == 8 && freq[0] == 0x01020304 && freq[1] == 0 && freq[255] == 5 && rest.isEmpty
      | _ => false) = true := by decide +kernel

/-- R97: the payload is taken as it stands. -/
theorem test_decode_payload : decode .hufPayload [0xFC, 0x50] = .ok (.hufPay [0xFC, 0x50], []) := by rfl

/-- R110: the table's match values, byte 0 most significant. -/
theorem test_table_words :
    decodeTableWord 32 0x00000005 = some .hufDec ∧ decodeTableWord 32 0x01000202 = some (.matchRef 2 2) ∧
    decodeTableWord 16 0x0061 = some (.lit 0x61) ∧ decodeTableWord 16 0x0361 = some (.run 3 0x61) ∧
    decodeTableWord 32 0x00000003 = none := by decide

/-! ## States to start from -/

/-- What a START leaves after the host has written the given input. -/
def started (alg : BitVec 2) (dir : BitVec 1) (input : List Byte) : State :=
  { State.reset with
    STATE := .busy, ALG := alg, DIR := dir, IN := Memory.place [] 0 input, IN_LEN := BitVec.ofNat 32 input.length }

/-- The same with a capacity of OUT. -/
def startedWith (outCap : Nat) (alg : BitVec 2) (dir : BitVec 1) (input : List Byte) : State :=
  { started alg dir input with cfg := { Config.standard with OUT_CAP := outCap } }

/-- LZ.DEC at its second token, with one byte 0x61 decoded. -/
def afterOneLiteral : State :=
  { started 2 1 [0x00, 0x61, 0x01, 0x00, 0x01, 0x05] with
    phase := .ldToken, ip := 2, op := 1, wp := 1, OUT := [(0, 0x61)], WIN := [(0, 0x61)] }

/-- HUF.DEC about to walk the tree of vector H5: 256 over 0x61 and 0x62. -/
def atWalk : State :=
  { started 1 1 [] with
    phase := .hdWalk, ROOT := 256, node := 256, N := 2,
    NODE := (Vector.replicate 511 { w := 0, left := 0, right := 0 }).setIfInBounds 256 { w := 2, left := 0x61, right := 0x62 } }

/-- What a test looks at: STATE, ERR, OUT_LEN, op and the cells of OUT. -/
structure View where
  STATE : OpState
  ERR : ErrKind
  OUT_LEN : Nat
  op : Nat
  OUT : List Host.Cell
  deriving DecidableEq, Repr

/-- The view of an outcome. -/
def view (o : Host.Outcome State Fault Refusal) : Option View :=
  match o with
  | .next t => some { STATE := t.STATE, ERR := t.ERR, OUT_LEN := t.OUT_LEN.toNat, op := t.op.toNat, OUT := t.OUT }
  | .fault _ => none
  | .refused _ => none

/-! ## One step of each instruction -/

/-- 95_test_vectors.md S2, on a shorter input. -/
theorem test_rleEnc :
    view (exec .rleEnc (started 0 0 [0x61, 0x61, 0x62])) =
      some ⟨.done, .noError, 4, 4, [(0, 2), (1, 0x61), (2, 1), (3, 0x62)]⟩ := by
  decide +kernel

/-- 95_test_vectors.md E13: half a pair is written, and hidden. -/
theorem test_rleEnc_overflow :
    view (exec .rleEnc (startedWith 3 0 0 [0x61, 0x61, 0x62])) =
      some ⟨.error, .capacityOverflow, 0, 3, [(0, 2), (1, 0x61), (2, 1)]⟩ := by
  decide +kernel

/-- 95_test_vectors.md D3v: count 0 appends nothing. -/
theorem test_rleDec :
    view (exec .rleDec (started 0 1 [0x00, 0x61, 0x02, 0x62])) =
      some ⟨.done, .noError, 2, 2, [(0, 0x62), (1, 0x62)]⟩ := by
  decide +kernel

/-- 95_test_vectors.md S5. -/
theorem test_rleDec_odd :
    view (exec .rleDec (started 0 1 [0x03, 0x61, 0x03])) =
      some ⟨.error, .invalidInput, 0, 0, []⟩ := by decide +kernel

/-- 41_rle.md R146: RUN 3, 'a'. -/
theorem test_run :
    view (exec (.run 3 0x61) { started 0 1 [0x03, 0x61] with phase := .rdPair }) =
      some ⟨.busy, .noError, 0, 3, [(0, 0x61), (1, 0x61), (2, 0x61)]⟩ := by
  decide +kernel

/-- 44_lz77_encode.md R202: at ip = 5 of "abcdeabcde" the match is 5 long, 5 back. -/
theorem test_lzEnc_search :
    (match search { started 2 0 [0x61, 0x62, 0x63, 0x64, 0x65, 0x61, 0x62, 0x63, 0x64, 0x65] with ip := 5 } with
      | .go t => t.best == 5 && t.boff == 5
      | _ => false) = true := by decide +kernel

/-- 44_lz77_encode.md R204: below MIN_MATCH only literals. -/
theorem test_lzEnc :
    view (exec .lzEnc (started 2 0 [0x61, 0x61])) =
      some ⟨.done, .noError, 4, 4, [(0, 0), (1, 0x61), (2, 0), (3, 0x61)]⟩ := by
  decide +kernel

/-- 45_lz77_decode.md R228: the second example, LIT 'a', MATCH 1, 5. -/
theorem test_lzDec :
    view (exec .lzDec (started 2 1 [0x00, 0x61, 0x01, 0x00, 0x01, 0x05])) =
      some ⟨.done, .noError, 6, 6, [(0, 0x61), (1, 0x61), (2, 0x61), (3, 0x61), (4, 0x61), (5, 0x61)]⟩ := by decide +kernel

/-- 45_lz77_decode.md R229 (e): a reserved marker. -/
theorem test_lzDec_reserved :
    view (exec .lzDec (started 2 1 [0x02, 0x61])) = some ⟨.error, .invalidInput, 0, 0, []⟩ := by
  decide +kernel

/-- 45_lz77_decode.md R222. -/
theorem test_lit :
    view (exec (.lit 0x62) afterOneLiteral) =
      some ⟨.busy, .noError, 0, 2, [(0, 0x61), (1, 0x62)]⟩ := by
  decide +kernel

/-- 45_lz77_decode.md R224: offset 1 repeats the last byte. -/
theorem test_match :
    view (exec (.matchRef 1 2) afterOneLiteral) =
      some ⟨.busy, .noError, 0, 3, [(0, 0x61), (1, 0x61), (2, 0x61)]⟩ := by
  decide +kernel

/-- 45_lz77_decode.md R229 (b): offset 2 after one byte. -/
theorem test_match_before_start :
    view (exec (.matchRef 2 1) afterOneLiteral) =
      some ⟨.error, .invalidInput, 0, 1, [(0, 0x61)]⟩ := by
  decide +kernel

/-- The table of 95_test_vectors.md H1: 'a' 3, 'b' 3, 'c' 2. -/
def tableH1 : FreqTable :=
  (((Vector.replicate 256 0).setIfInBounds 0x61 3).setIfInBounds 0x62 3).setIfInBounds 0x63 2

/-- 95_test_vectors.md H1: NODE[256] = (5, 0x63, 0x61), NODE[257] = (8, 0x62, 256), the root. -/
theorem test_hufEnc_tree :
    ((Reference.treeOf tableH1)[256] == { w := 5, left := 0x63, right := 0x61 } &&
      (Reference.treeOf tableH1)[257] == { w := 8, left := 0x62, right := 256 } && rootOf tableH1 == 257) = true := by
  decide +kernel

/-- 42_huffman_encode.md R170: HUF.ENC needs 1029 bytes at least; with OUT_CAP = 2 it raises in the header. -/
theorem test_hufEnc_overflow :
    view (exec .hufEnc (startedWith 2 1 0 [0x61])) =
      some ⟨.error, .capacityOverflow, 0, 2, [(0, 0), (1, 0)]⟩ := by
  decide +kernel

/-- 42_huffman_encode.md R167, R168: with the codes of 95_test_vectors.md H5, "ab" packs to 0x40. -/
theorem test_hufEnc_pack :
    view (exec .hufEnc
      { started 1 0 [0x61, 0x62] with
        phase := .hePack
        CODE := ((Vector.replicate 256 []).setIfInBounds 0x61 [false]).setIfInBounds 0x62 [true]
        LEN := ((Vector.replicate 256 0).setIfInBounds 0x61 1).setIfInBounds 0x62 1 }) =
      some ⟨.done, .noError, 1, 1, [(0, 0x40)]⟩ := by
  decide +kernel

/-- 43_huffman_decode.md R181: a buffer shorter than the header. -/
theorem test_hufDec_short :
    view (exec .hufDec (started 1 1 [0x61])) = some ⟨.error, .invalidInput, 0, 0, []⟩ := by
  decide +kernel

/-- 43_huffman_decode.md R183: N agrees with the table of H1. -/
theorem test_hufHdr :
    (match exec (.hufHdr 8 tableH1) { started 1 1 [] with phase := .hdHdr } with
      | .next t => t.STATE == .busy && t.phase == .hdTree && t.N == 8 && t.fsum == 8 && t.ip == 1028
      | _ => false) = true := by decide +kernel

/-- 43_huffman_decode.md R189 (d): N = 9 does not. -/
theorem test_hufHdr_sum :
    (match exec (.hufHdr 9 tableH1) { started 1 1 [] with phase := .hdHdr } with
      | .next t => t.STATE == .error && t.ERR == .invalidInput
      | _ => false) = true := by decide +kernel

/-- 95_test_vectors.md H5 and U15v: 0x40 spells "ab" in the tree of H5. -/
theorem test_hufPay :
    view (exec (.hufPay [0x40]) atWalk) =
      some ⟨.done, .noError, 2, 2, [(0, 0x61), (1, 0x62)]⟩ := by
  decide +kernel

/-! ## Witnesses: a concrete state and operands that meet the hypotheses of each statement -/

/-- What holds of the state an outcome goes on to. -/
def goesOn (o : Host.Outcome State Fault Refusal) (p : State → Bool) : Bool :=
  match o with
  | .next t => p t
  | .fault _ => false
  | .refused _ => false

/-- Whether an outcome is a given fault. -/
def stopsWith (o : Host.Outcome State Fault Refusal) (f : Fault) : Bool :=
  match o with
  | .next _ => false
  | .fault e => decide (e = f)
  | .refused _ => false

theorem fault_of_stopsWith {o : Host.Outcome State Fault Refusal} {f : Fault} (h : stopsWith o f = true) : o = .fault f := by
  cases o with
  | next t => cases h
  | fault e => rw [of_decide_eq_true h]
  | refused r => cases h

theorem next_of_goesOn {o : Host.Outcome State Fault Refusal} {p : State → Bool} (h : goesOn o p = true) :
    ∃ t, o = .next t ∧ p t = true := by
  cases o with
  | next t => exact ⟨t, rfl, h⟩
  | fault f => cases h
  | refused r => cases h

/-- The input of a state whose IN and IN_LEN the host wrote is what was written. -/
theorem input_of_fields {s : State} {b : List Byte} (hin : s.IN = Memory.place [] 0 b)
    (hlen : s.IN_LEN = BitVec.ofNat 32 b.length) (h : b.length < 2 ^ 32) : InputIs s b := by
  refine ⟨by rw [hlen]; exact Nat.mod_eq_of_lt h, fun i hi => ?_⟩
  rw [hin, Memory.read_place 0 i b List.Pairwise.nil]
  simp [hi]

theorem started_at_input (alg : BitVec 2) (dir : BitVec 1) (b : List Byte) (p : Phase) (h : b.length < 2 ^ 32) :
    InputIs { started alg dir b with phase := p } b := input_of_fields rfl rfl h

theorem started_input (alg : BitVec 2) (dir : BitVec 1) (b : List Byte) (h : b.length < 2 ^ 32) :
    InputIs (started alg dir b) b := input_of_fields rfl rfl h

/-- A state with a host move to come. -/
def withMove (s : State) (m : HostMove) : State := { s with host := [m] }

/-- An operation that has completed with one byte. -/
def doneWithOne : State := { State.reset with STATE := .done, OUT_LEN := 1, OUT := [(0, 0x61)], op := 1 }

theorem witness_DecodeOfEncode :
    (Instr.hufPay [0x50]).wf = true ∧ streamOf (.hufPay [0x50]) = .hufPayload ∧
    (Instr.matchRef 0xFFFF 0xFF).wf = true ∧ streamOf (.matchRef 0xFFFF 0xFF) ≠ .hufPayload := by decide

theorem witness_EncodeOfDecode : decode .lz [0x01, 0xFF, 0xFF, 0xFF, 0x00] = .ok (.matchRef 0xFFFF 0xFF, [0x00]) := by rfl

theorem witness_PayloadBitOrder :
    0 < [true].length ∧ [true].length ≤ 7 ∧ 7 < 8 * (Reference.packed [true]).length := by decide

theorem witness_ResetAbandonsTheOperation : (withMove (started 0 0 [0x61]) .reset).host = .reset :: [] := rfl

theorem witness_RegisterReads : (withMove doneWithOne (.readReg 4)).host = .readReg 4 :: [] := rfl

/-- Every clause: an accepted word, reserved words at the edges of both fields, IN_LEN, a read-only register, a register that
does not exist, and the same while BUSY. -/
theorem witness_RegisterWrites (s : State) (hs : s = doneWithOne ∨ s = started 0 0 [0x61]) (reg : Nat) (v : Word)
    (_ : (reg, v) ∈ [(0, 6), (0, 3), (0, 8), (0, 0x80000000), (2, 0xFFFFFFFF), (3, 1), (4, 6)]) :
    (withMove s (.writeReg reg v)).host = .writeReg reg v :: [] ∧ (s.STATE = .busy ∨ s.STATE = .done) := by
  rcases hs with rfl | rfl <;> exact ⟨rfl, by decide⟩

theorem witness_HostWritesOneByteOfIn :
    (withMove State.reset (.writeIn 0 0x61)).IN.wf ∧
    (withMove State.reset (.writeIn 0 0x61)).host = .writeIn 0 0x61 :: [] := by decide

/-- Both clauses: a byte below IN_CAP that the host wrote, and the first index past IN_CAP. -/
theorem witness_HostReadsIn :
    (withMove { doneWithOne with IN := [(0, 0x61)] } (.readIn 0)).host = .readIn 0 :: [] ∧ doneWithOne.STATE ≠ .busy ∧
    0 < doneWithOne.cfg.IN_CAP ∧ ({ doneWithOne with IN := [(0, 0x61)] } : State).IN.read 0 = some 0x61 ∧
    doneWithOne.cfg.IN_CAP ≤ 2 ^ 32 - 1 := by decide

/-- Both clauses: the last committed byte, and the first index past OUT_LEN. -/
theorem witness_HostReadsOut :
    Inv (withMove doneWithOne (.readOut 0)) ∧ (withMove doneWithOne (.readOut 0)).host = .readOut 0 :: [] ∧
    doneWithOne.STATE = .done ∧ 0 < doneWithOne.OUT_LEN.toNat ∧ doneWithOne.OUT_LEN.toNat ≤ 1 ∧
    (withMove doneWithOne (.writeOut 0 0xFF)).host = .writeOut 0 0xFF :: [] :=
  ⟨⟨by decide, by decide, by decide, by decide, nofun, nofun, nofun, nofun, nofun⟩, by decide, by decide, by decide,
    by decide, by decide⟩

theorem witness_BusyShutsTheHostOut :
    (started 0 0 [0x61]).STATE = .busy ∧ (withMove (started 0 0 [0x61]) (.writeReg 2 5)).host = .writeReg 2 5 :: [] ∧
    (withMove (started 0 0 [0x61]) (.readOut 0)).host = .readOut 0 :: [] := by decide

theorem witness_CommandStarts :
    State.reset.STATE ≠ .busy ∧
    ({ State.reset with host := [.writeReg 0 6, .wait] } : State).host = .writeReg 0 6 :: [.wait] ∧
    decode .command (wordBytes 6) = .ok (.lzDec, []) := ⟨by decide, rfl, by rfl⟩

/-- The RUN token at the end of its stream, and the payload of a tree about to be walked. -/
theorem witness_StepRunsTheDecodedInstruction :
    (let s := { started 0 1 [0x03, 0x61] with phase := .rdPair }
     s.STATE = .busy ∧ HostWaits s ∧ fetchPoint s = some (.rle, 0) ∧ StandsAt s [0x03, 0x61] 0) ∧
    decode .rle [0x03, 0x61] = .ok (.run 3 0x61, []) ∧
    (let s := { atWalk with IN := [(1028, 0x40)], IN_LEN := 1029 }
     s.STATE = .busy ∧ HostWaits s ∧ fetchPoint s = some (.hufPayload, 1028) ∧ StandsAt s [0x40] 1028 ∧
       1028 + 1 = s.IN_LEN.toNat) ∧
    decode .hufPayload [0x40] = .ok (.hufPay [0x40], []) :=
  ⟨⟨rfl, .inl rfl, rfl, by decide⟩, by rfl, ⟨rfl, .inl rfl, by decide, by decide, rfl⟩, by rfl⟩

/-- Both cases: an encoder, and a decoder at the end of its stream. -/
theorem witness_StepRunsTheLatchedCommand :
    (let s := started 0 0 [0x61]
     s.STATE = .busy ∧ HostWaits s ∧ selected s = some .rleEnc ∧ fetchPoint s = none) ∧
    (let s := { started 0 1 [0x00, 0x61] with phase := .rdPair, ip := 2 }
     s.STATE = .busy ∧ HostWaits s ∧ selected s = some .rleDec ∧ s.phase = .rdPair ∧ s.IN_LEN.toNat ≤ s.ip.toNat) :=
  ⟨⟨rfl, .inl rfl, rfl, rfl⟩, ⟨rfl, .inl rfl, rfl, rfl, by decide⟩⟩

/-- Each clause: a LIT and a MATCH one byte short, and the first and last reserved markers. -/
theorem witness_BadLzTokenRaises (m : Byte) (input : List Byte)
    (h : (m, input) = (0x00, [0x00]) ∨ (m, input) = (0x01, [0x01, 0x00, 0x01]) ∨ (m, input) = (0x02, [0x02]) ∨
      (m, input) = (0xFF, [0xFF])) :
    let s := { started 2 1 input with phase := .ldToken }
    s.STATE = .busy ∧ HostWaits s ∧ fetchPoint s = some (.lz, 0) ∧ 0 < s.IN_LEN.toNat ∧ s.IN.read 0 = some m ∧
      ((m = 0 ∧ 0 + 2 > s.IN_LEN.toNat) ∨ (m = 1 ∧ 0 + 4 > s.IN_LEN.toNat) ∨ 2 ≤ m.toNat) := by
  rcases h with h | h | h | h <;> cases h <;>
    exact ⟨rfl, .inl rfl, rfl, by decide, rfl, by decide⟩

theorem witness_IdleSequencerDoesNothing : doneWithOne.STATE ≠ .busy ∧ doneWithOne.host = [] := by decide

theorem witness_GrainDoesNotMatter :
    (started 0 0 [0x61]).STATE = .busy ∧ selected (started 0 0 [0x61]) = some .rleEnc ∧
    (∃ u, sequencerStep (started 0 0 [0x61]) = .go u) ∧
    (∃ t, exec .rleEnc (started 0 0 [0x61]) = .next t ∧ t.STATE ≠ .busy) := by
  refine ⟨rfl, rfl, ⟨_, rfl⟩, ?_⟩
  obtain ⟨t, ht, hp⟩ := next_of_goesOn (o := exec .rleEnc (started 0 0 [0x61])) (p := fun t => decide (t.STATE ≠ .busy))
    (by decide +kernel)
  exact ⟨t, ht, of_decide_eq_true hp⟩

/-- Both clauses at the edge: one byte of room, and none. -/
theorem witness_EmitAppendsOneByte :
    (startedWith 1 0 0 []).cfg.wf ∧ (startedWith 1 0 0 []).OUT.wf ∧
    (startedWith 1 0 0 []).op.toNat < (startedWith 1 0 0 []).cfg.OUT_CAP ∧
    ({ startedWith 1 0 0 [] with op := 1 } : State).op.toNat = (startedWith 1 0 0 []).cfg.OUT_CAP := by decide

/-- Both clauses: IN_LEN = 0, and IN_LEN one past IN_CAP (95_test_vectors.md K8, K9). -/
theorem witness_EntryChecks :
    isCommand .lzDec = true ∧ (started 2 1 []).STATE = .busy ∧ (started 2 1 []).phase = .pEntry ∧
    (started 2 1 []).IN_LEN = 0 ∧
    (let s := { started 2 1 [] with cfg := { Config.standard with IN_CAP := 16 }, IN_LEN := 17 }
     s.STATE = .busy ∧ s.phase = .pEntry ∧ s.IN_LEN ≠ 0 ∧ s.IN_LEN.toNat > s.cfg.IN_CAP) := by decide

theorem witness_EmptySequenceOnlyAtEntry :
    isCommand .rleDec = true ∧ AtEntry (started 0 1 []) ∧ ∃ t, exec .rleDec (started 0 1 []) = .next t := by
  obtain ⟨t, ht, -⟩ := next_of_goesOn (o := exec .rleDec (started 0 1 [])) (p := fun _ => true) (by decide +kernel)
  exact ⟨rfl, by decide, t, ht⟩

theorem witness_EncodersNeverRaiseInvalidInput :
    (started 0 0 [0x61]).STATE = .busy ∧ (started 0 0 [0x61]).ERR = .noError ∧
    ∃ t, exec .rleEnc (started 0 0 [0x61]) = .next t := by
  obtain ⟨t, ht, -⟩ := next_of_goesOn (o := exec .rleEnc (started 0 0 [0x61])) (p := fun _ => true) (by decide +kernel)
  exact ⟨rfl, rfl, t, ht⟩

/-- The hypotheses shared by the statements of the six commands, for any input that fits IN_LEN. -/
theorem started_ready (alg : BitVec 2) (dir : BitVec 1) (b : List Byte) (h : b.length < 2 ^ 32) :
    (started alg dir b).cfg.wf ∧ (started alg dir b).OUT.wf ∧ (started alg dir b).WIN.wf ∧ AtEntry (started alg dir b) ∧
      InputIs (started alg dir b) b :=
  ⟨(by decide : Config.standard.wf), List.Pairwise.nil, List.Pairwise.nil, ⟨rfl, rfl, rfl, rfl, rfl, rfl⟩, started_input alg dir b h⟩

/-- Both ends: a run of 255, the boundary of the counter (95_test_vectors.md E2), and the empty input. -/
theorem witness_RleEncRuns :
    (let b := List.replicate 255 (0x76 : Byte)
     let s := started 0 0 b
     s.cfg.wf ∧ s.OUT.wf ∧ AtEntry s ∧ InputIs s b ∧ Reference.run s.cfg .rleEnc b = .ok [0xFF, 0x76]) ∧
    (let s := started 0 0 []
     s.cfg.wf ∧ s.OUT.wf ∧ AtEntry s ∧ InputIs s [] ∧ Reference.run s.cfg .rleEnc [] = .err .emptySequence) := by
  obtain ⟨h1, h2, -, h3, h4⟩ := started_ready 0 0 (List.replicate 255 0x76) (by rw [List.length_replicate]; decide)
  obtain ⟨g1, g2, -, g3, g4⟩ := started_ready 0 0 [] (by simp)
  exact ⟨⟨h1, h2, h3, h4, by decide +kernel⟩, g1, g2, g3, g4, by rfl⟩

theorem witness_RleOutputShape : ([0x61] : List Byte) ≠ [] := by decide

/-- Three ends (95_test_vectors.md D2v, D4v, D5v). -/
theorem witness_RleDecRuns (b : List Byte) (r : Reference.Result)
    (h : (b, r) = ([0x01, 0x41, 0x02, 0x41], .ok [0x41, 0x41, 0x41]) ∨ (b, r) = ([0x00, 0x61], .ok []) ∨
      (b, r) = ([0x03, 0x61, 0x03], .err .invalidInput)) :
    let s := started 0 1 b
    s.cfg.wf ∧ s.OUT.wf ∧ AtEntry s ∧ InputIs s b ∧ Reference.run s.cfg .rleDec b = r := by
  have hb : b.length < 2 ^ 32 := by rcases h with h | h | h <;> cases h <;> decide
  obtain ⟨h1, h2, -, h3, h4⟩ := started_ready 0 1 b hb
  refine ⟨h1, h2, h3, h4, ?_⟩
  rcases h with h | h | h <;> cases h <;> decide +kernel

/-- Both clauses at the edge: RUN 255 with 255 bytes of room, and with 254 (95_test_vectors.md D8v, D9v). -/
theorem witness_RunToken :
    (let s := startedWith 255 0 1 []
     s.cfg.wf ∧ s.OUT.wf ∧ s.STATE = .busy ∧ s.op.toNat ≤ s.cfg.OUT_CAP ∧ s.op.toNat + (255#8).toNat ≤ s.cfg.OUT_CAP) ∧
    (let s := startedWith 254 0 1 []
     s.cfg.wf ∧ s.OUT.wf ∧ s.STATE = .busy ∧ s.op.toNat ≤ s.cfg.OUT_CAP ∧ s.cfg.OUT_CAP < s.op.toNat + (255#8).toNat) := by
  decide

theorem witness_ZeroCountAppendsNothing :
    let b : List Byte := [0x00, 0x61]
    let s := started 0 1 b
    s.STATE = .busy ∧ s.cfg.wf ∧ AtEntry s ∧ InputIs s b ∧ b ≠ [] ∧ b.length ≤ s.cfg.IN_CAP ∧ b.length % 2 = 0 ∧
      ∀ i, 2 * i < b.length → b[2 * i]? = some 0 := by
  obtain ⟨h1, -, -, h3, h4⟩ := started_ready 0 1 [0x00, 0x61] (by decide)
  refine ⟨rfl, h1, h3, h4, by decide, by decide, rfl, fun i hi => ?_⟩
  have : i = 0 := by simp at hi; omega
  subst this; rfl

theorem witness_RleRoundTrip :
    Reference.run Config.standard .rleEnc [0x61] = .ok [0x01, 0x61] ∧ [0x01, 0x61].length ≤ Config.standard.IN_CAP ∧
    [(0x61 : Byte)].length ≤ Config.standard.OUT_CAP := by decide +kernel

theorem witness_FrequenciesCount : ([0x61, 0x61] : List Byte).length < 2 ^ 32 := by decide

/-- Two leaves to choose from: the two heavier of H1 weigh the same. -/
theorem witness_MergeCombinesTheTwoLightest :
    (leaves tableH1 Reference.blankNodes).lightest = some 0x63 ∧
    ((leaves tableH1 Reference.blankNodes).remove 0x63).lightest = some 0x61 := by decide +kernel

theorem witness_TreeShape : 2 ≤ leafCount tableH1 ∧ freqSum tableH1 < 2 ^ 32 := by decide +kernel

/-- The table of 95_test_vectors.md H2. -/
def tableH2 : FreqTable := (Vector.replicate 256 0).setIfInBounds 0x61 4

theorem witness_SingleSymbolTree : leafCount tableH2 = 1 := by decide +kernel

theorem witness_TreeIsAFunctionOfFreqAlone : leafCount tableH1 ≠ 0 := by decide +kernel

/-- A byte value that occurs, and one that does not. -/
theorem witness_CodesLeadToTheirLeaves :
    freqSum tableH1 < 2 ^ 32 ∧ tableH1[(0x61#8).toNat]? = some 3 ∧ tableH1[(0x60#8).toNat]? = some 0 ∧
    leafCount tableH1 ≠ 0 := by decide +kernel

theorem witness_CodesArePrefixFree :
    freqSum tableH1 < 2 ^ 32 ∧ tableH1[(0x61#8).toNat]? = some 3 ∧ tableH1[(0x63#8).toNat]? = some 2 := by decide +kernel

/-- Vector H3 written out: N = 1, F[0x61] = 1 at 0x188, and the payload. -/
def bufferH3 : List Byte :=
  [0x00, 0x00, 0x00, 0x01] ++ List.replicate 0x184 0x00 ++ [0x00, 0x00, 0x00, 0x01] ++ List.replicate 632 0x00 ++ [0x00]

/-- Vector H3: "a" encoded. -/
theorem test_hufEncoded_H3 : Reference.hufEncoded [0x61] = bufferH3 := by decide +kernel

theorem bufferH3_length : bufferH3.length = 1029 := by decide +kernel

theorem encodedH3_length : (Reference.hufEncoded [0x61]).length = 1029 := by rw [test_hufEncoded_H3, bufferH3_length]

theorem run_hufEnc {c : Config} {b : List Byte} (h : b.length ≠ 0) (hin : b.length ≤ c.IN_CAP)
    (hout : (Reference.hufEncoded b).length ≤ c.OUT_CAP) :
    Reference.run c .hufEnc b = .ok (Reference.hufEncoded b) := by
  unfold Reference.run Reference.codec Reference.withinCapacity
  rw [if_neg h, if_neg (Nat.not_lt.2 hin), if_pos hout]

theorem encodesH3 : Reference.run Config.standard .hufEnc [0x61] = .ok (Reference.hufEncoded [0x61]) :=
  run_hufEnc (by decide) (by decide) (by rw [encodedH3_length]; decide)

/-- And decoded (U2v). -/
theorem decodesH3 : Reference.run Config.standard .hufDec bufferH3 = .ok [0x61] := by decide +kernel

theorem witness_HufEncRuns :
    let b : List Byte := [0x61]
    let s := started 1 0 b
    s.cfg.wf ∧ s.OUT.wf ∧ AtEntry s ∧ InputIs s b ∧ Reference.run s.cfg .hufEnc b = .ok (Reference.hufEncoded b) := by
  obtain ⟨h1, h2, -, h3, h4⟩ := started_ready 1 0 [0x61] (by decide)
  exact ⟨h1, h2, h3, h4, encodesH3⟩

/-- Vector H3 decoded (U2v), and U16v. -/
theorem witness_HufDecRuns :
    (let b := bufferH3
     let s := started 1 1 b
     s.cfg.wf ∧ s.OUT.wf ∧ AtEntry s ∧ InputIs s b ∧ Reference.run s.cfg .hufDec b = .ok [0x61]) ∧
    (let s := started 1 1 [0x61]
     s.cfg.wf ∧ s.OUT.wf ∧ AtEntry s ∧ InputIs s [0x61] ∧ Reference.run s.cfg .hufDec [0x61] = .err .invalidInput) := by
  obtain ⟨h1, h2, -, h3, h4⟩ := started_ready 1 1 bufferH3 (by rw [bufferH3_length]; decide)
  obtain ⟨g1, g2, -, g3, g4⟩ := started_ready 1 1 [0x61] (by decide)
  exact ⟨⟨h1, h2, h3, h4, decodesH3⟩, g1, g2, g3, g4, by decide +kernel⟩

/-- Both clauses at the edge: 1027 bytes, and 1028. -/
theorem witness_HeaderIsLoaded :
    (let s := { started 1 1 [] with phase := .hdHdr, IN_LEN := 1027 }
     s.STATE = .busy ∧ selected s = some .hufDec ∧ s.phase = .hdHdr ∧ s.IN_LEN.toNat < 1028) ∧
    (let s := { started 1 1 headerWord with phase := .hdHdr }
     s.STATE = .busy ∧ selected s = some .hufDec ∧ s.phase = .hdHdr ∧ InputIs s headerWord ∧ 1028 ≤ headerWord.length) := by
  have h : headerWord.length = 1028 := by decide +kernel
  exact ⟨⟨rfl, rfl, rfl, by decide⟩, rfl, rfl, rfl, started_at_input 1 1 headerWord .hdHdr (by rw [h]; decide), by rw [h]⟩

/-- Both clauses: the table of H1 with N = 8 and N = 9, and the empty table. -/
theorem witness_HeaderToken :
    (started 1 1 []).STATE = .busy ∧ freqSum tableH1 = (8 : Word).toNat ∧ freqSum tableH1 ≠ 0 ∧
    freqSum tableH1 ≠ (9 : Word).toNat ∧ freqSum (Vector.replicate 256 0) = 0 := by decide +kernel

/-- Both clauses: 0x40 spells two symbols in the tree of H5, no bits spell none. -/
theorem witness_PayloadToken :
    atWalk.cfg.wf ∧ atWalk.OUT.wf ∧ atWalk.STATE = .busy ∧ atWalk.ERR = .noError ∧ atWalk.OUT_LEN = 0 ∧ atWalk.op = 0 ∧
    atWalk.ROOT ≠ noChild ∧ atWalk.N.toNat ≤ atWalk.cfg.OUT_CAP ∧
    Reference.walked atWalk.NODE atWalk.ROOT (([0x40] : List Byte).flatMap byteBits) atWalk.ROOT atWalk.N.toNat =
      some [0x61, 0x62] ∧
    Reference.walked atWalk.NODE atWalk.ROOT (([] : List Byte).flatMap byteBits) atWalk.ROOT atWalk.N.toNat = none := by
  decide +kernel

/-- 0x40 and 0x7F agree on the two bits taken. -/
theorem witness_BitsAfterTheLastCodeAreIgnored :
    (Instr.hufPay [0x40]).wf = true ∧ atWalk.STATE = .busy ∧
    ∃ t, exec (.hufPay [0x40]) atWalk = .next t ∧ t.STATE = .done ∧
      (([0x40] : List Byte).flatMap byteBits).take t.bitpos.toNat <+: ([0x7F] : List Byte).flatMap byteBits := by
  obtain ⟨t, ht, hp⟩ := next_of_goesOn (o := exec (.hufPay [0x40]) atWalk)
    (p := fun t => decide (t.STATE = .done ∧ t.bitpos = 2)) (by decide +kernel)
  obtain ⟨h1, h2⟩ := of_decide_eq_true hp
  exact ⟨by decide, rfl, t, ht, h1, by rw [h2]; decide⟩

theorem witness_HuffmanRoundTrip :
    Config.standard.wf ∧ Reference.run Config.standard .hufEnc [0x61] = .ok (Reference.hufEncoded [0x61]) ∧
    (Reference.hufEncoded [0x61]).length ≤ Config.standard.IN_CAP ∧ ([0x61] : List Byte).length ≤ Config.standard.OUT_CAP :=
  ⟨by decide, encodesH3, by rw [encodedH3_length]; decide, by decide⟩

/-- "aa", all literals. -/
theorem witness_LzEncRuns :
    let b : List Byte := [0x61, 0x61]
    let s := started 2 0 b
    s.cfg.wf ∧ s.OUT.wf ∧ AtEntry s ∧ InputIs s b ∧
      Reference.run s.cfg .lzEnc b = .ok [0x00, 0x61, 0x00, 0x61] := by
  obtain ⟨h1, h2, -, h3, h4⟩ := started_ready 2 0 [0x61, 0x61] (by decide)
  exact ⟨h1, h2, h3, h4, by decide +kernel⟩

/-- The last position of "aa", and the first, where the window is empty. -/
theorem witness_SearchFindsTheLongestNearestMatch (p : Word) (h : p = 0 ∨ p = 1) :
    let s := { started 2 0 [0x61, 0x61] with phase := .leSearch, ip := p }
    s.cfg.wf ∧ s.STATE = .busy ∧ selected s = some .lzEnc ∧ s.phase = .leSearch ∧ InputIs s [0x61, 0x61] ∧
      s.ip.toNat < [0x61, 0x61].length := by
  rcases h with rfl | rfl <;>
    exact ⟨by decide, rfl, rfl, rfl, started_input 2 0 [0x61, 0x61] (by decide), by decide⟩

/-- Both clauses at the edge: best = MIN_MATCH with four bytes of room, and best one below it with two. -/
theorem witness_OneTokenIsEmitted (n : Nat) (best : Byte) (h : (n, best) = (4, 5) ∨ (n, best) = (2, 4)) :
    let s := { startedWith n 2 0 [0x61] with phase := .leEmit, best := best, boff := 5 }
    s.cfg.wf ∧ s.OUT.wf ∧ s.STATE = .busy ∧ selected s = some .lzEnc ∧ s.phase = .leEmit ∧ s.ip.toNat < s.IN_LEN.toNat ∧
      s.IN.read s.ip.toNat = some 0x61 ∧
      ((s.cfg.MIN_MATCH ≤ s.best.toNat ∧ s.op.toNat + 4 ≤ s.cfg.OUT_CAP) ∨
        (s.best.toNat < s.cfg.MIN_MATCH ∧ s.op.toNat + 2 ≤ s.cfg.OUT_CAP)) := by
  rcases h with h | h <;> cases h <;> exact ⟨by decide, by decide, rfl, rfl, rfl, by decide, rfl, by decide⟩

/-- 95_test_vectors.md S10 on fewer bytes, and a bad offset after a literal (S11). -/
theorem witness_LzDecRuns (b : List Byte) (r : Reference.Result)
    (h : (b, r) = ([0x00, 0x61, 0x01, 0x00, 0x01, 0x02], .ok [0x61, 0x61, 0x61]) ∨
      (b, r) = ([0x00, 0x61, 0x01, 0x00, 0x02, 0x01], .err .invalidInput)) :
    let s := started 2 1 b
    s.cfg.wf ∧ s.OUT.wf ∧ s.WIN.wf ∧ AtEntry s ∧ InputIs s b ∧ Reference.run s.cfg .lzDec b = r := by
  have hb : b.length < 2 ^ 32 := by rcases h with h | h <;> cases h <;> decide
  obtain ⟨h1, h2, h2', h3, h4⟩ := started_ready 2 1 b hb
  refine ⟨h1, h2, h2', h3, h4, ?_⟩
  rcases h with h | h <;> cases h <;> decide +kernel

/-- Both clauses at the edge: the last byte of room, and none. -/
theorem witness_LitToken (n : Nat) (h : n = 2 ∨ n = 1) :
    let s := { afterOneLiteral with cfg := { Config.standard with OUT_CAP := n } }
    s.cfg.wf ∧ s.OUT.wf ∧ s.WIN.wf ∧ s.STATE = .busy ∧ s.op.toNat ≤ s.cfg.OUT_CAP ∧
      (s.op.toNat < s.cfg.OUT_CAP ∨ s.op.toNat = s.cfg.OUT_CAP) := by
  rcases h with rfl | rfl <;> decide

/-- Every check at its edge, and the largest and smallest operands accepted after one byte. -/
theorem witness_MatchChecks :
    (let s := { afterOneLiteral with cfg := { Config.standard with M := 4, MIN_MATCH := 4 } }
     s.STATE = .busy ∧ (0#16).toNat = 0 ∧ (4097#16).toNat > s.cfg.W ∧ (0#8).toNat = 0 ∧ (5#8).toNat > s.cfg.M ∧
       (2#16).toNat > s.op.toNat) ∧
    (let s := afterOneLiteral
     s.STATE = .busy ∧ 1 ≤ (1#16).toNat ∧ (1#16).toNat ≤ s.cfg.W ∧ 1 ≤ (255#8).toNat ∧ (255#8).toNat ≤ s.cfg.M ∧
       1 ≤ (1#8).toNat ∧ (1#16).toNat ≤ s.op.toNat) := by decide

/-- afterOneLiteral with a capacity of OUT meets the invariant. -/
theorem inv_afterOneLiteral (n : Nat) (h : n = 256 ∨ n = 2) :
    Inv { afterOneLiteral with cfg := { Config.standard with OUT_CAP := n } } := by
  rcases h with rfl | rfl <;>
    exact ⟨by decide, by decide, by decide, by decide, fun _ => ⟨⟨.lzDec, rfl, rfl⟩, by decide⟩, fun _ => by decide,
      fun _ => ⟨nofun, nofun, by decide, nofun⟩, fun _ => nofun, fun _ => by decide +kernel⟩

/-- Both clauses at the edge: MATCH 1, 255 with just enough room, and with room for one byte. -/
theorem witness_MatchCopies (n : Nat) (h : n = 256 ∨ n = 2) :
    let s := { afterOneLiteral with cfg := { Config.standard with OUT_CAP := n } }
    Inv s ∧ s.STATE = .busy ∧ s.phase = .ldToken ∧ 1 ≤ (1#16).toNat ∧ (1#16).toNat ≤ s.cfg.W ∧ 1 ≤ (255#8).toNat ∧
      (255#8).toNat ≤ s.cfg.M ∧ (1#16).toNat ≤ s.op.toNat ∧
      (n = 256 → s.op.toNat + (255#8).toNat ≤ s.cfg.OUT_CAP) ∧ (n = 2 → s.cfg.OUT_CAP < s.op.toNat + (255#8).toNat) := by
  refine ⟨inv_afterOneLiteral n h, ?_⟩
  rcases h with rfl | rfl <;> decide

/-- A wider window on the decoding side. -/
theorem witness_LzRoundTrip :
    Config.standard.wf ∧ Config.standard.W ≤ ({ Config.standard with W := 65535 } : Config).W ∧
    Reference.run Config.standard .lzEnc [0x61] = .ok [0x00, 0x61] ∧ [0x00, 0x61].length ≤ Config.standard.IN_CAP := by
  decide +kernel

/-- An input and its output for each of the six commands. -/
theorem witness_CommandsComplete (i : Instr) (alg : BitVec 2) (dir : BitVec 1) (b out : List Byte)
    (h : (i, alg, dir, b, out) = (.rleEnc, 0, 0, [0x61], [0x01, 0x61]) ∨
      (i, alg, dir, b, out) = (.hufEnc, 1, 0, [0x61], Reference.hufEncoded [0x61]) ∨
      (i, alg, dir, b, out) = (.lzEnc, 2, 0, [0x61], [0x00, 0x61]) ∨
      (i, alg, dir, b, out) = (.rleDec, 0, 1, [0x01, 0x61], [0x61]) ∨
      (i, alg, dir, b, out) = (.hufDec, 1, 1, bufferH3, [0x61]) ∨
      (i, alg, dir, b, out) = (.lzDec, 2, 1, [0x00, 0x61], [0x61])) :
    let s := started alg dir b
    s.cfg.wf ∧ s.OUT.wf ∧ s.WIN.wf ∧ AtEntry s ∧ InputIs s b ∧ Reference.run s.cfg i b = .ok out := by
  have hb : b.length < 2 ^ 32 := by
    rcases h with h | h | h | h | h | h <;> cases h <;> first | (rw [bufferH3_length]; decide) | decide
  obtain ⟨h1, h2, h2', h3, h4⟩ := started_ready alg dir b hb
  refine ⟨h1, h2, h2', h3, h4, ?_⟩
  rcases h with h | h | h | h | h | h <;> cases h
  · decide +kernel
  · exact encodesH3
  · decide +kernel
  · decide +kernel
  · exact decodesH3
  · decide +kernel

theorem witness_RoundTrip :
    (let b : List Byte := [0x61]
     let e : List Byte := [0x01, 0x61]
     let s := started 0 0 b
     let s' := started 0 1 e
     s.cfg.wf ∧ s'.cfg = s.cfg ∧ s.OUT.wf ∧ s'.OUT.wf ∧ s'.WIN.wf ∧ AtEntry s ∧ AtEntry s' ∧ InputIs s b ∧ InputIs s' e ∧
       e.length ≤ s.cfg.IN_CAP ∧ b.length ≤ s.cfg.OUT_CAP ∧
       ∃ t, exec .rleEnc s = .next t ∧ t.STATE = .done ∧ t.OUT_LEN.toNat = e.length ∧
         ∀ j, j < e.length → t.OUT.read j = e[j]?) := by
  obtain ⟨h1, h2, -, h3, h4⟩ := started_ready 0 0 [0x61] (by decide)
  obtain ⟨-, g2, g2', g3, g4⟩ := started_ready 0 1 [0x01, 0x61] (by decide)
  obtain ⟨t, ht, hp⟩ := next_of_goesOn (o := exec .rleEnc (started 0 0 [0x61]))
    (p := fun t => decide (t.STATE = .done ∧ t.OUT_LEN = 2 ∧ t.OUT = [(0, 0x01), (1, 0x61)])) (by decide +kernel)
  obtain ⟨k1, k2, k3⟩ := of_decide_eq_true hp
  exact ⟨h1, rfl, h2, g2, g2', h3, g3, h4, g4, by decide, by decide, t, ht, k1, by rw [k2]; rfl, by rw [k3]; decide⟩

/-- The same input with a window and an output left by something earlier. -/
theorem witness_OutcomeDependsOnTheInputAlone :
    let b : List Byte := [0x00, 0x61]
    let s := started 2 1 b
    let s' := { started 2 1 b with OUT := [(5, 0xFF)], WIN := [(3, 0xFF)], cnt := 7 }
    isCommand .lzDec = true ∧ s.cfg.wf ∧ s'.cfg = s.cfg ∧ s.OUT.wf ∧ s'.OUT.wf ∧ s.WIN.wf ∧ s'.WIN.wf ∧ AtEntry s ∧
      AtEntry s' ∧ InputIs s b ∧ InputIs s' b := by
  obtain ⟨h1, h2, h2', h3, h4⟩ := started_ready 2 1 [0x00, 0x61] (by decide)
  exact ⟨rfl, h1, rfl, h2, by decide, h2', by decide, h3, h3, h4, h4⟩

/-- Both ends: an input the host wrote, and one it did not; this state of the invariant is at the entry of RLE.ENC. -/
theorem inv_started (input : List Byte) (h : input = [0x61] ∨ input = []) :
    Inv { started 0 0 input with IN_LEN := 1 } := by
  rcases h with rfl | rfl <;>
    exact ⟨by decide, by decide, by decide, by decide, fun _ => ⟨⟨.rleEnc, rfl, rfl⟩, by decide⟩, fun _ => by decide,
      fun _ => ⟨nofun, nofun, by decide, nofun⟩, fun _ => nofun, fun _ => by decide⟩

theorem witness_EveryOperationEnds (input : List Byte) (h : input = [0x61] ∨ input = []) :
    let s := { started 0 0 input with IN_LEN := 1 }
    Inv s ∧ s.STATE = .busy ∧ selected s = some .rleEnc := ⟨inv_started input h, rfl, rfl⟩

theorem witness_StepKeepsTheInvariant :
    Inv { started 0 0 [0x61] with IN_LEN := 1 } ∧ ∃ t, step { started 0 0 [0x61] with IN_LEN := 1 } = .next t := by
  obtain ⟨t, ht, -⟩ := next_of_goesOn (o := step { started 0 0 [0x61] with IN_LEN := 1 }) (p := fun _ => true)
    (by decide +kernel)
  exact ⟨inv_started _ (.inl rfl), t, ht⟩

theorem witness_OnlyAnUnwrittenByteStops :
    Inv { started 0 0 [] with IN_LEN := 1 } ∧ step { started 0 0 [] with IN_LEN := 1 } = .fault (.inNeverWritten 0) :=
  ⟨inv_started _ (.inr rfl), fault_of_stopsWith (by decide +kernel)⟩

/-- The second byte of two was never written. -/
theorem witness_UnwrittenByteStopsHufEnc :
    let s := { started 1 0 [0x61] with IN_LEN := 2 }
    AtEntry s ∧ s.IN_LEN.toNat ≤ s.cfg.IN_CAP ∧ 1 < s.IN_LEN.toNat ∧ s.IN.read 1 = none ∧
      ∀ j, j < 1 → (s.IN.read j).isSome := by decide

end Sys2Proof.Tests
end

section
/-! # Reset, the host registers and the dispatch of a step -/

namespace Sys2Proof.Machine

/-- Settles O5: the fields of the reset state, and a memory that lists no cell reads none. -/
theorem resetValues : Obligations.ResetValues := by
  unfold Obligations.ResetValues
  exact ⟨rfl, rfl, rfl, rfl, fun _ => ⟨rfl, rfl, rfl⟩⟩

/-- Settles O57: the parameters of reset are well formed, its memories are empty, and it is not BUSY. -/
theorem resetMeetsTheInvariant : Obligations.ResetMeetsTheInvariant := by
  unfold Obligations.ResetMeetsTheInvariant
  exact InvBase.inv ⟨by decide, by decide, by decide, by decide⟩ (by decide)

/-- The three fields of the STATUS word (10_state.md R24). -/
theorem statusWord_fields (e c : BitVec 2) :
    (0#28 ++ e ++ c).extractLsb' 0 2 = c ∧ (0#28 ++ e ++ c).extractLsb' 2 2 = e ∧
      (0#28 ++ e ++ c).extractLsb' 4 28 = 0 := by
  revert e c
  decide

/-- Settles O7: the reply is `readRegister`, whose cases are the registers. -/
theorem registerReads : Obligations.RegisterReads := by
  unfold Obligations.RegisterReads
  intro s reg rest hhost
  refine ⟨readRegister s reg, by rw [step, hhost]; rfl, ?_, ?_, ?_, ?_⟩
  · rintro rfl
    obtain ⟨hstate, herr, hzero⟩ := statusWord_fields s.ERR.code s.STATE.code
    exact ⟨hstate.trans (by cases s.STATE <;> rfl), herr.trans (by cases s.ERR <;> rfl), hzero⟩
  · rintro rfl
    rfl
  · rintro rfl
    rfl
  · intro hreg
    match reg, hreg with
    | 0, _ => rfl
    | n + 4, _ => rfl

/-- A word is accepted by the three tests of 10_state.md R22. -/
theorem accepts_iff {s : State} {v : Word} :
    accepts s v = true ↔ s.STATE ≠ .busy ∧ v.extractLsb' 0 2 ≠ 3 ∧ v.extractLsb' 3 29 = 0 := by
  simp [accepts, and_assoc]

/-- What a register write does: START, the store of IN_LEN, or nothing. -/
theorem writeRegister_eq (reg : Nat) (v : Word) (s : State) :
    writeRegister reg v s =
      if reg = 0 ∧ s.STATE ≠ .busy ∧ v.extractLsb' 0 2 ≠ 3 ∧ v.extractLsb' 3 29 = 0 then start v s
      else if reg = 2 ∧ s.STATE ≠ .busy then { s with IN_LEN := v }
      else s := by
  by_cases hb : s.STATE = .busy
  · simp [writeRegister, hb]
  · match reg with
    | 0 => simp [writeRegister, writeCmd, accepts_iff, hb]
    | 1 => simp [writeRegister, hb]
    | 2 => simp [writeRegister, hb]
    | n + 3 => simp [writeRegister, hb]

/-- Settles O8: the step is `writeRegister`, and START is the update the statement writes out. -/
theorem registerWrites : Obligations.RegisterWrites := by
  unfold Obligations.RegisterWrites
  intro s reg v rest hhost
  have hstep : step s = .next (writeRegister reg v { s with host := rest }) := by rw [step, hhost]; rfl
  rw [hstep, writeRegister_eq]
  rfl

/-- A BUSY machine whose host waits takes the sequencer's turn. -/
theorem step_of_hostWaits {s : State} (hb : s.STATE = .busy) (hw : HostWaits s) : step s = turn s :=
  step_turn (hw.imp_right fun h => ⟨hb, h⟩)

/-- A BUSY machine whose host waits runs the instruction it fetches. -/
theorem step_of_fetch {s : State} {i : Instr} (hb : s.STATE = .busy) (hw : HostWaits s) (hf : fetch s = .instr i) :
    step s = exec i s := by
  rw [step_of_hostWaits hb hw, turn_busy hb, hf]

/-- Bytes that stand in the input are what the sequencer reads there. -/
theorem StandsAt.readIns {s : State} {bytes : List Byte} {k : Nat} (h : StandsAt s bytes k) :
    readIns s k bytes.length = .ok bytes := by
  obtain ⟨hlen, hread⟩ := h
  exact readIns_ok.2 ⟨rfl, fun j hj => readIn_ok.2 ⟨by omega, by rw [hread j hj, List.getElem?_eq_getElem hj]⟩⟩

/-- Where the program counter can stand (10_state.md R23). -/
theorem fetchPoint_cases {s : State} {st : Stream} {k : Nat} (h : fetchPoint s = some (st, k)) :
    (selected s = some .rleDec ∧ s.phase = .rdPair ∧ st = .rle ∧ k = s.ip.toNat) ∨
    (selected s = some .lzDec ∧ s.phase = .ldToken ∧ st = .lz ∧ k = s.ip.toNat) ∨
    (selected s = some .hufDec ∧ s.phase = .hdHdr ∧ st = .hufHeader ∧ k = 0) ∨
    (selected s = some .hufDec ∧ s.phase = .hdWalk ∧ atPayload s = true ∧ st = .hufPayload ∧ k = headerLength) := by
  unfold fetchPoint at h
  split at h
  · simp_all
  · simp_all
  · simp_all
  · split at h <;> simp_all
  · cases h

/-- The bytes of a RUN token are two. -/
theorem decode_rle_length {bytes : List Byte} {i : Instr} (h : decode .rle bytes = .ok (i, [])) : bytes.length = 2 := by
  match bytes, h with
  | [], h => cases h
  | [_], h => cases h
  | [_, _], _ => rfl
  | _ :: _ :: _ :: _, h => simp [decode] at h

/-- An LZ77 token begins with a marker that gives its length (45_lz77_decode.md R221). -/
theorem decode_lz_marker {bytes : List Byte} {i : Instr} (h : decode .lz bytes = .ok (i, [])) :
    ∃ marker rest, bytes = marker :: rest ∧ lzTokenLength marker = some bytes.length := by
  cases bytes with
  | nil => cases h
  | cons marker rest =>
    refine ⟨marker, rest, rfl, ?_⟩
    simp only [decode] at h
    split at h
    · rename_i h0
      match rest, h with
      | [_], _ => simp [lzTokenLength, h0]
      | [], h => cases h
      | _ :: _ :: _, h => simp at h
    · split at h
      · rename_i h1
        match rest, h with
        | [_, _, _], _ => simp [lzTokenLength, h1]
        | [], h => cases h
        | [_], h => cases h
        | [_, _], h => cases h
        | _ :: _ :: _ :: _ :: _, h => simp at h
      · cases h

/-- A Huffman header has 1028 bytes. -/
theorem decode_hufHeader_length {bytes : List Byte} {i : Instr} (h : decode .hufHeader bytes = .ok (i, [])) :
    bytes.length = headerLength := by
  simp only [decode] at h
  split at h
  · cases h
  · split at h
    · simp only [Except.ok.injEq, Prod.mk.injEq, List.drop_eq_nil_iff] at h
      omega
    · cases h

/-- A payload decodes to itself. -/
theorem decode_hufPayload_inv {bytes : List Byte} {i : Instr} (h : decode .hufPayload bytes = .ok (i, [])) :
    ∃ b bs, bytes = b :: bs ∧ i = .hufPay (b :: bs) := by
  cases bytes with
  | nil => cases h
  | cons b bs =>
    cases h
    exact ⟨b, bs, rfl, rfl⟩

/-- Settles O14: at each of the four places the program counter can stand, the fetch reads exactly the bytes that decode. -/
theorem stepRunsTheDecodedInstruction : Obligations.StepRunsTheDecodedInstruction := by
  unfold Obligations.StepRunsTheDecodedInstruction
  intro s st k bytes i hb hw hpoint hstands hpayload hdecode
  refine step_of_fetch hb hw ?_
  have hreads := StandsAt.readIns hstands
  obtain ⟨hlen, hread⟩ := hstands
  rcases fetchPoint_cases hpoint with ⟨hsel, hph, rfl, rfl⟩ | ⟨hsel, hph, rfl, rfl⟩ | ⟨hsel, hph, rfl, rfl⟩ |
    ⟨hsel, hph, hat, rfl, rfl⟩
  · have htwo := decode_rle_length hdecode
    rw [htwo] at hreads
    simp only [fetch, hsel]
    rw [if_pos ⟨hph, by omega⟩, fetchRun, hreads, fetchedFrom, hdecode]
  · obtain ⟨marker, rest, rfl, hmarker⟩ := decode_lz_marker hdecode
    have hfirst : readIn s s.ip.toNat = .ok marker :=
      readIn_ok.2 ⟨by simp at hlen; omega, by simpa using hread 0 (by simp)⟩
    simp only [fetch, hsel]
    rw [if_pos ⟨hph, (readIn_ok.1 hfirst).1⟩]
    simp only [fetchLz, hfirst, hmarker]
    rw [if_neg (by omega), hreads, fetchedFrom, hdecode]
  · have hheader := decode_hufHeader_length hdecode
    rw [hheader] at hreads
    simp only [fetch, hsel]
    rw [if_pos hph, fetchHeader, if_neg (by omega), hreads, fetchedFrom, hdecode]
  · obtain ⟨b, bs, rfl, rfl⟩ := decode_hufPayload_inv hdecode
    have hcount : s.IN_LEN.toNat - headerLength = (b :: bs).length := by have := hpayload rfl; omega
    have hall : payloadBytes s = .ok (b :: bs) := (congrArg (Machine.readIns s headerLength) hcount).trans hreads
    have hheader : s.phase ≠ .hdHdr := by simp [hph]
    simp only [fetch, hsel, hheader, hat, if_true, if_false]
    unfold fetchPayload
    rw [hall]

/-- Settles O15: with no token to fetch, the fetch gives the latched command. -/
theorem stepRunsTheLatchedCommand : Obligations.StepRunsTheLatchedCommand := by
  unfold Obligations.StepRunsTheLatchedCommand
  intro s i hb hw hsel hnone
  refine step_of_fetch hb hw ?_
  unfold fetch
  rw [hsel]
  split
  · contradiction
  · rename_i heq
    cases heq
    refine if_neg fun ⟨hph, hlt⟩ => ?_
    rcases hnone with hnone | ⟨-, hend⟩
    · simp [fetchPoint, hsel, hph] at hnone
    · omega
  · rename_i heq
    cases heq
    refine if_neg fun ⟨hph, hlt⟩ => ?_
    rcases hnone with hnone | ⟨-, hend⟩
    · simp [fetchPoint, hsel, hph] at hnone
    · omega
  · rename_i heq
    cases heq
    have hheader : s.phase ≠ .hdHdr := by
      intro hph
      simp [fetchPoint, hsel, hph] at hnone
    have hwalk : ¬atPayload s = true := by
      intro hat
      have hph : s.phase = .hdWalk := by
        simp only [atPayload, Bool.and_eq_true, decide_eq_true_eq] at hat
        exact hat.1.1.1
      simp [fetchPoint, hsel, hph, hat] at hnone
    rw [if_neg hheader, if_neg hwalk]
  · rename_i heq
    cases heq
    rfl

end Sys2Proof.Machine
end

section
/-! # Every step keeps the invariant -/

namespace Sys2Proof.Machine

/-! ## The latched command -/

/-- One pseudocode step of a command; an instruction that is no command has none. -/
def commandStep : Instr → State → Flow
  | .rleEnc, s => rleEncStep s
  | .hufEnc, s => hufEncStep s
  | .lzEnc, s => lzEncStep s
  | .rleDec, s => rleDecStep s
  | .hufDec, s => hufDecStep s
  | .lzDec, s => lzDecStep s
  | _, _ => .stop .reservedAlgorithm

/-- The sequencer takes the steps of the latched command. -/
theorem sequencerStep_eq_commandStep {s : State} {i : Instr} (h : selected s = some i) :
    sequencerStep s = commandStep i s := by
  rw [sequencerStep, h]
  cases i <;> rfl

/-- The six commands. -/
theorem isCommand_iff {i : Instr} :
    isCommand i = true ↔
      i = .rleEnc ∨ i = .hufEnc ∨ i = .lzEnc ∨ i = .rleDec ∨ i = .hufDec ∨ i = .lzDec := by
  cases i <;> simp [isCommand]

/-- A command is its steps, repeated to the end. -/
theorem exec_eq_runOperation {i : Instr} (h : isCommand i = true) (s : State) :
    exec i s = runOperation (commandStep i) s := by
  rcases isCommand_iff.1 h with rfl | rfl | rfl | rfl | rfl | rfl <;> rfl

/-- The latches select commands only. -/
theorem isCommand_of_selected {s : State} {i : Instr} (h : selected s = some i) : isCommand i = true := by
  unfold selected at h
  split at h <;> cases h <;> rfl

/-- Every command begins at P_ENTRY. -/
theorem phaseBelongs_pEntry {i : Instr} (h : isCommand i = true) : phaseBelongs i .pEntry = true := by
  rcases isCommand_iff.1 h with rfl | rfl | rfl | rfl | rfl | rfl <;> rfl

/-- Only ALG = 3 selects nothing (10_state.md R27). -/
theorem exists_selected {s : State} (h : s.ALG ≠ 3) : ∃ i, selected s = some i := by
  have hall : ∀ (a : BitVec 2) (d : BitVec 1), a ≠ 3 →
      ∃ i, selected { State.reset with ALG := a, DIR := d } = some i := by
    intro a d ha
    have : a = 0 ∨ a = 1 ∨ a = 2 := by revert a; decide
    have : d = 0 ∨ d = 1 := by revert d; decide
    rcases ‹a = 0 ∨ a = 1 ∨ a = 2› with rfl | rfl | rfl <;> rcases ‹d = 0 ∨ d = 1› with rfl | rfl <;>
      exact ⟨_, rfl⟩
  exact hall s.ALG s.DIR h

/-! ## Steps that go on inside an operation -/

/-- A fault that is an unwritten byte of a later state's input is one of the first state's. -/
theorem ReadsUnwritten.of_sameInput {s u : State} (h : SameInput s u) {f : Fault} (hf : ReadsUnwritten u f) :
    ReadsUnwritten s f := by
  obtain ⟨k, hk, hlt, hnone⟩ := hf
  exact ⟨k, hk, h.IN_LEN ▸ hlt, h.IN ▸ hnone⟩

/-- What an operation in progress has in hand. -/
theorem RunsOn.midRun {s u : State} (h : RunsOn s u) : MidRun s u := ⟨h.1.base, h.2.1, h.2.2⟩

theorem RunsOn.trans {s u v : State} (h : RunsOn s u) (k : RunsOn u v) : RunsOn s v :=
  ⟨k.1, k.2.1, (h.midRun.trans k.midRun).same⟩

theorem RunsOn.refl {s : State} (h : Inv s) (hb : s.STATE = .busy) : RunsOn s s := ⟨h, hb, SameInput.refl⟩

/-- The operation in progress is still the one latched at its start. -/
theorem RunsOn.selected {s u : State} (h : RunsOn s u) : selected u = Machine.selected s := selected_congr h.2.2

/-- One pseudocode step more of an operation in progress. -/
theorem RunsOn.sequencerStep_leaves {s u : State} (h : RunsOn s u) :
    (sequencerStep u).Leaves (RunsOn s) Inv (ReadsUnwritten s) :=
  (sequencerStep_keeps h.1 h.2.1).mono (fun _ k => h.trans k) (fun _ k => k)
    (fun _ k => ReadsUnwritten.of_sameInput h.2.2 k)

/-- A piece of pseudocode that keeps the invariant answers states of the invariant. -/
theorem Flow.Leaves.inv_of_next {s t : State} {r : Fault → Prop} {x : Flow} (hx : x.Leaves (RunsOn s) Inv r)
    (ht : x.outcome = .next t) : Inv t := by
  rcases hx.outcome with ⟨u, hu, hinv⟩ | ⟨e, he, -⟩
  · cases hu.symm.trans ht
    exact hinv.elim (·.1) id
  · cases he.symm.trans ht

/-- A BUSY instruction whose pseudocode keeps the invariant answers states of the invariant. -/
theorem inv_of_whileBusy {s t : State} {f : State → Flow} {r : Fault → Prop} (hb : s.STATE = .busy)
    (ht : whileBusy f s = .next t) (hf : (f s).Leaves (RunsOn s) Inv r) : Inv t := by
  rw [whileBusy_busy hb] at ht
  exact hf.inv_of_next ht

/-! ## Each instruction at its place -/

/-- The latched command, run to its end. -/
theorem exec_command_leaves {s : State} {i : Instr} (h : Inv s) (hb : s.STATE = .busy) (hsel : selected s = some i) :
    (iterate (commandStep i) (fun _ => true) (stepBound s) s).Leaves (RunsOn s) Inv (ReadsUnwritten s) :=
  iterate_leaves
    (fun u hu _ => by
      rw [← sequencerStep_eq_commandStep (hu.selected.trans hsel)]
      exact hu.sequencerStep_leaves)
    _ s (RunsOn.refl h hb)

/-- A RUN token, begun in a state of the invariant. -/
theorem execRun_leaves {s : State} {count value : Byte} (hsel : selected s = some .rleDec)
    (hbegin : (beginRun count value s).Leaves (RunsOn s) Inv (ReadsUnwritten s)) :
    ((beginRun count value s).bind
      (iterate repStep (fun s => decide (s.phase = .rdRep)) (count.toNat + 1))).Leaves
        (RunsOn s) Inv (ReadsUnwritten s) :=
  hbegin.bind fun u hu => iterate_leaves (fun v hv hph => by
    have hstep : repStep v = sequencerStep v := by
      rw [sequencerStep_eq_commandStep (hv.selected.trans hsel), commandStep, rleDecStep, of_decide_eq_true hph]
    rw [hstep]
    exact hv.sequencerStep_leaves) _ u hu

/-- A MATCH token, begun in a state of the invariant. -/
theorem execMatch_leaves {s : State} {offset : BitVec 16} {length : Byte} (hsel : selected s = some .lzDec)
    (hbegin : (beginMatch offset length s).Leaves (RunsOn s) Inv (ReadsUnwritten s)) :
    ((beginMatch offset length s).bind
      (iterate copyStep (fun s => decide (s.phase = .ldCopy)) length.toNat)).Leaves
        (RunsOn s) Inv (ReadsUnwritten s) :=
  hbegin.bind fun u hu => iterate_leaves (fun v hv hph => by
    have hstep : copyStep v = sequencerStep v := by
      rw [sequencerStep_eq_commandStep (hv.selected.trans hsel), commandStep, lzDecStep, of_decide_eq_true hph]
    rw [hstep]
    exact hv.sequencerStep_leaves) _ u hu

theorem length_byteBits (b : Byte) : (byteBits b).length = 8 := by simp [byteBits]

theorem length_flatMap_byteBits (payload : List Byte) : (payload.flatMap byteBits).length = 8 * payload.length := by
  induction payload with
  | nil => rfl
  | cons b bs ih =>
    rw [List.flatMap_cons, List.length_append, length_byteBits, ih, List.length_cons]
    omega

/-- The walk over the bits that are left of the payload. -/
theorem walkBits_leaves {s : State} (hsel : selected s = some .hufDec) (bits : List Bool) :
    ∀ u, RunsOn s u → u.phase = .hdWalk → u.bitpos.toNat + bits.length = 8 * (u.IN_LEN.toNat - headerLength) →
      (walkBits bits u).Leaves (RunsOn s) Inv (ReadsUnwritten s) := by
  induction bits with
  | nil =>
    intro u hu _ _
    rw [walkBits]
    split
    · exact raise_keeps hu.1.base hu.2.1 (by simp)
    · exact complete_keeps hu.1.base hu.2.1
  | cons c cs ih =>
    intro u hu hph hleft
    obtain ⟨-, -, hheader, hwalk⟩ := hu.1.huffman hu.2.1
    obtain ⟨hroot, hnode, -, hop, hcap⟩ := hwalk hph
    obtain ⟨-, -, hlen, -⟩ := hu.1.counter hu.2.1
    rw [List.length_cons] at hleft
    rw [walkBits]
    split
    · rename_i hlt
      refine (walkBit_keeps c hu.midRun hsel hph (hlen (by simp [hph])) (hheader (.inr hph))
        ⟨hroot, hnode, hop, hcap⟩ hlt (by omega)).bind ?_
      rintro v ⟨hv, hvph, -, -, hvpos⟩
      have hvlen : v.IN_LEN = u.IN_LEN := hv.2.2.IN_LEN.trans hu.2.2.IN_LEN.symm
      exact ih v hv hvph (by rw [hvpos, hvlen]; omega)
    · exact complete_keeps hu.1.base hu.2.1

/-- At the payload's first bit the lines before the loop change nothing. -/
theorem enterWalk_of_atPayload {s : State} (h : atPayload s = true) : enterWalk s = s := by
  simp only [atPayload, Bool.and_eq_true, decide_eq_true_eq] at h
  obtain ⟨⟨⟨hph, hnode⟩, hpos⟩, -⟩ := h
  calc
    enterWalk s = { enterWalk s with phase := s.phase, node := s.node, bitpos := s.bitpos } := by rw [hph, hnode, hpos]; rfl
    _ = s := rfl

/-- A whole payload, from its first bit. -/
theorem execHufPay_leaves {s : State} {payload : List Byte} (h : Inv s) (hb : s.STATE = .busy)
    (hsel : selected s = some .hufDec) (hat : atPayload s = true) (hbytes : payloadBytes s = .ok payload) :
    (walkBits (payload.flatMap byteBits) (enterWalk s)).Leaves (RunsOn s) Inv (ReadsUnwritten s) := by
  rw [enterWalk_of_atPayload hat]
  simp only [atPayload, Bool.and_eq_true, decide_eq_true_eq] at hat
  obtain ⟨⟨⟨hph, -⟩, hpos⟩, -⟩ := hat
  obtain ⟨hlen, -⟩ := readIns_ok.1 hbytes
  refine walkBits_leaves hsel _ s (RunsOn.refl h hb) hph ?_
  rw [hpos, length_flatMap_byteBits, hlen]
  simp

/-! ## The sequencer's turn -/

theorem turn_of_instr {s : State} {i : Instr} (hb : s.STATE = .busy) (hf : fetch s = .instr i) : turn s = exec i s := by
  rw [turn_busy hb, hf]

theorem turn_of_raises {s : State} {e : ErrKind} (hb : s.STATE = .busy) (hf : fetch s = .raises e) :
    turn s = .next { s with ERR := e, STATE := .error } := by
  rw [turn_busy hb, hf]
  rfl

theorem turn_of_fails {s : State} {f : Fault} (hb : s.STATE = .busy) (hf : fetch s = .fails f) : turn s = .fault f := by
  rw [turn_busy hb, hf]

/-- Where the latched command is fetched, the turn keeps the invariant. -/
theorem turn_command_keeps {s t : State} {i : Instr} (h : Inv s) (hb : s.STATE = .busy) (hsel : selected s = some i)
    (hf : fetch s = .instr i) (ht : turn s = .next t) : Inv t := by
  rw [turn_of_instr hb hf, exec_eq_runOperation (isCommand_of_selected hsel)] at ht
  exact inv_of_whileBusy hb ht (exec_command_leaves h hb hsel)

/-- Where an error stands in place of an instruction, the turn keeps the invariant. -/
theorem turn_raises_keeps {s t : State} (h : Inv s) (hb : s.STATE = .busy) (hf : fetch s = .raises .invalidInput)
    (ht : turn s = .next t) : Inv t := by
  cases (turn_of_raises hb hf).symm.trans ht
  exact raise_keeps h.base hb (by simp)

/-- The turn at a place of RLE.DEC. -/
theorem turn_rleDec_keeps {s t : State} (h : Inv s) (hb : s.STATE = .busy) (hsel : selected s = some .rleDec)
    (ht : turn s = .next t) : Inv t := by
  by_cases hat : s.phase = .rdPair ∧ s.ip.toNat < s.IN_LEN.toNat
  · have hfetch : fetch s = fetchRun s := by simp only [fetch, hsel]; exact if_pos hat
    have hseq : ((fetchRun s).run beginRleToken s).Leaves (RunsOn s) Inv (ReadsUnwritten s) := by
      have hleaves := sequencerStep_keeps h hb
      rw [sequencerStep_eq_commandStep hsel, commandStep, rleDecStep, hat.1] at hleaves
      simpa only [pairStep, if_pos hat.2] using hleaves
    obtain ⟨-, heven, -⟩ := h.rle hb
    rcases fetchRun_cases (s := s) SameInput.refl (by have := heven (.inl hat.1); omega) with
      ⟨count, value, hf⟩ | ⟨f, hf, -⟩ <;> rw [hf] at hseq hfetch
    · rw [turn_of_instr hb hfetch, exec, execRun] at ht
      exact inv_of_whileBusy hb ht (execRun_leaves hsel hseq)
    · cases (turn_of_fails hb hfetch).symm.trans ht
  · exact turn_command_keeps h hb hsel (by simp only [fetch, hsel]; exact if_neg hat) ht

/-- The turn at a place of LZ.DEC. -/
theorem turn_lzDec_keeps {s t : State} (h : Inv s) (hb : s.STATE = .busy) (hsel : selected s = some .lzDec)
    (ht : turn s = .next t) : Inv t := by
  by_cases hat : s.phase = .ldToken ∧ s.ip.toNat < s.IN_LEN.toNat
  · have hfetch : fetch s = fetchLz s := by simp only [fetch, hsel]; exact if_pos hat
    have hseq : ((fetchLz s).run beginLzToken s).Leaves (RunsOn s) Inv (ReadsUnwritten s) := by
      have hleaves := sequencerStep_keeps h hb
      rw [sequencerStep_eq_commandStep hsel, commandStep, lzDecStep, hat.1] at hleaves
      simpa only [lzTokenStep, if_pos hat.2] using hleaves
    rcases fetchLz_cases (s := s) SameInput.refl hat.2 with
      ⟨b, hf, -⟩ | ⟨offset, length, hf, -⟩ | hf | ⟨f, hf, -⟩ <;> rw [hf] at hseq hfetch
    · rw [turn_of_instr hb hfetch, exec, execLit] at ht
      exact inv_of_whileBusy hb ht hseq
    · rw [turn_of_instr hb hfetch, exec, execMatch] at ht
      exact inv_of_whileBusy hb ht (execMatch_leaves hsel hseq)
    · exact turn_raises_keeps h hb hfetch ht
    · cases (turn_of_fails hb hfetch).symm.trans ht
  · exact turn_command_keeps h hb hsel (by simp only [fetch, hsel]; exact if_neg hat) ht

/-- What the fetch of a payload can give: the payload where the host has written all of it, otherwise the command. -/
theorem fetchPayload_cases (s : State) :
    (∃ payload, fetchPayload s = .instr (.hufPay payload) ∧ payloadBytes s = .ok payload) ∨
      fetchPayload s = .instr .hufDec := by
  unfold fetchPayload
  split
  · rename_i b bs hbytes
    exact .inl ⟨b :: bs, rfl, hbytes⟩
  · exact .inr rfl
  · exact .inr rfl

/-- The turn at a place of HUF.DEC. -/
theorem turn_hufDec_keeps {s t : State} (h : Inv s) (hb : s.STATE = .busy) (hsel : selected s = some .hufDec)
    (ht : turn s = .next t) : Inv t := by
  by_cases hph : s.phase = .hdHdr
  · have hfetch : fetch s = fetchHeader s := by simp only [fetch, hsel]; exact if_pos hph
    have hseq : ((fetchHeader s).run beginHufHeader s).Leaves (RunsOn s) Inv (ReadsUnwritten s) := by
      have hleaves := sequencerStep_keeps h hb
      rw [sequencerStep_eq_commandStep hsel, commandStep, hufDecStep, hph] at hleaves
      exact hleaves
    rcases fetchHeader_cases (s := s) SameInput.refl with ⟨total, freq, hf, -⟩ | hf | ⟨f, hf, -⟩ <;>
      rw [hf] at hseq hfetch
    · rw [turn_of_instr hb hfetch, exec, execHufHdr] at ht
      exact inv_of_whileBusy hb ht hseq
    · exact turn_raises_keeps h hb hfetch ht
    · cases (turn_of_fails hb hfetch).symm.trans ht
  · by_cases hat : atPayload s = true
    · have hfetch : fetch s = fetchPayload s := by simp only [fetch, hsel, if_neg hph]; exact if_pos hat
      rcases fetchPayload_cases s with ⟨payload, hf, hbytes⟩ | hf
      · rw [turn_of_instr hb (hfetch.trans hf), exec, execHufPay] at ht
        exact inv_of_whileBusy hb ht (execHufPay_leaves h hb hsel hat hbytes)
      · exact turn_command_keeps h hb hsel (hfetch.trans hf) ht
    · exact turn_command_keeps h hb hsel (by simp only [fetch, hsel, if_neg hph]; exact if_neg hat) ht

/-- The turn of an encoder, whose places hold no token, is its command. -/
theorem turn_encoder_keeps {s t : State} {i : Instr} (h : Inv s) (hb : s.STATE = .busy) (hsel : selected s = some i)
    (hi : i = .rleEnc ∨ i = .hufEnc ∨ i = .lzEnc) (ht : turn s = .next t) : Inv t := by
  refine turn_command_keeps h hb hsel ?_ ht
  rw [fetch, hsel]
  rcases hi with rfl | rfl | rfl <;> rfl

/-- The sequencer's turn keeps the invariant. -/
theorem turn_keeps {s t : State} (h : Inv s) (ht : turn s = .next t) : Inv t := by
  by_cases hb : s.STATE = .busy
  · obtain ⟨⟨i, hsel, -⟩, -⟩ := h.counter hb
    rcases isCommand_iff.1 (isCommand_of_selected hsel) with rfl | rfl | rfl | rfl | rfl | rfl
    · exact turn_encoder_keeps h hb hsel (.inl rfl) ht
    · exact turn_encoder_keeps h hb hsel (.inr (.inl rfl)) ht
    · exact turn_encoder_keeps h hb hsel (.inr (.inr rfl)) ht
    · exact turn_rleDec_keeps h hb hsel ht
    · exact turn_hufDec_keeps h hb hsel ht
    · exact turn_lzDec_keeps h hb hsel ht
  · cases (turn_idle hb).symm.trans ht
    exact h

/-! ## The moves of the host -/

/-- The host's own moves and replies are no part of the invariant. -/
theorem Inv.hostSide {s : State} (h : Inv s) (moves : List HostMove) (replies : List Reply) (n : Nat) :
    Inv { s with host := moves, replies := replies, freeCtr := n } := ⟨h.1, h.2, h.3, h.4, h.5, h.6, h.7, h.8, h.9⟩

/-- An accepted CMD write starts an operation in a state of the invariant. -/
theorem start_keeps {s : State} {v : Word} (h : Inv s) (hv : v.extractLsb' 0 2 ≠ 3) : Inv (start v s) := by
  obtain ⟨i, hsel⟩ := exists_selected (s := start v s) hv
  have hphase := phaseBelongs_pEntry (isCommand_of_selected hsel)
  exact ⟨h.config, by simp [StatusLaw], h.memory, by simp [OutputLaw], fun _ => ⟨⟨i, hsel, hphase⟩, by simp⟩,
    fun _ => by simp [RleLaw], fun _ => by simp [HuffmanLaw], fun _ => by simp [MatcherLaw], fun _ => by simp [WindowLaw]⟩

theorem writeRegister_keeps {s : State} (reg : Nat) (v : Word) (h : Inv s) : Inv (writeRegister reg v s) := by
  rw [writeRegister_eq]
  split
  · rename_i hstart
    obtain ⟨-, -, halg, -⟩ := hstart
    exact start_keeps h halg
  · split
    · rename_i hidle
      exact InvBase.inv ⟨h.config, h.status, h.memory, h.output⟩ hidle.2
    · exact h

theorem hostWriteIn_keeps {s : State} (index : Nat) (b : Byte) (h : Inv s) : Inv (hostWriteIn index b s) := by
  unfold hostWriteIn
  split
  · exact h
  · split
    · rename_i hidle hcap
      obtain ⟨⟨hwf, hbelow⟩, hout, hwin⟩ := h.memory
      exact InvBase.inv
        ⟨h.config, h.status, ⟨⟨Memory.wf_write _ _ hwf, Memory.below_write _ hbelow hcap⟩, hout, hwin⟩, h.output⟩ hidle
    · exact h

theorem hostReadIn_keeps {s : State} (index : Nat) (h : Inv s) : Inv (hostReadIn index s) := by
  unfold hostReadIn
  split
  · exact h.hostSide ..
  · split
    · split
      · exact h.hostSide ..
      · exact h.hostSide ..
    · exact h.hostSide ..

theorem hostReadOut_keeps {s t : State} (index : Nat) (h : Inv s) (ht : hostReadOut index s = .next t) : Inv t := by
  unfold hostReadOut at ht
  split at ht
  · cases ht
    exact h.hostSide ..
  · split at ht
    · split at ht
      · cases ht
        exact h.hostSide ..
      · cases ht
    · cases ht
      exact h.hostSide ..

theorem resetInput_keeps {s : State} (h : Inv s) : Inv (resetInput s) := by
  have hreset := resetMeetsTheInvariant
  refine InvBase.inv ⟨h.config, hreset.status, ?_, ?_⟩ nofun
  · exact ⟨⟨List.Pairwise.nil, nofun⟩, ⟨List.Pairwise.nil, nofun⟩, List.Pairwise.nil, nofun⟩
  · exact ⟨nofun, nofun⟩

/-- Every move of the host keeps the invariant. -/
theorem hostMove_keeps {s t : State} (m : HostMove) (h : Inv s) (ht : hostMove m s = .next t) : Inv t := by
  cases m with
  | writeReg reg v => cases ht; exact writeRegister_keeps reg v h
  | readReg reg => cases ht; exact h.hostSide ..
  | writeIn index b => cases ht; exact hostWriteIn_keeps index b h
  | readIn index => cases ht; exact hostReadIn_keeps index h
  | writeOut index b => cases ht; exact h
  | readOut index => exact hostReadOut_keeps index h ht
  | wait => cases ht; exact h.hostSide ..
  | pass => cases ht; exact h
  | reset => cases ht; exact resetInput_keeps h

/-- Settles O56: the sequencer's turn, one pseudocode step and each move of the host keep the invariant. -/
theorem stepKeepsTheInvariant : Obligations.StepKeepsTheInvariant := by
  unfold Obligations.StepKeepsTheInvariant
  intro s t h ht
  rcases step_cases s with ⟨hstep, -⟩ | ⟨rest, -, hstep⟩ | ⟨m, rest, -, -, -, hstep⟩ <;> rw [hstep] at ht
  · exact turn_keeps h ht
  · have hrest : Inv { s with host := rest } := h.hostSide ..
    by_cases hb : s.STATE = .busy
    · exact inv_of_whileBusy (s := { s with host := rest }) hb ht (sequencerStep_keeps hrest hb)
    · cases (whileBusy_idle (s := { s with host := rest }) hb).symm.trans ht
      exact hrest
  · exact hostMove_keeps m (h.hostSide ..) ht

end Sys2Proof.Machine
end

section
/-! # The Huffman tree -/

namespace Sys2Proof.Machine

/-! ## The operations of a forest -/

namespace Forest

theorem active_lt {f : Forest} {x : Nat} (h : f.active x = true) : x < 511 := BitVec.lt_of_getLsbD h

@[simp] theorem active_insert {f : Forest} {x y : Nat} :
    (f.insert x).active y = true ↔ (y = x ∧ x < 511) ∨ f.active y = true := by
  simp only [active, insert, BitVec.getLsbD_or, BitVec.getLsbD_twoPow, Bool.or_eq_true, Bool.and_eq_true,
    decide_eq_true_eq, or_comm, and_comm, eq_comm (a := x)]

@[simp] theorem active_remove {f : Forest} {x y : Nat} :
    (f.remove x).active y = true ↔ f.active y = true ∧ y ≠ x := by
  have hlt : f.active y = true → y < 511 := active_lt
  simp only [active, remove, BitVec.getLsbD_and, BitVec.getLsbD_not, BitVec.getLsbD_twoPow, Bool.and_eq_true,
    decide_eq_true_eq, Bool.not_eq_true', Bool.and_eq_false_iff, decide_eq_false_iff_not] at hlt ⊢
  constructor
  · rintro ⟨hact, hy, hne⟩
    exact ⟨hact, by omega⟩
  · rintro ⟨hact, hne⟩
    exact ⟨hact, hlt hact, .inr (Ne.symm hne)⟩

@[simp] theorem active_setNode (f : Forest) (x y : Nat) (nd : Node) : (f.setNode x nd).active y = f.active y := rfl

@[simp] theorem NODE_insert (f : Forest) (x : Nat) : (f.insert x).NODE = f.NODE := rfl
@[simp] theorem NODE_remove (f : Forest) (x : Nat) : (f.remove x).NODE = f.NODE := rfl

@[simp] theorem NODE_setNode_same {f : Forest} {x : Nat} (nd : Node) (h : x < 511) :
    (f.setNode x nd).NODE[x]? = some nd := by simp [setNode, h]

@[simp] theorem NODE_setNode_other {f : Forest} {x y : Nat} (nd : Node) (h : y ≠ x) :
    (f.setNode x nd).NODE[y]? = f.NODE[y]? := by simp [setNode, Ne.symm h]

theorem weight_of_node {f : Forest} {x : Nat} {nd : Node} (h : f.NODE[x]? = some nd) : f.weight x = nd.w.toNat := by
  rw [weight, h]

/-- The weight of a node depends on its entry alone. -/
theorem weight_congr {f g : Forest} {x : Nat} (h : g.NODE[x]? = f.NODE[x]?) : g.weight x = f.weight x := by
  rw [weight, weight, h]

/-! ## The lightest node (42_huffman_encode.md R163) -/

/-- The lightest active node below a bound: no other has a smaller pair (weight, number). -/
def IsLightest (f : Forest) (bound a : Nat) : Prop :=
  (a < bound ∧ f.active a = true) ∧
    ∀ x, x < bound → f.active x = true → f.weight a < f.weight x ∨ (f.weight a = f.weight x ∧ a ≤ x)

theorem IsLightest.unique {f : Forest} {n a b : Nat} (ha : f.IsLightest n a) (hb : f.IsLightest n b) : a = b := by
  obtain ⟨⟨halt, haact⟩, hamin⟩ := ha
  obtain ⟨⟨hblt, hbact⟩, hbmin⟩ := hb
  have := hamin b hblt hbact
  have := hbmin a halt haact
  omega

/-- What a choice over the nodes below a bound is: the lightest of them, or none where none is active. -/
structure IsChoice (f : Forest) (bound : Nat) (choice : Option Nat) : Prop where
  none_active : choice = none → ∀ x, x < bound → f.active x = false
  isLightest : ∀ a, choice = some a → f.IsLightest bound a

/-- A node that is not active does not change the choice. -/
theorem IsChoice.skip {f : Forest} {n : Nat} {choice : Option Nat} (h : f.IsChoice n choice) (hn : ¬f.active n = true) :
    f.IsChoice (n + 1) choice := by
  have hnew : ∀ x, x < n + 1 → f.active x = true → x < n := fun x hx hxact =>
    (Nat.lt_succ_iff_lt_or_eq.1 hx).resolve_right fun h => hn (h ▸ hxact)
  refine ⟨fun hnone x hx => Bool.eq_false_iff.2 fun hxact => ?_, fun a ha => ?_⟩
  · simp [h.none_active hnone x (hnew x hx hxact)] at hxact
  · obtain ⟨⟨halt, haact⟩, hmin⟩ := h.isLightest a ha
    exact ⟨⟨by omega, haact⟩, fun x hx hxact => hmin x (hnew x hx hxact) hxact⟩

/-- An active node is compared with the choice so far. -/
theorem IsChoice.better {f : Forest} {n : Nat} {choice : Option Nat} (h : f.IsChoice n choice) :
    f.IsChoice (n + 1) (f.better choice n) := by
  unfold Forest.better
  split
  · rename_i hact
    cases choice with
    | none =>
      refine ⟨nofun, fun a ha => ?_⟩
      cases ha
      refine ⟨⟨by omega, hact⟩, fun x hx hxact => ?_⟩
      rcases Nat.lt_succ_iff_lt_or_eq.1 hx with hlt | rfl
      · simp [h.none_active rfl x hlt] at hxact
      · exact .inr ⟨rfl, Nat.le_refl _⟩
    | some a =>
      obtain ⟨⟨halt, haact⟩, hmin⟩ := h.isLightest a rfl
      by_cases hbefore : f.before n a = true
      · simp only [if_pos hbefore]
        simp only [before, decide_eq_true_eq] at hbefore
        refine ⟨nofun, fun a' ha' => ?_⟩
        cases ha'
        refine ⟨⟨by omega, hact⟩, fun x hx hxact => ?_⟩
        rcases Nat.lt_succ_iff_lt_or_eq.1 hx with hlt | rfl
        · have := hmin x hlt hxact
          omega
        · exact .inr ⟨rfl, Nat.le_refl _⟩
      · simp only [if_neg hbefore]
        simp only [before, decide_eq_true_eq] at hbefore
        refine ⟨nofun, fun a' ha' => ?_⟩
        cases ha'
        refine ⟨⟨by omega, haact⟩, fun x hx hxact => ?_⟩
        rcases Nat.lt_succ_iff_lt_or_eq.1 hx with hlt | rfl
        · exact hmin x hlt hxact
        · omega
  · rename_i hact
    exact h.skip hact

theorem isChoice_foldl_better (f : Forest) (n : Nat) : f.IsChoice n ((List.range n).foldl f.better none) := by
  induction n with
  | zero => exact ⟨fun _ x hx => absurd hx (Nat.not_lt_zero x), nofun⟩
  | succ n ih =>
    rw [List.range_succ, List.foldl_append, List.foldl_cons, List.foldl_nil]
    exact ih.better

theorem isChoice_lightest (f : Forest) : f.IsChoice 511 f.lightest := isChoice_foldl_better f 511

theorem lightest_eq_some_iff {f : Forest} {a : Nat} : f.lightest = some a ↔ f.IsLightest 511 a := by
  refine ⟨(isChoice_lightest f).isLightest a, fun ha => ?_⟩
  cases hl : f.lightest with
  | none => exact absurd ha.1.2 (by simp [(isChoice_lightest f).none_active hl a ha.1.1])
  | some b => exact congrArg some (((isChoice_lightest f).isLightest b hl).unique ha)

/-- A forest with an active node has a lightest one. -/
theorem exists_lightest {f : Forest} {x : Nat} (h : f.active x = true) : ∃ a, f.lightest = some a := by
  cases hl : f.lightest with
  | none => simp [(isChoice_lightest f).none_active hl x (active_lt h)] at h
  | some a => exact ⟨a, rfl⟩

theorem active_of_lightest {f : Forest} {a : Nat} (h : f.lightest = some a) : f.active a = true :=
  (lightest_eq_some_iff.1 h).1.2

/-! ## The set of active nodes -/

/-- ACTIVE as a finite set. -/
def activeSet (f : Forest) : Finset Nat := (Finset.range 511).filter fun x => f.active x = true

@[simp] theorem mem_activeSet {f : Forest} {x : Nat} : x ∈ f.activeSet ↔ f.active x = true := by
  simp only [activeSet, Finset.mem_filter, Finset.mem_range, and_iff_right_iff_imp]
  exact active_lt

theorem activeSet_remove (f : Forest) (x : Nat) : (f.remove x).activeSet = f.activeSet.erase x := by
  ext y
  simp [and_comm]

theorem exists_active {f : Forest} (h : 1 ≤ f.activeSet.card) : ∃ x, f.active x = true := by
  obtain ⟨x, hx⟩ := Finset.card_pos.1 h
  exact ⟨x, mem_activeSet.1 hx⟩

/-! ## One merge (42_huffman_encode.md R163) -/

/-- The forest with nodes a and b under the new node t. -/
def joined (f : Forest) (t a b : Nat) : Forest :=
  (((f.remove a).remove b).setNode t
    { w := BitVec.ofNat 32 (f.weight a + f.weight b), left := BitVec.ofNat 9 a, right := BitVec.ofNat 9 b }).insert t

/-- The two lightest nodes are taken by a merge. -/
structure Takes (f : Forest) (a b : Nat) : Prop where
  first : f.lightest = some a
  second : (f.remove a).lightest = some b

theorem Takes.active_left {f : Forest} {a b : Nat} (h : f.Takes a b) : f.active a = true := active_of_lightest h.first

theorem Takes.active_right {f : Forest} {a b : Nat} (h : f.Takes a b) : f.active b = true ∧ b ≠ a :=
  active_remove.1 (active_of_lightest h.second)

theorem Takes.merge_eq {f : Forest} {a b : Nat} (h : f.Takes a b) (t : Nat) : f.merge t = f.joined t a b := by
  unfold merge
  rw [h.first]
  dsimp only
  rw [h.second]
  rfl

/-- Two active nodes are enough for a merge. -/
theorem exists_takes {f : Forest} (h : 2 ≤ f.activeSet.card) : ∃ a b, f.Takes a b := by
  obtain ⟨x, hx⟩ := exists_active (f := f) (by omega)
  obtain ⟨a, ha⟩ := exists_lightest hx
  have hrest : 1 ≤ (f.remove a).activeSet.card := by
    rw [activeSet_remove, Finset.card_erase_of_mem (mem_activeSet.2 (active_of_lightest ha))]
    omega
  obtain ⟨y, hy⟩ := exists_active hrest
  obtain ⟨b, hb⟩ := exists_lightest hy
  exact ⟨a, b, ha, hb⟩

theorem active_joined {f : Forest} {t a b x : Nat} (ht : t < 511) :
    (f.joined t a b).active x = true ↔ x = t ∨ ((f.active x = true ∧ x ≠ a) ∧ x ≠ b) := by
  simp [joined, ht]

theorem NODE_joined_same {f : Forest} {t a b : Nat} (ht : t < 511) :
    (f.joined t a b).NODE[t]? =
      some { w := BitVec.ofNat 32 (f.weight a + f.weight b), left := BitVec.ofNat 9 a, right := BitVec.ofNat 9 b } :=
  NODE_setNode_same _ ht

theorem NODE_joined_other {f : Forest} {t a b x : Nat} (hx : x ≠ t) :
    (f.joined t a b).NODE[x]? = f.NODE[x]? := by
  simp [joined, hx]

theorem activeSet_joined {f : Forest} {t a b : Nat} (ht : t < 511) :
    (f.joined t a b).activeSet = Insert.insert t ((f.activeSet.erase a).erase b) := by
  ext x
  simp only [mem_activeSet, active_joined ht, Finset.mem_insert, Finset.mem_erase]
  tauto

end Forest

/-! ## The leaves (42_huffman_encode.md R162) -/

/-- How often a byte value occurs, by the table. -/
def occurrences (freq : FreqTable) (x : Nat) : Nat := (freq[x]?.map BitVec.toNat).getD 0

theorem occurrences_eq {freq : FreqTable} {x : Nat} {w : Word} (h : freq[x]? = some w) :
    occurrences freq x = w.toNat := by simp [occurrences, h]

theorem sum_eq_sum_range (l : List Word) :
    (l.map BitVec.toNat).sum = ∑ x ∈ Finset.range l.length, (l[x]?.map BitVec.toNat).getD 0 := by
  induction l with
  | nil => rfl
  | cons w l ih =>
    rw [List.map_cons, List.sum_cons, ih, List.length_cons, Finset.sum_range_succ']
    simp [add_comm]

theorem countP_eq_card (l : List Word) :
    l.countP (fun w => decide (w.toNat > 0)) =
      ((Finset.range l.length).filter fun x => 0 < (l[x]?.map BitVec.toNat).getD 0).card := by
  rw [Finset.card_filter]
  induction l with
  | nil => rfl
  | cons w l ih =>
    rw [List.countP_cons, ih, List.length_cons, Finset.sum_range_succ']
    simp

theorem freqSum_eq_sum (freq : FreqTable) : freqSum freq = ∑ x ∈ Finset.range 256, occurrences freq x := by
  simp [freqSum, sum_eq_sum_range, occurrences]

theorem leafCount_eq_card (freq : FreqTable) :
    leafCount freq = ((Finset.range 256).filter fun x => 0 < occurrences freq x).card := by
  rw [leafCount, countP_eq_card, Vector.length_toList]
  exact congrArg Finset.card (Finset.filter_congr fun x _ => by rw [Vector.getElem?_toList, occurrences])

/-- The leaves of the first byte values. -/
theorem foldl_addLeaf (freq : FreqTable) (nodes : NodeTable) (n : Nat) (hn : n ≤ 256) (x : Nat) :
    let f := (List.range n).foldl (Forest.addLeaf freq) { NODE := nodes, ACTIVE := 0 }
    (f.active x = true ↔ x < n ∧ 0 < occurrences freq x) ∧ (f.active x = true → f.weight x = occurrences freq x) := by
  induction n with
  | zero => simp [Forest.active]
  | succ n ih =>
    obtain ⟨hact, hweight⟩ := ih (by omega)
    simp only [List.range_succ, List.foldl_append, List.foldl_cons, List.foldl_nil]
    generalize (List.range n).foldl (Forest.addLeaf freq) { NODE := nodes, ACTIVE := 0 } = f at hact hweight ⊢
    have hfreq : freq[n]? = some freq[n] := Vector.getElem?_eq_getElem (by omega)
    have hnode : f.NODE[n]? = some f.NODE[n] := Vector.getElem?_eq_getElem (by omega)
    have hocc := occurrences_eq hfreq
    simp only [Forest.addLeaf, hfreq, hnode]
    split
    · by_cases hx : x = n
      · subst hx
        refine ⟨by simp; omega, fun _ => ?_⟩
        rw [Forest.weight_of_node ((congrArg (·[x]?) (Forest.NODE_insert _ x)).trans
          (Forest.NODE_setNode_same _ (by omega))), hocc]
      · refine ⟨by simp only [Forest.active_insert, Forest.active_setNode, hact]; omega, fun h => ?_⟩
        have hold : f.active x = true := by
          simpa [Forest.active_insert, hx] using h
        rw [← hweight hold]
        exact Forest.weight_congr (Forest.NODE_setNode_other _ hx)
    · refine ⟨?_, hweight⟩
      rw [hact]
      by_cases hx : x = n
      · subst hx; omega
      · omega

theorem active_leaves {freq : FreqTable} {nodes : NodeTable} {x : Nat} :
    (leaves freq nodes).active x = true ↔ x < 256 ∧ 0 < occurrences freq x :=
  (foldl_addLeaf freq nodes 256 (by omega) x).1

theorem weight_leaves {freq : FreqTable} {nodes : NodeTable} {x : Nat} (h : (leaves freq nodes).active x = true) :
    (leaves freq nodes).weight x = occurrences freq x :=
  (foldl_addLeaf freq nodes 256 (by omega) x).2 h

theorem activeSet_leaves (freq : FreqTable) (nodes : NodeTable) :
    (leaves freq nodes).activeSet = (Finset.range 256).filter fun x => 0 < occurrences freq x := by
  ext x
  simp [active_leaves]

/-! ## The shape of a growing tree -/

/-- The shape of the forest before node t is made: one active node less for each node made so far, the newest of those active,
each active node and each child below the node that comes next. -/
structure Grown (freq : FreqTable) (t : Nat) (f : Forest) : Prop where
  below : ∀ x, f.active x = true → x < t
  count : f.activeSet.card + t = 256 + leafCount freq
  newest : 256 < t → f.active (t - 1) = true
  children : ∀ x, 256 ≤ x → x < t → ∃ nd, f.NODE[x]? = some nd ∧ nd.left ≠ nd.right ∧ nd.left.toNat < x ∧ nd.right.toNat < x

/-- The weights of the forest before node t is made: the active nodes weigh what the table counts, and each node made so far
weighs what its children do. -/
structure Balanced (freq : FreqTable) (t : Nat) (f : Forest) : Prop where
  total : ∑ x ∈ f.activeSet, f.weight x = freqSum freq
  parent : ∀ x nd, 256 ≤ x → x < t → f.NODE[x]? = some nd →
    nd.w.toNat = f.weight nd.left.toNat + f.weight nd.right.toNat

theorem grown_leaves (freq : FreqTable) (nodes : NodeTable) : Grown freq 256 (leaves freq nodes) where
  below := fun _ hx => (active_leaves.1 hx).1
  count := by rw [activeSet_leaves, ← leafCount_eq_card]; omega
  newest := fun h => absurd h (Nat.lt_irrefl 256)
  children := fun x h1 h2 => by omega

theorem balanced_leaves (freq : FreqTable) (nodes : NodeTable) : Balanced freq 256 (leaves freq nodes) where
  total := by
    rw [Finset.sum_congr rfl fun x hx => weight_leaves (Forest.mem_activeSet.1 hx), activeSet_leaves, freqSum_eq_sum]
    exact Finset.sum_filter_of_ne fun x _ hx => Nat.pos_of_ne_zero hx
  parent := fun x _ h1 h2 => by omega

section Merge
variable {freq : FreqTable} {t : Nat} {f : Forest}

/-- While a node is still to be made there are two to merge. -/
theorem Grown.exists_takes (h : Grown freq t f) (ht : t + 1 < 256 + leafCount freq) : ∃ a b, f.Takes a b :=
  Forest.exists_takes (by have := h.count; omega)

/-- The numbers of the nodes fit the table. -/
theorem lt_of_merge (ht : t + 1 < 256 + leafCount freq) : t < 511 := by
  have := leafCount_le freq
  omega

theorem Grown.merge (h : Grown freq t f) (ht : t + 1 < 256 + leafCount freq) : Grown freq (t + 1) (f.merge t) := by
  obtain ⟨a, b, hab⟩ := h.exists_takes ht
  have hlt := lt_of_merge ht
  obtain ⟨hb, hne⟩ := hab.active_right
  have ha := hab.active_left
  have hat := h.below a ha
  have hbt := h.below b hb
  have hta : t ∉ f.activeSet := fun hmem => Nat.lt_irrefl t (h.below t (Forest.mem_activeSet.1 hmem))
  rw [hab.merge_eq]
  refine ⟨fun x hx => ?_, ?_, fun _ => (Forest.active_joined hlt).2 (.inl rfl), fun x hx1 hx2 => ?_⟩
  · rcases (Forest.active_joined hlt).1 hx with rfl | ⟨⟨hold, -⟩, -⟩
    · omega
    · have := h.below x hold
      omega
  · have hbmem : b ∈ f.activeSet.erase a := Finset.mem_erase.2 ⟨hne, Forest.mem_activeSet.2 hb⟩
    rw [Forest.activeSet_joined hlt, Finset.card_insert_of_notMem (by simp [hta]), Finset.card_erase_of_mem hbmem,
      Finset.card_erase_of_mem (Forest.mem_activeSet.2 ha)]
    have := h.count
    omega
  · by_cases hxt : x = t
    · subst hxt
      refine ⟨_, Forest.NODE_joined_same hlt, fun heq => hne ?_, ?_, ?_⟩
      · have := congrArg BitVec.toNat heq
        simp only [BitVec.toNat_ofNat] at this
        omega
      · simp only [BitVec.toNat_ofNat]; omega
      · simp only [BitVec.toNat_ofNat]; omega
    · rw [Forest.NODE_joined_other hxt]
      exact h.children x hx1 (by omega)

theorem Balanced.merge (hb : Balanced freq t f) (h : Grown freq t f) (ht : t + 1 < 256 + leafCount freq)
    (hsum : freqSum freq < 2 ^ 32) : Balanced freq (t + 1) (f.merge t) := by
  obtain ⟨a, b, hab⟩ := h.exists_takes ht
  have hlt := lt_of_merge ht
  obtain ⟨hbact, hne⟩ := hab.active_right
  have hamem := Forest.mem_activeSet.2 hab.active_left
  have hbmem : b ∈ f.activeSet.erase a := Finset.mem_erase.2 ⟨hne, Forest.mem_activeSet.2 hbact⟩
  have hat := h.below a hab.active_left
  have hbt := h.below b hbact
  have hta : t ∉ (f.activeSet.erase a).erase b := fun hmem =>
    Nat.lt_irrefl t (h.below t (Forest.mem_activeSet.1 (Finset.mem_of_mem_erase (Finset.mem_of_mem_erase hmem))))
  have hothers : ∀ x, x ≠ t → (f.joined t a b).weight x = f.weight x := fun x hx =>
    Forest.weight_congr (Forest.NODE_joined_other hx)
  have hrest : ∑ x ∈ (f.activeSet.erase a).erase b, (f.joined t a b).weight x =
      ∑ x ∈ (f.activeSet.erase a).erase b, f.weight x :=
    Finset.sum_congr rfl fun x hx => hothers x fun heq => hta (heq ▸ hx)
  have hsplit : f.weight a + (f.weight b + ∑ x ∈ (f.activeSet.erase a).erase b, f.weight x) = freqSum freq := by
    rw [Finset.add_sum_erase _ (fun x => f.weight x) hbmem, Finset.add_sum_erase _ (fun x => f.weight x) hamem, hb.total]
  have hnew : (BitVec.ofNat 32 (f.weight a + f.weight b)).toNat = f.weight a + f.weight b := by
    rw [BitVec.toNat_ofNat, Nat.mod_eq_of_lt (by omega)]
  rw [hab.merge_eq]
  refine ⟨?_, fun x nd hx1 hx2 hnd => ?_⟩
  · rw [Forest.activeSet_joined hlt, Finset.sum_insert hta, Forest.weight_of_node (Forest.NODE_joined_same hlt), hnew, hrest]
    omega
  · by_cases hxt : x = t
    · subst hxt
      cases Option.some.inj ((Forest.NODE_joined_same hlt).symm.trans hnd)
      simp only [BitVec.toNat_ofNat, Nat.mod_eq_of_lt (show a < 2 ^ 9 by omega), Nat.mod_eq_of_lt (show b < 2 ^ 9 by omega)]
      rw [hothers a (by omega), hothers b (by omega)]
      simpa using hnew
    · rw [Forest.NODE_joined_other hxt] at hnd
      obtain ⟨nd', hnd', -, hleft, hright⟩ := h.children x hx1 (by omega)
      cases hnd.symm.trans hnd'
      rw [hothers _ (by omega), hothers _ (by omega)]
      exact hb.parent x nd hx1 (by omega) hnd

end Merge

/-- What every merge keeps, the merges keep. -/
theorem merges_induction {freq : FreqTable} {P : Nat → Forest → Prop}
    (hstep : ∀ t f, t + 1 < 256 + leafCount freq → P t f → P (t + 1) (f.merge t)) (count : Nat) :
    ∀ t f, t + count < 256 + leafCount freq → P t f → P (t + count) (Forest.merges count t f) := by
  induction count with
  | zero => exact fun _ _ _ h => h
  | succ count ih =>
    intro t f ht h
    rw [Forest.merges, show t + (count + 1) = t + 1 + count by omega]
    exact ih (t + 1) (f.merge t) (by omega) (hstep t f (by omega) h)

/-! ## The tree of at least two byte values (42_huffman_encode.md R163) -/

theorem grow_of_two_le {freq : FreqTable} (nodes : NodeTable) (h : 2 ≤ leafCount freq) :
    grow freq nodes = (leaves freq nodes).merges (leafCount freq - 1) 256 := if_pos h

theorem rootOf_lt (freq : FreqTable) : rootOf freq < 511 := by
  have := leafCount_le freq
  unfold rootOf
  omega

theorem rootOf_ge (freq : FreqTable) : 256 ≤ rootOf freq := Nat.le_add_right _ _

/-- The last node made is the root. -/
theorem next_after_root {freq : FreqTable} (h : 2 ≤ leafCount freq) : 256 + (leafCount freq - 1) = rootOf freq + 1 := by
  unfold rootOf
  omega

theorem grown_grow {freq : FreqTable} (nodes : NodeTable) (h : 2 ≤ leafCount freq) :
    Grown freq (rootOf freq + 1) (grow freq nodes) := by
  rw [grow_of_two_le nodes h, ← next_after_root h]
  exact merges_induction (fun _ _ ht hf => Grown.merge hf ht) _ _ _ (by omega) (grown_leaves freq nodes)

theorem balanced_grow {freq : FreqTable} (nodes : NodeTable) (h : 2 ≤ leafCount freq) (hsum : freqSum freq < 2 ^ 32) :
    Balanced freq (rootOf freq + 1) (grow freq nodes) := by
  rw [grow_of_two_le nodes h, ← next_after_root h]
  exact (merges_induction (P := fun t f => Grown freq t f ∧ Balanced freq t f)
    (fun _ _ ht hf => ⟨hf.1.merge ht, hf.2.merge hf.1 ht hsum⟩) _ _ _ (by omega)
    ⟨grown_leaves freq nodes, balanced_leaves freq nodes⟩).2

/-- Only the root is left active. -/
theorem activeSet_grow {freq : FreqTable} (nodes : NodeTable) (h : 2 ≤ leafCount freq) :
    (grow freq nodes).activeSet = {rootOf freq} := by
  have hgrown := grown_grow nodes h
  have hroot := hgrown.newest (by have := rootOf_ge freq; omega)
  have hcard : (grow freq nodes).activeSet.card = 1 := by
    have := hgrown.count
    have := next_after_root h
    omega
  obtain ⟨x, hx⟩ := Finset.card_eq_one.1 hcard
  have hmem : rootOf freq ∈ (grow freq nodes).activeSet := Forest.mem_activeSet.2 hroot
  rw [hx, Finset.mem_singleton] at hmem
  rw [hx, hmem]

/-- Settles O32: the shape and the weights are kept by every merge from the leaves on. -/
theorem treeShape : Obligations.TreeShape := by
  unfold Obligations.TreeShape
  intro freq hcount hsum
  have hgrown := grown_grow Reference.blankNodes hcount
  have hbalanced := balanced_grow Reference.blankNodes hcount hsum
  have hrootlt := rootOf_lt freq
  have hrootge := rootOf_ge freq
  refine ⟨by unfold rootOf; omega, by omega, fun x hx1 hx2 => ?_, ?_⟩
  · obtain ⟨nd, hnd, hne, hleft, hright⟩ := hgrown.children x hx1 (by omega)
    have hparent := hbalanced.parent x nd hx1 (by omega) hnd
    have ha : (Reference.treeOf freq)[nd.left.toNat]? = some (Reference.treeOf freq)[nd.left.toNat] :=
      Vector.getElem?_eq_getElem (by omega)
    have hb : (Reference.treeOf freq)[nd.right.toNat]? = some (Reference.treeOf freq)[nd.right.toNat] :=
      Vector.getElem?_eq_getElem (by omega)
    rw [Forest.weight_of_node ha, Forest.weight_of_node hb] at hparent
    exact ⟨nd, _, _, hnd, ha, hb, hne, hleft, hright, hparent⟩
  · obtain ⟨nd, hnd, -⟩ := hgrown.children (rootOf freq) hrootge (by omega)
    refine ⟨nd, hnd, ?_⟩
    rw [← Forest.weight_of_node hnd, ← hbalanced.total, activeSet_grow _ hcount, Finset.sum_singleton]

end Sys2Proof.Machine
end

section
/-! # The tree is a function of the table alone -/

namespace Sys2Proof.Machine

namespace Forest

/-- Two forests that differ in nothing a merge looks at: the active nodes and their weights, and the nodes made below t. -/
structure Alike (t : Nat) (f g : Forest) : Prop where
  active : ∀ x, g.active x = true ↔ f.active x = true
  weight : ∀ x, f.active x = true → g.weight x = f.weight x
  inner : ∀ x, 256 ≤ x → x < t → g.NODE[x]? = f.NODE[x]?

variable {t : Nat} {f g : Forest}

theorem Alike.remove (h : f.Alike t g) (x : Nat) : (f.remove x).Alike t (g.remove x) where
  active := fun y => by simp [h.active]
  weight := fun y hy => h.weight y (active_remove.1 hy).1
  inner := h.inner

/-- The choice depends on the active nodes and their weights alone. -/
theorem Alike.lightest (h : f.Alike t g) {a : Nat} (ha : f.lightest = some a) : g.lightest = some a := by
  obtain ⟨⟨hlt, hact⟩, hmin⟩ := lightest_eq_some_iff.1 ha
  refine lightest_eq_some_iff.2 ⟨⟨hlt, (h.active a).2 hact⟩, fun x hx hxact => ?_⟩
  have hx' := (h.active x).1 hxact
  rw [h.weight a hact, h.weight x hx']
  exact hmin x hx hx'

theorem Alike.takes (h : f.Alike t g) {a b : Nat} (hab : f.Takes a b) : g.Takes a b :=
  ⟨h.lightest hab.first, (h.remove a).lightest hab.second⟩

/-- A merge makes the same node in both. -/
theorem Alike.merge (h : f.Alike t g) (ht : t < 511) {a b : Nat} (hab : f.Takes a b) :
    (f.merge t).Alike (t + 1) (g.merge t) := by
  have hnew : (g.joined t a b).NODE[t]? = (f.joined t a b).NODE[t]? := by
    rw [NODE_joined_same ht, NODE_joined_same ht, h.weight a hab.active_left, h.weight b hab.active_right.1]
  rw [hab.merge_eq, (h.takes hab).merge_eq]
  refine ⟨fun x => by simp only [active_joined ht, h.active], fun x hx => ?_, fun x hx1 hx2 => ?_⟩
  · by_cases hxt : x = t
    · exact weight_congr (hxt ▸ hnew)
    · rw [weight_congr (NODE_joined_other hxt), weight_congr (NODE_joined_other hxt)]
      exact h.weight x (((active_joined ht).1 hx).resolve_left hxt).1.1
  · by_cases hxt : x = t
    · exact hxt ▸ hnew
    · rw [NODE_joined_other hxt, NODE_joined_other hxt]
      exact h.inner x hx1 (by omega)

end Forest

theorem alike_leaves (freq : FreqTable) (m n : NodeTable) : (leaves freq m).Alike 256 (leaves freq n) where
  active := fun x => by simp only [active_leaves]
  weight := fun x hx => by rw [weight_leaves hx, weight_leaves (active_leaves.2 (active_leaves.1 hx))]
  inner := fun x h1 h2 => by omega

theorem alike_merges {freq : FreqTable} (count : Nat) :
    ∀ t f g, t + count < 256 + leafCount freq → Grown freq t f → f.Alike t g →
      (Forest.merges count t f).Alike (t + count) (Forest.merges count t g) := by
  induction count with
  | zero => exact fun _ _ _ _ _ h => h
  | succ count ih =>
    intro t f g ht hf h
    have hnext : t + 1 < 256 + leafCount freq := by omega
    obtain ⟨a, b, hab⟩ := hf.exists_takes hnext
    rw [Forest.merges, Forest.merges, show t + (count + 1) = t + 1 + count by omega]
    exact ih (t + 1) _ _ (by omega) (hf.merge hnext) (h.merge (lt_of_merge hnext) hab)

/-! ## Two tables with the same tree -/

/-- Where a branch of a tree with the given root can lead: nowhere, to a leaf, or to a node up to the root. -/
def Branch (root : Nat) (y : BitVec 9) : Prop := y = noChild ∨ y.toNat ≤ root

/-- Two tables agree on every node from 256 to the root, and the branches stay among them. -/
def SameTree (root : Nat) (m n : NodeTable) : Prop :=
  ∀ x, 256 ≤ x → x ≤ root →
    ∃ nd, m[x]? = some nd ∧ n[x]? = some nd ∧ Branch root nd.left ∧ Branch root nd.right

/-- With at least two byte values the merges make the same nodes. -/
theorem grow_sameTree_of_two_le {freq : FreqTable} (m n : NodeTable) (h : 2 ≤ leafCount freq) :
    SameTree (rootOf freq) (grow freq m).NODE (grow freq n).NODE := by
  intro x hx1 hx2
  obtain ⟨nd, hnd, -, hleft, hright⟩ := (grown_grow m h).children x hx1 (by omega)
  have halike := alike_merges (leafCount freq - 1) _ _ _ (by omega) (grown_leaves freq m) (alike_leaves freq m n)
  rw [← grow_of_two_le m h, ← grow_of_two_le n h, next_after_root h] at halike
  exact ⟨nd, hnd, (halike.inner x hx1 (by omega)).trans hnd, .inr (by omega), .inr (by omega)⟩

/-- With one byte value the single root is the same. -/
theorem grow_sameTree_of_one {freq : FreqTable} (m n : NodeTable) (h : leafCount freq = 1) :
    SameTree (rootOf freq) (grow freq m).NODE (grow freq n).NODE := by
  intro x hx1 hx2
  have hroot : rootOf freq = 256 := by rw [rootOf, h]
  have hx : x = 256 := by omega
  obtain ⟨y, hy⟩ := Forest.exists_active (f := leaves freq m) (by have := (grown_leaves freq m).count; omega)
  obtain ⟨a, ha⟩ := Forest.exists_lightest hy
  have ha' := (alike_leaves freq m n).lightest ha
  have hact := Forest.active_of_lightest ha
  have hlt := (active_leaves.1 hact).1
  have hnode : ∀ (nodes : NodeTable), (leaves freq nodes).lightest = some a →
      (grow freq nodes).NODE[256]? =
        some { w := BitVec.ofNat 32 ((leaves freq nodes).weight a), left := BitVec.ofNat 9 a, right := noChild } := by
    intro nodes hl
    rw [grow, if_neg (by omega)]
    unfold Forest.single
    rw [hl]
    exact Forest.NODE_setNode_same _ (by omega)
  refine ⟨_, hx ▸ hnode m ha, ?_, .inr ?_, .inl rfl⟩
  · rw [hx, hnode n ha', (alike_leaves freq m n).weight a hact]
  · simp only [BitVec.toNat_ofNat]
    omega

theorem grow_sameTree {freq : FreqTable} (m n : NodeTable) (h : leafCount freq ≠ 0) :
    SameTree (rootOf freq) (grow freq m).NODE (grow freq n).NODE := by
  rcases Nat.lt_or_ge (leafCount freq) 2 with hlt | hge
  · exact grow_sameTree_of_one m n (by omega)
  · exact grow_sameTree_of_two_le m n hge

/-! ## What is read from the tree -/

theorem isLeaf_eq_false {x : Nat} : isLeaf x = false ↔ 256 ≤ x := by simp [isLeaf]

/-- The walk reads the nodes from 256 to the root alone. -/
theorem walked_congr {root : BitVec 9} {m n : NodeTable} (h : SameTree root.toNat m n) (hroot : 256 ≤ root.toNat) :
    ∀ (bits : List Bool) (x : BitVec 9) (left : Nat), 256 ≤ x.toNat → x.toNat ≤ root.toNat →
      Reference.walked m root bits x left = Reference.walked n root bits x left := by
  intro bits
  induction bits with
  | nil =>
    intro x left _ _
    cases left <;> rfl
  | cons c cs ih =>
    intro x left hx1 hx2
    cases left with
    | zero => rfl
    | succ left =>
      obtain ⟨nd, hm, hn, hleft, hright⟩ := h x.toNat hx1 hx2
      have hbranch : Branch root.toNat (if c then nd.right else nd.left) := by
        cases c
        · exact hleft
        · exact hright
      simp only [Reference.walked, hm, hn]
      generalize (if c then nd.right else nd.left) = y at hbranch
      by_cases hnone : y = noChild
      · rw [if_pos hnone, if_pos hnone]
      · rw [if_neg hnone, if_neg hnone]
        by_cases hleaf : isLeaf y.toNat = true
        · rw [if_pos hleaf, if_pos hleaf, ih root left hroot (Nat.le_refl _)]
        · rw [if_neg hleaf, if_neg hleaf]
          exact ih y (left + 1) (isLeaf_eq_false.1 (Bool.eq_false_iff.2 hleaf)) (hbranch.resolve_left hnone)

/-- Two code books with the same lengths, and the same code wherever the length is not zero. -/
structure SameCodes (a b : CodeBook) : Prop where
  lengths : b.LEN = a.LEN
  codes : ∀ (x : Nat) (len : Byte), a.LEN[x]? = some len → len ≠ 0 → b.CODE[x]? = a.CODE[x]?

/-- Setting the code of one leaf in both. -/
theorem SameCodes.set {a b : CodeBook} (h : SameCodes a b) (x : Nat) (path : List Bool) :
    SameCodes (a.set x path) (b.set x path) := by
  refine ⟨by rw [CodeBook.set, CodeBook.set, h.lengths], fun y len hlen hne => ?_⟩
  simp only [CodeBook.set, Vector.getElem?_setIfInBounds] at hlen ⊢
  by_cases hyx : x = y
  · rw [if_pos hyx, if_pos hyx]
  · rw [if_neg hyx] at hlen
    rw [if_neg hyx, if_neg hyx]
    exact h.codes y len hlen hne

/-- Code assignment reads the nodes from 256 to the root alone. -/
theorem assign_sameCodes {root : Nat} {m n : NodeTable} (h : SameTree root m n) (depth : Nat) :
    ∀ (x : BitVec 9) (path : List Bool) (a b : CodeBook), Branch root x → SameCodes a b →
      SameCodes (assign m depth x.toNat path a) (assign n depth x.toNat path b) := by
  induction depth with
  | zero => exact fun _ _ _ _ _ hab => hab
  | succ depth ih =>
    intro x path a b hx hab
    rw [assign, assign]
    by_cases hnone : x.toNat = noChild.toNat
    · rw [if_pos hnone, if_pos hnone]
      exact hab
    · rw [if_neg hnone, if_neg hnone]
      by_cases hleaf : isLeaf x.toNat = true
      · rw [if_pos hleaf, if_pos hleaf]
        exact hab.set x.toNat path
      · rw [if_neg hleaf, if_neg hleaf]
        have hinner : x.toNat ≤ root := hx.resolve_left fun heq => hnone (congrArg BitVec.toNat heq)
        obtain ⟨nd, hm, hn, hleft, hright⟩ :=
          h x.toNat (isLeaf_eq_false.1 (Bool.eq_false_iff.2 hleaf)) hinner
        simp only [hm, hn]
        exact ih nd.right _ _ _ hright (ih nd.left _ _ _ hleft hab)

/-- A code book starts with every length zero, so what CODE held does not matter. -/
theorem codesOf_sameCodes {root : BitVec 9} {m n : NodeTable} (h : SameTree root.toNat m n)
    (c d : Vector (List Bool) 256) : SameCodes (codesOf m root.toNat c) (codesOf n root.toNat d) := by
  refine assign_sameCodes h 257 root [] _ _ (.inr (Nat.le_refl _)) ⟨rfl, fun x len hlen hne => absurd ?_ hne⟩
  simp only [Vector.getElem?_replicate] at hlen
  split at hlen
  · exact (Option.some.inj hlen).symm
  · cases hlen

/-- The bits of a code are the same in both books. -/
theorem SameCodes.codeBits {a b : CodeBook} (h : SameCodes a b) (x : Byte) :
    codeBits b.CODE b.LEN x = Machine.codeBits a.CODE a.LEN x := by
  have hx : x.toNat < 256 := x.isLt
  have hlen : a.LEN[x.toNat]? = some a.LEN[x.toNat] := Vector.getElem?_eq_getElem hx
  have ha : a.CODE[x.toNat]? = some a.CODE[x.toNat] := Vector.getElem?_eq_getElem hx
  have hb : b.CODE[x.toNat]? = some b.CODE[x.toNat] := Vector.getElem?_eq_getElem hx
  simp only [Machine.codeBits, h.lengths, hlen, ha, hb]
  by_cases hzero : a.LEN[x.toNat] = 0
  · rw [hzero]
    rfl
  · have hcode := h.codes x.toNat _ hlen hzero
    rw [ha, hb] at hcode
    rw [Option.some.inj hcode]

/-- The root's number fits its register. -/
theorem toNat_rootOf (freq : FreqTable) : (BitVec.ofNat 9 (rootOf freq)).toNat = rootOf freq := by
  have := rootOf_lt freq
  rw [BitVec.toNat_ofNat, Nat.mod_eq_of_lt (by omega)]

/-- Settles O34: two tables the tree grew over agree on every node a walk or the code assignment visits. -/
theorem treeIsAFunctionOfFreqAlone : Obligations.TreeIsAFunctionOfFreqAlone := by
  unfold Obligations.TreeIsAFunctionOfFreqAlone
  intro freq nodes codes hcount
  have hroot := toNat_rootOf freq
  have hge : 256 ≤ (BitVec.ofNat 9 (rootOf freq)).toNat := by rw [hroot]; exact rootOf_ge freq
  have hsame : SameTree (BitVec.ofNat 9 (rootOf freq)).toNat (Reference.treeOf freq) (grow freq nodes).NODE := by
    rw [hroot]
    exact grow_sameTree Reference.blankNodes nodes hcount
  refine ⟨fun bits n => (walked_congr hsame hge bits _ n hge (Nat.le_refl _)).symm, fun x => ?_⟩
  have hcodes := codesOf_sameCodes hsame (Vector.replicate 256 []) codes
  rw [hroot] at hcodes
  exact hcodes.codeBits x

end Sys2Proof.Machine
end

section
/-! # Every operation comes to its end within the bound (40_command.md R128, notes/assumptions/9.md) -/

namespace Sys2Proof.Machine

/-! ## Loops with a measure -/

/-- The rule for a loop whose every turn takes a measure down: within more turns than the measure it does not go on. -/
theorem iterate_leaves_of_measure {p q : State → Prop} {r : Fault → Prop} {f : State → Flow} {μ : State → Nat}
    (h : ∀ s, p s → (f s).Leaves (fun t => p t ∧ μ t < μ s) q r) (n : Nat) (s : State) (hs : p s) (hn : μ s < n) :
    (iterate f (fun _ => true) n s).Leaves (fun _ => False) q r := by
  induction n generalizing s with
  | zero => omega
  | succ n ih =>
    rw [iterate_succ, if_pos rfl]
    exact (h s hs).bind fun t ⟨ht, hlt⟩ => ih t ht (by omega)

/-- Two things known of where a piece of pseudocode leaves the sequencer. -/
theorem Flow.Leaves.and {p p' q q' : State → Prop} {r r' : Fault → Prop} {x : Flow} (h : x.Leaves p q r)
    (h' : x.Leaves p' q' r') :
    x.Leaves (fun s => p s ∧ p' s) (fun s => q s ∧ q' s) (fun e => r e ∧ r' e) := by
  cases x with
  | go s => exact ⟨h, h'⟩
  | ended s => exact ⟨h, h'⟩
  | stop e => exact ⟨h, h'⟩

/-! ## The measure of an operation -/

/-- A bound on the pseudocode steps an operation still takes. A pair of RLE.DEC takes at most 256 for two bytes of input, a MATCH
of LZ.DEC at most 256 for four, a bit of the payload one; every other loop takes at most two for a byte. -/
def stepsLeft (s : State) : Nat :=
  match s.phase with
  | .pEntry => 300 * s.IN_LEN.toNat + 1000
  | .reScan => s.IN_LEN.toNat - s.ip.toNat + 2
  | .reFinal => 1
  | .rdCheck => 300 * s.IN_LEN.toNat + 2
  | .rdPair => 150 * (s.IN_LEN.toNat - s.ip.toNat) + 1
  | .rdRep => 150 * (s.IN_LEN.toNat - s.ip.toNat - 2) + 2 + max s.cnt.toNat 1
  | .heFreq => s.IN_LEN.toNat - s.ip.toNat + s.IN_LEN.toNat + 6
  | .heTree => s.IN_LEN.toNat + 5
  | .heHdr => s.IN_LEN.toNat + 4
  | .heCode => s.IN_LEN.toNat + 3
  | .hePack => s.IN_LEN.toNat - s.ip.toNat + 2
  | .heFlush => 1
  | .hdHdr => 8 * s.IN_LEN.toNat + 4
  | .hdTree => 8 * s.IN_LEN.toNat + 3
  | .hdWalk => 8 * (s.IN_LEN.toNat - headerLength) - s.bitpos.toNat + 1
  | .leSearch => 2 * (s.IN_LEN.toNat - s.ip.toNat) + 1
  | .leEmit => 2 * (s.IN_LEN.toNat - s.ip.toNat)
  | .ldToken => 300 * (s.IN_LEN.toNat - s.ip.toNat) + 1
  | .ldCopy => 300 * (s.IN_LEN.toNat - s.ip.toNat - 4) + 2 + max s.cnt.toNat 1

theorem stepsLeft_lt_stepBound (s : State) : stepsLeft s < stepBound s := by
  have := s.cnt.isLt
  unfold stepsLeft stepBound
  cases s.phase <;> dsimp only <;> omega

/-- The operation has come to its end. -/
abbrev HasEnded (t : State) : Prop := t.STATE = .done ∨ t.STATE = .error

/-- A piece of pseudocode ends the operation, or leaves fewer than n steps to go. -/
abbrev Flow.Nears (n : Nat) (x : Flow) : Prop := x.Leaves (fun t => stepsLeft t < n) HasEnded (fun _ => True)

theorem raise_ends {p : State → Prop} {r : Fault → Prop} (e : ErrKind) (s : State) :
    (raise e s).Leaves p HasEnded r := .inr rfl

theorem complete_ends {p : State → Prop} {r : Fault → Prop} (s : State) : (complete s).Leaves p HasEnded r := .inl rfl

/-- What an emit changes where it goes on. -/
theorem emit_goes (v : Byte) (s : State) : (emit v s).Leaves (fun t => t = pushOut v s) HasEnded (fun _ => True) := by
  rcases emit_cases v s with ⟨-, h⟩ | ⟨-, h⟩ <;> rw [h]
  · exact raise_ends _ s
  · rfl

theorem emitAll_goes (vs : List Byte) (s : State) :
    (emitAll vs s).Leaves (fun t => ∃ out op, t = { s with OUT := out, op := op }) HasEnded (fun _ => True) := by
  induction vs generalizing s with
  | nil => exact ⟨s.OUT, s.op, rfl⟩
  | cons v vs ih =>
    refine (emit_goes v s).bind ?_
    rintro t rfl
    refine (ih _).mono ?_ (fun _ h => h) (fun _ h => h)
    rintro u ⟨out, op, rfl⟩
    exact ⟨out, op, rfl⟩

theorem entryChecks_nears {n : Nat} {first : State → Flow} {s : State} (h : (first s).Nears n) :
    (entryChecks first s).Nears n := by
  rcases entryChecks_cases first s with ⟨-, he⟩ | ⟨-, -, he⟩ | ⟨-, -, he⟩ <;> rw [he]
  · exact raise_ends _ s
  · exact raise_ends _ s
  · exact h

/-! ## One step of each operation -/

theorem flushRun_goes (s : State) :
    (flushRun s).Leaves (fun t => ∃ out op, t = { s with OUT := out, op := op }) HasEnded (fun _ => True) := by
  unfold flushRun
  split
  · exact emitAll_goes _ s
  · exact ⟨s.OUT, s.op, rfl⟩

/-- What counting or flushing one byte of RE_SCAN leaves as it is. -/
theorem scanByte_goes (b : Byte) (s : State) :
    (if b = s.cur then sameByte s else newByte b s).Leaves
      (fun t => t.phase = s.phase ∧ t.ip = s.ip ∧ t.IN_LEN = s.IN_LEN) HasEnded (fun _ => True) := by
  split
  · unfold sameByte
    split
    · refine (emitAll_goes _ s).bind ?_
      rintro t ⟨out, op, rfl⟩
      exact ⟨rfl, rfl, rfl⟩
    · exact ⟨rfl, rfl, rfl⟩
  · refine (flushRun_goes s).bind ?_
    rintro t ⟨out, op, rfl⟩
    exact ⟨rfl, rfl, rfl⟩

theorem rleEncStep_nears {s : State} : (rleEncStep s).Nears (stepsLeft s) := by
  unfold rleEncStep
  split <;> rename_i hph <;> simp only [stepsLeft, hph]
  · refine entryChecks_nears (Flow.Leaves.onRead (fun b _ => ?_) fun _ _ => trivial)
    simp only [Flow.leaves_go, stepsLeft]
    omega
  · unfold scanStep
    split
    · rename_i hlt
      refine Flow.Leaves.onRead (fun b _ => ?_) fun _ _ => trivial
      refine (scanByte_goes b s).bind ?_
      rintro t ⟨htph, htip, htlen⟩
      simp only [Flow.leaves_go, stepsLeft, htph, hph, htip, htlen, ip_add_one (s := s) hlt]
      omega
    · simp only [Flow.leaves_go, stepsLeft]
      omega
  · refine (flushRun_goes s).bind fun t _ => complete_ends t
  · trivial

theorem repStep_nears {s : State} (hph : s.phase = .rdRep) (h : s.ip.toNat + 2 ≤ s.IN_LEN.toNat) :
    (repStep s).Nears (stepsLeft s) := by
  have hip := ip_add_two h
  have hcnt := s.cnt.isLt
  simp only [stepsLeft, hph]
  unfold repStep
  split
  · rename_i hpos
    refine (emit_goes _ s).bind ?_
    rintro t rfl
    split
    · simp only [Flow.leaves_go, stepsLeft, endRun_phase, endRun_IN_LEN, endRun_ip, pushOut_IN_LEN, pushOut_ip, hip]
      omega
    · rename_i hmore
      have hnext : (s.cnt - 1).toNat = s.cnt.toNat - 1 := BitVec.toNat_sub_of_le (BitVec.le_def.2 hpos)
      simp only [pushOut_cnt] at hmore
      simp only [Flow.leaves_go, stepsLeft, pushOut_phase, hph, pushOut_IN_LEN, pushOut_ip, pushOut_cnt, hnext]
      omega
  · simp only [Flow.leaves_go, stepsLeft, endRun_phase, endRun_IN_LEN, endRun_ip, hip]
    omega

theorem rleDecStep_nears {s : State} (h : Inv s) (hb : s.STATE = .busy) : (rleDecStep s).Nears (stepsLeft s) := by
  obtain ⟨-, heven, hroom⟩ := h.rle hb
  unfold rleDecStep
  split <;> rename_i hph
  · simp only [stepsLeft, hph]
    refine entryChecks_nears ?_
    simp only [Flow.leaves_go, stepsLeft]
    omega
  · simp only [stepsLeft, hph]
    unfold parityCheck
    split
    · exact raise_ends _ s
    · simp only [Flow.leaves_go, stepsLeft]
      omega
  · simp only [stepsLeft, hph]
    unfold pairStep
    split
    · rename_i hlt
      have hroom : s.ip.toNat + 2 ≤ s.IN_LEN.toNat := by have := heven (.inl hph); omega
      rcases fetchRun_cases (s := s) SameInput.refl hroom with ⟨count, value, hf⟩ | ⟨f, hf, -⟩ <;> rw [hf]
      · have := count.isLt
        simp only [Fetched.run, beginRleToken, beginRun, Flow.leaves_go, stepsLeft]
        omega
      · trivial
    · exact complete_ends s
  · exact repStep_nears hph (hroom hph)
  · trivial

theorem searchOver_goes (os : List Nat) (s : State) :
    (searchOver os s).Leaves (fun t => t.ip = s.ip ∧ t.IN_LEN = s.IN_LEN) HasEnded (fun _ => True) := by
  induction os generalizing s with
  | nil => exact ⟨rfl, rfl⟩
  | cons o os ih =>
    refine Flow.Leaves.onRead (fun k _ => ?_) fun _ _ => trivial
    have hsame : (candidate o k s).ip = s.ip ∧ (candidate o k s).IN_LEN = s.IN_LEN := by
      unfold candidate
      split <;> exact ⟨rfl, rfl⟩
    rw [← hsame.1, ← hsame.2]
    exact ih _

theorem lzEncStep_nears {s : State} (h : Inv s) (hb : s.STATE = .busy) : (lzEncStep s).Nears (stepsLeft s) := by
  have hmatch := h.matcher hb
  obtain ⟨-, -, -, -, hmin, -⟩ := h.config
  unfold lzEncStep
  split <;> rename_i hph <;> simp only [stepsLeft, hph]
  · refine entryChecks_nears ?_
    simp only [Flow.leaves_go, stepsLeft]
    omega
  · unfold searchStep
    split
    · refine (searchOver_goes _ _).bind ?_
      rintro t ⟨hip, hlen⟩
      simp only [Flow.leaves_go, stepsLeft, hip, hlen]
      omega
    · exact complete_ends s
  · obtain ⟨hlt, hfits⟩ := hmatch hph
    unfold tokenStep
    split
    · refine (emitAll_goes _ s).bind ?_
      rintro t ⟨out, op, rfl⟩
      have hip : (s.ip + s.best.setWidth 32).toNat = s.ip.toNat + s.best.toNat := by
        have := s.IN_LEN.isLt
        have := s.best.isLt
        rw [BitVec.toNat_add, BitVec.toNat_setWidth]
        omega
      simp only [Flow.leaves_go, stepsLeft, hip]
      omega
    · refine Flow.Leaves.onRead (fun b _ => ?_) fun _ _ => trivial
      refine (emitAll_goes _ s).bind ?_
      rintro t ⟨out, op, rfl⟩
      simp only [Flow.leaves_go, stepsLeft, ip_add_one (s := s) hlt]
      omega
  · trivial

theorem append_goes (v : Byte) (s : State) :
    (append v s).Leaves (fun t => t = pushWindow v (pushOut v s)) HasEnded (fun _ => True) := by
  refine (emit_goes v s).bind ?_
  rintro t rfl
  rfl

theorem copyStep_nears {s : State} (hph : s.phase = .ldCopy) (h : s.ip.toNat + 4 ≤ s.IN_LEN.toNat) :
    (copyStep s).Nears (stepsLeft s) := by
  have hip := ip_add_four h
  have hcnt := s.cnt.isLt
  simp only [stepsLeft, hph]
  unfold copyStep
  split
  · rename_i hpos
    split
    · trivial
    · refine (append_goes _ s).bind ?_
      rintro t rfl
      split
      · simp only [Flow.leaves_go, stepsLeft, endMatch_phase, endMatch_IN_LEN, endMatch_ip, pushWindow_IN_LEN, pushWindow_ip,
          pushOut_IN_LEN, pushOut_ip, hip]
        omega
      · rename_i hmore
        have hnext : (s.cnt - 1).toNat = s.cnt.toNat - 1 := BitVec.toNat_sub_of_le (BitVec.le_def.2 hpos)
        simp only [pushWindow_cnt, pushOut_cnt] at hmore
        simp only [Flow.leaves_go, stepsLeft, pushWindow_phase, pushOut_phase, hph, pushWindow_IN_LEN, pushWindow_ip,
          pushWindow_cnt, pushOut_IN_LEN, pushOut_ip, pushOut_cnt, hnext]
        omega
  · simp only [Flow.leaves_go, stepsLeft, endMatch_phase, endMatch_IN_LEN, endMatch_ip, hip]
    omega

theorem beginMatch_nears {s : State} (offset : BitVec 16) (length : Byte) (hph : s.phase = .ldToken)
    (h : s.ip.toNat + 4 ≤ s.IN_LEN.toNat) : (beginMatch offset length s).Nears (stepsLeft s) := by
  have := length.isLt
  simp only [stepsLeft, hph]
  unfold beginMatch
  dsimp only
  split
  · exact raise_ends _ _
  · split
    · exact raise_ends _ _
    · split
      · exact raise_ends _ _
      · simp only [Flow.leaves_go, stepsLeft]
        omega

theorem lzDecStep_nears {s : State} (h : Inv s) (hb : s.STATE = .busy) : (lzDecStep s).Nears (stepsLeft s) := by
  obtain ⟨-, hcopy⟩ := h.window hb
  unfold lzDecStep
  split <;> rename_i hph
  · simp only [stepsLeft, hph]
    refine entryChecks_nears ?_
    simp only [enterTokens, Flow.leaves_go, stepsLeft]
    omega
  · unfold lzTokenStep
    split
    · rename_i hlt
      rcases fetchLz_cases (s := s) SameInput.refl hlt with ⟨b, hf, hroom⟩ | ⟨offset, length, hf, hroom⟩ | hf | ⟨f, hf, -⟩ <;>
        rw [hf]
      · refine (append_goes b s).bind ?_
        rintro t rfl
        simp only [Flow.leaves_go, stepsLeft, pushWindow_phase, pushOut_phase, hph, pushWindow_IN_LEN, pushOut_IN_LEN,
          pushWindow_ip, pushOut_ip, ip_add_two hroom]
        omega
      · exact beginMatch_nears offset length hph hroom
      · exact raise_ends _ s
      · trivial
    · exact complete_ends s
  · exact copyStep_nears hph (hcopy hph).2.2.2
  · trivial

theorem packBits_goes (bits : List Bool) (s : State) :
    (packBits bits s).Leaves (fun t => t.phase = s.phase ∧ t.ip = s.ip ∧ t.IN_LEN = s.IN_LEN) HasEnded (fun _ => True) := by
  induction bits generalizing s with
  | nil => exact ⟨rfl, rfl, rfl⟩
  | cons c cs ih =>
    refine Flow.Leaves.bind (p := fun t => t.phase = s.phase ∧ t.ip = s.ip ∧ t.IN_LEN = s.IN_LEN) ?_ ?_
    · unfold packBit
      dsimp only
      split
      · refine (emit_goes _ _).bind ?_
        rintro t rfl
        exact ⟨rfl, rfl, rfl⟩
      · exact ⟨rfl, rfl, rfl⟩
    · rintro t ⟨hph, hip, hlen⟩
      rw [← hph, ← hip, ← hlen]
      exact ih t

theorem hufEncStep_nears {s : State} : (hufEncStep s).Nears (stepsLeft s) := by
  unfold hufEncStep
  split <;> rename_i hph <;> simp only [stepsLeft, hph]
  · refine entryChecks_nears ?_
    simp only [enterFreq, Flow.leaves_go, stepsLeft]
    omega
  · unfold freqStep
    split
    · rename_i hlt
      refine Flow.Leaves.onRead (fun b _ => ?_) fun _ _ => trivial
      simp only [Flow.leaves_go, stepsLeft, hph, ip_add_one (s := s) hlt]
      omega
    · simp only [Flow.leaves_go, stepsLeft]
      omega
  · unfold buildTree
    split
    · trivial
    · simp only [Flow.bind_go, Flow.leaves_go, stepsLeft, plantTree_IN_LEN]
      omega
  · refine (emitAll_goes _ s).bind ?_
    rintro t ⟨out, op, rfl⟩
    simp only [Flow.leaves_go, stepsLeft]
    omega
  · simp only [codeStep, Flow.leaves_go, stepsLeft]
    omega
  · unfold packStep
    split
    · rename_i hlt
      refine Flow.Leaves.onRead (fun b _ => ?_) fun _ _ => trivial
      refine (packBits_goes _ s).bind ?_
      rintro t ⟨htph, htip, htlen⟩
      simp only [Flow.leaves_go, stepsLeft, htph, hph, htip, htlen, ip_add_one (s := s) hlt]
      omega
    · simp only [Flow.leaves_go, stepsLeft]
      omega
  · refine Flow.Leaves.bind (p := fun _ => True) ?_ fun t _ => complete_ends t
    split
    · exact (emit_goes _ s).mono (fun _ _ => trivial) (fun _ h => h) (fun _ h => h)
    · trivial
  · trivial

theorem walkBit_nears {s : State} (c : Bool) (hph : s.phase = .hdWalk)
    (hleft : s.bitpos.toNat < 8 * (s.IN_LEN.toNat - headerLength)) : (walkBit c s).Nears (stepsLeft s) := by
  have hnext : (s.bitpos + 1).toNat = s.bitpos.toNat + 1 := by
    have := s.IN_LEN.isLt
    rw [BitVec.toNat_add]
    simp
    omega
  simp only [stepsLeft, hph]
  unfold walkBit
  split
  · trivial
  · generalize (if c then _ else _ : BitVec 9) = x
    unfold arrive
    split
    · exact raise_ends _ _
    · split
      · refine (emit_goes _ _).bind ?_
        rintro t rfl
        simp only [Flow.leaves_go, stepsLeft, pushOut_phase, takeBit_phase, hph, pushOut_IN_LEN, takeBit_IN_LEN, pushOut_bitpos,
          takeBit_bitpos, hnext]
        omega
      · simp only [Flow.leaves_go, stepsLeft, takeBit_phase, hph, takeBit_IN_LEN, takeBit_bitpos, hnext]
        omega

theorem hufDecStep_nears {s : State} (h : Inv s) (hb : s.STATE = .busy) : (hufDecStep s).Nears (stepsLeft s) := by
  obtain ⟨-, -, -, hwalk⟩ := h.huffman hb
  unfold hufDecStep
  split <;> rename_i hph
  · simp only [stepsLeft, hph]
    refine entryChecks_nears ?_
    simp only [Flow.leaves_go, stepsLeft]
    omega
  · simp only [stepsLeft, hph]
    rcases fetchHeader_cases (s := s) SameInput.refl with ⟨total, freq, hf, -⟩ | hf | ⟨f, hf, -⟩ <;> rw [hf]
    · simp only [Fetched.run, beginHufHeader, beginHeader, checkHeader]
      split
      · exact raise_ends _ _
      · split
        · exact raise_ends _ _
        · simp only [Flow.leaves_go, stepsLeft, loadHeader_IN_LEN]
          omega
    · exact raise_ends _ s
    · trivial
  · simp only [stepsLeft, hph]
    unfold treeStep
    split
    · exact raise_ends _ s
    · unfold buildTree
      split
      · trivial
      · simp only [Flow.bind_go, Flow.leaves_go, stepsLeft, enterWalk_phase, enterWalk_IN_LEN, plantTree_IN_LEN]
        omega
  · unfold walkStep
    split
    · split
      · exact raise_ends _ s
      · rename_i hleft
        have := (hwalk hph).2.2.1
        exact Flow.Leaves.onRead (fun c _ => walkBit_nears c hph (by omega)) fun _ _ => trivial
    · exact complete_ends s
  · trivial

/-- A step of the latched command ends it, or leaves fewer steps to go. -/
theorem commandStep_nears {s : State} {i : Instr} (h : Inv s) (hb : s.STATE = .busy) :
    (commandStep i s).Nears (stepsLeft s) := by
  cases i with
  | rleEnc => exact rleEncStep_nears
  | hufEnc => exact hufEncStep_nears
  | lzEnc => exact lzEncStep_nears h hb
  | rleDec => exact rleDecStep_nears h hb
  | hufDec => exact hufDecStep_nears h hb
  | lzDec => exact lzDecStep_nears h hb
  | _ => trivial

/-- From every state of the invariant the latched command comes to its end in one, or reads a byte the host never wrote. -/
theorem command_ends {s : State} {i : Instr} (h : Inv s) (hb : s.STATE = .busy) (hsel : selected s = some i) :
    (iterate (commandStep i) (fun _ => true) (stepBound s) s).Leaves (fun _ => False)
      (fun t => Inv t ∧ HasEnded t) (ReadsUnwritten s) := by
  refine iterate_leaves_of_measure (p := RunsOn s) (μ := stepsLeft) (fun u hu => ?_) _ s (RunsOn.refl h hb)
    (stepsLeft_lt_stepBound s)
  have hkeeps := hu.sequencerStep_leaves
  rw [sequencerStep_eq_commandStep (hu.selected.trans hsel)] at hkeeps
  exact (hkeeps.and (commandStep_nears hu.1 hu.2.1)).mono (fun _ k => k) (fun _ k => k) (fun _ k => k.1)

end Sys2Proof.Machine
end

section
/-! # An operation depends on its input and the parameters alone (40_command.md R129) -/

namespace Sys2Proof.Machine

/-! ## Two runs side by side -/

/-- Every cell one memory lists, another holds too. -/
def Memory.Within (m n : Memory) : Prop := ∀ i v, m.read i = some v → n.read i = some v

theorem Memory.Within.write {m n : Memory} (h : m.Within n) (hm : m.wf) (hn : n.wf) (i : Nat) (v : Byte) :
    (m.write i v).Within (n.write i v) := by
  intro j w hj
  rw [Memory.read_write _ _ _ _ hm] at hj
  rw [Memory.read_write _ _ _ _ hn]
  by_cases hji : j = i
  · rwa [if_pos hji] at hj ⊢
  · rw [if_neg hji] at hj ⊢
    exact h j w hj

/-- The part of the state every operation shares: the parameters, the buffers, STATUS, OUT_LEN and op. -/
structure Shared where
  cfg : Config
  STATE : OpState
  ERR : ErrKind
  IN_LEN : Word
  OUT_LEN : Word
  op : Word
  IN : Memory
  OUT : Memory
  WIN : Memory

def State.shared (s : State) : Shared :=
  { cfg := s.cfg, STATE := s.STATE, ERR := s.ERR, IN_LEN := s.IN_LEN, OUT_LEN := s.OUT_LEN, op := s.op, IN := s.IN,
    OUT := s.OUT, WIN := s.WIN }

/-- A run s that began in s0 shadows a run t: they agree on what the operation has done so far, and s holds every byte t
does. The memories of s may hold more, left by something earlier. -/
structure Mirrors (s0 t s : State) : Prop where
  inputKept : s.IN = s0.IN ∧ s.IN_LEN = s0.IN_LEN
  cfg : s.cfg = t.cfg
  STATE : s.STATE = t.STATE
  ERR : s.ERR = t.ERR
  IN_LEN : s.IN_LEN = t.IN_LEN
  OUT_LEN : s.OUT_LEN = t.OUT_LEN
  op : s.op = t.op
  input : t.IN.Within s.IN
  output : t.OUT.Within s.OUT ∧ t.OUT.wf ∧ s.OUT.wf
  window : t.WIN.Within s.WIN ∧ t.WIN.wf ∧ s.WIN.wf

/-- Updates of an engine's registers leave the shared part alone. -/
theorem Mirrors.set {s0 t s t' s' : State} (m : Mirrors s0 t s) (ht : t'.shared = t.shared := by rfl)
    (hs : s'.shared = s.shared := by rfl) : Mirrors s0 t' s' := by
  simp only [State.shared, Shared.mk.injEq] at ht hs
  obtain ⟨tcfg, tSTATE, tERR, tIN_LEN, tOUT_LEN, top, tIN, tOUT, tWIN⟩ := ht
  obtain ⟨scfg, sSTATE, sERR, sIN_LEN, sOUT_LEN, sop, sIN, sOUT, sWIN⟩ := hs
  constructor
  · rw [sIN, sIN_LEN]; exact m.inputKept
  · rw [tcfg, scfg, m.cfg]
  · rw [tSTATE, sSTATE, m.STATE]
  · rw [tERR, sERR, m.ERR]
  · rw [tIN_LEN, sIN_LEN, m.IN_LEN]
  · rw [tOUT_LEN, sOUT_LEN, m.OUT_LEN]
  · rw [top, sop, m.op]
  · rw [tIN, sIN]; exact m.input
  · rw [tOUT, sOUT]; exact m.output
  · rw [tWIN, sWIN]; exact m.window

/-- The second piece of pseudocode does what the first does, as far as that one reaches: it goes on in a state related by R,
or ends in a state that shadows; where the first stops nothing is said. -/
def Flow.Shadowed (s0 : State) (R : State → State → Prop) : Flow → Flow → Prop
  | .go t, .go s => R t s
  | .ended t, .ended s => Mirrors s0 t s
  | .stop _, _ => True
  | _, _ => False

section Rules
variable {s0 : State} {R R' : State → State → Prop}

theorem Flow.Shadowed.bind {x y : Flow} {f g : State → Flow} (h : x.Shadowed s0 R' y)
    (hfg : ∀ t s, R' t s → (f t).Shadowed s0 R (g s)) : (x.bind f).Shadowed s0 R (y.bind g) := by
  cases x with
  | go t =>
    cases y with
    | go s => exact hfg t s h
    | ended s => exact h.elim
    | stop e => exact h.elim
  | ended t =>
    cases y with
    | go s => exact h.elim
    | ended s => exact h
    | stop e => exact h.elim
  | stop e => trivial

theorem Flow.Shadowed.mono {x y : Flow} (h : x.Shadowed s0 R' y) (hR : ∀ t s, R' t s → R t s) : x.Shadowed s0 R y := by
  cases x with
  | go t =>
    cases y with
    | go s => exact hR t s h
    | ended s => exact h.elim
    | stop e => exact h.elim
  | ended t =>
    cases y with
    | go s => exact h.elim
    | ended s => exact h
    | stop e => exact h.elim
  | stop e => trivial

theorem Flow.Shadowed.onRead {α : Type} {x y : Except Fault α} {f g : α → Flow} (hread : ∀ v, x = .ok v → y = .ok v)
    (hfg : ∀ v, (f v).Shadowed s0 R (g v)) : (Flow.onRead x f).Shadowed s0 R (Flow.onRead y g) := by
  cases x with
  | ok v =>
    rw [hread v rfl]
    exact hfg v
  | error e => trivial

theorem Flow.Shadowed.ite {c d : Prop} [Decidable c] [Decidable d] {x x' y y' : Flow} (hc : d ↔ c)
    (hx : x.Shadowed s0 R x') (hy : y.Shadowed s0 R y') :
    (if c then x else y).Shadowed s0 R (if d then x' else y') := by
  by_cases h : c
  · rw [if_pos h, if_pos (hc.2 h)]
    exact hx
  · rw [if_neg h, if_neg fun hd => h (hc.1 hd)]
    exact hy

theorem iterate_shadowed {f : State → Flow} (hf : ∀ t s, R t s → (f t).Shadowed s0 R (f s)) (n : Nat) :
    ∀ t s, R t s → (iterate f (fun _ => true) n t).Shadowed s0 R (iterate f (fun _ => true) n s) := by
  induction n with
  | zero => exact fun _ _ h => h
  | succ n ih =>
    intro t s h
    rw [iterate_succ, iterate_succ, if_pos rfl, if_pos rfl]
    exact (hf t s h).bind ih

end Rules

/-! ## The shared operations -/

section SharedOperations
variable {s0 t s : State} {R : State → State → Prop}

theorem raise_shadowed (m : Mirrors s0 t s) (e : ErrKind) : (raise e t).Shadowed s0 R (raise e s) :=
  ⟨m.inputKept, m.cfg, rfl, rfl, m.IN_LEN, m.OUT_LEN, m.op, m.input, m.output, m.window⟩

theorem complete_shadowed (m : Mirrors s0 t s) : (complete t).Shadowed s0 R (complete s) :=
  ⟨m.inputKept, m.cfg, rfl, m.ERR, m.IN_LEN, m.op, m.op, m.input, m.output, m.window⟩

theorem Mirrors.pushOut (m : Mirrors s0 t s) (v : Byte) : Mirrors s0 (pushOut v t) (pushOut v s) := by
  obtain ⟨hout, htwf, hswf⟩ := m.output
  refine ⟨m.inputKept, m.cfg, m.STATE, m.ERR, m.IN_LEN, m.OUT_LEN, by simp only [pushOut_op, m.op], m.input, ?_, m.window⟩
  simp only [pushOut_OUT, m.op]
  exact ⟨hout.write htwf hswf _ _, Memory.wf_write _ _ htwf, Memory.wf_write _ _ hswf⟩

theorem emit_shadowed (m : Mirrors s0 t s) (v : Byte) :
    (emit v t).Shadowed s0 (fun t' s' => t' = pushOut v t ∧ s' = pushOut v s ∧ Mirrors s0 t' s') (emit v s) :=
  Flow.Shadowed.ite (by rw [m.op, m.cfg]) (raise_shadowed m _) ⟨rfl, rfl, m.pushOut v⟩

/-- What several emits change. -/
def Emitted (s0 t s t' s' : State) : Prop :=
  (∃ out op, t' = { t with OUT := out, op := op }) ∧ (∃ out op, s' = { s with OUT := out, op := op }) ∧ Mirrors s0 t' s'

theorem emitAll_shadowed (vs : List Byte) :
    ∀ {t s : State}, Mirrors s0 t s → (emitAll vs t).Shadowed s0 (Emitted s0 t s) (emitAll vs s) := by
  induction vs with
  | nil => exact fun m => ⟨⟨_, _, rfl⟩, ⟨_, _, rfl⟩, m⟩
  | cons v vs ih =>
    intro t s m
    refine (emit_shadowed m v).bind ?_
    rintro t1 s1 ⟨rfl, rfl, m1⟩
    refine (ih m1).mono ?_
    rintro _ _ ⟨⟨out, op, rfl⟩, ⟨out', op', rfl⟩, m2⟩
    exact ⟨⟨_, _, rfl⟩, ⟨_, _, rfl⟩, m2⟩

theorem entryChecks_shadowed (m : Mirrors s0 t s) {first : State → Flow} (h : (first t).Shadowed s0 R (first s)) :
    (entryChecks first t).Shadowed s0 R (entryChecks first s) :=
  Flow.Shadowed.ite (by rw [m.IN_LEN]) (raise_shadowed m _)
    (Flow.Shadowed.ite (by rw [m.IN_LEN, m.cfg]) (raise_shadowed m _) h)

/-- A byte one run reads, the other reads too. -/
theorem Mirrors.readIn (m : Mirrors s0 t s) {i j : Nat} (hij : j = i) (v : Byte) (h : readIn t i = .ok v) :
    Machine.readIn s j = .ok v := by
  obtain ⟨hlt, hread⟩ := readIn_ok.1 h
  exact readIn_ok.2 ⟨by rw [hij, m.IN_LEN]; exact hlt, by rw [hij]; exact m.input i v hread⟩

theorem Mirrors.readIns (m : Mirrors s0 t s) {i n : Nat} {bs : List Byte} (h : readIns t i n = .ok bs) :
    Machine.readIns s i n = .ok bs := by
  obtain ⟨hlen, hread⟩ := readIns_ok.1 h
  exact readIns_ok.2 ⟨hlen, fun k hk => m.readIn rfl _ (hread k hk)⟩

/-! ## What is fetched -/

/-- The second fetch gives what the first does, unless that one stops. -/
def Fetched.Follows (x y : Fetched) : Prop := y = x ∨ ∃ f, x = .fails f

theorem Fetched.Follows.run_shadowed {x y : Fetched} (h : x.Follows y) (m : Mirrors s0 t s) {begins : Instr → State → Flow}
    (hbegins : ∀ i, (begins i t).Shadowed s0 R (begins i s)) : (x.run begins t).Shadowed s0 R (y.run begins s) := by
  rcases h with rfl | ⟨f, rfl⟩
  · cases y with
    | instr i => exact hbegins i
    | raises e => exact raise_shadowed m e
    | fails f => trivial
  · trivial

theorem Mirrors.fetchedFrom_follows (m : Mirrors s0 t s) (st : Stream) (i n : Nat) :
    (fetchedFrom st (Machine.readIns t i n)).Follows (fetchedFrom st (Machine.readIns s i n)) := by
  cases h : Machine.readIns t i n with
  | ok bs => exact .inl (by rw [m.readIns h])
  | error f => exact .inr ⟨f, rfl⟩

theorem Mirrors.fetchRun_follows (m : Mirrors s0 t s) (hip : s.ip = t.ip) : (fetchRun t).Follows (fetchRun s) := by
  unfold fetchRun
  rw [hip]
  exact m.fetchedFrom_follows .rle _ 2

theorem Mirrors.fetchLz_follows (m : Mirrors s0 t s) (hip : s.ip = t.ip) : (fetchLz t).Follows (fetchLz s) := by
  unfold fetchLz
  rw [hip]
  cases h : Machine.readIn t t.ip.toNat with
  | error f => exact .inr ⟨f, rfl⟩
  | ok marker =>
    rw [m.readIn rfl marker h, m.IN_LEN]
    dsimp only
    split
    · exact .inl rfl
    · split
      · exact .inl rfl
      · exact m.fetchedFrom_follows .lz _ _

theorem Mirrors.fetchHeader_follows (m : Mirrors s0 t s) : (fetchHeader t).Follows (fetchHeader s) := by
  unfold fetchHeader
  rw [m.IN_LEN]
  split
  · exact .inl rfl
  · exact m.fetchedFrom_follows .hufHeader _ _

end SharedOperations

/-! ## What an engine has in its registers at each phase -/

/-- The same root, and two tables that agree on the tree below it. -/
structure TreeAlike (t s : State) : Prop where
  root : s.ROOT = t.ROOT
  root_ge : 256 ≤ t.ROOT.toNat
  nodes : SameTree t.ROOT.toNat t.NODE s.NODE

/-- The registers an operation still reads at a phase are the same; every other may differ (10_state.md R40). -/
def LiveAt : Phase → State → State → Prop
  | .pEntry, _, _ => True
  | .reScan, t, s => s.cur = t.cur ∧ s.cnt = t.cnt
  | .reFinal, t, s => s.cur = t.cur ∧ s.cnt = t.cnt
  | .rdCheck, _, _ => True
  | .rdPair, _, _ => True
  | .rdRep, t, s => s.cur = t.cur ∧ s.cnt = t.cnt
  | .heFreq, t, s => s.FREQ = t.FREQ
  | .heTree, t, s => s.FREQ = t.FREQ
  | .heHdr, t, s => s.FREQ = t.FREQ ∧ TreeAlike t s
  | .heCode, t, s => TreeAlike t s
  | .hePack, t, s =>
    (∀ x, codeBits s.CODE s.LEN x = codeBits t.CODE t.LEN x) ∧ s.acc = t.acc ∧ s.nbits = t.nbits
  | .heFlush, t, s => s.acc = t.acc ∧ s.nbits = t.nbits
  | .hdHdr, _, _ => True
  | .hdTree, t, s => s.N = t.N ∧ s.FREQ = t.FREQ
  | .hdWalk, t, s =>
    s.N = t.N ∧ TreeAlike t s ∧ s.bitpos = t.bitpos ∧ s.node = t.node ∧ 256 ≤ t.node.toNat ∧ t.node.toNat ≤ t.ROOT.toNat
  | .leSearch, _, _ => True
  | .leEmit, t, s => s.best = t.best ∧ s.boff = t.boff
  | .ldToken, t, s => s.wp = t.wp
  | .ldCopy, t, s => s.wp = t.wp ∧ s.off = t.off ∧ s.cnt = t.cnt

/-- A run shadows another at a phase. -/
structure ShadowsAt (s0 : State) (p : Phase) (t s : State) : Prop where
  base : Mirrors s0 t s
  tphase : t.phase = p
  sphase : s.phase = p
  ip : s.ip = t.ip
  live : LiveAt p t s

/-- A run shadows another, wherever they stand. -/
def Shadows (s0 t s : State) : Prop := ∃ p, ShadowsAt s0 p t s

section Steps
variable {s0 t s : State} {p : Phase}

theorem ShadowsAt.readIn (h : ShadowsAt s0 p t s) (v : Byte) (hv : readIn t t.ip.toNat = .ok v) :
    Machine.readIn s s.ip.toNat = .ok v := h.base.readIn (by rw [h.ip]) v hv

/-- Whether input is left, both see alike. -/
theorem ShadowsAt.inputLeft_iff (h : ShadowsAt s0 p t s) :
    s.ip.toNat < s.IN_LEN.toNat ↔ t.ip.toNat < t.IN_LEN.toNat := by rw [h.ip, h.base.IN_LEN]

/-! ## RLE -/

theorem flushRun_shadowed (m : Mirrors s0 t s) (hcur : s.cur = t.cur) (hcnt : s.cnt = t.cnt) :
    (flushRun t).Shadowed s0 (Emitted s0 t s) (flushRun s) := by
  refine Flow.Shadowed.ite (by rw [hcnt]) ?_ ⟨⟨_, _, rfl⟩, ⟨_, _, rfl⟩, m⟩
  rw [hcur, hcnt]
  exact emitAll_shadowed _ m

theorem scanByte_shadowed (h : ShadowsAt s0 .reScan t s) (b : Byte) :
    (if b = t.cur then sameByte t else newByte b t).Shadowed s0 (ShadowsAt s0 .reScan)
      (if b = s.cur then sameByte s else newByte b s) := by
  obtain ⟨m, htp, hsp, hip, hcur, hcnt⟩ := h
  refine Flow.Shadowed.ite (by rw [hcur]) (Flow.Shadowed.ite (by rw [hcnt]) ?_ ?_) ?_
  · rw [hcur]
    refine (emitAll_shadowed _ m).bind ?_
    rintro _ _ ⟨⟨_, _, rfl⟩, ⟨_, _, rfl⟩, m'⟩
    exact ⟨m'.set, htp, hsp, hip, hcur, rfl⟩
  · exact ⟨m.set, htp, hsp, hip, hcur, by rw [hcnt]⟩
  · refine (flushRun_shadowed m hcur hcnt).bind ?_
    rintro _ _ ⟨⟨_, _, rfl⟩, ⟨_, _, rfl⟩, m'⟩
    exact ⟨m'.set, htp, hsp, hip, rfl, rfl⟩

theorem rleEncStep_shadowed (h : ShadowsAt s0 p t s) : (rleEncStep t).Shadowed s0 (Shadows s0) (rleEncStep s) := by
  have m := h.base
  unfold rleEncStep
  rw [h.tphase, h.sphase]
  cases p with
  | pEntry => exact entryChecks_shadowed m (Flow.Shadowed.onRead (m.readIn rfl) fun b => ⟨.reScan, m.set, rfl, rfl, rfl, rfl, rfl⟩)
  | reScan =>
    refine Flow.Shadowed.ite h.inputLeft_iff (Flow.Shadowed.onRead h.readIn fun b => ?_)
      ⟨.reFinal, m.set, rfl, rfl, h.ip, h.live⟩
    refine (scanByte_shadowed h b).bind fun t' s' h' => ⟨.reScan, h'.base.set, h'.tphase, h'.sphase, ?_, h'.live⟩
    show s'.ip + 1 = t'.ip + 1
    rw [h'.ip]
  | reFinal => exact (flushRun_shadowed m h.live.1 h.live.2).bind fun _ _ h' => complete_shadowed h'.2.2
  | _ => trivial

theorem endRun_shadows (m : Mirrors s0 t s) (hip : s.ip = t.ip) : Shadows s0 (endRun t) (endRun s) :=
  ⟨.rdPair, m.set, rfl, rfl, by rw [endRun_ip, endRun_ip, hip], trivial⟩

theorem repStep_shadowed (h : ShadowsAt s0 .rdRep t s) : (repStep t).Shadowed s0 (Shadows s0) (repStep s) := by
  obtain ⟨m, htp, hsp, hip, hcur, hcnt⟩ := h
  refine Flow.Shadowed.ite (by rw [hcnt]) ?_ (endRun_shadows m hip)
  rw [hcur]
  refine (emit_shadowed m _).bind ?_
  rintro _ _ ⟨rfl, rfl, m'⟩
  refine Flow.Shadowed.ite (by rw [pushOut_cnt, pushOut_cnt, hcnt]) (endRun_shadows m'.set hip) ?_
  exact ⟨.rdRep, m'.set, htp, hsp, hip, hcur, by simp only [pushOut_cnt, hcnt]⟩

theorem rleDecStep_shadowed (h : ShadowsAt s0 p t s) : (rleDecStep t).Shadowed s0 (Shadows s0) (rleDecStep s) := by
  have m := h.base
  unfold rleDecStep
  rw [h.tphase, h.sphase]
  cases p with
  | pEntry => exact entryChecks_shadowed m ⟨.rdCheck, m.set, rfl, rfl, h.ip, trivial⟩
  | rdCheck => exact Flow.Shadowed.ite (by rw [m.IN_LEN]) (raise_shadowed m _) ⟨.rdPair, m.set, rfl, rfl, rfl, trivial⟩
  | rdPair =>
    refine Flow.Shadowed.ite h.inputLeft_iff ((m.fetchRun_follows h.ip).run_shadowed m fun i => ?_) (complete_shadowed m)
    cases i with
    | run count value => exact ⟨.rdRep, m.set, rfl, rfl, h.ip, rfl, rfl⟩
    | _ => trivial
  | rdRep => exact repStep_shadowed h
  | _ => trivial

/-! ## LZ77 -/

theorem matchFrom_follows (m : Mirrors s0 t s) (hip : s.ip = t.ip) (o lim : Nat) (fuel : Nat) :
    ∀ k r, matchFrom t o lim fuel k = .ok r → matchFrom s o lim fuel k = .ok r := by
  induction fuel with
  | zero => exact fun _ _ h => h
  | succ fuel ih =>
    intro k r h
    simp only [matchFrom] at h ⊢
    rw [hip]
    split at h
    · rename_i hlt
      rw [if_pos hlt]
      cases ha : readIn t (t.ip.toNat - o + k) with
      | error f => rw [ha] at h; cases h
      | ok a =>
        cases hb : readIn t (t.ip.toNat + k) with
        | error f => rw [ha, hb] at h; cases h
        | ok b =>
          rw [ha, hb] at h
          rw [m.readIn rfl a ha, m.readIn rfl b hb]
          dsimp only at h ⊢
          split at h
          · rename_i heq
            rw [if_pos heq]
            exact ih _ _ h
          · rename_i hne
            rw [if_neg hne]
            exact h
    · rename_i hge
      rw [if_neg hge]
      exact h

theorem matchAt_follows (m : Mirrors s0 t s) (hip : s.ip = t.ip) (o r : Nat) (h : matchAt t o = .ok r) :
    matchAt s o = .ok r := by
  have hlook : lookahead s = lookahead t := by rw [lookahead, lookahead, m.cfg, m.IN_LEN, hip]
  rw [matchAt, hlook]
  exact matchFrom_follows m hip _ _ _ _ _ h

/-- Two searches at the same place with the same best match so far. -/
structure SearchAlike (s0 t s : State) : Prop where
  base : Mirrors s0 t s
  ip : s.ip = t.ip
  best : s.best = t.best
  boff : s.boff = t.boff

theorem SearchAlike.candidate (h : SearchAlike s0 t s) (o k : Nat) :
    SearchAlike s0 (candidate o k t) (candidate o k s) := by
  unfold Machine.candidate
  rw [h.best]
  split
  · exact ⟨h.base.set, h.ip, rfl, rfl⟩
  · exact ⟨h.base.set, h.ip, rfl, h.boff⟩

theorem searchOver_shadowed (os : List Nat) : ∀ {t s : State}, SearchAlike s0 t s →
    (searchOver os t).Shadowed s0 (SearchAlike s0) (searchOver os s) := by
  induction os with
  | nil => exact fun h => h
  | cons o os ih =>
    exact fun h => Flow.Shadowed.onRead (matchAt_follows h.base h.ip o) fun k => ih (h.candidate o k)

theorem lzEncStep_shadowed (h : ShadowsAt s0 p t s) : (lzEncStep t).Shadowed s0 (Shadows s0) (lzEncStep s) := by
  have m := h.base
  unfold lzEncStep
  rw [h.tphase, h.sphase]
  cases p with
  | pEntry => exact entryChecks_shadowed m ⟨.leSearch, m.set, rfl, rfl, rfl, trivial⟩
  | leSearch =>
    refine Flow.Shadowed.ite h.inputLeft_iff ?_ (complete_shadowed m)
    have hoffsets : offsets s = offsets t := by rw [offsets, offsets, m.cfg, h.ip]
    have hstart : SearchAlike s0 { t with best := 0, boff := 0 } { s with best := 0, boff := 0 } :=
      ⟨m.set, h.ip, rfl, rfl⟩
    unfold search
    rw [hoffsets]
    exact (searchOver_shadowed _ hstart).bind fun t' s' h' =>
      ⟨.leEmit, h'.base.set, rfl, rfl, h'.ip, h'.best, h'.boff⟩
  | leEmit =>
    obtain ⟨hbest, hboff⟩ := h.live
    refine Flow.Shadowed.ite (by rw [hbest, m.cfg]) ?_ (Flow.Shadowed.onRead h.readIn fun b => ?_)
    · rw [hbest, hboff]
      refine (emitAll_shadowed _ m).bind ?_
      rintro _ _ ⟨⟨_, _, rfl⟩, ⟨_, _, rfl⟩, m'⟩
      exact ⟨.leSearch, m'.set, rfl, rfl, by simp only [h.ip, hbest], trivial⟩
    · refine (emitAll_shadowed _ m).bind ?_
      rintro _ _ ⟨⟨_, _, rfl⟩, ⟨_, _, rfl⟩, m'⟩
      exact ⟨.leSearch, m'.set, rfl, rfl, by simp only [h.ip], trivial⟩
  | _ => trivial

theorem append_shadowed (m : Mirrors s0 t s) (hwp : s.wp = t.wp) (v : Byte) :
    (append v t).Shadowed s0
      (fun t' s' => t' = pushWindow v (pushOut v t) ∧ s' = pushWindow v (pushOut v s) ∧ Mirrors s0 t' s' ∧ s'.wp = t'.wp)
      (append v s) := by
  refine (emit_shadowed m v).bind ?_
  rintro _ _ ⟨rfl, rfl, m'⟩
  obtain ⟨hwin, htwf, hswf⟩ := m'.window
  refine ⟨rfl, rfl, ⟨m'.inputKept, m'.cfg, m'.STATE, m'.ERR, m'.IN_LEN, m'.OUT_LEN, m'.op, m'.input, m'.output, ?_⟩, ?_⟩
  · simp only [pushWindow_WIN, pushOut_wp, hwp]
    exact ⟨hwin.write htwf hswf _ _, Memory.wf_write _ _ htwf, Memory.wf_write _ _ hswf⟩
  · simp only [pushWindow_wp, pushOut_wp, pushOut_cfg, hwp, m.cfg]

theorem endMatch_shadows (m : Mirrors s0 t s) (hip : s.ip = t.ip) (hwp : s.wp = t.wp) :
    Shadows s0 (endMatch t) (endMatch s) :=
  ⟨.ldToken, m.set, rfl, rfl, by rw [endMatch_ip, endMatch_ip, hip], hwp⟩

theorem copyStep_shadowed (h : ShadowsAt s0 .ldCopy t s) : (copyStep t).Shadowed s0 (Shadows s0) (copyStep s) := by
  obtain ⟨m, htp, hsp, hip, hwp, hoff, hcnt⟩ := h
  have hsource : copySource s = copySource t := by rw [copySource, copySource, hwp, hoff, m.cfg]
  refine Flow.Shadowed.ite (by rw [hcnt]) ?_ (endMatch_shadows m hip hwp)
  rw [hsource]
  cases hread : t.WIN.read (copySource t) with
  | none => trivial
  | some v =>
    rw [m.window.1 _ _ hread]
    refine (append_shadowed m hwp v).bind ?_
    rintro _ _ ⟨rfl, rfl, m', hwp'⟩
    refine Flow.Shadowed.ite (by simp only [pushWindow_cnt, pushOut_cnt, hcnt]) (endMatch_shadows m'.set hip hwp') ?_
    exact ⟨.ldCopy, m'.set, htp, hsp, hip, hwp', hoff, by simp only [pushWindow_cnt, pushOut_cnt, hcnt]⟩

theorem beginLit_shadowed (h : ShadowsAt s0 .ldToken t s) (b : Byte) :
    (beginLit b t).Shadowed s0 (Shadows s0) (beginLit b s) := by
  refine (append_shadowed h.base h.live b).bind ?_
  rintro _ _ ⟨rfl, rfl, m', hwp'⟩
  exact ⟨.ldToken, m'.set, h.tphase, h.sphase, by simp only [pushWindow_ip, pushOut_ip, h.ip], hwp'⟩

theorem beginMatch_shadowed (h : ShadowsAt s0 .ldToken t s) (offset : BitVec 16) (length : Byte) :
    (beginMatch offset length t).Shadowed s0 (Shadows s0) (beginMatch offset length s) := by
  have m := h.base
  exact Flow.Shadowed.ite (by rw [m.cfg]) (raise_shadowed m.set _)
    (Flow.Shadowed.ite (by rw [m.cfg]) (raise_shadowed m.set _)
      (Flow.Shadowed.ite (by rw [m.op]) (raise_shadowed m.set _) ⟨.ldCopy, m.set, rfl, rfl, h.ip, h.live, rfl, rfl⟩))

theorem lzDecStep_shadowed (h : ShadowsAt s0 p t s) : (lzDecStep t).Shadowed s0 (Shadows s0) (lzDecStep s) := by
  have m := h.base
  unfold lzDecStep
  rw [h.tphase, h.sphase]
  cases p with
  | pEntry => exact entryChecks_shadowed m ⟨.ldToken, m.set, rfl, rfl, rfl, rfl⟩
  | ldToken =>
    refine Flow.Shadowed.ite h.inputLeft_iff ((m.fetchLz_follows h.ip).run_shadowed m fun i => ?_) (complete_shadowed m)
    cases i with
    | lit b => exact beginLit_shadowed h b
    | matchRef offset length => exact beginMatch_shadowed h offset length
    | _ => trivial
  | ldCopy => exact copyStep_shadowed h
  | _ => trivial

/-! ## Huffman -/

/-- The tree is built over whatever NODE held, and is the same tree. -/
theorem plantTree_treeAlike (hfreq : s.FREQ = t.FREQ) (hcount : leafCount t.FREQ ≠ 0) :
    TreeAlike (plantTree t) (plantTree s) := by
  refine ⟨by simp only [plantTree_ROOT, hfreq], ?_, ?_⟩
  · rw [plantTree_ROOT, toNat_rootOf]
    exact rootOf_ge _
  · simp only [plantTree_ROOT, plantTree_NODE, toNat_rootOf, hfreq]
    exact grow_sameTree _ _ hcount

theorem buildTree_shadowed (m : Mirrors s0 t s) (hfreq : s.FREQ = t.FREQ) :
    (buildTree t).Shadowed s0
      (fun t' s' => t' = plantTree t ∧ s' = plantTree s ∧ Mirrors s0 t' s' ∧ TreeAlike t' s') (buildTree s) := by
  unfold buildTree
  rw [hfreq]
  split
  · trivial
  · rename_i hcount
    exact ⟨rfl, rfl, m.set, plantTree_treeAlike hfreq hcount⟩

theorem packBits_shadowed (bits : List Bool) : ∀ {t s : State}, ShadowsAt s0 .hePack t s →
    (packBits bits t).Shadowed s0 (ShadowsAt s0 .hePack) (packBits bits s) := by
  induction bits with
  | nil => exact fun h => h
  | cons c cs ih =>
    intro t s h
    obtain ⟨m, htp, hsp, hip, hcodes, hacc, hnbits⟩ := h
    refine Flow.Shadowed.bind (R' := ShadowsAt s0 .hePack) ?_ fun _ _ => ih
    unfold packBit
    dsimp only
    rw [hacc]
    refine Flow.Shadowed.ite (by rw [hnbits]) ?_ ⟨m.set, htp, hsp, hip, hcodes, rfl, by rw [hnbits]⟩
    refine (emit_shadowed m.set _).bind ?_
    rintro _ _ ⟨rfl, rfl, m'⟩
    exact ⟨m'.set, htp, hsp, hip, hcodes, rfl, rfl⟩

/-- The codes read from the tree are the same, whatever CODE held. -/
theorem codeStep_shadowed (h : ShadowsAt s0 .heCode t s) : (codeStep t).Shadowed s0 (Shadows s0) (codeStep s) := by
  refine ⟨.hePack, h.base.set, rfl, rfl, rfl, fun x => ?_, rfl, rfl⟩
  have hcodes := codesOf_sameCodes h.live.nodes t.CODE s.CODE
  rw [← h.live.root] at hcodes
  simp only [h.live.root] at hcodes ⊢
  exact hcodes.codeBits x

theorem hufEncStep_shadowed (h : ShadowsAt s0 p t s) : (hufEncStep t).Shadowed s0 (Shadows s0) (hufEncStep s) := by
  have m := h.base
  unfold hufEncStep
  rw [h.tphase, h.sphase]
  cases p with
  | pEntry => exact entryChecks_shadowed m ⟨.heFreq, m.set, rfl, rfl, rfl, rfl⟩
  | heFreq =>
    refine Flow.Shadowed.ite h.inputLeft_iff (Flow.Shadowed.onRead h.readIn fun b => ?_)
      ⟨.heTree, m.set, rfl, rfl, h.ip, h.live⟩
    exact ⟨.heFreq, m.set, h.tphase, h.sphase, by simp only [h.ip], congrArg (countByte · b) h.live⟩
  | heTree =>
    refine (buildTree_shadowed m h.live).bind ?_
    rintro _ _ ⟨rfl, rfl, m', htree⟩
    exact ⟨.heHdr, m'.set, rfl, rfl, h.ip, h.live, htree.root, htree.root_ge, htree.nodes⟩
  | heHdr =>
    obtain ⟨hfreq, htree⟩ := h.live
    unfold headerStep
    rw [m.IN_LEN, hfreq]
    refine (emitAll_shadowed _ m).bind ?_
    rintro _ _ ⟨⟨_, _, rfl⟩, ⟨_, _, rfl⟩, m'⟩
    exact ⟨.heCode, m'.set, rfl, rfl, h.ip, htree.root, htree.root_ge, htree.nodes⟩
  | heCode => exact codeStep_shadowed h
  | hePack =>
    refine Flow.Shadowed.ite h.inputLeft_iff (Flow.Shadowed.onRead h.readIn fun b => ?_)
      ⟨.heFlush, m.set, rfl, rfl, h.ip, h.live.2⟩
    rw [h.live.1 b]
    exact (packBits_shadowed _ h).bind fun t' s' h' =>
      ⟨.hePack, h'.base.set, h'.tphase, h'.sphase, by simp only [h'.ip], h'.live⟩
  | heFlush =>
    obtain ⟨hacc, hnbits⟩ := h.live
    refine Flow.Shadowed.bind (R' := fun t' s' => Mirrors s0 t' s') ?_ fun _ _ m' => complete_shadowed m'
    rw [hacc, hnbits]
    split
    · exact Flow.Shadowed.mono (emit_shadowed m _) fun _ _ h' => h'.2.2
    · exact m
  | _ => trivial

theorem payloadBit_follows (m : Mirrors s0 t s) (n : Nat) (c : Bool) (h : payloadBit t n = .ok c) :
    payloadBit s n = .ok c := by
  unfold payloadBit at h ⊢
  cases hread : readIn t (headerLength + n / 8) with
  | error f => rw [hread] at h; cases h
  | ok b =>
    rw [hread] at h
    rw [m.readIn rfl b hread]
    exact h

theorem arrive_shadowed (h : ShadowsAt s0 .hdWalk t s) {x : BitVec 9} (hx : Branch t.ROOT.toNat x) :
    (arrive x t).Shadowed s0 (Shadows s0) (arrive x s) := by
  obtain ⟨m, htp, hsp, hip, hN, ⟨hroot, hge, hnodes⟩, hpos, -, -, -⟩ := h
  unfold arrive
  split
  · exact raise_shadowed m _
  · rename_i hsome
    split
    · refine (emit_shadowed m.set _).bind ?_
      rintro _ _ ⟨rfl, rfl, m'⟩
      exact ⟨.hdWalk, m'.set, htp, hsp, hip, hN, ⟨hroot, hge, hnodes⟩, hpos, hroot, hge, Nat.le_refl _⟩
    · rename_i hinner
      exact ⟨.hdWalk, m.set, htp, hsp, hip, hN, ⟨hroot, hge, hnodes⟩, hpos, rfl,
        isLeaf_eq_false.1 (Bool.eq_false_iff.2 hinner), hx.resolve_left hsome⟩

theorem walkBit_shadowed (h : ShadowsAt s0 .hdWalk t s) (c : Bool) :
    (walkBit c t).Shadowed s0 (Shadows s0) (walkBit c s) := by
  obtain ⟨m, htp, hsp, hip, hN, htree, hpos, hnode, hge, hle⟩ := h
  obtain ⟨nd, htnd, hsnd, hleft, hright⟩ := htree.nodes t.node.toNat hge hle
  have hbranch : Branch t.ROOT.toNat (if c then nd.right else nd.left) := by
    cases c
    · exact hleft
    · exact hright
  have htaken : ShadowsAt s0 .hdWalk (takeBit t) (takeBit s) :=
    ⟨m.set, htp, hsp, by rw [takeBit_ip, takeBit_ip, hpos], hN, ⟨htree.root, htree.root_ge, htree.nodes⟩,
      by rw [takeBit_bitpos, takeBit_bitpos, hpos], hnode, hge, hle⟩
  unfold walkBit
  rw [hnode, htnd, hsnd]
  exact arrive_shadowed htaken hbranch

theorem beginHeader_shadowed (m : Mirrors s0 t s) (total : Word) (freq : FreqTable) :
    (beginHeader total freq t).Shadowed s0 (Shadows s0) (beginHeader total freq s) :=
  Flow.Shadowed.ite Iff.rfl (raise_shadowed m.set _)
    (Flow.Shadowed.ite Iff.rfl (raise_shadowed m.set _) ⟨.hdTree, m.set, rfl, rfl, rfl, rfl, rfl⟩)

theorem hufDecStep_shadowed (h : ShadowsAt s0 p t s) : (hufDecStep t).Shadowed s0 (Shadows s0) (hufDecStep s) := by
  have m := h.base
  unfold hufDecStep
  rw [h.tphase, h.sphase]
  cases p with
  | pEntry => exact entryChecks_shadowed m ⟨.hdHdr, m.set, rfl, rfl, h.ip, trivial⟩
  | hdHdr =>
    refine m.fetchHeader_follows.run_shadowed m fun i => ?_
    cases i with
    | hufHdr total freq => exact beginHeader_shadowed m total freq
    | _ => trivial
  | hdTree =>
    obtain ⟨hN, hfreq⟩ := h.live
    refine Flow.Shadowed.ite (by rw [hN, m.cfg]) (raise_shadowed m _) ((buildTree_shadowed m hfreq).bind ?_)
    rintro _ _ ⟨rfl, rfl, m', htree⟩
    exact ⟨.hdWalk, m'.set, rfl, rfl, h.ip, hN, ⟨htree.root, htree.root_ge, htree.nodes⟩, rfl, htree.root, htree.root_ge,
      Nat.le_refl _⟩
  | hdWalk =>
    obtain ⟨hN, -, hpos, -, -, -⟩ := h.live
    refine Flow.Shadowed.ite (by rw [m.op, hN]) ?_ (complete_shadowed m)
    refine Flow.Shadowed.ite (by rw [hpos, m.IN_LEN]) (raise_shadowed m _) ?_
    rw [hpos]
    exact Flow.Shadowed.onRead (payloadBit_follows m _) fun c => walkBit_shadowed h c
  | _ => trivial

/-- One step of any command. -/
theorem commandStep_shadowed (i : Instr) (h : Shadows s0 t s) :
    (commandStep i t).Shadowed s0 (Shadows s0) (commandStep i s) := by
  obtain ⟨p, h⟩ := h
  cases i with
  | rleEnc => exact rleEncStep_shadowed h
  | hufEnc => exact hufEncStep_shadowed h
  | lzEnc => exact lzEncStep_shadowed h
  | rleDec => exact rleDecStep_shadowed h
  | hufDec => exact hufDecStep_shadowed h
  | lzDec => exact lzDecStep_shadowed h
  | _ => trivial

end Steps

end Sys2Proof.Machine
end

section
/-! ## The outcome of an operation (40_command.md R129) -/

namespace Sys2Proof.Machine

/-- Placed bytes lie below the end of where they are placed. -/
theorem Memory.below_place {m : Memory} {cap i : Nat} (bs : List Byte) (h : m.below cap) (hi : i + bs.length ≤ cap) :
    (m.place i bs).below cap := by
  induction bs generalizing i with
  | nil => exact h
  | cons b bs ih =>
    rw [List.length_cons] at hi
    exact Memory.below_write _ (ih (by omega)) (by omega)

/-- The entry of an operation on a machine that holds nothing but the input. -/
def cleanEntry (c : Config) (alg : BitVec 2) (dir : BitVec 1) (b : List Byte) : State :=
  { State.reset with
    cfg := c, STATE := .busy, ALG := alg, DIR := dir, IN := Memory.place [] 0 b, IN_LEN := BitVec.ofNat 32 b.length }

theorem cleanEntry_read (c : Config) (alg : BitVec 2) (dir : BitVec 1) (b : List Byte) (j : Nat) :
    (cleanEntry c alg dir b).IN.read j = b[j]? := by
  show (Memory.place [] 0 b).read j = b[j]?
  rw [Memory.read_place 0 j b List.Pairwise.nil]
  split
  · rfl
  · rw [List.getElem?_eq_none (by omega), Memory.read_nil]

/-- A command has a pair of latches that selects it (30_encoding.md R92). -/
theorem exists_latches {i : Instr} (h : isCommand i = true) :
    ∃ alg dir, ∀ c b, selected (cleanEntry c alg dir b) = some i := by
  rcases isCommand_iff.1 h with rfl | rfl | rfl | rfl | rfl | rfl
  · exact ⟨0, 0, fun _ _ => rfl⟩
  · exact ⟨1, 0, fun _ _ => rfl⟩
  · exact ⟨2, 0, fun _ _ => rfl⟩
  · exact ⟨0, 1, fun _ _ => rfl⟩
  · exact ⟨1, 1, fun _ _ => rfl⟩
  · exact ⟨2, 1, fun _ _ => rfl⟩

/-- An input that fits IN makes the clean entry a state of the invariant. -/
theorem inv_cleanEntry {c : Config} {alg : BitVec 2} {dir : BitVec 1} {b : List Byte} {i : Instr} (hc : c.wf)
    (hcap : b.length ≤ c.IN_CAP) (hsel : selected (cleanEntry c alg dir b) = some i) : Inv (cleanEntry c alg dir b) where
  config := hc
  status := by simp [StatusLaw, cleanEntry, State.reset]
  memory := ⟨⟨Memory.wf_place _ _ List.Pairwise.nil, Memory.below_place b nofun (by simpa [cleanEntry] using hcap)⟩,
    ⟨List.Pairwise.nil, nofun⟩, List.Pairwise.nil, nofun⟩
  output := by simp [OutputLaw, cleanEntry, State.reset]
  counter := fun _ => ⟨⟨i, hsel, phaseBelongs_pEntry (isCommand_of_selected hsel)⟩, by simp [cleanEntry, State.reset]⟩
  rle := fun _ => by simp [RleLaw, cleanEntry, State.reset]
  huffman := fun _ => by simp [HuffmanLaw, cleanEntry, State.reset]
  matcher := fun _ => by simp [MatcherLaw, cleanEntry, State.reset]
  window := fun _ => by simp [WindowLaw, cleanEntry, State.reset]

section Outcome
variable {s : State} {b : List Byte} {i : Instr}

/-- Whatever a state at the entry holds, it shadows the clean entry of the same input and parameters. -/
theorem shadows_cleanEntry (hentry : AtEntry s) (hout : s.OUT.wf) (hwin : s.WIN.wf) (hinput : InputIs s b)
    (alg : BitVec 2) (dir : BitVec 1) : Shadows s (cleanEntry s.cfg alg dir b) s := by
  obtain ⟨hstate, herr, houtlen, hphase, hip, hop⟩ := hentry
  obtain ⟨hlen, hread⟩ := hinput
  have hinlen : s.IN_LEN = BitVec.ofNat 32 b.length := by rw [← hlen, BitVec.ofNat_toNat, BitVec.setWidth_eq]
  refine ⟨.pEntry, ⟨⟨rfl, rfl⟩, rfl, hstate, herr, hinlen, houtlen, hop, fun j v hj => ?_, ⟨nofun, List.Pairwise.nil, hout⟩,
    nofun, List.Pairwise.nil, hwin⟩, rfl, hphase, hip, trivial⟩
  rw [cleanEntry_read] at hj
  have hjlt : j < b.length := by
    obtain ⟨hlt, -⟩ := List.getElem?_eq_some_iff.1 hj
    exact hlt
  rw [hread j hjlt, hj]

/-- The clean run ends, in a state of the invariant: no byte of its input is missing. -/
theorem cleanEntry_ends {c : Config} {alg : BitVec 2} {dir : BitVec 1} (hc : c.wf) (hcap : b.length ≤ c.IN_CAP)
    (hsel : selected (cleanEntry c alg dir b) = some i) :
    ∃ t, iterate (commandStep i) (fun _ => true) (stepBound (cleanEntry c alg dir b)) (cleanEntry c alg dir b) = .ended t ∧
      Inv t ∧ HasEnded t := by
  have hends := command_ends (inv_cleanEntry hc hcap hsel) rfl hsel
  cases hrun : iterate (commandStep i) (fun _ => true) (stepBound (cleanEntry c alg dir b)) (cleanEntry c alg dir b) with
  | go t =>
    rw [hrun] at hends
    exact hends.elim
  | ended t =>
    rw [hrun] at hends
    exact ⟨t, rfl, hends⟩
  | stop f =>
    rw [hrun] at hends
    obtain ⟨k, -, hlt, hnone⟩ := hends
    have hlen : (cleanEntry c alg dir b).IN_LEN.toNat = b.length :=
      Nat.mod_eq_of_lt (by have := hc.1.2; omega)
    rw [cleanEntry_read, List.getElem?_eq_none_iff] at hnone
    omega

/-- Where the clean run of its input ends, a command ends as that does. -/
theorem exec_shadows_clean (hcommand : isCommand i = true) (hout : s.OUT.wf) (hwin : s.WIN.wf) (hentry : AtEntry s)
    (hinput : InputIs s b) {alg : BitVec 2} {dir : BitVec 1} {t : State}
    (hclean : iterate (commandStep i) (fun _ => true) (stepBound (cleanEntry s.cfg alg dir b))
      (cleanEntry s.cfg alg dir b) = .ended t) :
    ∃ u, exec i s = .next u ∧ Mirrors s t u := by
  have hstart := shadows_cleanEntry hentry hout hwin hinput alg dir
  have hbound : stepBound s = stepBound (cleanEntry s.cfg alg dir b) := by
    obtain ⟨p, h⟩ := hstart
    rw [stepBound, stepBound, h.base.IN_LEN]
  have hrun := iterate_shadowed (fun _ _ => commandStep_shadowed i) (stepBound s) _ _ hstart
  rw [hbound, hclean, ← hbound] at hrun
  rw [exec_eq_runOperation hcommand, runOperation, whileBusy_busy hentry.1]
  cases hactual : iterate (commandStep i) (fun _ => true) (stepBound s) s with
  | go u =>
    rw [hactual] at hrun
    exact hrun.elim
  | ended u =>
    rw [hactual] at hrun
    exact ⟨u, rfl, hrun⟩
  | stop f =>
    rw [hactual] at hrun
    exact hrun.elim

/-- The first step of every command is the entry checks (40_command.md R123). -/
theorem commandStep_at_entry (hcommand : isCommand i = true) (hphase : s.phase = .pEntry) :
    ∃ first, commandStep i s = entryChecks first s := by
  rcases isCommand_iff.1 hcommand with rfl | rfl | rfl | rfl | rfl | rfl <;>
    simp only [commandStep, rleEncStep, hufEncStep, lzEncStep, rleDecStep, hufDecStep, lzDecStep, hphase] <;>
    exact ⟨_, rfl⟩

/-- An input past IN_CAP raises at the entry, before a byte is read (40_command.md R123). -/
theorem exec_over_capacity (hcommand : isCommand i = true) (hentry : AtEntry s) (hlen : s.cfg.IN_CAP < s.IN_LEN.toNat) :
    exec i s = .next { s with ERR := .capacityOverflow, STATE := .error } := by
  obtain ⟨hbusy, -, -, hphase, -⟩ := hentry
  obtain ⟨first, hfirst⟩ := commandStep_at_entry hcommand hphase
  have hraise : commandStep i s = raise .capacityOverflow s := by
    rw [hfirst, entryChecks, if_neg (by omega), if_pos hlen]
  rw [exec_eq_runOperation hcommand, runOperation, whileBusy_busy hbusy, stepBound,
    show 300 * (s.IN_LEN.toNat + 4) = 300 * s.IN_LEN.toNat + 1199 + 1 by omega, iterate_succ, if_pos rfl, hraise]
  rfl

end Outcome

/-- Two runs that shadow one clean run look the same from outside. -/
theorem sameView_of_mirrors {s s' t u u' : State} (hinv : Inv t) (hended : HasEnded t) (h : Mirrors s t u)
    (h' : Mirrors s' t u') : SameView u u' := by
  refine ⟨h.STATE.trans h'.STATE.symm, h.ERR.trans h'.ERR.symm, h.OUT_LEN.trans h'.OUT_LEN.symm, fun j hj => ?_⟩
  rw [h.OUT_LEN] at hj
  have hcommitted : (t.OUT.read j).isSome := by
    rcases hended with hdone | herror
    · exact (hinv.output.2 hdone).2 j hj
    · rw [hinv.status.2 (by simp [herror])] at hj
      simp at hj
  obtain ⟨v, hv⟩ := Option.isSome_iff_exists.1 hcommitted
  rw [h.output.1 j v hv, h'.output.1 j v hv]

/-- Settles O54: both runs shadow the run of a machine that holds nothing but the input, which ends. -/
theorem outcomeDependsOnTheInputAlone : Obligations.OutcomeDependsOnTheInputAlone := by
  unfold Obligations.OutcomeDependsOnTheInputAlone
  intro i s s' b hcommand hc hcfg hout hout' hwin hwin' hentry hentry' hinput hinput'
  rcases Nat.lt_or_ge s.cfg.IN_CAP b.length with hover | hcap
  · have hzero : s.OUT_LEN = 0 := hentry.2.2.1
    have hzero' : s'.OUT_LEN = 0 := hentry'.2.2.1
    have hlen : s.cfg.IN_CAP < s.IN_LEN.toNat := by rw [hinput.1]; exact hover
    have hlen' : s'.cfg.IN_CAP < s'.IN_LEN.toNat := by rw [hinput'.1, hcfg]; exact hover
    refine ⟨_, _, exec_over_capacity hcommand hentry hlen, exec_over_capacity hcommand hentry' hlen',
      ⟨rfl, rfl, hzero.trans hzero'.symm, fun j hj => ?_⟩, by simp, rfl, rfl, rfl, rfl⟩
    simp [hzero] at hj
  · obtain ⟨alg, dir, hsel⟩ := exists_latches hcommand
    obtain ⟨t, hclean, hinv, hended⟩ := cleanEntry_ends hc hcap (hsel s.cfg b)
    obtain ⟨u, hu, hmirrors⟩ := exec_shadows_clean hcommand hout hwin hentry hinput hclean
    obtain ⟨u', hu', hmirrors'⟩ := exec_shadows_clean (s := s') hcommand hout' hwin' hentry' hinput'
      (by rw [hcfg]; exact hclean)
    refine ⟨u, u', hu, hu', sameView_of_mirrors hinv hended hmirrors hmirrors', ?_, hmirrors.inputKept.1,
      hmirrors.inputKept.2, hmirrors'.inputKept.1, hmirrors'.inputKept.2⟩
    rw [hmirrors.STATE]
    rcases hended with h | h <;> simp [h]

end Sys2Proof.Machine
end

section
/-! # The host's side of the buffer memories (20_memory.md R64 to R66, R71) -/

namespace Sys2Proof.Machine

/-! ## Host writes of IN -/

/-- What a host write of IN stores: the byte it names, below IN_CAP of a machine that is not BUSY. -/
theorem hostWriteIn_eq (i : Nat) (b : Byte) (s : State) :
    hostWriteIn i b s =
      { s with IN := if i < s.cfg.IN_CAP ∧ s.STATE ≠ .busy then s.IN.write i b else s.IN } := by
  unfold hostWriteIn
  by_cases hb : s.STATE = .busy
  · rw [if_pos hb, if_neg fun h => h.2 hb]
  · by_cases hi : i < s.cfg.IN_CAP
    · rw [if_neg hb, if_pos hi, if_pos ⟨hi, hb⟩]
    · rw [if_neg hb, if_neg hi, if_neg fun h => hi h.1]

/-- Settles O9: the write is the store of one byte, or none, and `Memory.read_write` says what reads give after it. -/
theorem hostWritesOneByteOfIn : Obligations.HostWritesOneByteOfIn := by
  unfold Obligations.HostWritesOneByteOfIn
  intro s i b rest hwf hhost
  have hstep : step s = .next (hostWriteIn i b { s with host := rest }) := by rw [step, hhost]; rfl
  refine ⟨_, hstep, ?_⟩
  rw [hostWriteIn_eq]
  refine ⟨rfl, ?_⟩
  dsimp only
  by_cases hstores : i < s.cfg.IN_CAP ∧ s.STATE ≠ .busy
  · rw [if_pos hstores]
    refine ⟨Memory.wf_write i b hwf, fun j => ?_⟩
    simp only [Memory.read_write _ _ _ _ hwf, and_iff_left hstores]
  · rw [if_neg hstores]
    exact ⟨hwf, fun j => (if_neg fun h => hstores h.2).symm⟩

/-! ## Host reads -/

/-- A free byte is some byte, and drawing it changes nothing but the reply. -/
theorem answerFree_eq (s : State) :
    ∃ (b : Byte) (n : Nat), answerFree s = { s with replies := .byte b :: s.replies, freeCtr := n } := ⟨_, _, rfl⟩

/-- Settles O10: the cases of `hostReadIn` while STATE is not BUSY. -/
theorem hostReadsIn : Obligations.HostReadsIn := by
  unfold Obligations.HostReadsIn
  intro s i rest hhost hb
  have hstep : step s = .next (hostReadIn i { s with host := rest }) := by rw [step, hhost]; rfl
  rw [hstep, hostReadIn, if_neg hb]
  dsimp only
  by_cases hi : i < s.cfg.IN_CAP
  · rw [if_pos hi]
    cases hread : s.IN.read i with
    | some b => exact ⟨b, s.freeCtr, rfl, fun _ w hw => ⟨Option.some.inj hw, rfl⟩, fun hcap => by omega⟩
    | none => exact ⟨_, _, rfl, nofun, fun hcap => by omega⟩
  · rw [if_neg hi]
    exact ⟨0, s.freeCtr, rfl, fun hlt => absurd hlt hi, fun _ => rfl⟩

/-- What a host read of OUT answers while STATE is not BUSY: the committed byte below OUT_LEN of a DONE machine, 0x00 elsewhere
(20_memory.md R64). -/
theorem hostReadOut_of_idle {s : State} (j : Nat) (hout : OutputLaw s) (hb : s.STATE ≠ .busy) :
    ∃ b : Byte, hostReadOut j s = .next (answer (.byte b) s) ∧
      (s.STATE = .done → j < s.OUT_LEN.toNat → s.OUT.read j = some b) ∧
      (s.STATE ≠ .done ∨ s.OUT_LEN.toNat ≤ j → b = 0) := by
  unfold hostReadOut
  rw [if_neg hb]
  by_cases hread : s.STATE = .done ∧ j < s.OUT_LEN.toNat
  · obtain ⟨hdone, hlt⟩ := hread
    obtain ⟨b, hbyte⟩ := Option.isSome_iff_exists.1 ((hout.2 hdone).2 j hlt)
    rw [if_pos ⟨hdone, hlt⟩, hbyte]
    exact ⟨b, rfl, fun _ _ => rfl, fun hnot => absurd hnot (by simp [hdone, hlt])⟩
  · rw [if_neg hread]
    exact ⟨0, rfl, fun hdone hlt => absurd ⟨hdone, hlt⟩ hread, fun _ => rfl⟩

/-- Settles O11: `hostReadOut` of a machine that is not BUSY; a write of OUT is a move without effect. -/
theorem hostReadsOut : Obligations.HostReadsOut := by
  unfold Obligations.HostReadsOut
  refine ⟨fun s j rest h hhost hb => ?_, fun s j b rest hhost => by rw [step, hhost]; rfl⟩
  have hstep : step s = hostReadOut j { s with host := rest } := by rw [step, hhost]; rfl
  rw [hstep]
  exact hostReadOut_of_idle (s := { s with host := rest }) j h.output hb

/-- Settles O12: each of the five moves, while BUSY. -/
theorem busyShutsTheHostOut : Obligations.BusyShutsTheHostOut := by
  unfold Obligations.BusyShutsTheHostOut
  intro s m rest hb hhost
  constructor
  · rintro (⟨reg, v, rfl⟩ | ⟨i, b, rfl⟩ | ⟨i, b, rfl⟩) <;> rw [step, hhost]
    · exact congrArg _ (if_pos hb)
    · exact congrArg _ (if_pos hb)
    · rfl
  · obtain ⟨b, n, hfree⟩ := answerFree_eq { s with host := rest }
    rintro (⟨i, rfl⟩ | ⟨i, rfl⟩) <;> refine ⟨b, n, ?_⟩ <;> rw [step, hhost, ← hfree]
    · exact congrArg _ (if_pos hb)
    · exact if_pos hb

end Sys2Proof.Machine
end

section
/-! # What stops a step (20_memory.md R62, 93_implementation_defined.md U11), and that none is refused -/

namespace Sys2Proof.Machine

/-! ## The pseudocode of a turn -/

/-- The sequencer's turn runs a piece of pseudocode that keeps the invariant, or stops at a byte the host never wrote. -/
def TurnKeeps (s : State) : Prop :=
  ∃ x : Flow, turn s = x.outcome ∧ x.Leaves (RunsOn s) Inv (ReadsUnwritten s)

/-- A fault of a piece of pseudocode is one of those it can stop with. -/
theorem Flow.Leaves.fails_of_fault {p q : State → Prop} {r : Fault → Prop} {x : Flow} {f : Fault} (hx : x.Leaves p q r)
    (hf : x.outcome = .fault f) : r f := by
  cases x with
  | go t => cases hf
  | ended t => cases hf
  | stop e =>
    cases hf
    exact hx

section Turn
variable {s : State}

/-- The turn of a fetched instruction is the pseudocode it runs. -/
theorem turnKeeps_of_instr {i : Instr} {x : Flow} (hb : s.STATE = .busy) (hf : fetch s = .instr i)
    (hleaves : x.Leaves (RunsOn s) Inv (ReadsUnwritten s)) (hexec : exec i s = x.outcome) : TurnKeeps s :=
  ⟨x, (turn_of_instr hb hf).trans hexec, hleaves⟩

/-- The turn where the latched command is fetched. -/
theorem turnKeeps_of_command {i : Instr} (h : Inv s) (hb : s.STATE = .busy) (hsel : selected s = some i)
    (hf : fetch s = .instr i) : TurnKeeps s :=
  turnKeeps_of_instr hb hf (exec_command_leaves h hb hsel)
    ((exec_eq_runOperation (isCommand_of_selected hsel) s).trans (whileBusy_busy hb))

/-- The turn where the pseudocode step fetches what the turn fetches: it stops or raises as that step does, and an instruction
begun by that step is run on to its end. -/
theorem turnKeeps_of_fetch {begins : Instr → State → Flow} (h : Inv s) (hb : s.STATE = .busy)
    (hstep : sequencerStep s = (fetch s).run begins s)
    (hinstr : ∀ i, fetch s = .instr i → (begins i s).Leaves (RunsOn s) Inv (ReadsUnwritten s) → TurnKeeps s) :
    TurnKeeps s := by
  have hleaves := sequencerStep_keeps h hb
  rw [hstep] at hleaves
  cases hf : fetch s with
  | instr i =>
    rw [hf] at hleaves
    exact hinstr i hf hleaves
  | raises e =>
    rw [hf] at hleaves
    exact ⟨raise e s, by rw [turn_busy hb, hf], hleaves⟩
  | fails f =>
    rw [hf] at hleaves
    exact ⟨.stop f, turn_of_fails hb hf, hleaves⟩

/-- A foreign phase is no unwritten byte. -/
theorem not_leaves_foreignPhase {p q : State → Prop} : ¬(Flow.stop .foreignPhase).Leaves p q (ReadsUnwritten s) :=
  fun ⟨_, hk, _⟩ => nomatch hk

/-- The turn at a place of RLE.DEC. -/
theorem turnKeeps_rleDec (h : Inv s) (hb : s.STATE = .busy) (hsel : selected s = some .rleDec) : TurnKeeps s := by
  by_cases hat : s.phase = .rdPair ∧ s.ip.toNat < s.IN_LEN.toNat
  · have hfetch : fetch s = fetchRun s := by simp only [fetch, hsel]; exact if_pos hat
    refine turnKeeps_of_fetch (begins := beginRleToken) h hb ?_ fun i hf hbegin => ?_
    · rw [sequencerStep_eq_commandStep hsel, hfetch, commandStep, rleDecStep, hat.1]
      exact if_pos hat.2
    · cases i with
      | run count value => exact turnKeeps_of_instr hb hf (execRun_leaves hsel hbegin) (if_pos hb)
      | _ => exact absurd hbegin not_leaves_foreignPhase
  · exact turnKeeps_of_command h hb hsel (by simp only [fetch, hsel]; exact if_neg hat)

/-- The turn at a place of LZ.DEC. -/
theorem turnKeeps_lzDec (h : Inv s) (hb : s.STATE = .busy) (hsel : selected s = some .lzDec) : TurnKeeps s := by
  by_cases hat : s.phase = .ldToken ∧ s.ip.toNat < s.IN_LEN.toNat
  · have hfetch : fetch s = fetchLz s := by simp only [fetch, hsel]; exact if_pos hat
    refine turnKeeps_of_fetch (begins := beginLzToken) h hb ?_ fun i hf hbegin => ?_
    · rw [sequencerStep_eq_commandStep hsel, hfetch, commandStep, lzDecStep, hat.1]
      exact if_pos hat.2
    · cases i with
      | lit b => exact turnKeeps_of_instr hb hf hbegin (if_pos hb)
      | matchRef offset length => exact turnKeeps_of_instr hb hf (execMatch_leaves hsel hbegin) (if_pos hb)
      | _ => exact absurd hbegin not_leaves_foreignPhase
  · exact turnKeeps_of_command h hb hsel (by simp only [fetch, hsel]; exact if_neg hat)

/-- The turn at a place of HUF.DEC: the header, a whole payload, or the command. -/
theorem turnKeeps_hufDec (h : Inv s) (hb : s.STATE = .busy) (hsel : selected s = some .hufDec) : TurnKeeps s := by
  by_cases hph : s.phase = .hdHdr
  · have hfetch : fetch s = fetchHeader s := by simp only [fetch, hsel]; exact if_pos hph
    refine turnKeeps_of_fetch (begins := beginHufHeader) h hb ?_ fun i hf hbegin => ?_
    · rw [sequencerStep_eq_commandStep hsel, hfetch, commandStep, hufDecStep, hph]
    · cases i with
      | hufHdr total freq => exact turnKeeps_of_instr hb hf hbegin (if_pos hb)
      | _ => exact absurd hbegin not_leaves_foreignPhase
  · by_cases hat : atPayload s = true
    · have hfetch : fetch s = fetchPayload s := by simp only [fetch, hsel, if_neg hph]; exact if_pos hat
      rcases fetchPayload_cases s with ⟨payload, hf, hbytes⟩ | hf
      · exact turnKeeps_of_instr hb (hfetch.trans hf) (execHufPay_leaves h hb hsel hat hbytes) (if_pos hb)
      · exact turnKeeps_of_command h hb hsel (hfetch.trans hf)
    · exact turnKeeps_of_command h hb hsel (by simp only [fetch, hsel, if_neg hph]; exact if_neg hat)

/-- The turn of an encoder, whose places hold no token, is its command. -/
theorem turnKeeps_encoder {i : Instr} (h : Inv s) (hb : s.STATE = .busy) (hsel : selected s = some i)
    (hi : i = .rleEnc ∨ i = .hufEnc ∨ i = .lzEnc) : TurnKeeps s := by
  refine turnKeeps_of_command h hb hsel ?_
  rw [fetch, hsel]
  rcases hi with rfl | rfl | rfl <;> rfl

/-- The turn of every BUSY state of the invariant. -/
theorem turnKeeps_of_busy (h : Inv s) (hb : s.STATE = .busy) : TurnKeeps s := by
  obtain ⟨⟨i, hsel, -⟩, -⟩ := h.counter hb
  rcases isCommand_iff.1 (isCommand_of_selected hsel) with rfl | rfl | rfl | rfl | rfl | rfl
  · exact turnKeeps_encoder h hb hsel (.inl rfl)
  · exact turnKeeps_encoder h hb hsel (.inr (.inl rfl))
  · exact turnKeeps_encoder h hb hsel (.inr (.inr rfl))
  · exact turnKeeps_rleDec h hb hsel
  · exact turnKeeps_hufDec h hb hsel
  · exact turnKeeps_lzDec h hb hsel

/-! ## Faults -/

theorem readsUnwritten_of_turn {f : Fault} (h : Inv s) (hf : turn s = .fault f) : ReadsUnwritten s f := by
  by_cases hb : s.STATE = .busy
  · obtain ⟨x, hturn, hleaves⟩ := turnKeeps_of_busy h hb
    exact hleaves.fails_of_fault (hturn.symm.trans hf)
  · cases (turn_idle hb).symm.trans hf

/-- No move of the host stops the machine. -/
theorem hostMove_next (m : HostMove) (h : Inv s) : ∃ t, hostMove m s = .next t := by
  cases m with
  | readOut j =>
    by_cases hb : s.STATE = .busy
    · exact ⟨_, if_pos hb⟩
    · obtain ⟨b, hanswer, -⟩ := hostReadOut_of_idle j h.output hb
      exact ⟨_, hanswer⟩
  | _ => exact ⟨_, rfl⟩

end Turn

/-- Settles O58: a turn and a pseudocode step stop at an unwritten byte alone, and no move of the host stops. -/
theorem onlyAnUnwrittenByteStops : Obligations.OnlyAnUnwrittenByteStops := by
  unfold Obligations.OnlyAnUnwrittenByteStops
  intro s f h hf
  rcases step_cases s with ⟨hstep, -⟩ | ⟨rest, -, hstep⟩ | ⟨m, rest, -, -, -, hstep⟩ <;> rw [hstep] at hf
  · exact readsUnwritten_of_turn h hf
  · have hrest : Inv { s with host := rest } := h.hostSide ..
    by_cases hb : s.STATE = .busy
    · rw [whileBusy_busy (s := { s with host := rest }) hb] at hf
      exact (sequencerStep_keeps hrest hb).fails_of_fault hf
    · cases (whileBusy_idle (s := { s with host := rest }) hb).symm.trans hf
  · obtain ⟨t, ht⟩ := hostMove_next (s := { s with host := rest }) m (h.hostSide ..)
    cases ht.symm.trans hf

/-! ## Refusals -/

theorem whileBusy_ne_refused (f : State → Flow) (s : State) (r : Refusal) : whileBusy f s ≠ .refused r := by
  unfold whileBusy
  split
  · cases f s <;> nofun
  · nofun

theorem exec_ne_refused (i : Instr) (s : State) (r : Refusal) : exec i s ≠ .refused r := by
  cases i with
  | run count value => rw [exec, execRun]; exact whileBusy_ne_refused _ s r
  | lit b => rw [exec, execLit]; exact whileBusy_ne_refused _ s r
  | matchRef offset length => rw [exec, execMatch]; exact whileBusy_ne_refused _ s r
  | hufHdr total freq => rw [exec, execHufHdr]; exact whileBusy_ne_refused _ s r
  | hufPay payload => rw [exec, execHufPay]; exact whileBusy_ne_refused _ s r
  | _ => rw [exec_eq_runOperation rfl, runOperation]; exact whileBusy_ne_refused _ s r

theorem turn_ne_refused (s : State) (r : Refusal) : turn s ≠ .refused r := by
  unfold turn
  split
  · split
    · exact exec_ne_refused _ s r
    · nofun
    · nofun
  · nofun

theorem hostMove_ne_refused (m : HostMove) (s : State) (r : Refusal) : hostMove m s ≠ .refused r := by
  cases m with
  | readOut j =>
    show hostReadOut j s ≠ .refused r
    unfold hostReadOut
    split
    · nofun
    · split
      · split <;> nofun
      · nofun
  | _ => nofun

/-- Settles O60: every arm of `exec` is pseudocode, and every move of the host answers or faults. -/
theorem nothingIsRefused : Obligations.NothingIsRefused := by
  unfold Obligations.NothingIsRefused
  intro s r
  rcases step_cases s with ⟨hstep, -⟩ | ⟨rest, -, hstep⟩ | ⟨m, rest, -, -, -, hstep⟩ <;> rw [hstep]
  · exact turn_ne_refused s r
  · exact whileBusy_ne_refused _ _ r
  · exact hostMove_ne_refused m _ r

end Sys2Proof.Machine
end

section
/-! # HUF.ENC stops at the first byte never written (20_memory.md R62, 42_huffman_encode.md R161) -/

namespace Sys2Proof.Machine

theorem hufEncStep_freq {s : State} (hph : s.phase = .heFreq) : hufEncStep s = freqStep s := by
  rw [hufEncStep, hph]

/-- A byte of IN is counted in HE_FREQ. -/
theorem hufEncStep_counts {s : State} {b : Byte} (hph : s.phase = .heFreq) (hread : readIn s s.ip.toNat = .ok b) :
    hufEncStep s = .go { s with FREQ := countByte s.FREQ b, ip := s.ip + 1 } := by
  rw [hufEncStep_freq hph, freqStep, if_pos (readIn_ok.1 hread).1, hread, Flow.onRead_ok]

/-- A byte of IN that the host never wrote stops HE_FREQ. -/
theorem hufEncStep_stops {s : State} (hph : s.phase = .heFreq) (hlt : s.ip.toNat < s.IN_LEN.toNat)
    (hnone : s.IN.read s.ip.toNat = none) : hufEncStep s = .stop (.inNeverWritten s.ip.toNat) := by
  rw [hufEncStep_freq hph, freqStep, if_pos hlt, readIn_error.2 (.inl ⟨hlt, hnone, rfl⟩), Flow.onRead_error]

/-- The loop of HE_FREQ reads on to the first byte never written, d bytes from ip, and stops there. -/
theorem freqLoop_stops (d : Nat) : ∀ (n : Nat) (s : State), d < n → s.phase = .heFreq →
    s.ip.toNat + d < s.IN_LEN.toNat → s.IN.read (s.ip.toNat + d) = none →
    (∀ j, j < s.ip.toNat + d → (s.IN.read j).isSome) →
    iterate hufEncStep (fun _ => true) n s = .stop (.inNeverWritten (s.ip.toNat + d)) := by
  induction d with
  | zero =>
    intro n s hn hph hlt hnone _
    obtain ⟨n, rfl⟩ := Nat.exists_eq_succ_of_ne_zero (Nat.ne_of_gt hn)
    rw [iterate_succ, if_pos rfl, hufEncStep_stops hph hlt hnone]
    rfl
  | succ d ih =>
    intro n s hn hph hlt hnone hsome
    obtain ⟨n, rfl⟩ := Nat.exists_eq_succ_of_ne_zero (Nat.ne_zero_of_lt hn)
    obtain ⟨b, hb⟩ := Option.isSome_iff_exists.1 (hsome s.ip.toNat (by omega))
    have hip : (s.ip + 1).toNat + d = s.ip.toNat + (d + 1) := by
      rw [ip_add_one (s := s) (by omega)]
      omega
    rw [iterate_succ, if_pos rfl, hufEncStep_counts hph (readIn_ok.2 ⟨by omega, hb⟩), Flow.bind_go, ← hip]
    rw [← hip] at hlt hnone hsome
    exact ih n _ (by omega) hph hlt hnone hsome

/-- Settles O59: the entry checks pass, and the loop of HE_FREQ runs from index 0. -/
theorem unwrittenByteStopsHufEnc : Obligations.UnwrittenByteStopsHufEnc := by
  unfold Obligations.UnwrittenByteStopsHufEnc
  intro s k hentry hcap hk hnone hsome
  obtain ⟨hbusy, -, -, hph, -, -⟩ := hentry
  have hfirst : hufEncStep s = enterFreq s := by
    rw [hufEncStep, hph]
    dsimp only
    rw [entryChecks, if_neg (by omega), if_neg (by omega)]
  have hloop := freqLoop_stops k (300 * s.IN_LEN.toNat + 1199)
    { s with phase := .heFreq, FREQ := Vector.replicate 256 0, ip := 0 } (by omega) rfl
    (by simpa using hk) (by simpa using hnone) (by simpa using hsome)
  show runOperation hufEncStep s = _
  rw [runOperation, whileBusy_busy hbusy, stepBound,
    show 300 * (s.IN_LEN.toNat + 4) = 300 * s.IN_LEN.toNat + 1199 + 1 by omega, iterate_succ, if_pos rfl, hfirst,
    enterFreq, Flow.bind_go, hloop]
  simp

end Sys2Proof.Machine
end

section
/-! # The bits of a packed payload (20_memory.md R67, 30_encoding.md R97) -/

namespace Sys2Proof.Machine

/-- Bit t of a payload (20_memory.md R67). -/
def bitAt (payload : List Byte) (t : Nat) : Option Bool := (payload[t / 8]?).map fun b => b.getLsbD (7 - t % 8)

theorem bitAt_cons_of_lt {t : Nat} (b : Byte) (payload : List Byte) (ht : t < 8) :
    bitAt (b :: payload) t = some (b.getLsbD (7 - t)) := by
  rw [bitAt, Nat.div_eq_of_lt ht, Nat.mod_eq_of_lt ht]
  rfl

theorem bitAt_cons_add_eight (b : Byte) (payload : List Byte) (t : Nat) :
    bitAt (b :: payload) (t + 8) = bitAt payload t := by
  rw [bitAt, Nat.add_div_right t (by omega), Nat.add_mod_right]
  rfl

/-- The eight bits of a byte, the first of them bit 7. -/
theorem getLsbD_byteOfBits (c0 c1 c2 c3 c4 c5 c6 c7 : Bool) {t : Nat} (ht : t < 8) :
    (Reference.byteOfBits c0 c1 c2 c3 c4 c5 c6 c7).getLsbD (7 - t) = [c0, c1, c2, c3, c4, c5, c6, c7].getD t false := by
  revert c0 c1 c2 c3 c4 c5 c6 c7 t
  decide

/-- A list that does not begin with eight bits is shorter. -/
theorem length_lt_eight {bits : List Bool}
    (h : ∀ c0 c1 c2 c3 c4 c5 c6 c7 rest, bits ≠ c0 :: c1 :: c2 :: c3 :: c4 :: c5 :: c6 :: c7 :: rest) :
    bits.length < 8 := by
  match bits with
  | c0 :: c1 :: c2 :: c3 :: c4 :: c5 :: c6 :: c7 :: rest => exact absurd rfl (h c0 c1 c2 c3 c4 c5 c6 c7 rest)
  | [] | [_] | [_, _] | [_, _, _] | [_, _, _, _] | [_, _, _, _, _] | [_, _, _, _, _, _] | [_, _, _, _, _, _, _] => simp

theorem packed_few {few : List Bool} (hne : few ≠ [])
    (hfew : ∀ c0 c1 c2 c3 c4 c5 c6 c7 rest, few ≠ c0 :: c1 :: c2 :: c3 :: c4 :: c5 :: c6 :: c7 :: rest) :
    Reference.packed few =
      [Reference.byteOfBits (few.getD 0 false) (few.getD 1 false) (few.getD 2 false) (few.getD 3 false)
        (few.getD 4 false) (few.getD 5 false) (few.getD 6 false) (few.getD 7 false)] := by
  rw [Reference.packed] <;> assumption

theorem length_packed (bits : List Bool) : (Reference.packed bits).length = (bits.length + 7) / 8 := by
  induction bits using Reference.packed.induct with
  | case1 => rfl
  | case2 c0 c1 c2 c3 c4 c5 c6 c7 rest ih =>
    simp only [Reference.packed, List.length_cons, ih]
    omega
  | case3 few hne hfew =>
    have hlt := length_lt_eight hfew
    have hpos := List.length_pos_iff.2 hne
    rw [packed_few hne hfew, List.length_singleton]
    omega

/-- Every bit of a packed payload is the stream's, and the bits past its end are 0. -/
theorem bitAt_packed (bits : List Bool) :
    ∀ t, t < 8 * (Reference.packed bits).length → bitAt (Reference.packed bits) t = some (bits.getD t false) := by
  induction bits using Reference.packed.induct with
  | case1 => exact nofun
  | case2 c0 c1 c2 c3 c4 c5 c6 c7 rest ih =>
    intro t ht
    simp only [Reference.packed, List.length_cons] at ht ⊢
    rcases Nat.lt_or_ge t 8 with hlt | hge
    · rw [bitAt_cons_of_lt _ _ hlt, getLsbD_byteOfBits _ _ _ _ _ _ _ _ hlt]
      exact congrArg some (List.getD_append [c0, c1, c2, c3, c4, c5, c6, c7] rest false t hlt).symm
    · obtain ⟨u, rfl⟩ := Nat.exists_eq_add_of_le' hge
      rw [bitAt_cons_add_eight, ih u (by omega)]
      rfl
  | case3 few hne hfew =>
    intro t ht
    rw [packed_few hne hfew] at ht ⊢
    rw [bitAt_cons_of_lt _ _ ht, getLsbD_byteOfBits _ _ _ _ _ _ _ _ ht]
    have hlt : t < 8 := ht
    interval_cases t <;> rfl

/-- Settles O4: bit t of the packed payload is bit t of the stream padded with zeros. -/
theorem payloadBitOrder : Obligations.PayloadBitOrder := by
  unfold Obligations.PayloadBitOrder
  intro bits
  have hlen := length_packed bits
  refine ⟨hlen, fun t ht => ?_, fun t hge ht => ?_⟩
  · refine (bitAt_packed bits t (by omega)).trans ?_
    rw [List.getElem?_eq_getElem ht, List.getD_eq_getElem _ _ ht]
  · refine (bitAt_packed bits t ht).trans ?_
    rw [List.getD_eq_default _ _ hge]

end Sys2Proof.Machine
end

section
/-! # Decode against encode (30_encoding.md): fields, command words and Huffman headers -/

namespace Sys2Proof.Machine

/-! ## Fields, most significant byte first (00_scope.md R12, 30_encoding.md R107) -/

theorem be16_extract (v : BitVec 16) : be16 (v.extractLsb' 8 8) (v.extractLsb' 0 8) = v :=
  (BitVec.extractLsb'_append_extractLsb'_eq_extractLsb' rfl).trans BitVec.extractLsb'_eq_self

theorem halfBytes_be16 (b0 b1 : Byte) : halfBytes (be16 b0 b1) = [b0, b1] := by
  rw [halfBytes, be16, BitVec.extractLsb'_append_eq_left, BitVec.extractLsb'_append_eq_right]

/-- Bytes appended to a field are its last digits in base 256. -/
theorem toNat_append_byte {w : Nat} (v : BitVec w) (b : Byte) : (v ++ b).toNat = v.toNat * 2 ^ 8 + b.toNat := by
  rw [BitVec.toNat_append, ← Nat.shiftLeft_add_eq_or_of_lt b.isLt, Nat.shiftLeft_eq]

theorem toNat_be32 (b0 b1 b2 b3 : Byte) :
    (be32 b0 b1 b2 b3).toNat = b0.toNat * 2 ^ 24 + b1.toNat * 2 ^ 16 + b2.toNat * 2 ^ 8 + b3.toNat := by
  simp only [be32, toNat_append_byte]
  omega

theorem be32_extract (v : Word) :
    be32 (v.extractLsb' 24 8) (v.extractLsb' 16 8) (v.extractLsb' 8 8) (v.extractLsb' 0 8) = v := by
  apply BitVec.eq_of_toNat_eq
  simp only [toNat_be32, BitVec.extractLsb'_toNat, Nat.shiftRight_eq_div_pow]
  omega

theorem wordBytes_be32 (b0 b1 b2 b3 : Byte) : wordBytes (be32 b0 b1 b2 b3) = [b0, b1, b2, b3] := by
  simp only [wordBytes, List.cons.injEq, and_true, ← BitVec.toNat_inj, BitVec.extractLsb'_toNat, toNat_be32,
    Nat.shiftRight_eq_div_pow]
  omega

/-! ## Command words (30_encoding.md R92) -/

/-- Each command has one word, compared whole. -/
theorem decodeCommand_cases {v : Word} {i : Instr} (h : decodeCommand v = .ok i) :
    (v = 0x00000000 ∧ i = .rleEnc) ∨ (v = 0x00000001 ∧ i = .hufEnc) ∨ (v = 0x00000002 ∧ i = .lzEnc) ∨
    (v = 0x00000004 ∧ i = .rleDec) ∨ (v = 0x00000005 ∧ i = .hufDec) ∨ (v = 0x00000006 ∧ i = .lzDec) := by
  unfold decodeCommand at h
  split_ifs at h <;> cases h <;> simp [*]

/-- A decoded command word is the encoding of its command. -/
theorem encode_of_decodeCommand {v : Word} {i : Instr} (h : decodeCommand v = .ok i) :
    streamOf i = .command ∧ encode i = wordBytes v := by
  rcases decodeCommand_cases h with ⟨rfl, rfl⟩ | ⟨rfl, rfl⟩ | ⟨rfl, rfl⟩ | ⟨rfl, rfl⟩ | ⟨rfl, rfl⟩ | ⟨rfl, rfl⟩ <;>
    exact ⟨rfl, rfl⟩

theorem decode_command_wordBytes {v : Word} {i : Instr} (h : decodeCommand v = .ok i) (rest : List Byte) :
    decode .command (wordBytes v ++ rest) = .ok (i, rest) := by
  simp only [wordBytes, List.cons_append, List.nil_append, decode, be32_extract, h]

theorem decodeCommand_of_decode {b0 b1 b2 b3 : Byte} {bytes rest : List Byte} {i : Instr}
    (h : decode .command (b0 :: b1 :: b2 :: b3 :: bytes) = .ok (i, rest)) :
    decodeCommand (be32 b0 b1 b2 b3) = .ok i ∧ bytes = rest := by
  simp only [decode] at h
  split at h
  · rename_i hv
    cases h
    exact ⟨hv, rfl⟩
  · cases h

/-! ## Lists of 32-bit fields, and the Huffman header (30_encoding.md R95) -/

theorem wordsOf_wordBytes_append (v : Word) (bytes : List Byte) :
    wordsOf (wordBytes v ++ bytes) = v :: wordsOf bytes := by
  simp [wordBytes, wordsOf, be32_extract]

theorem wordsOf_flatMap_wordBytes (ws : List Word) : wordsOf (ws.flatMap wordBytes) = ws := by
  induction ws with
  | nil => rfl
  | cons w ws ih => rw [List.flatMap_cons, wordsOf_wordBytes_append, ih]

theorem flatMap_wordBytes_wordsOf {n : Nat} {bytes : List Byte} (h : bytes.length = 4 * n) :
    (wordsOf bytes).flatMap wordBytes = bytes := by
  induction n generalizing bytes with
  | zero => rw [List.length_eq_zero_iff.1 h]; rfl
  | succ n ih =>
    match bytes, h with
    | b0 :: b1 :: b2 :: b3 :: rest, h =>
      rw [wordsOf, List.flatMap_cons, wordBytes_be32, ih (by simpa [Nat.mul_succ] using h)]
      rfl

/-- The bytes of word x are those from 4x on. -/
theorem getElem?_wordsOf {bytes : List Byte} {x : Nat} (h : 4 * x + 4 ≤ bytes.length) :
    (wordsOf bytes)[x]? =
      some (be32 (bytes.getD (4 * x) 0) (bytes.getD (4 * x + 1) 0) (bytes.getD (4 * x + 2) 0)
        (bytes.getD (4 * x + 3) 0)) := by
  induction x generalizing bytes with
  | zero =>
    match bytes, h with
    | b0 :: b1 :: b2 :: b3 :: rest, _ => rfl
  | succ x ih =>
    match bytes, h with
    | b0 :: b1 :: b2 :: b3 :: rest, h => exact ih (by simpa [Nat.mul_succ] using h)

theorem length_wordsOf {n : Nat} {bytes : List Byte} (h : bytes.length = 4 * n) : (wordsOf bytes).length = n := by
  have hlen := congrArg List.length (flatMap_wordBytes_wordsOf h)
  rw [Laws.EncodeLength.length_flatMap_wordBytes] at hlen
  omega

theorem getElem?_tableOf (ws : List Word) {x : Nat} (hx : x < 256) : (tableOf ws)[x]? = some (ws.getD x 0) := by
  simp [tableOf, hx]

theorem toList_tableOf {ws : List Word} (h : ws.length = 256) : (tableOf ws).toList = ws := by
  refine List.ext_getElem (by simp [h]) fun x hx hx' => ?_
  simp [tableOf, hx']

theorem tableOf_toList (freq : FreqTable) : tableOf freq.toList = freq := by
  ext x hx
  simp [tableOf, hx]

/-- The bytes of a Huffman header spell its length field and its frequencies (30_encoding.md R95). -/
structure SpellsHeader (header : List Byte) (total : Word) (freq : List Word) : Prop where
  length : header.length = headerLength
  words : wordsOf header = total :: freq

theorem exists_spellsHeader {header : List Byte} (h : header.length = headerLength) :
    ∃ total freq, SpellsHeader header total freq := by
  obtain ⟨total, freq, hwords⟩ := List.exists_cons_of_length_eq_add_one (length_wordsOf (n := 257) h)
  exact ⟨total, freq, h, hwords⟩

section Header

variable {header : List Byte} {total : Word} {freq : List Word}

theorem SpellsHeader.length_freq (h : SpellsHeader header total freq) : freq.length = 256 := by
  have hlen := length_wordsOf (n := 257) h.length
  simpa [h.words] using hlen

/-- A header is decoded to its words, and what follows it is left over. -/
theorem SpellsHeader.decode_append (h : SpellsHeader header total freq) (rest : List Byte) :
    decode .hufHeader (header ++ rest) = .ok (.hufHdr total (tableOf freq), rest) := by
  have hlong : ¬(header ++ rest).length < headerLength := by simp [h.length]
  simp only [decode, if_neg hlong, List.take_left' h.length, List.drop_left' h.length, h.words]

/-- A header decoded from its words is encoded to its bytes. -/
theorem SpellsHeader.encode_eq (h : SpellsHeader header total freq) :
    encode (.hufHdr total (tableOf freq)) = header := by
  calc encode (.hufHdr total (tableOf freq))
    _ = (total :: freq).flatMap wordBytes := by rw [encode, toList_tableOf h.length_freq, List.flatMap_cons]
    _ = (wordsOf header).flatMap wordBytes := by rw [h.words]
    _ = header := flatMap_wordBytes_wordsOf (n := 257) h.length

end Header

/-- A 32-bit field of a header is its four bytes in order (30_encoding.md R107). -/
theorem toNat_headerWord {bytes : List Byte} {x : Nat} {w : Word} (hx : x < 257)
    (hlen : headerLength ≤ bytes.length) (hw : (wordsOf (bytes.take headerLength))[x]? = some w) :
    w.toNat = (bytes.getD (4 * x) 0).toNat * 2 ^ 24 + (bytes.getD (4 * x + 1) 0).toNat * 2 ^ 16 +
      (bytes.getD (4 * x + 2) 0).toNat * 2 ^ 8 + (bytes.getD (4 * x + 3) 0).toNat := by
  have htake : ∀ j, j < 4 * x + 4 → (bytes.take headerLength).getD j 0 = bytes.getD j 0 := fun j hj => by
    have hj : j < headerLength := by rw [headerLength]; omega
    rw [List.getD_eq_getElem?_getD, List.getElem?_take_of_lt hj, List.getD_eq_getElem?_getD]
  have hfit : 4 * x + 4 ≤ (bytes.take headerLength).length := by
    rw [List.length_take_of_le hlen, headerLength]
    omega
  cases (getElem?_wordsOf hfit).symm.trans hw
  rw [toNat_be32, htake _ (by omega), htake _ (by omega), htake _ (by omega), htake _ (by omega)]

/-! ## Decode against encode -/

theorem decode_encode_command {v : Word} {i : Instr} (h : decodeCommand v = .ok i) (rest : List Byte) :
    decode (streamOf i) (encode i ++ rest) = .ok (i, rest) := by
  obtain ⟨hstream, hencode⟩ := encode_of_decodeCommand h
  rw [hstream, hencode, decode_command_wordBytes h]

theorem decode_encode_matchRef (offset : BitVec 16) (length : Byte) (rest : List Byte) :
    decode .lz (encode (.matchRef offset length) ++ rest) = .ok (.matchRef offset length, rest) := by
  have h : decode .lz (encode (.matchRef offset length) ++ rest) =
      .ok (.matchRef (be16 (offset.extractLsb' 8 8) (offset.extractLsb' 0 8)) length, rest) := rfl
  rwa [be16_extract] at h

theorem decode_encode_hufHdr (total : Word) (freq : FreqTable) (rest : List Byte) :
    decode .hufHeader (encode (.hufHdr total freq) ++ rest) = .ok (.hufHdr total freq, rest) := by
  have hspells : SpellsHeader (encode (.hufHdr total freq)) total freq.toList :=
    ⟨Laws.EncodeLength.hufHdr total freq, by rw [encode, wordsOf_wordBytes_append, wordsOf_flatMap_wordBytes]⟩
  rw [hspells.decode_append, tableOf_toList]

/-- Settles O2: the fields of each format are cut from its bytes where the encoder put them. -/
theorem decodeOfEncode : Obligations.DecodeOfEncode := by
  unfold Obligations.DecodeOfEncode
  intro i rest hwf hpayload
  cases i with
  | rleEnc => exact decode_encode_command (v := 0x00000000) rfl rest
  | hufEnc => exact decode_encode_command (v := 0x00000001) rfl rest
  | lzEnc => exact decode_encode_command (v := 0x00000002) rfl rest
  | rleDec => exact decode_encode_command (v := 0x00000004) rfl rest
  | hufDec => exact decode_encode_command (v := 0x00000005) rfl rest
  | lzDec => exact decode_encode_command (v := 0x00000006) rfl rest
  | run count value => rfl
  | lit b => rfl
  | matchRef offset length => exact decode_encode_matchRef offset length rest
  | hufHdr total freq => exact decode_encode_hufHdr total freq rest
  | hufPay payload =>
    cases hpayload rfl
    cases payload with
    | nil => cases hwf
    | cons b bs => rw [List.append_nil]; rfl

theorem encode_of_decode_command {bytes rest : List Byte} {i : Instr} (h : decode .command bytes = .ok (i, rest)) :
    streamOf i = .command ∧ bytes = encode i ++ rest := by
  match bytes, h with
  | b0 :: b1 :: b2 :: b3 :: rest', h =>
    obtain ⟨hv, rfl⟩ := decodeCommand_of_decode h
    obtain ⟨hstream, hencode⟩ := encode_of_decodeCommand hv
    exact ⟨hstream, by rw [hencode, wordBytes_be32]; rfl⟩

theorem encode_of_decode_lz {bytes rest : List Byte} {i : Instr} (h : decode .lz bytes = .ok (i, rest)) :
    streamOf i = .lz ∧ bytes = encode i ++ rest := by
  match bytes, h with
  | marker :: operands, h =>
    simp only [decode] at h
    split at h
    · rename_i hlit
      match operands, h with
      | b :: rest', h =>
        cases h
        exact ⟨rfl, by rw [hlit]; rfl⟩
    · split at h
      · rename_i hmatch
        match operands, h with
        | hi :: lo :: length :: rest', h =>
          cases h
          exact ⟨rfl, by rw [hmatch, encode, halfBytes_be16]; rfl⟩
      · cases h

theorem encode_of_decode_hufHeader {bytes rest : List Byte} {i : Instr} (h : decode .hufHeader bytes = .ok (i, rest)) :
    streamOf i = .hufHeader ∧ bytes = encode i ++ rest := by
  simp only [decode] at h
  split at h
  · cases h
  · rename_i hlen
    split at h
    · rename_i hwords
      cases h
      have hspells := SpellsHeader.mk (List.length_take_of_le (by omega)) hwords
      exact ⟨rfl, by rw [hspells.encode_eq, List.take_append_drop]⟩
    · cases h

/-- Settles O3: stream by stream, the bytes a decoded field was cut from are the field's bytes. -/
theorem encodeOfDecode : Obligations.EncodeOfDecode := by
  unfold Obligations.EncodeOfDecode
  intro st bytes rest i h
  cases st with
  | command => exact encode_of_decode_command h
  | rle =>
    match bytes, h with
    | count :: value :: rest', h =>
      cases h
      exact ⟨rfl, rfl⟩
  | lz => exact encode_of_decode_lz h
  | hufHeader => exact encode_of_decode_hufHeader h
  | hufPayload =>
    match bytes, h with
    | b :: bs, h =>
      cases h
      exact ⟨rfl, (List.append_nil _).symm⟩

/-- Settles O1: each word is decoded by computation. -/
theorem wordsDecode : Obligations.WordsDecode := by
  unfold Obligations.WordsDecode
  exact ⟨rfl, rfl, rfl, rfl, rfl, rfl, rfl, rfl, rfl, rfl, rfl, rfl⟩

end Sys2Proof.Machine
end

section
/-! # Encodings in the machine: the CMD write, LZ77 tokens that raise, and the Huffman header -/

namespace Sys2Proof.Machine

/-! ## A CMD write of a command word (10_state.md R22, 40_command.md R121, R122) -/

/-- START latches the command that the word decodes to (40_command.md R122). -/
theorem selected_start {v : Word} {i : Instr} (h : decodeCommand v = .ok i) (s : State) :
    selected (start v s) = some i := by
  rcases decodeCommand_cases h with ⟨rfl, rfl⟩ | ⟨rfl, rfl⟩ | ⟨rfl, rfl⟩ | ⟨rfl, rfl⟩ | ⟨rfl, rfl⟩ | ⟨rfl, rfl⟩ <;> rfl

/-- A word that decodes is accepted while STATE is not BUSY (10_state.md R22). -/
theorem accepts_of_decodeCommand {v : Word} {i : Instr} (h : decodeCommand v = .ok i) {s : State}
    (hb : s.STATE ≠ .busy) : accepts s v = true := by
  refine accepts_iff.2 ⟨hb, ?_⟩
  rcases decodeCommand_cases h with ⟨rfl, -⟩ | ⟨rfl, -⟩ | ⟨rfl, -⟩ | ⟨rfl, -⟩ | ⟨rfl, -⟩ | ⟨rfl, -⟩ <;> decide

/-- At an operation's entry the program counter stands at no token. -/
theorem fetchPoint_of_pEntry {s : State} (h : s.phase = .pEntry) : fetchPoint s = none := by
  refine Option.eq_none_iff_forall_ne_some.2 fun ⟨st, k⟩ hpoint => ?_
  rcases fetchPoint_cases hpoint with ⟨-, hph, -⟩ | ⟨-, hph, -⟩ | ⟨-, hph, -⟩ | ⟨-, hph, -⟩ <;>
    cases h.symm.trans hph

/-- Settles O13: the write is START (O8), and at the entry the turn is the latched command (O15). -/
theorem commandStarts : Obligations.CommandStarts := by
  unfold Obligations.CommandStarts
  intro s v i rest hb hhost hdecode
  have hv : decodeCommand v = .ok i := be32_extract v ▸ (decodeCommand_of_decode hdecode).1
  have hstart : step s = .next (start v { s with host := rest }) :=
    (registerWrites s 0 v rest hhost).trans (congrArg _ (if_pos ⟨rfl, accepts_iff.1 (accepts_of_decodeCommand hv hb)⟩))
  have hsel := selected_start hv { s with host := rest }
  exact ⟨_, hstart, ⟨rfl, rfl, rfl, rfl, rfl, rfl⟩, hsel, rfl,
    fun hw => stepRunsTheLatchedCommand _ i rfl hw hsel (.inl (fetchPoint_of_pEntry rfl))⟩

/-! ## LZ77 tokens that raise (45_lz77_decode.md R221) -/

theorem lzTokenLength_cases {m : Byte} {n : Nat} (h : lzTokenLength m = some n) :
    (m = 0 ∧ n = 2) ∨ (m = 1 ∧ n = 4) := by
  unfold lzTokenLength at h
  split_ifs at h with h0 h1
  · exact .inl ⟨h0, (Option.some.inj h).symm⟩
  · exact .inr ⟨h1, (Option.some.inj h).symm⟩

/-- A marker that gives no length, or one past IN_LEN, raises without a look at the operands. -/
theorem fetchLz_raises {s : State} {m : Byte} (hread : readIn s s.ip.toNat = .ok m)
    (hbad : ∀ n, lzTokenLength m = some n → s.IN_LEN.toNat < s.ip.toNat + n) : fetchLz s = .raises .invalidInput := by
  simp only [fetchLz, hread]
  cases hlength : lzTokenLength m with
  | none => rfl
  | some n => exact if_pos (hbad n hlength)

/-- Settles O16: the marker is read, its length does not fit, and the turn takes the error. -/
theorem badLzTokenRaises : Obligations.BadLzTokenRaises := by
  unfold Obligations.BadLzTokenRaises
  intro s k m hb hw hpoint hlt hread hbad
  obtain ⟨hsel, hph, rfl⟩ : selected s = some .lzDec ∧ s.phase = .ldToken ∧ k = s.ip.toNat := by
    rcases fetchPoint_cases hpoint with ⟨-, -, hst, -⟩ | ⟨hsel, hph, -, hk⟩ | ⟨-, -, hst, -⟩ | ⟨-, -, -, hst, -⟩
    · cases hst
    · exact ⟨hsel, hph, hk⟩
    · cases hst
    · cases hst
  have hraises : fetchLz s = .raises .invalidInput := by
    refine fetchLz_raises (readIn_ok.2 ⟨hlt, hread⟩) fun n hn => ?_
    rcases lzTokenLength_cases hn with ⟨rfl, rfl⟩ | ⟨rfl, rfl⟩ <;> simpa using hbad
  have hfetch : fetch s = .raises .invalidInput := by
    simp only [fetch, hsel]
    rw [if_pos ⟨hph, hlt⟩, hraises]
  exact (step_of_hostWaits hb hw).trans (turn_of_raises hb hfetch)

/-! ## The header at HD_HDR (43_huffman_decode.md R181) -/

theorem sequencerStep_hdHdr {s : State} (hsel : selected s = some .hufDec) (hph : s.phase = .hdHdr) :
    sequencerStep s = (fetchHeader s).run beginHufHeader s := by
  simp only [sequencerStep, hsel, hufDecStep, hph]

/-- The header is fetched from the first 1028 bytes of an input, whatever follows. -/
theorem fetchHeader_of_input {s : State} {input : List Byte} {total : Word} {freq : List Word}
    (hinput : InputIs s input) (hspells : SpellsHeader (input.take headerLength) total freq) :
    fetchHeader s = .instr (.hufHdr total (tableOf freq)) := by
  obtain ⟨hlen, hread⟩ := hinput
  have hheader := hspells.length
  have hlong : headerLength ≤ input.length := by rw [List.length_take] at hheader; omega
  have hstands : StandsAt s (input.take headerLength) 0 := by
    refine ⟨by omega, fun j hj => ?_⟩
    rw [Nat.zero_add, hread j (by omega), List.getElem?_take_of_lt (by omega)]
  have hreads : readIns s 0 headerLength = .ok (input.take headerLength) := by
    simpa only [hheader] using hstands.readIns
  have hdecode := hspells.decode_append []
  rw [List.append_nil] at hdecode
  rw [fetchHeader, if_neg (by omega), hreads, fetchedFrom, hdecode]

/-- Settles O39: a short buffer raises, and the words of the first 1028 bytes are the fields. -/
theorem headerIsLoaded : Obligations.HeaderIsLoaded := by
  unfold Obligations.HeaderIsLoaded
  intro s hb hsel hph
  rw [sequencerStep_hdHdr hsel hph]
  refine ⟨fun hshort => by rw [fetchHeader, headerLength, if_pos hshort]; rfl, fun b hinput hlong => ?_⟩
  obtain ⟨total, freq, hspells⟩ := exists_spellsHeader (List.length_take_of_le (l := b) hlong)
  refine ⟨total, tableOf freq, ?_, ?_, fun x hx => ⟨freq.getD x 0, getElem?_tableOf freq hx, ?_⟩⟩
  · rw [fetchHeader_of_input hinput hspells, Fetched.run, beginHufHeader]
  · exact toNat_headerWord (x := 0) (by omega) hlong (by rw [hspells.words]; rfl)
  · have hword : (wordsOf (b.take headerLength))[x + 1]? = some (freq.getD x 0) := by
      have hfreq : x < freq.length := by rw [hspells.length_freq]; exact hx
      rw [hspells.words, List.getElem?_cons_succ, List.getElem?_eq_getElem hfreq, List.getD_eq_getElem _ _ hfreq]
    have hbytes : 4 * (x + 1) = 4 + 4 * x ∧ 4 * (x + 1) + 1 = 5 + 4 * x ∧ 4 * (x + 1) + 2 = 6 + 4 * x ∧
        4 * (x + 1) + 3 = 7 + 4 * x := by omega
    obtain ⟨h4, h5, h6, h7⟩ := hbytes
    have hfield := toNat_headerWord (by omega) hlong hword
    rwa [h5, h6, h7, h4] at hfield

end Sys2Proof.Machine
end

section
/-! # How a command runs: its end, its frame, and the two grains of a step (40_command.md R123 to R130) -/

namespace Sys2Proof.Machine

/-! ## Running to the end -/

/-- Within n steps the operation comes to its end, in a state of Q. -/
def EndsWithin (f : State → Flow) (Q : State → Prop) (n : Nat) (s : State) : Prop :=
  ∃ t, iterate f (fun _ => true) n s = .ended t ∧ Q t

/-- An operation that has ended takes no more steps. -/
theorem iterate_ended_mono {f : State → Flow} {again : State → Bool} {t : State} {m n : Nat} (hmn : m ≤ n) {s : State}
    (h : iterate f again m s = .ended t) : iterate f again n s = .ended t := by
  induction m generalizing n s with
  | zero => cases h
  | succ m ih =>
    obtain ⟨n, rfl⟩ := Nat.exists_eq_add_of_le' (Nat.lt_of_lt_of_le (Nat.succ_pos m) hmn)
    rw [iterate_succ] at h ⊢
    split at h
    · rw [if_pos ‹_›]
      cases hf : f s with
      | go u => rw [hf] at h; exact ih (by omega) h
      | ended u => rw [hf] at h; exact h
      | stop e => rw [hf] at h; cases h
    · cases h

section EndsWithin
variable {f : State → Flow} {Q Q' : State → Prop} {m n : Nat} {s : State}

theorem EndsWithin.more (h : EndsWithin f Q m s) (hmn : m ≤ n) : EndsWithin f Q n s := by
  obtain ⟨t, ht, hQ⟩ := h
  exact ⟨t, iterate_ended_mono hmn ht, hQ⟩

theorem EndsWithin.mono (h : EndsWithin f Q n s) (hQ : ∀ t, Q t → Q' t) : EndsWithin f Q' n s := by
  obtain ⟨t, ht, hq⟩ := h
  exact ⟨t, ht, hQ t hq⟩

/-- One step, which ends the operation or leaves it n steps from its end. -/
theorem endsWithin_of_step (h : (f s).Leaves (EndsWithin f Q n) Q fun _ => False) : EndsWithin f Q (n + 1) s := by
  unfold EndsWithin
  rw [iterate_succ, if_pos rfl]
  cases hf : f s with
  | go u => rw [hf] at h; exact h
  | ended u => rw [hf] at h; exact ⟨u, rfl, h⟩
  | stop e => rw [hf] at h; exact h.elim

/-- A command that ends within the bound of one turn answers its end. -/
theorem exec_of_endsWithin {i : Instr} (hcommand : isCommand i = true) (hbusy : s.STATE = .busy)
    (h : EndsWithin (commandStep i) Q n s) (hn : n ≤ stepBound s) : ∃ t, exec i s = .next t ∧ Q t := by
  obtain ⟨t, ht, hQ⟩ := h.more hn
  refine ⟨t, ?_, hQ⟩
  rw [exec_eq_runOperation hcommand, runOperation, whileBusy_busy hbusy, ht]
  rfl

/-- A command whose first step ends it answers that end. -/
theorem exec_of_first_step_ends {i : Instr} {t : State} (hcommand : isCommand i = true) (hbusy : s.STATE = .busy)
    (h : commandStep i s = .ended t) : exec i s = .next t := by
  obtain ⟨u, hu, rfl⟩ := exec_of_endsWithin (Q := (· = t)) (n := 1) hcommand hbusy
    (endsWithin_of_step (by rw [h]; rfl)) (by unfold stepBound; omega)
  exact hu

end EndsWithin

/-- Settles O20: the first step of each command is the entry checks. -/
theorem entryChecks_inOrder : Obligations.EntryChecks := by
  unfold Obligations.EntryChecks
  intro i s hcommand hbusy hphase
  obtain ⟨first, hfirst⟩ := commandStep_at_entry hcommand hphase
  refine ⟨fun hempty => ?_, fun hne hover => ?_⟩ <;> refine exec_of_first_step_ends hcommand hbusy ?_ <;>
    rw [hfirst, Machine.entryChecks]
  · rw [if_pos (by simp [hempty])]
    rfl
  · rw [if_neg fun h : s.IN_LEN.toNat = 0 => hne (BitVec.eq_of_toNat_eq h), if_pos hover]
    rfl

/-- Settles O55: each step of a state of the invariant takes the measure `stepsLeft` down, which starts below the bound. -/
theorem everyOperationEnds : Obligations.EveryOperationEnds := by
  unfold Obligations.EveryOperationEnds
  intro s i hinv hbusy hsel
  have hends := command_ends hinv hbusy hsel
  rw [exec_eq_runOperation (isCommand_of_selected hsel), runOperation, whileBusy_busy hbusy]
  cases hrun : iterate (commandStep i) (fun _ => true) (stepBound s) s with
  | go t => rw [hrun] at hends; exact hends.elim
  | ended t => rw [hrun] at hends; exact .inl ⟨t, rfl, hends.2⟩
  | stop f =>
    rw [hrun] at hends
    obtain ⟨k, rfl, hlt, hnone⟩ := hends
    exact .inr ⟨k, rfl, hlt, hnone⟩

/-! ## The frame of a command -/

/-- A state without STATUS and OUT_LEN. -/
def State.hideStatus (s : State) : State := { s with STATE := .idle, ERR := .noError, OUT_LEN := 0 }

/-- A state without what a command works on: the program counter, the output under construction and the registers of its
engine. What is left no step of the command changes. -/
def frameOf (i : Instr) (s : State) : State :=
  match i with
  | .rleEnc | .rleDec => { s with phase := .pEntry, ip := 0, op := 0, OUT := [], cur := 0, cnt := 0 }
  | .hufEnc =>
    { s with
      phase := .pEntry, ip := 0, op := 0, OUT := [], FREQ := State.reset.FREQ, NODE := State.reset.NODE, ROOT := 0, K := 0,
      ACTIVE := 0, CODE := State.reset.CODE, LEN := State.reset.LEN, acc := 0, nbits := 0 }
  | .hufDec =>
    { s with
      phase := .pEntry, ip := 0, op := 0, OUT := [], FREQ := State.reset.FREQ, NODE := State.reset.NODE, ROOT := 0, K := 0,
      ACTIVE := 0, N := 0, node := 0, bitpos := 0, fsum := 0 }
  | .lzEnc => { s with phase := .pEntry, ip := 0, op := 0, OUT := [], o := 0, k := 0, best := 0, boff := 0 }
  | .lzDec =>
    { s with phase := .pEntry, ip := 0, op := 0, OUT := [], cnt := 0, WIN := [], wp := 0, off := 0, len := 0 }
  | _ => s

/-- A part of the state that the shared operations leave alone, but for STATUS and OUT_LEN at an end. -/
structure IsFrame (part : State → State) : Prop where
  emitted : ∀ s out op, part { s with OUT := out, op := op } = part s
  raised : ∀ s e, (part { s with ERR := e, STATE := .error }).hideStatus = (part s).hideStatus
  completed : ∀ s, (part { s with OUT_LEN := s.op, STATE := .done }).hideStatus = (part s).hideStatus

theorem isFrame_frameOf {i : Instr} (h : isCommand i = true) : IsFrame (frameOf i) := by
  rcases isCommand_iff.1 h with rfl | rfl | rfl | rfl | rfl | rfl <;>
    exact ⟨fun _ _ _ => rfl, fun _ _ => rfl, fun _ => rfl⟩

/-- A piece of pseudocode leaves a part of the state as it is in s, but for STATUS and OUT_LEN where it ends the operation. -/
abbrev Flow.Frames (part : State → State) (s : State) (x : Flow) : Prop :=
  x.Leaves (fun t => part t = part s) (fun t => (part t).hideStatus = (part s).hideStatus) fun _ => True

section Frames
variable {part : State → State} {s : State}

theorem Flow.Frames.bind {x : Flow} {f : State → Flow} (hx : x.Frames part s) (hf : ∀ t, (f t).Frames part t) :
    (x.bind f).Frames part s :=
  Flow.Leaves.bind hx fun t ht =>
    Flow.Leaves.mono (hf t) (fun _ h => h.trans ht) (fun _ h => h.trans (congrArg State.hideStatus ht)) fun _ h => h

theorem Flow.Frames.ite {c : Prop} [Decidable c] {x y : Flow} (hx : x.Frames part s) (hy : y.Frames part s) :
    (if c then x else y).Frames part s := by
  by_cases h : c
  · rw [if_pos h]; exact hx
  · rw [if_neg h]; exact hy

theorem Flow.Frames.onRead {α : Type} {x : Except Fault α} {f : α → Flow} (hf : ∀ v, (f v).Frames part s) :
    (Flow.onRead x f).Frames part s := Flow.Leaves.onRead (fun v _ => hf v) fun _ _ => trivial

theorem Flow.Frames.run {x : Fetched} {begins : Instr → State → Flow} (hpart : IsFrame part)
    (hbegins : ∀ i, (begins i s).Frames part s) : (x.run begins s).Frames part s := by
  cases x with
  | instr i => exact hbegins i
  | raises e => exact hpart.raised s e
  | fails f => trivial

theorem IsFrame.emit (h : IsFrame part) (v : Byte) (s : State) : (emit v s).Frames part s :=
  Flow.Frames.ite (h.raised s _) (h.emitted s _ _)

theorem IsFrame.emitAll (h : IsFrame part) (vs : List Byte) (s : State) : (emitAll vs s).Frames part s := by
  induction vs generalizing s with
  | nil => exact rfl
  | cons v vs ih => exact (h.emit v s).bind ih

theorem IsFrame.entryChecks (h : IsFrame part) {first : State → Flow} (hfirst : (first s).Frames part s) :
    (entryChecks first s).Frames part s :=
  Flow.Frames.ite (h.raised s _) (Flow.Frames.ite (h.raised s _) hfirst)

/-- What every step leaves alone, the steps together do. -/
theorem iterate_frames {f : State → Flow} (hf : ∀ t, (f t).Frames part t) (n : Nat) (s : State) :
    (iterate f (fun _ => true) n s).Frames part s := by
  induction n generalizing s with
  | zero => exact rfl
  | succ n ih =>
    rw [iterate_succ, if_pos rfl]
    exact (hf s).bind ih

end Frames

/-! ### Each step of each command -/

theorem flushRun_frames (s : State) : (flushRun s).Frames (frameOf .rleEnc) s :=
  Flow.Frames.ite ((isFrame_frameOf rfl).emitAll _ s) rfl

theorem rleEncStep_frames (s : State) : (rleEncStep s).Frames (frameOf .rleEnc) s := by
  have hpart : IsFrame (frameOf .rleEnc) := isFrame_frameOf rfl
  unfold rleEncStep
  split
  · exact hpart.entryChecks (Flow.Frames.onRead fun b => rfl)
  · refine Flow.Frames.ite (Flow.Frames.onRead fun b => ?_) rfl
    refine Flow.Frames.bind (Flow.Frames.ite (Flow.Frames.ite ?_ rfl) ?_) fun t => rfl
    · exact (hpart.emitAll _ s).bind fun t => rfl
    · exact (flushRun_frames s).bind fun t => rfl
  · exact (flushRun_frames s).bind fun t => hpart.completed t
  · trivial

theorem rleDecStep_frames (s : State) : (rleDecStep s).Frames (frameOf .rleDec) s := by
  have hpart : IsFrame (frameOf .rleDec) := isFrame_frameOf rfl
  unfold rleDecStep
  split
  · exact hpart.entryChecks rfl
  · exact Flow.Frames.ite (hpart.raised s _) rfl
  · refine Flow.Frames.ite (Flow.Frames.run hpart fun i => ?_) (hpart.completed s)
    cases i with
    | run count value => exact rfl
    | _ => trivial
  · exact Flow.Frames.ite ((hpart.emit _ s).bind fun t => Flow.Frames.ite rfl rfl) rfl
  · trivial

theorem packBits_frames (bits : List Bool) (s : State) : (packBits bits s).Frames (frameOf .hufEnc) s := by
  induction bits generalizing s with
  | nil => exact rfl
  | cons c cs ih =>
    refine Flow.Frames.bind (Flow.Frames.ite ?_ rfl) ih
    exact ((isFrame_frameOf rfl).emit _ _).bind fun t => rfl

theorem buildTree_frames {i : Instr} (hi : i = .hufEnc ∨ i = .hufDec) (s : State) :
    (buildTree s).Frames (frameOf i) s := by
  unfold buildTree
  split
  · trivial
  · rcases hi with rfl | rfl <;> exact rfl

theorem hufEncStep_frames (s : State) : (hufEncStep s).Frames (frameOf .hufEnc) s := by
  have hpart : IsFrame (frameOf .hufEnc) := isFrame_frameOf rfl
  unfold hufEncStep
  split
  · exact hpart.entryChecks rfl
  · exact Flow.Frames.ite (Flow.Frames.onRead fun b => rfl) rfl
  · exact (buildTree_frames (.inl rfl) s).bind fun t => rfl
  · exact (hpart.emitAll _ s).bind fun t => rfl
  · exact rfl
  · exact Flow.Frames.ite (Flow.Frames.onRead fun b => (packBits_frames _ s).bind fun t => rfl) rfl
  · refine Flow.Frames.bind (Flow.Frames.ite (hpart.emit _ s) ?_) fun t => hpart.completed t
    exact rfl
  · trivial

theorem beginHeader_frames (total : Word) (freq : FreqTable) (s : State) :
    (beginHeader total freq s).Frames (frameOf .hufDec) s :=
  Flow.Frames.ite rfl (Flow.Frames.ite rfl rfl)

theorem walkBit_frames (c : Bool) (s : State) : (walkBit c s).Frames (frameOf .hufDec) s := by
  unfold walkBit
  split
  · trivial
  · refine Flow.Frames.ite rfl (Flow.Frames.ite ?_ rfl)
    exact ((isFrame_frameOf (i := .hufDec) rfl).emit _ _).bind fun t => rfl

theorem hufDecStep_frames (s : State) : (hufDecStep s).Frames (frameOf .hufDec) s := by
  have hpart : IsFrame (frameOf .hufDec) := isFrame_frameOf rfl
  unfold hufDecStep
  split
  · exact hpart.entryChecks rfl
  · refine Flow.Frames.run hpart fun i => ?_
    cases i with
    | hufHdr total freq => exact beginHeader_frames total freq s
    | _ => trivial
  · exact Flow.Frames.ite (hpart.raised s _) ((buildTree_frames (.inr rfl) s).bind fun t => rfl)
  · exact Flow.Frames.ite
      (Flow.Frames.ite (hpart.raised s _) (Flow.Frames.onRead fun c => walkBit_frames c s)) (hpart.completed s)
  · trivial

theorem searchOver_frames (os : List Nat) (s : State) : (searchOver os s).Frames (frameOf .lzEnc) s := by
  induction os generalizing s with
  | nil => exact rfl
  | cons o os ih =>
    refine Flow.Frames.onRead fun k => ?_
    have hcandidate : (Flow.go (candidate o k s)).Frames (frameOf .lzEnc) s := by
      unfold candidate
      split <;> exact rfl
    exact hcandidate.bind ih

theorem lzEncStep_frames (s : State) : (lzEncStep s).Frames (frameOf .lzEnc) s := by
  have hpart : IsFrame (frameOf .lzEnc) := isFrame_frameOf rfl
  unfold lzEncStep
  split
  · exact hpart.entryChecks rfl
  · exact Flow.Frames.ite ((searchOver_frames _ { s with best := 0, boff := 0 }).bind fun _ => rfl) (hpart.completed s)
  · exact Flow.Frames.ite ((hpart.emitAll _ s).bind fun t => rfl)
      (Flow.Frames.onRead fun b => (hpart.emitAll _ s).bind fun t => rfl)
  · trivial

theorem append_frames (v : Byte) (s : State) : (append v s).Frames (frameOf .lzDec) s :=
  ((isFrame_frameOf rfl).emit v s).bind fun _ => rfl

theorem copyStep_frames (s : State) : (copyStep s).Frames (frameOf .lzDec) s := by
  refine Flow.Frames.ite ?_ rfl
  split
  · trivial
  · exact (append_frames _ s).bind fun t => Flow.Frames.ite rfl rfl

theorem lzDecStep_frames (s : State) : (lzDecStep s).Frames (frameOf .lzDec) s := by
  have hpart : IsFrame (frameOf .lzDec) := isFrame_frameOf rfl
  unfold lzDecStep
  split
  · exact hpart.entryChecks rfl
  · refine Flow.Frames.ite (Flow.Frames.run hpart fun i => ?_) (hpart.completed s)
    cases i with
    | lit b => exact (append_frames b s).bind fun t => rfl
    | matchRef offset length => exact Flow.Frames.ite rfl (Flow.Frames.ite rfl (Flow.Frames.ite rfl rfl))
    | _ => trivial
  · exact copyStep_frames s
  · trivial

theorem commandStep_frames (i : Instr) (s : State) : (commandStep i s).Frames (frameOf i) s := by
  cases i with
  | rleEnc => exact rleEncStep_frames s
  | hufEnc => exact hufEncStep_frames s
  | lzEnc => exact lzEncStep_frames s
  | rleDec => exact rleDecStep_frames s
  | hufDec => exact hufDecStep_frames s
  | lzDec => exact lzDecStep_frames s
  | _ => trivial

/-! ### The whole command -/

/-- A command run to its end leaves its frame as it was, but for STATUS and OUT_LEN. -/
theorem exec_frame {i : Instr} {s t : State} (hcommand : isCommand i = true) (h : exec i s = .next t) :
    (frameOf i t).hideStatus = (frameOf i s).hideStatus := by
  rw [exec_eq_runOperation hcommand, runOperation] at h
  by_cases hbusy : s.STATE = .busy
  · rw [whileBusy_busy hbusy] at h
    have hrun := iterate_frames (commandStep_frames i) (stepBound s) s
    rcases hrun.outcome with ⟨u, hu, hframe⟩ | ⟨e, he, -⟩
    · cases hu.symm.trans h
      exact hframe.elim (congrArg State.hideStatus) id
    · cases he.symm.trans h
  · rw [whileBusy_idle hbusy] at h
    cases h
    rfl

/-- A command keeps the host's side. -/
theorem exec_hostSideKept {i : Instr} {s t : State} (hcommand : isCommand i = true) (h : exec i s = .next t) :
    HostSideKept s t := by
  have hframe := exec_frame hcommand h
  rcases isCommand_iff.1 hcommand with rfl | rfl | rfl | rfl | rfl | rfl <;>
    exact ⟨(congrArg State.cfg hframe :), (congrArg State.IN hframe :), (congrArg State.IN_LEN hframe :),
      (congrArg State.ALG hframe :), (congrArg State.DIR hframe :), (congrArg State.host hframe :),
      (congrArg State.replies hframe :), (congrArg State.freeCtr hframe :)⟩

/-- The commands of the other engines keep the RLE engine's registers; LZ.DEC shares cnt with it. -/
theorem exec_rleKept {i : Instr} {s t : State} (hi : i = .hufEnc ∨ i = .hufDec ∨ i = .lzEnc) (h : exec i s = .next t) :
    RleKept s t := by
  have hframe := exec_frame (i := i) (by rcases hi with rfl | rfl | rfl <;> rfl) h
  rcases hi with rfl | rfl | rfl <;> exact ⟨(congrArg State.cur hframe :), (congrArg State.cnt hframe :)⟩

/-- The commands of the other engines keep the Huffman tables. -/
theorem exec_treeKept {i : Instr} {s t : State} (hi : i = .rleEnc ∨ i = .rleDec ∨ i = .lzEnc ∨ i = .lzDec)
    (h : exec i s = .next t) : TreeKept s t := by
  have hframe := exec_frame (i := i) (by rcases hi with rfl | rfl | rfl | rfl <;> rfl) h
  rcases hi with rfl | rfl | rfl | rfl <;>
    exact ⟨(congrArg State.FREQ hframe :), (congrArg State.NODE hframe :), (congrArg State.ROOT hframe :),
      (congrArg State.K hframe :), (congrArg State.ACTIVE hframe :)⟩

section Kept
variable {i : Instr} {s t : State} (hcommand : isCommand i = true) (h : exec i s = .next t)
include hcommand h

theorem exec_packerKept (hi : i ≠ .hufEnc) : PackerKept s t := by
  have hframe := exec_frame hcommand h
  cases i with
  | hufEnc => exact absurd rfl hi
  | _ =>
    exact ⟨(congrArg State.CODE hframe :), (congrArg State.LEN hframe :), (congrArg State.acc hframe :),
      (congrArg State.nbits hframe :)⟩

theorem exec_walkKept (hi : i ≠ .hufDec) : WalkKept s t := by
  have hframe := exec_frame hcommand h
  cases i with
  | hufDec => exact absurd rfl hi
  | _ =>
    exact ⟨(congrArg State.N hframe :), (congrArg State.node hframe :), (congrArg State.bitpos hframe :),
      (congrArg State.fsum hframe :)⟩

theorem exec_matcherKept (hi : i ≠ .lzEnc) : MatcherKept s t := by
  have hframe := exec_frame hcommand h
  cases i with
  | lzEnc => exact absurd rfl hi
  | _ =>
    exact ⟨(congrArg State.o hframe :), (congrArg State.k hframe :), (congrArg State.best hframe :),
      (congrArg State.boff hframe :)⟩

theorem exec_windowKept (hi : i ≠ .lzDec) : WindowKept s t := by
  have hframe := exec_frame hcommand h
  cases i with
  | lzDec => exact absurd rfl hi
  | _ =>
    exact ⟨(congrArg State.WIN hframe :), (congrArg State.wp hframe :), (congrArg State.off hframe :),
      (congrArg State.len hframe :)⟩

end Kept

/-- A step of a command that goes on leaves STATE and IN_LEN. -/
theorem commandStep_go {i : Instr} {s u : State} (hcommand : isCommand i = true) (h : commandStep i s = .go u) :
    u.STATE = s.STATE ∧ u.IN_LEN = s.IN_LEN := by
  have hframe : frameOf i u = frameOf i s := by
    have hstep := commandStep_frames i s
    rwa [h] at hstep
  rcases isCommand_iff.1 hcommand with rfl | rfl | rfl | rfl | rfl | rfl <;>
    exact ⟨(congrArg State.STATE hframe :), (congrArg State.IN_LEN hframe :)⟩

/-- Steps of a command that all go on leave a BUSY machine BUSY. -/
theorem iterate_busy {i : Instr} {s u : State} (hcommand : isCommand i = true) (hbusy : s.STATE = .busy) (n : Nat)
    (h : iterate (commandStep i) (fun _ => true) n s = .go u) : u.STATE = .busy := by
  have hkeeps := iterate_leaves (p := fun s => s.STATE = .busy) (q := fun _ => True) (r := fun _ => True)
    (f := commandStep i) (again := fun _ => true) (fun s hs _ => by
      cases hstep : commandStep i s with
      | go t => exact (commandStep_go hcommand hstep).1.trans hs
      | ended t => trivial
      | stop e => trivial) n s hbusy
  rwa [h] at hkeeps

/-- Settles O18: the steps that are left after the first come to the same end, and one more changes nothing. -/
theorem grainDoesNotMatter : Obligations.GrainDoesNotMatter := by
  unfold Obligations.GrainDoesNotMatter
  intro s u t i hbusy hsel hstep hexec hended
  have hcommand := isCommand_of_selected hsel
  rw [sequencerStep_eq_commandStep hsel] at hstep
  obtain ⟨hstate, hlen⟩ := commandStep_go hcommand hstep
  have hubusy : u.STATE = .busy := hstate.trans hbusy
  have hbound : stepBound s = 300 * s.IN_LEN.toNat + 1199 + 1 := by unfold stepBound; omega
  have hbound' : stepBound u = stepBound s := by rw [stepBound, stepBound, hlen]
  rw [exec_eq_runOperation hcommand, runOperation, whileBusy_busy hbusy, hbound, iterate_succ, if_pos rfl, hstep,
    Flow.bind_go] at hexec
  rw [exec_eq_runOperation hcommand, runOperation, whileBusy_busy hubusy, hbound']
  cases hrun : iterate (commandStep i) (fun _ => true) (300 * s.IN_LEN.toNat + 1199) u with
  | go v =>
    rw [hrun] at hexec
    cases hexec
    exact absurd (iterate_busy hcommand hubusy _ hrun) hended
  | ended v =>
    rw [hrun] at hexec
    rw [iterate_ended_mono (by omega) hrun]
    exact hexec
  | stop e =>
    rw [hrun] at hexec
    cases hexec

end Sys2Proof.Machine
end

section
/-! # An operation and the output it has emitted so far (40_command.md R125 to R127) -/

namespace Sys2Proof.Machine

/-- The operation begun in s0 is running, and has emitted the given bytes: they are in OUT from cell 0 on, and every cell past
them is as it was. -/
structure Working (s0 : State) (out : List Byte) (s : State) : Prop where
  cfg : s.cfg = s0.cfg
  input : s.IN = s0.IN ∧ s.IN_LEN = s0.IN_LEN
  status : s.STATE = .busy ∧ s.ERR = .noError ∧ s.OUT_LEN = 0
  op : s.op.toNat = out.length
  fits : out.length ≤ s0.cfg.OUT_CAP
  canonical : s.OUT.wf
  emitted : ∀ j, j < out.length → s.OUT.read j = out[j]?
  beyond : ∀ j, out.length ≤ j → s.OUT.read j = s0.OUT.read j

/-- OUT was full before the whole of an output was emitted. -/
def Overflows (s0 : State) (whole : List Byte) (t : State) : Prop :=
  EndsRaised s0 t .capacityOverflow ∧ s0.cfg.OUT_CAP < whole.length

section Working
variable {s0 s : State} {out vs whole : List Byte}

/-- An operation at its entry has emitted nothing. -/
theorem AtEntry.working (h : AtEntry s) (hout : s.OUT.wf) : Working s [] s := by
  obtain ⟨hstate, herr, hlen, -, -, hop⟩ := h
  exact ⟨rfl, ⟨rfl, rfl⟩, ⟨hstate, herr, hlen⟩, by simp [hop], Nat.zero_le _, hout, nofun, fun _ _ => rfl⟩

theorem AtEntry.phase_eq (h : AtEntry s) : s.phase = .pEntry := by
  obtain ⟨-, -, -, hphase, -, -⟩ := h
  exact hphase

/-- Updates of other registers do not matter. -/
theorem Working.set {t : State} (h : Working s0 out s) (ht : t.shared = s.shared := by rfl) : Working s0 out t := by
  simp only [State.shared, Shared.mk.injEq] at ht
  obtain ⟨hcfg, hSTATE, hERR, hIN_LEN, hOUT_LEN, hop, hIN, hOUT, -⟩ := ht
  constructor
  · rw [hcfg]; exact h.cfg
  · rw [hIN, hIN_LEN]; exact h.input
  · rw [hSTATE, hERR, hOUT_LEN]; exact h.status
  · rw [hop]; exact h.op
  · exact h.fits
  · rw [hOUT]; exact h.canonical
  · rw [hOUT]; exact h.emitted
  · rw [hOUT]; exact h.beyond

/-- Where OUT has room, op does not wrap (30_encoding.md R108). -/
theorem toNat_op_succ (hc : s.cfg.wf) (hroom : s.op.toNat < s.cfg.OUT_CAP) : (s.op + 1).toNat = s.op.toNat + 1 := by
  obtain ⟨-, ⟨-, hcap⟩, -⟩ := hc
  rw [BitVec.toNat_add]
  simp
  omega

/-- What the write of `emit` does to OUT. -/
theorem read_pushOut (v : Byte) (hout : s.OUT.wf) (j : Nat) :
    (pushOut v s).OUT.read j = if j = s.op.toNat then some v else s.OUT.read j := by
  rw [pushOut_OUT, Memory.read_write _ _ _ _ hout]

/-- Settles O19: where OUT has room `emit` is the write of one cell, and where OUT is full it is `raise`. -/
theorem emitAppendsOneByte : Obligations.EmitAppendsOneByte := by
  unfold Obligations.EmitAppendsOneByte
  intro v s hc hout _
  rcases emit_cases v s with ⟨hfull, he⟩ | ⟨hnot, he⟩ <;> rw [he]
  · exact ⟨fun hroom => by omega, fun _ => rfl⟩
  · refine ⟨fun hroom => ⟨_, rfl, rfl, toNat_op_succ hc hroom, Memory.wf_write _ _ hout, ?_, fun j hj => ?_⟩,
      fun hfull => absurd hfull hnot⟩
    · rw [read_pushOut v hout, if_pos rfl]
    · rw [read_pushOut v hout, if_neg hj]

theorem Working.pushOut (hc : s0.cfg.wf) (h : Working s0 out s) (hroom : out.length < s0.cfg.OUT_CAP) (v : Byte) :
    Working s0 (out ++ [v]) (pushOut v s) := by
  have hnext : (s.op + 1).toNat = out.length + 1 := by
    rw [toNat_op_succ (by rw [h.cfg]; exact hc) (by rw [h.op, h.cfg]; exact hroom), h.op]
  refine ⟨h.cfg, h.input, h.status, by simpa using hnext, by simpa using hroom, Memory.wf_write _ _ h.canonical,
    fun j hj => ?_, fun j hj => ?_⟩
  · rw [read_pushOut v h.canonical, h.op]
    rw [List.length_append, List.length_singleton] at hj
    rcases Nat.lt_succ_iff_lt_or_eq.1 hj with hlt | rfl
    · rw [if_neg (by omega), h.emitted j hlt, List.getElem?_append_left hlt]
    · simp
  · rw [List.length_append, List.length_singleton] at hj
    rw [read_pushOut v h.canonical, h.op, if_neg (by omega), h.beyond j (by omega)]

theorem Working.raised (h : Working s0 out s) (e : ErrKind) : EndsRaised s0 { s with ERR := e, STATE := .error } e := by
  obtain ⟨-, -, hlen⟩ := h.status
  exact ⟨rfl, rfl, hlen, fun j hj => h.beyond j (h.op ▸ hj)⟩

theorem Working.completed (h : Working s0 out s) : EndsDone s0 { s with OUT_LEN := s.op, STATE := .done } out :=
  ⟨rfl, h.status.2.1, h.op, rfl, h.emitted, h.beyond⟩

/-- What overflows on the way to an output overflows the whole of it. -/
theorem Overflows.of_prefix {t : State} (h : Overflows s0 out t) (hwhole : out <+: whole) : Overflows s0 whole t :=
  ⟨h.1, Nat.lt_of_lt_of_le h.2 hwhole.length_le⟩

/-- Emitting one byte. -/
theorem Working.emit (hc : s0.cfg.wf) (h : Working s0 out s) (v : Byte) :
    (emit v s).Leaves (fun t => t = Machine.pushOut v s ∧ Working s0 (out ++ [v]) t) (Overflows s0 (out ++ [v]))
      fun _ => False := by
  have hop := h.op
  have hfits := h.fits
  rcases emit_cases v s with ⟨hfull, he⟩ | ⟨hroom, he⟩ <;> rw [h.cfg] at * <;> rw [he]
  · exact ⟨h.raised .capacityOverflow, by simp; omega⟩
  · exact ⟨rfl, h.pushOut hc (by omega) v⟩

/-- Emitting several bytes. -/
theorem Working.emitAll (hc : s0.cfg.wf) (h : Working s0 out s) (vs : List Byte) :
    (emitAll vs s).Leaves (fun t => (∃ mem op, t = { s with OUT := mem, op := op }) ∧ Working s0 (out ++ vs) t)
      (Overflows s0 (out ++ vs)) fun _ => False := by
  induction vs generalizing out s with
  | nil => exact ⟨⟨_, _, rfl⟩, by rwa [List.append_nil]⟩
  | cons v vs ih =>
    have hlist : out ++ v :: vs = out ++ [v] ++ vs := by simp
    rw [emitAll_cons, hlist]
    refine ((h.emit hc v).mono (fun _ h => h) (fun t ht => ht.of_prefix ⟨vs, rfl⟩) fun _ h => h).bind ?_
    rintro t ⟨rfl, ht⟩
    refine (ih ht).mono ?_ (fun _ h => h) fun _ h => h
    rintro u ⟨⟨mem, op, rfl⟩, hu⟩
    exact ⟨⟨mem, op, rfl⟩, hu⟩

theorem Overflows.endsAs {t : State} (h : Overflows s0 whole t) :
    EndsAs s0 t (Reference.withinCapacity s0.cfg whole) := by
  rw [Reference.withinCapacity, if_neg (by have := h.2; omega)]
  exact h.1

theorem Working.completed_endsAs (h : Working s0 out s) :
    EndsAs s0 { s with OUT_LEN := s.op, STATE := .done } (Reference.withinCapacity s0.cfg out) := by
  rw [Reference.withinCapacity, if_pos h.fits]
  exact h.completed

/-- The bytes of the input are read as they are. -/
theorem Working.readIn {input : List Byte} {v : Byte} {i : Nat} (h : Working s0 out s) (hinput : InputIs s0 input)
    (hv : input[i]? = some v) : Machine.readIn s i = .ok v := by
  obtain ⟨hlen, hread⟩ := hinput
  obtain ⟨hin, hinlen⟩ := h.input
  have hlt : i < input.length := (List.getElem?_eq_some_iff.1 hv).1
  exact readIn_ok.2 ⟨by rw [hinlen, hlen]; exact hlt, by rw [hin, hread i hlt, hv]⟩

end Working

/-! ## The entry (40_command.md R123) -/

section Entry
variable {s0 : State} {b : List Byte} {i : Instr} {n : Nat}

theorem entryChecks_passed {first : State → Flow} (hinput : InputIs s0 b) (hne : 1 ≤ b.length)
    (hcap : b.length ≤ s0.cfg.IN_CAP) : entryChecks first s0 = first s0 := by
  obtain ⟨hlen, -⟩ := hinput
  rw [entryChecks, if_neg (by omega), if_neg (by omega)]

/-- A command ends as its reference function says, if from its entry with an input that fits IN it ends as its codec does; and
P holds at the end, if it holds where the entry checks raise. -/
theorem exec_endsAs_and {P : State → Prop} (hcommand : isCommand i = true) (hentry : AtEntry s0) (hout : s0.OUT.wf)
    (hinput : InputIs s0 b) (hn : n ≤ 300 * b.length + 1200) (hraised : ∀ e, P { s0 with ERR := e, STATE := .error })
    (h : 1 ≤ b.length → b.length ≤ s0.cfg.IN_CAP →
      EndsWithin (commandStep i) (fun t => EndsAs s0 t (Reference.codec s0.cfg i b) ∧ P t) n s0) :
    ∃ t, exec i s0 = .next t ∧ EndsAs s0 t (Reference.run s0.cfg i b) ∧ P t := by
  have hchecks := entryChecks_inOrder i s0 hcommand hentry.1 hentry.phase_eq
  have hwork := hentry.working hout
  obtain ⟨hlen, -⟩ := hinput
  rw [Reference.run]
  by_cases hzero : b.length = 0
  · rw [if_pos hzero]
    exact ⟨_, hchecks.1 (BitVec.eq_of_toNat_eq (by rw [hlen, hzero]; rfl)), hwork.raised _, hraised _⟩
  · rw [if_neg hzero]
    by_cases hcap : b.length > s0.cfg.IN_CAP
    · rw [if_pos hcap]
      have hnonzero : s0.IN_LEN ≠ 0 := fun h => hzero (by rw [← hlen, h]; rfl)
      exact ⟨_, hchecks.2 hnonzero (by rw [hlen]; exact hcap), hwork.raised _, hraised _⟩
    · rw [if_neg hcap]
      exact exec_of_endsWithin hcommand hentry.1 (h (by omega) (by omega)) (by rw [stepBound, hlen]; omega)

/-- The same with nothing more to say of the end. -/
theorem exec_endsAs (hcommand : isCommand i = true) (hentry : AtEntry s0) (hout : s0.OUT.wf) (hinput : InputIs s0 b)
    (hn : n ≤ 300 * b.length + 1200)
    (h : 1 ≤ b.length → b.length ≤ s0.cfg.IN_CAP →
      EndsWithin (commandStep i) (fun t => EndsAs s0 t (Reference.codec s0.cfg i b)) n s0) :
    ∃ t, exec i s0 = .next t ∧ EndsAs s0 t (Reference.run s0.cfg i b) := by
  obtain ⟨t, ht, hends, -⟩ := exec_endsAs_and (P := fun _ => True) hcommand hentry hout hinput hn (fun _ => trivial)
    fun hne hcap => (h hne hcap).mono fun t ht => ⟨ht, trivial⟩
  exact ⟨t, ht, hends⟩

end Entry

end Sys2Proof.Machine
end

section
/-! # RLE: the machine against the reference function (41_rle.md R141 to R148) -/

namespace Sys2Proof.Machine

/-! ## The pairs of an input, run by run (R143) -/

namespace Reference

theorem pairsOfRun_add_full (v : Byte) (n : Nat) : pairsOfRun v (n + 255) = 255 :: v :: pairsOfRun v n := by
  have hdiv : (n + 255) / 255 = n / 255 + 1 := by omega
  rw [pairsOfRun, pairsOfRun, hdiv, Nat.add_mod_right]
  rfl

theorem pairsOfRun_of_lt (v : Byte) {n : Nat} (h : n < 255) :
    pairsOfRun v n = if n = 0 then [] else [BitVec.ofNat 8 n, v] := by
  rw [pairsOfRun, Nat.div_eq_of_lt h, Nat.mod_eq_of_lt h]
  rfl

/-- The first run is the first byte's. -/
theorem exists_runs_cons (v : Byte) (rest : List Byte) : ∃ n more, runs (v :: rest) = (v, n) :: more := by
  rw [runs]
  split
  · split
    · rename_i heq
      exact ⟨_, _, by rw [heq]⟩
    · exact ⟨_, _, rfl⟩
  · exact ⟨_, _, rfl⟩

/-- A byte before a run of its own value makes it longer. -/
theorem runs_cons_same {v : Byte} {n : Nat} {rest : List Byte} {more : List (Byte × Nat)}
    (h : runs rest = (v, n) :: more) : runs (v :: rest) = (v, n + 1) :: more := by
  rw [runs, h]
  exact if_pos rfl

/-- A byte before another begins a run. -/
theorem runs_cons_other {v : Byte} {rest : List Byte} (h : rest.head? ≠ some v) : runs (v :: rest) = (v, 1) :: runs rest := by
  cases rest with
  | nil => rfl
  | cons w rest =>
    obtain ⟨n, more, hruns⟩ := exists_runs_cons w rest
    have hne : v ≠ w := fun heq => h (by rw [heq]; rfl)
    rw [runs, hruns]
    exact if_neg hne

theorem runs_replicate_same {v : Byte} {n : Nat} {rest : List Byte} {more : List (Byte × Nat)}
    (h : runs rest = (v, n) :: more) (k : Nat) : runs (List.replicate k v ++ rest) = (v, n + k) :: more := by
  induction k with
  | zero => exact h
  | succ k ih =>
    rw [List.replicate_succ, List.cons_append, runs_cons_same ih]
    rfl

theorem runs_replicate_other {v : Byte} {rest : List Byte} (h : rest.head? ≠ some v) (k : Nat) :
    runs (List.replicate (k + 1) v ++ rest) = (v, 1 + k) :: runs rest := by
  rw [List.replicate_succ', List.append_assoc]
  exact runs_replicate_same (runs_cons_other h) k

/-- The pairs of equal bytes before a byte of another value. -/
theorem rleEncoded_replicate_other {v : Byte} {rest : List Byte} (h : rest.head? ≠ some v) (k : Nat) :
    rleEncoded (List.replicate k v ++ rest) = pairsOfRun v k ++ rleEncoded rest := by
  cases k with
  | zero => rfl
  | succ k =>
    rw [rleEncoded, runs_replicate_other h, List.flatMap_cons, Nat.add_comm 1 k]
    rfl

/-- 255 equal bytes are a full pair of their own, whatever follows. -/
theorem rleEncoded_replicate_full (v : Byte) (rest : List Byte) :
    rleEncoded (List.replicate 255 v ++ rest) = 255 :: v :: rleEncoded rest := by
  by_cases h : rest.head? = some v
  · obtain ⟨w, tail, rfl⟩ := List.exists_cons_of_ne_nil (l := rest) fun hnil => by rw [hnil] at h; cases h
    cases h
    obtain ⟨n, more, hruns⟩ := exists_runs_cons v tail
    rw [rleEncoded, rleEncoded, runs_replicate_same hruns, hruns, List.flatMap_cons, List.flatMap_cons, pairsOfRun_add_full]
    rfl
  · rw [rleEncoded_replicate_other h, pairsOfRun_add_full v 0]
    rfl

/-! ## The round trip (R148) -/

/-- Full pairs and a remainder expand to the run. -/
theorem rleExpanded_pairsOfRun (v : Byte) (n : Nat) (rest : List Byte) :
    rleExpanded (pairsOfRun v n ++ rest) = List.replicate n v ++ rleExpanded rest := by
  induction n using Nat.strongRecOn with
  | ind n ih =>
    rcases Nat.lt_or_ge n 255 with hlt | hge
    · rw [pairsOfRun_of_lt v hlt]
      split
      · rename_i hzero
        rw [hzero]
        rfl
      · have hn : (BitVec.ofNat 8 n).toNat = n := Nat.mod_eq_of_lt (by omega)
        rw [List.cons_append, List.cons_append, List.nil_append, rleExpanded, hn]
    · obtain ⟨m, rfl⟩ := Nat.exists_eq_add_of_le' hge
      rw [pairsOfRun_add_full, List.cons_append, List.cons_append, rleExpanded, ih m (by omega), Nat.add_comm m 255,
        List.replicate_add, List.append_assoc]
      rfl

theorem flatMap_runs (b : List Byte) : ((runs b).flatMap fun r => List.replicate r.2 r.1) = b := by
  induction b with
  | nil => rfl
  | cons v rest ih =>
    by_cases h : rest.head? = some v
    · obtain ⟨w, tail, rfl⟩ := List.exists_cons_of_ne_nil (l := rest) fun hnil => by rw [hnil] at h; cases h
      cases h
      obtain ⟨n, more, hruns⟩ := exists_runs_cons v tail
      rw [hruns, List.flatMap_cons] at ih
      rw [runs_cons_same hruns, List.flatMap_cons, List.replicate_succ, List.cons_append, ih]
    · rw [runs_cons_other h, List.flatMap_cons, ih]
      rfl

/-- The decoder's expansion undoes the encoder's pairs. -/
theorem rleExpanded_rleEncoded (b : List Byte) : rleExpanded (rleEncoded b) = b := by
  have hruns : ∀ rs : List (Byte × Nat),
      rleExpanded (rs.flatMap fun r => pairsOfRun r.1 r.2) = rs.flatMap fun r => List.replicate r.2 r.1 := by
    intro rs
    induction rs with
    | nil => rfl
    | cons r rs ih => rw [List.flatMap_cons, rleExpanded_pairsOfRun, ih, List.flatMap_cons]
  rw [rleEncoded, hruns, flatMap_runs]

theorem length_pairsOfRun (v : Byte) (n : Nat) : (pairsOfRun v n).length = 2 * ((n + 254) / 255) := by
  induction n using Nat.strongRecOn with
  | ind n ih =>
    rcases Nat.lt_or_ge n 255 with hlt | hge
    · rw [pairsOfRun_of_lt v hlt]
      split
      · rename_i hzero
        rw [hzero]
        rfl
      · rw [List.length_cons, List.length_singleton]
        omega
    · obtain ⟨m, rfl⟩ := Nat.exists_eq_add_of_le' hge
      rw [pairsOfRun_add_full, List.length_cons, List.length_cons, ih m (by omega)]
      omega

theorem length_rleEncoded (b : List Byte) :
    (rleEncoded b).length = 2 * ((runs b).map fun r => (r.2 + 254) / 255).sum := by
  rw [rleEncoded]
  induction runs b with
  | nil => rfl
  | cons r rs ih =>
    rw [List.flatMap_cons, List.length_append, length_pairsOfRun, ih, List.map_cons, List.sum_cons]
    omega

/-- What RLE.ENC gives, RLE.DEC gives back, on a machine with other capacities too. -/
theorem run_rleDec_of_run_rleEnc {c c' : Config} {b e : List Byte} (h : run c .rleEnc b = .ok e)
    (hin : e.length ≤ c'.IN_CAP) (hout : b.length ≤ c'.OUT_CAP) : run c' .rleDec e = .ok b := by
  unfold run at h
  split_ifs at h with hzero _
  simp only [codec, withinCapacity] at h
  split_ifs at h
  cases h
  have hexpanded := rleExpanded_rleEncoded b
  have hpos : (rleEncoded b).length ≠ 0 := fun hlen => by
    rw [List.length_eq_zero_iff.1 hlen] at hexpanded
    exact hzero (by rw [← hexpanded]; rfl)
  have heven : (rleEncoded b).length % 2 ≠ 1 := by rw [length_rleEncoded]; omega
  rw [run, if_neg hpos, if_neg (by omega), codec, if_neg heven, withinCapacity, hexpanded, if_pos hout]

end Reference

/-! ## Places in the input -/

/-- Where the input from an index on begins with a byte. -/
theorem next_of_drop {b rest : List Byte} {p : Nat} {v : Byte} (h : b.drop p = v :: rest) :
    p < b.length ∧ b[p]? = some v ∧ b.drop (p + 1) = rest := by
  have hlt : p < b.length := by
    have := congrArg List.length h
    simp at this
    omega
  rw [List.drop_eq_getElem_cons hlt] at h
  cases h
  exact ⟨hlt, List.getElem?_eq_getElem hlt, rfl⟩

theorem Working.inLen {s0 s : State} {out b : List Byte} (h : Working s0 out s) (hinput : InputIs s0 b) :
    s.IN_LEN.toNat = b.length := by rw [h.input.2, hinput.1]

/-- Where no input is left, ip has reached IN_LEN. -/
theorem Working.not_lt_of_drop_nil {s0 s : State} {out b : List Byte} (h : Working s0 out s) (hinput : InputIs s0 b)
    (hnil : b.drop s.ip.toNat = []) : ¬s.ip.toNat < s.IN_LEN.toNat := by
  rw [h.inLen hinput]
  exact Nat.not_lt.2 (List.drop_eq_nil_iff.1 hnil)

/-- Bytes that stand in the input are read. -/
theorem Working.readIns {s0 s : State} {out b : List Byte} (h : Working s0 out s) (hinput : InputIs s0 b)
    (bytes rest : List Byte) : ∀ p, b.drop p = bytes ++ rest → Machine.readIns s p bytes.length = .ok bytes := by
  induction bytes with
  | nil => exact fun _ _ => rfl
  | cons v bytes ih =>
    intro p hp
    obtain ⟨-, hv, hnext⟩ := next_of_drop hp
    rw [List.length_cons, Machine.readIns, h.readIn hinput hv, ih (p + 1) hnext]

/-- ip does not wrap inside the input. -/
theorem Working.ip_succ {s0 s : State} {out b : List Byte} (h : Working s0 out s) (hinput : InputIs s0 b)
    (hlt : s.ip.toNat < b.length) : (s.ip + 1).toNat = s.ip.toNat + 1 :=
  ip_add_one (by rw [h.inLen hinput]; omega)

/-! ## RLE.ENC (R141) -/

/-- The flush of a run is the emission of its pairs. -/
theorem flushRun_eq (s : State) (h : s.cnt.toNat ≤ 254) :
    flushRun s = emitAll (Reference.pairsOfRun s.cur s.cnt.toNat) s := by
  rw [Reference.pairsOfRun_of_lt _ (by omega), flushRun]
  by_cases hzero : s.cnt.toNat = 0
  · rw [if_pos hzero, if_neg (by omega)]
    rfl
  · rw [if_neg hzero, if_pos (by omega), BitVec.ofNat_toNat, BitVec.setWidth_eq]

/-- RE_SCAN and RE_FINAL with a rest of the input still to scan: what is emitted, then the pairs of the run counted so far and of
the rest, are the pairs of the whole input. -/
structure ScanAt (s0 : State) (b rest : List Byte) (s : State) : Prop where
  count : s.cnt.toNat ≤ 254
  output : ∃ out, Working s0 out s ∧
    out ++ Reference.rleEncoded (List.replicate s.cnt.toNat s.cur ++ rest) = Reference.rleEncoded b

section RleEnc
variable {s0 s : State} {b rest : List Byte}

/-- How RLE.ENC ends, past the entry checks. -/
abbrev RleEncEnds (s0 : State) (b : List Byte) (t : State) : Prop :=
  EndsAs s0 t (Reference.codec s0.cfg .rleEnc b)

theorem flushRun_emits {out : List Byte} (hc : s0.cfg.wf) (hcount : s.cnt.toNat ≤ 254) (h : Working s0 out s)
    (hwhole : out ++ Reference.pairsOfRun s.cur s.cnt.toNat <+: Reference.rleEncoded b) :
    (flushRun s).Leaves (fun t => (∃ mem op, t = { s with OUT := mem, op := op }) ∧
      Working s0 (out ++ Reference.pairsOfRun s.cur s.cnt.toNat) t) (RleEncEnds s0 b) fun _ => False := by
  rw [flushRun_eq s hcount]
  exact (h.emitAll hc _).mono (fun _ h => h) (fun _ h => (h.of_prefix hwhole).endsAs) fun _ h => h

/-- One more byte of the input is counted, or ends the run before it. -/
theorem scanByte_scans (hc : s0.cfg.wf) {v : Byte} (h : ScanAt s0 b (v :: rest) s) :
    (if v = s.cur then sameByte s else newByte v s).Leaves
      (fun t => ScanAt s0 b rest t ∧ t.phase = s.phase ∧ t.ip = s.ip) (RleEncEnds s0 b) fun _ => False := by
  obtain ⟨hcount, out, hwork, hout⟩ := h
  split
  · rename_i heq
    subst heq
    have hrun : List.replicate s.cnt.toNat s.cur ++ s.cur :: rest = List.replicate (s.cnt.toNat + 1) s.cur ++ rest := by
      rw [List.replicate_succ', List.append_assoc, List.singleton_append]
    rw [hrun] at hout
    unfold sameByte
    split
    · rename_i hfull
      rw [hfull, Reference.rleEncoded_replicate_full] at hout
      have hsplit : out ++ [255, s.cur] ++ Reference.rleEncoded rest = Reference.rleEncoded b := by simpa using hout
      refine ((hwork.emitAll hc [255, s.cur]).mono (fun _ h => h) (fun _ h => (h.of_prefix ⟨_, hsplit⟩).endsAs)
        fun _ h => h).bind ?_
      rintro t ⟨⟨mem, op, rfl⟩, ht⟩
      exact ⟨⟨by simp, _, ht.set, hsplit⟩, rfl, rfl⟩
    · rename_i hmore
      have hnext : (s.cnt + 1).toNat = s.cnt.toNat + 1 := by
        rw [BitVec.toNat_add]
        simp
        omega
      exact ⟨⟨by show (s.cnt + 1).toNat ≤ 254; omega, out, hwork.set, by simpa only [hnext] using hout⟩, rfl, rfl⟩
  · rename_i hne
    have hother : (v :: rest).head? ≠ some s.cur := fun h => hne (Option.some.inj h)
    rw [Reference.rleEncoded_replicate_other hother, ← List.append_assoc] at hout
    unfold newByte
    refine (flushRun_emits hc hcount hwork ⟨_, hout⟩).bind ?_
    rintro t ⟨⟨mem, op, rfl⟩, ht⟩
    exact ⟨⟨by simp, _, ht.set, hout⟩, rfl, rfl⟩

/-- RE_FINAL. -/
theorem rleEnc_final (hc : s0.cfg.wf) (h : ScanAt s0 b [] s) (hph : s.phase = .reFinal) :
    EndsWithin rleEncStep (RleEncEnds s0 b) 1 s := by
  obtain ⟨hcount, out, hwork, hout⟩ := h
  rw [Reference.rleEncoded_replicate_other (by simp)] at hout
  have hwhole : out ++ Reference.pairsOfRun s.cur s.cnt.toNat = Reference.rleEncoded b := by
    rw [← hout]
    simp [Reference.rleEncoded, Reference.runs]
  refine endsWithin_of_step ?_
  rw [rleEncStep, hph]
  refine (flushRun_emits hc hcount hwork ⟨[], by rw [List.append_nil, hwhole]⟩).bind ?_
  rintro t ⟨-, ht⟩
  rw [hwhole] at ht
  exact ht.completed_endsAs

/-- RE_SCAN, to the end of the input. -/
theorem rleEnc_scan (hc : s0.cfg.wf) (hinput : InputIs s0 b) :
    ∀ s, s.phase = .reScan → b.drop s.ip.toNat = rest → ScanAt s0 b rest s →
      EndsWithin rleEncStep (RleEncEnds s0 b) (rest.length + 2) s := by
  induction rest with
  | nil =>
    intro s hph hleft h
    obtain ⟨hcount, out, hwork, hout⟩ := h
    refine endsWithin_of_step ?_
    rw [rleEncStep, hph]
    dsimp only
    rw [scanStep, if_neg (hwork.not_lt_of_drop_nil hinput hleft)]
    exact rleEnc_final hc ⟨hcount, out, hwork.set, hout⟩ rfl
  | cons v rest ih =>
    intro s hph hleft h
    obtain ⟨out, hwork, -⟩ := h.output
    obtain ⟨hlt, hv, hnext⟩ := next_of_drop hleft
    refine endsWithin_of_step ?_
    rw [rleEncStep, hph]
    dsimp only
    rw [scanStep, if_pos (by rwa [hwork.inLen hinput]), hwork.readIn hinput hv, Flow.onRead_ok]
    refine (scanByte_scans hc h).bind ?_
    rintro t ⟨⟨hcount, out', hwork', hout'⟩, htph, htip⟩
    refine ih _ (htph.trans hph) ?_ ⟨hcount, out', hwork'.set, hout'⟩
    show b.drop (t.ip + 1).toNat = rest
    rw [htip, hwork.ip_succ hinput hlt, hnext]

/-- Past the entry checks, the first byte is the run counted so far. -/
theorem rleEnc_ends (hc : s0.cfg.wf) (hout : s0.OUT.wf) (hentry : AtEntry s0) (hinput : InputIs s0 b) (hne : 1 ≤ b.length)
    (hcap : b.length ≤ s0.cfg.IN_CAP) : EndsWithin rleEncStep (RleEncEnds s0 b) (b.length + 2) s0 := by
  have hwork := hentry.working hout
  obtain ⟨v, rest, rfl⟩ := List.exists_cons_of_length_pos hne
  refine endsWithin_of_step ?_
  rw [rleEncStep, hentry.phase_eq]
  dsimp only
  rw [entryChecks_passed hinput hne hcap, enterScan,
    hwork.readIn hinput (i := 0) rfl, Flow.onRead_ok]
  exact rleEnc_scan hc hinput _ rfl rfl ⟨by simp, [], hwork.set, rfl⟩

end RleEnc

/-- Settles O23: RE_SCAN keeps what is emitted, the run counted so far and the rest of the input in step with the reference
output. -/
theorem rleEncRuns : Obligations.RleEncRuns := by
  unfold Obligations.RleEncRuns
  intro s b hc hout hentry hinput
  obtain ⟨t, ht, hends⟩ := exec_endsAs (i := .rleEnc) rfl hentry hout hinput (by omega) (rleEnc_ends hc hout hentry hinput)
  exact ⟨t, ht, hends, exec_hostSideKept rfl ht, exec_treeKept (.inl rfl) ht, exec_packerKept rfl ht nofun,
    exec_walkKept rfl ht nofun, exec_matcherKept rfl ht nofun, exec_windowKept rfl ht nofun⟩

/-! ## RLE.DEC (R145) -/

section RleDec
variable {s0 s : State} {b rest : List Byte}

/-- How RLE.DEC ends, past RD_CHECK. -/
abbrev RleDecEnds (s0 : State) (b : List Byte) (t : State) : Prop :=
  EndsAs s0 t (Reference.withinCapacity s0.cfg (Reference.rleExpanded b))

/-- RD_REP: the bytes still to append are appended, and then the next pair is due. -/
theorem rleDec_rep (hc : s0.cfg.wf) {n : Nat} {ip : Word} (count : Nat) :
    ∀ (out : List Byte) (s : State), s.phase = .rdRep → s.cnt.toNat = count → s.ip = ip → Working s0 out s →
      out ++ List.replicate count s.cur <+: Reference.rleExpanded b →
      (∀ t, Working s0 (out ++ List.replicate count s.cur) t → t.phase = .rdPair → t.ip = ip + 2 →
        EndsWithin rleDecStep (RleDecEnds s0 b) n t) →
      EndsWithin rleDecStep (RleDecEnds s0 b) (n + max count 1) s := by
  induction count with
  | zero =>
    intro out s hph hcnt hip hwork _ hnext
    refine endsWithin_of_step ?_
    rw [rleDecStep, hph]
    dsimp only
    rw [repStep, if_neg (by omega)]
    exact hnext _ (by simpa using hwork.set) rfl (by rw [← hip]; rfl)
  | succ count ih =>
    intro out s hph hcnt hip hwork hwhole hnext
    have hlist : out ++ List.replicate (count + 1) s.cur = out ++ [s.cur] ++ List.replicate count s.cur := by
      rw [List.replicate_succ, List.append_assoc, List.singleton_append]
    rw [hlist] at hwhole hnext
    suffices h : EndsWithin rleDecStep (RleDecEnds s0 b) (n + count + 1) s from h.more (by omega)
    refine endsWithin_of_step ?_
    rw [rleDecStep, hph]
    dsimp only
    rw [repStep, if_pos (by omega)]
    refine ((hwork.emit hc s.cur).mono (fun _ h => h)
      (fun _ h => (h.of_prefix ((List.prefix_append _ _).trans hwhole)).endsAs) fun _ h => h).bind ?_
    rintro t ⟨rfl, ht⟩
    split
    · rename_i hlast
      rw [pushOut_cnt, hcnt] at hlast
      obtain rfl : count = 0 := by omega
      exact (hnext _ (by simpa using ht.set) rfl (by rw [← hip]; rfl)).more (by omega)
    · rename_i hmore
      rw [pushOut_cnt, hcnt] at hmore
      have hcnt' : (s.cnt - 1).toNat = count := by
        rw [BitVec.toNat_sub_of_le (BitVec.le_def.2 (by simp; omega))]
        simp
        omega
      exact (ih _ { pushOut s.cur s with cnt := s.cnt - 1 } hph hcnt' hip ht.set hwhole hnext).more (by omega)

theorem fetchRun_of_drop {out : List Byte} (hwork : Working s0 out s) (hinput : InputIs s0 b) {count value : Byte}
    (h : b.drop s.ip.toNat = count :: value :: rest) : fetchRun s = .instr (.run count value) := by
  have hread : readIns s s.ip.toNat 2 = .ok [count, value] := hwork.readIns hinput [count, value] rest _ h
  rw [fetchRun, hread]
  rfl

/-- RD_PAIR, to the end of the input. -/
theorem rleDec_pairs (hc : s0.cfg.wf) (hinput : InputIs s0 b) :
    ∀ (out : List Byte) (s : State), s.phase = .rdPair → b.drop s.ip.toNat = rest → rest.length % 2 = 0 →
      Working s0 out s → out ++ Reference.rleExpanded rest = Reference.rleExpanded b →
      EndsWithin rleDecStep (RleDecEnds s0 b) (150 * rest.length + 1) s := by
  induction rest using Reference.rleExpanded.induct with
  | case1 count value rest ih =>
    intro out s hph hleft heven hwork hwhole
    obtain ⟨hlt, -, hnext⟩ := next_of_drop hleft
    obtain ⟨hlt', -, hnext'⟩ := next_of_drop hnext
    have hip : (s.ip + 2).toNat = s.ip.toNat + 2 := ip_add_two (by rw [hwork.inLen hinput]; omega)
    rw [Reference.rleExpanded, ← List.append_assoc] at hwhole
    rw [List.length_cons, List.length_cons] at heven ⊢
    have hcount := count.isLt
    suffices h : EndsWithin rleDecStep (RleDecEnds s0 b) (150 * rest.length + 1 + max count.toNat 1 + 1) s from
      h.more (by omega)
    refine endsWithin_of_step ?_
    rw [rleDecStep, hph]
    dsimp only
    rw [pairStep, if_pos (by rwa [hwork.inLen hinput]), fetchRun_of_drop hwork hinput hleft]
    refine rleDec_rep hc (ip := s.ip) count.toNat out _ rfl rfl rfl hwork.set ⟨_, hwhole⟩ fun t ht htph htip => ?_
    refine ih _ t htph ?_ (by omega) ht hwhole
    rw [htip, hip, hnext']
  | case2 rest hshort =>
    intro out s hph hleft heven hwork hwhole
    obtain rfl : rest = [] := by
      match rest, hshort, heven with
      | [], _, _ => rfl
      | [_], _, heven => cases heven
      | count :: value :: rest, hshort, _ => exact absurd rfl (hshort count value rest)
    refine endsWithin_of_step ?_
    rw [rleDecStep, hph]
    dsimp only
    rw [pairStep, if_neg (hwork.not_lt_of_drop_nil hinput hleft)]
    rw [show out = Reference.rleExpanded b from (List.append_nil out).symm.trans hwhole] at hwork
    exact hwork.completed_endsAs

/-- Past the entry checks: RD_CHECK, and the pairs. -/
theorem rleDec_ends (hc : s0.cfg.wf) (hout : s0.OUT.wf) (hentry : AtEntry s0) (hinput : InputIs s0 b) (hne : 1 ≤ b.length)
    (hcap : b.length ≤ s0.cfg.IN_CAP) :
    EndsWithin rleDecStep (fun t => EndsAs s0 t (Reference.codec s0.cfg .rleDec b)) (150 * b.length + 3) s0 := by
  have hwork := hentry.working hout
  refine endsWithin_of_step ?_
  rw [rleDecStep, hentry.phase_eq]
  dsimp only
  rw [entryChecks_passed hinput hne hcap]
  refine endsWithin_of_step ?_
  dsimp only [rleDecStep]
  rw [parityCheck, Reference.codec]
  dsimp only
  rw [hinput.1]
  split
  · exact (hwork.set (t := { s0 with phase := .rdCheck })).raised _
  · exact rleDec_pairs hc hinput [] _ rfl rfl (by omega) hwork.set rfl

end RleDec

/-- Settles O25: pair by pair, and byte by byte within a pair, the output grows to the expansion of the input. -/
theorem rleDecRuns : Obligations.RleDecRuns := by
  unfold Obligations.RleDecRuns
  intro s b hc hout hentry hinput
  obtain ⟨t, ht, hends⟩ := exec_endsAs (i := .rleDec) rfl hentry hout hinput (by omega) (rleDec_ends hc hout hentry hinput)
  exact ⟨t, ht, hends, exec_hostSideKept rfl ht, exec_treeKept (.inr (.inl rfl)) ht, exec_packerKept rfl ht nofun,
    exec_walkKept rfl ht nofun, exec_matcherKept rfl ht nofun, exec_windowKept rfl ht nofun⟩

end Sys2Proof.Machine
end

section
/-! # LZ77: the encoder against the reference function (44_lz77_encode.md R200 to R207) -/

namespace Sys2Proof.Machine

/-! ## The reference search and its tokens (R202, R204) -/

namespace Reference

theorem commonPrefix_drop {b : List Byte} {i j : Nat} {v w : Byte} (hi : b[i]? = some v) (hj : b[j]? = some w) :
    commonPrefix (b.drop i) (b.drop j) =
      if v = w then commonPrefix (b.drop (i + 1)) (b.drop (j + 1)) + 1 else 0 := by
  obtain ⟨hlt, rfl⟩ := List.getElem?_eq_some_iff.1 hi
  obtain ⟨hlt', rfl⟩ := List.getElem?_eq_some_iff.1 hj
  rw [List.drop_eq_getElem_cons hlt, List.drop_eq_getElem_cons hlt']
  rfl

/-- Below its length both lists agree. -/
theorem getElem?_of_lt_commonPrefix : ∀ {xs ys : List Byte} {i : Nat}, i < commonPrefix xs ys → xs[i]? = ys[i]?
  | [], _, _, h => nomatch h
  | _ :: _, [], _, h => nomatch h
  | x :: xs, y :: ys, i, h => by
    rw [commonPrefix] at h
    split at h
    · rename_i heq
      cases i with
      | zero => rw [heq]; rfl
      | succ i => exact getElem?_of_lt_commonPrefix (xs := xs) (by omega)
    · cases h

/-- What the search found so far: nothing, or the match at an offset below a bound. -/
theorem foldl_betterMatch (c : Config) (b : List Byte) (p : Nat) (os : List Nat) (found : Nat × Nat) :
    os.foldl (betterMatch c b p) found = found ∨
      ∃ o ∈ os, os.foldl (betterMatch c b p) found = (matchLength c b p o, o) := by
  induction os generalizing found with
  | nil => exact .inl rfl
  | cons o os ih =>
    rw [List.foldl_cons]
    rcases ih (betterMatch c b p found o) with h | ⟨o', ho', h⟩
    · rw [h, betterMatch]
      split
      · exact .inr ⟨o, List.mem_cons_self, rfl⟩
      · exact .inl rfl
    · exact .inr ⟨o', List.mem_cons_of_mem _ ho', h⟩

/-- The best match, if there is one, is the match at an offset inside the window. -/
theorem bestMatch_cases (c : Config) (b : List Byte) (p : Nat) :
    bestMatch c b p = (0, 0) ∨ ∃ o, (1 ≤ o ∧ o ≤ c.W ∧ o ≤ p) ∧ bestMatch c b p = (matchLength c b p o, o) := by
  refine (foldl_betterMatch c b p _ (0, 0)).imp id fun ⟨o, ho, h⟩ => ⟨o, ?_, h⟩
  have := List.mem_range'_1.1 ho
  omega

/-- A match lies inside the lookahead, and is no longer than its offset. -/
theorem matchLength_le (c : Config) (b : List Byte) (p o : Nat) :
    matchLength c b p o ≤ c.M ∧ matchLength c b p o ≤ b.length - p ∧ matchLength c b p o ≤ o := by
  unfold matchLength
  omega

/-- A match long enough to be emitted: its offset and length are in range, and it repeats the input. -/
structure GoodMatch (c : Config) (b : List Byte) (p len off : Nat) : Prop where
  length : 1 ≤ len ∧ len ≤ c.M ∧ p + len ≤ b.length
  offset : 1 ≤ off ∧ off ≤ c.W ∧ off ≤ p
  repeats : ∀ i, i < len → b[p - off + i]? = b[p + i]?

theorem goodMatch_of_bestMatch {c : Config} {b : List Byte} {p : Nat} (hlen : 1 ≤ (bestMatch c b p).1)
    (hp : p < b.length) : GoodMatch c b p (bestMatch c b p).1 (bestMatch c b p).2 := by
  rcases bestMatch_cases c b p with h | ⟨o, ho, h⟩
  · rw [h] at hlen
    exact absurd hlen (Nat.not_succ_le_zero 0)
  · rw [h] at hlen ⊢
    have := matchLength_le c b p o
    refine ⟨by omega, ho, fun i hi => ?_⟩
    have hprefix : i < commonPrefix (b.drop (p - o)) (b.drop p) :=
      Nat.lt_of_lt_of_le hi (by unfold matchLength; omega)
    simpa using getElem?_of_lt_commonPrefix hprefix

/-- Past the end of the input there is no token. -/
theorem tokensFrom_of_le (c : Config) {b : List Byte} (fuel : Nat) {p : Nat} (h : b.length ≤ p) :
    tokensFrom c b fuel p = [] := by
  cases fuel with
  | zero => rfl
  | succ fuel => rw [tokensFrom, List.getElem?_eq_none h]

end Reference

theorem minMatch_pos {c : Config} (h : c.wf) : 1 ≤ c.MIN_MATCH := by
  obtain ⟨-, -, -, -, hmin, -⟩ := h
  exact hmin

/-! ## LE_SEARCH (R202) -/

section LzEnc
variable {s0 s : State} {b out : List Byte}

/-- The inner loop counts the equal bytes, up to its limit. -/
theorem matchFrom_eq (hwork : Working s0 out s) (hinput : InputIs s0 b) {o lim : Nat}
    (hlim : s.ip.toNat + lim ≤ b.length) (fuel : Nat) :
    ∀ k, k ≤ lim → lim ≤ k + fuel → matchFrom s o lim fuel k =
      .ok (min (k + Reference.commonPrefix (b.drop (s.ip.toNat - o + k)) (b.drop (s.ip.toNat + k))) lim) := by
  induction fuel with
  | zero =>
    intro k hk hfuel
    rw [matchFrom]
    congr 1
    omega
  | succ fuel ih =>
    intro k hk hfuel
    rw [matchFrom]
    by_cases hlt : k < lim
    · have hv : b[s.ip.toNat - o + k]? = some b[s.ip.toNat - o + k] := List.getElem?_eq_getElem (by omega)
      have hw : b[s.ip.toNat + k]? = some b[s.ip.toNat + k] := List.getElem?_eq_getElem (by omega)
      rw [if_pos hlt, hwork.readIn hinput hv, hwork.readIn hinput hw, Reference.commonPrefix_drop hv hw]
      dsimp only
      split
      · rw [ih (k + 1) (by omega) (by omega), ← Nat.add_assoc, ← Nat.add_assoc]
        congr 2
        omega
      · congr 1
        omega
    · rw [if_neg hlt]
      congr 1
      omega

theorem lookahead_eq (hwork : Working s0 out s) (hinput : InputIs s0 b) :
    lookahead s = min s0.cfg.M (b.length - s.ip.toNat) := by rw [lookahead, hwork.cfg, hwork.inLen hinput]

/-- The match at an offset is the reference match. -/
theorem matchAt_eq (hwork : Working s0 out s) (hinput : InputIs s0 b) (hlt : s.ip.toNat < b.length) (o : Nat) :
    matchAt s o = .ok (Reference.matchLength s0.cfg b s.ip.toNat o) := by
  rw [matchAt, lookahead_eq hwork hinput, matchFrom_eq hwork hinput (by omega) _ 0 (by omega) (by omega),
    Reference.matchLength]
  simp only [Nat.zero_add, Nat.add_zero]

/-- One candidate is compared as the reference compares it. -/
theorem candidate_eq (hc : s0.cfg.wf) {o : Nat} (ho : o ≤ s0.cfg.W) (p : Nat) :
    ((candidate o (Reference.matchLength s0.cfg b p o) s).best.toNat,
      (candidate o (Reference.matchLength s0.cfg b p o) s).boff.toNat) =
      Reference.betterMatch s0.cfg b p (s.best.toNat, s.boff.toNat) o := by
  obtain ⟨-, -, ⟨-, hW⟩, ⟨-, hM⟩, -⟩ := hc
  have hlen := (Reference.matchLength_le s0.cfg b p o).1
  unfold candidate Reference.betterMatch
  split
  · exact Prod.ext (Nat.mod_eq_of_lt (by omega)) (Nat.mod_eq_of_lt (by omega))
  · rfl

/-- A search changes the matcher's registers alone, and finds what the reference finds. -/
structure Searched (c : Config) (b : List Byte) (os : List Nat) (s t : State) : Prop where
  rest : ∃ o k best boff, t = { s with o := o, k := k, best := best, boff := boff }
  found : (t.best.toNat, t.boff.toNat) =
    os.foldl (Reference.betterMatch c b s.ip.toNat) (s.best.toNat, s.boff.toNat)

theorem searchOver_eq (hc : s0.cfg.wf) (hinput : InputIs s0 b) (os : List Nat) :
    ∀ s, Working s0 out s → s.ip.toNat < b.length → (∀ o ∈ os, o ≤ s0.cfg.W) →
      ∃ t, searchOver os s = .go t ∧ Searched s0.cfg b os s t := by
  induction os with
  | nil => exact fun s _ _ _ => ⟨s, rfl, ⟨_, _, _, _, rfl⟩, rfl⟩
  | cons o os ih =>
    intro s hwork hlt hos
    obtain ⟨ho, hos⟩ := List.forall_mem_cons.1 hos
    have hcandidate : ∃ o' k best boff, candidate o (Reference.matchLength s0.cfg b s.ip.toNat o) s =
        { s with o := o', k := k, best := best, boff := boff } := by
      unfold candidate
      split <;> exact ⟨_, _, _, _, rfl⟩
    have hstep := candidate_eq (b := b) (s := s) hc ho s.ip.toNat
    rw [searchOver, matchAt_eq hwork hinput hlt, Flow.onRead_ok]
    generalize candidate o (Reference.matchLength s0.cfg b s.ip.toNat o) s = u at hcandidate hstep
    obtain ⟨o', k, best, boff, rfl⟩ := hcandidate
    obtain ⟨t, ht, ⟨o'', k', best', boff', rfl⟩, hfound⟩ :=
      ih { s with o := o', k := k, best := best, boff := boff } hwork.set hlt hos
    refine ⟨_, ht, ⟨_, _, _, _, rfl⟩, ?_⟩
    rw [hfound, List.foldl_cons, ← hstep]

/-- LE_SEARCH finds the reference match. -/
theorem search_eq (hc : s0.cfg.wf) (hinput : InputIs s0 b) (hwork : Working s0 out s) (hlt : s.ip.toNat < b.length) :
    ∃ o k best boff, search s = .go { s with o := o, k := k, best := best, boff := boff } ∧
      (best.toNat, boff.toNat) = Reference.bestMatch s0.cfg b s.ip.toNat := by
  have hos : ∀ o ∈ offsets s, o ≤ s0.cfg.W := fun o ho => by
    rw [offsets, hwork.cfg] at ho
    have := List.mem_range'_1.1 ho
    omega
  obtain ⟨t, ht, ⟨o, k, best, boff, rfl⟩, hfound⟩ :=
    searchOver_eq (s0 := s0) (out := out) hc hinput (offsets s) { s with best := 0, boff := 0 } hwork.set hlt hos
  refine ⟨o, k, best, boff, ht, hfound.trans ?_⟩
  rw [Reference.bestMatch, offsets, hwork.cfg]
  rfl

/-! ## LE_EMIT and the loop (R201, R204) -/

/-- How LZ.ENC ends, past the entry checks. -/
abbrev LzEncEnds (s0 : State) (b : List Byte) (t : State) : Prop :=
  EndsAs s0 t (Reference.codec s0.cfg .lzEnc b)

/-- LE_SEARCH where no input is left. -/
theorem lzEnc_complete (hinput : InputIs s0 b) (hph : s.phase = .leSearch) (hge : b.length ≤ s.ip.toNat)
    (hwork : Working s0 (Reference.lzEncoded s0.cfg b) s) : EndsWithin lzEncStep (LzEncEnds s0 b) 1 s := by
  refine endsWithin_of_step ?_
  rw [lzEncStep, hph]
  dsimp only
  rw [searchStep, if_neg (by rw [hwork.inLen hinput]; omega)]
  exact hwork.completed_endsAs

/-- LE_EMIT: the token of the match found is emitted, and the search goes on behind what it covers. -/
theorem lzEnc_token (hc : s0.cfg.wf) (hinput : InputIs s0 b) {tok : Instr} {p n : Nat} {v : Byte} {more : List Byte}
    (hwork : Working s0 out s) (hph : s.phase = .leEmit) (hv : b[s.ip.toNat]? = some v)
    (hfound : (s.best.toNat, s.boff.toNat) = Reference.bestMatch s0.cfg b s.ip.toNat)
    (htok : (tok, p) =
      if s.best.toNat ≥ s0.cfg.MIN_MATCH then (.matchRef s.boff s.best, s.ip.toNat + s.best.toNat)
      else (.lit v, s.ip.toNat + 1))
    (hwhole : out ++ encode tok ++ more = Reference.lzEncoded s0.cfg b)
    (hnext : ∀ t, Working s0 (out ++ encode tok) t → t.phase = .leSearch → t.ip.toNat = p →
      EndsWithin lzEncStep (LzEncEnds s0 b) n t) :
    EndsWithin lzEncStep (LzEncEnds s0 b) (n + 1) s := by
  have hlt : s.ip.toNat < b.length := (List.getElem?_eq_some_iff.1 hv).1
  have hemit : (emitAll (encode tok) s).Leaves
      (fun t => (∃ mem op, t = { s with OUT := mem, op := op }) ∧ Working s0 (out ++ encode tok) t)
      (LzEncEnds s0 b) fun _ => False :=
    (hwork.emitAll hc _).mono (fun _ h => h) (fun _ h => (h.of_prefix ⟨more, hwhole⟩).endsAs) fun _ h => h
  refine endsWithin_of_step ?_
  rw [lzEncStep, hph]
  dsimp only
  rw [tokenStep, hwork.cfg]
  by_cases hmatch : s.best.toNat ≥ s0.cfg.MIN_MATCH
  · rw [if_pos hmatch] at htok ⊢
    cases htok
    refine hemit.bind ?_
    rintro t ⟨⟨mem, op, rfl⟩, ht⟩
    refine hnext _ ht.set rfl ?_
    have hgood : Reference.GoodMatch s0.cfg b s.ip.toNat s.best.toNat s.boff.toNat := by
      have hmin := minMatch_pos hc
      have hbest := congrArg Prod.fst hfound
      have hboff := congrArg Prod.snd hfound
      dsimp only at hbest hboff
      rw [hbest, hboff]
      exact Reference.goodMatch_of_bestMatch (by omega) hlt
    obtain ⟨-, -, hfits⟩ := hgood.length
    have hlen := hwork.inLen hinput
    have := s.IN_LEN.isLt
    show (s.ip + s.best.setWidth 32).toNat = _
    rw [BitVec.toNat_add, BitVec.toNat_setWidth]
    omega
  · rw [if_neg hmatch] at htok ⊢
    cases htok
    rw [hwork.readIn hinput hv, Flow.onRead_ok]
    refine hemit.bind ?_
    rintro t ⟨⟨mem, op, rfl⟩, ht⟩
    exact hnext _ ht.set rfl (hwork.ip_succ hinput hlt)

/-- LE_SEARCH and LE_EMIT, token by token to the end of the input. -/
theorem lzEnc_tokens (hc : s0.cfg.wf) (hinput : InputIs s0 b) (fuel : Nat) :
    ∀ (out : List Byte) (s : State), s.phase = .leSearch → b.length ≤ s.ip.toNat + fuel → Working s0 out s →
      out ++ (Reference.tokensFrom s0.cfg b fuel s.ip.toNat).flatMap encode = Reference.lzEncoded s0.cfg b →
      EndsWithin lzEncStep (LzEncEnds s0 b) (2 * fuel + 1) s := by
  induction fuel with
  | zero =>
    intro out s hph hfuel hwork hwhole
    rw [Reference.tokensFrom, List.flatMap_nil, List.append_nil] at hwhole
    rw [hwhole] at hwork
    exact lzEnc_complete hinput hph hfuel hwork
  | succ fuel ih =>
    intro out s hph hfuel hwork hwhole
    rcases Nat.lt_or_ge s.ip.toNat b.length with hlt | hge
    · have hv : b[s.ip.toNat]? = some b[s.ip.toNat] := List.getElem?_eq_getElem hlt
      obtain ⟨o, k, best, boff, hsearch, hfound⟩ := search_eq hc hinput hwork hlt
      refine endsWithin_of_step (n := 2 * fuel + 1 + 1) ?_
      rw [lzEncStep, hph]
      dsimp only
      rw [searchStep, if_pos (by rwa [hwork.inLen hinput]), hsearch]
      rw [Reference.tokensFrom, hv] at hwhole
      dsimp only at hwhole
      rw [← hfound] at hwhole
      have hmin := minMatch_pos hc
      by_cases hmatch : best.toNat ≥ s0.cfg.MIN_MATCH
      · rw [if_pos hmatch, List.flatMap_cons, ← List.append_assoc, BitVec.ofNat_toNat, BitVec.ofNat_toNat,
          BitVec.setWidth_eq, BitVec.setWidth_eq] at hwhole
        refine lzEnc_token hc hinput hwork.set rfl hv hfound (if_pos hmatch).symm hwhole fun t ht htph htip => ?_
        exact ih _ t htph (by rw [htip]; dsimp only; omega) ht (by rw [htip]; exact hwhole)
      · rw [if_neg hmatch, List.flatMap_cons, ← List.append_assoc] at hwhole
        refine lzEnc_token hc hinput hwork.set rfl hv hfound (if_neg hmatch).symm hwhole fun t ht htph htip => ?_
        exact ih _ t htph (by rw [htip]; dsimp only; omega) ht (by rw [htip]; exact hwhole)
    · rw [Reference.tokensFrom_of_le s0.cfg _ hge, List.flatMap_nil, List.append_nil] at hwhole
      rw [hwhole] at hwork
      exact (lzEnc_complete hinput hph hge hwork).more (by omega)

theorem lzEnc_ends (hc : s0.cfg.wf) (hout : s0.OUT.wf) (hentry : AtEntry s0) (hinput : InputIs s0 b) (hne : 1 ≤ b.length)
    (hcap : b.length ≤ s0.cfg.IN_CAP) : EndsWithin lzEncStep (LzEncEnds s0 b) (2 * b.length + 2) s0 := by
  have hwork := hentry.working hout
  refine endsWithin_of_step ?_
  rw [lzEncStep, hentry.phase_eq]
  dsimp only
  rw [entryChecks_passed hinput hne hcap]
  exact lzEnc_tokens hc hinput b.length [] _ rfl (by simp) hwork.set rfl

end LzEnc

/-- Settles O44: each search finds the reference match, and each token emitted is the reference token. -/
theorem lzEncRuns : Obligations.LzEncRuns := by
  unfold Obligations.LzEncRuns
  intro s b hc hout hentry hinput
  obtain ⟨t, ht, hends⟩ := exec_endsAs (i := .lzEnc) rfl hentry hout hinput (by omega) (lzEnc_ends hc hout hentry hinput)
  exact ⟨t, ht, hends, exec_hostSideKept rfl ht, exec_rleKept (.inr (.inr rfl)) ht,
    exec_treeKept (.inr (.inr (.inl rfl))) ht, exec_packerKept rfl ht nofun, exec_walkKept rfl ht nofun,
    exec_windowKept rfl ht nofun⟩

end Sys2Proof.Machine
end

section
/-! # LZ77: the decoder against the reference function (45_lz77_decode.md R220 to R227) -/

namespace Sys2Proof.Machine

/-! ## The reference decoder, token by token (R221 to R224) -/

/-- The checks of a MATCH (R223), as one condition. -/
abbrev BadMatch (c : Config) (offset : BitVec 16) (length : Byte) (decoded : Nat) : Prop :=
  offset.toNat = 0 ∨ offset.toNat > c.W ∨ length.toNat = 0 ∨ length.toNat > c.M ∨ offset.toNat > decoded

namespace Reference

theorem lzExpanded_nil (c : Config) (fuel : Nat) (out : List Byte) : lzExpanded c fuel [] out = .ok out := by
  cases fuel <;> rfl

section
variable (c : Config) (fuel : Nat) (out : List Byte) {bytes rest : List Byte}

theorem lzExpanded_lit {v : Byte} (h : decode .lz bytes = .ok (.lit v, rest)) :
    lzExpanded c (fuel + 1) bytes out =
      if out.length = c.OUT_CAP then .err .capacityOverflow else lzExpanded c fuel rest (out ++ [v]) := by
  cases bytes with
  | nil => cases h
  | cons m ops => simp only [lzExpanded, h]

theorem lzExpanded_matchRef {offset : BitVec 16} {length : Byte}
    (h : decode .lz bytes = .ok (.matchRef offset length, rest)) :
    lzExpanded c (fuel + 1) bytes out =
      if BadMatch c offset length out.length then .err .invalidInput
      else (copied c offset.toNat length.toNat out).elim (.err .capacityOverflow) (lzExpanded c fuel rest) := by
  cases bytes with
  | nil => cases h
  | cons m ops =>
    simp only [lzExpanded, h]
    cases copied c offset.toNat length.toNat out <;> rfl

theorem lzExpanded_error {m : Byte} {e : DecodeError} (h : decode .lz (m :: rest) = .error e) :
    lzExpanded c (fuel + 1) (m :: rest) out = .err .invalidInput := by simp only [lzExpanded, h]

end

end Reference

/-! ## The window (R225, R226) -/

/-- The window holds the last W bytes of an output, the newest of them just behind wp. -/
structure Windowed (out : List Byte) (s : State) : Prop where
  canonical : s.WIN.wf
  pointer : s.wp.toNat = out.length % s.cfg.W
  recent : ∀ d, d < min out.length s.cfg.W →
    s.WIN.read ((s.wp.toNat + (s.cfg.W - (d + 1))) % s.cfg.W) = out[out.length - (d + 1)]?

section Window
variable {s0 s : State} {out : List Byte}

/-- Updates of other registers do not matter. -/
theorem Windowed.set {t : State} (h : Windowed out s) (hcfg : t.cfg = s.cfg := by rfl) (hwin : t.WIN = s.WIN := by rfl)
    (hwp : t.wp = s.wp := by rfl) : Windowed out t := by
  constructor
  · rw [hwin]; exact h.canonical
  · rw [hwp, hcfg]; exact h.pointer
  · rw [hwin, hwp, hcfg]; exact h.recent

theorem Windowed.push (hc : s.cfg.wf) (h : Windowed out s) (v : Byte) : Windowed (out ++ [v]) (pushWindow v s) := by
  obtain ⟨-, -, ⟨hW, hWmax⟩, -⟩ := hc
  have hlt : s.wp.toNat < s.cfg.W := by rw [h.pointer]; exact Nat.mod_lt _ hW
  have hwp : (pushWindow v s).wp.toNat = (s.wp.toNat + 1) % s.cfg.W := by
    have := Nat.mod_lt (s.wp.toNat + 1) hW
    exact Nat.mod_eq_of_lt (by omega)
  refine ⟨Memory.wf_write _ _ h.canonical, ?_, fun d hd => ?_⟩
  · rw [hwp, h.pointer, Nat.mod_add_mod, List.length_append]
    rfl
  · rw [List.length_append, List.length_singleton] at hd ⊢
    rw [hwp, pushWindow_cfg] at *
    rw [mod_shift (by omega), pushWindow_WIN, Memory.read_write _ _ _ _ h.canonical]
    cases d with
    | zero =>
      rw [if_pos (by rw [Nat.sub_zero, Nat.add_mod_right, Nat.mod_eq_of_lt hlt]), Nat.add_sub_cancel]
      exact List.getElem?_concat_length.symm
    | succ d =>
      rw [if_neg (mod_ne_self hlt (by omega) (by omega)), h.recent d (by omega), List.getElem?_append_left (by omega)]
      congr 1
      omega

/-- What stands `off` bytes behind the end of the output is read from the window. -/
theorem Windowed.read_copySource (h : Windowed out s) (hpos : 1 ≤ s.off.toNat) (hW : s.off.toNat ≤ s.cfg.W)
    (hout : s.off.toNat ≤ out.length) :
    s.WIN.read (copySource s) = some (out.getD (out.length - s.off.toNat) 0) := by
  have hread := h.recent (s.off.toNat - 1) (by omega)
  rw [Nat.sub_add_cancel hpos] at hread
  rw [copySource, hread, List.getElem?_eq_getElem (by omega), List.getD_eq_getElem _ _ (by omega)]

/-- A byte that does not fit finds OUT full. -/
theorem Overflows.was_full {t : State} {v : Byte} (h : Overflows s0 (out ++ [v]) t) (hfits : out.length ≤ s0.cfg.OUT_CAP) :
    out.length = s0.cfg.OUT_CAP := by
  have hover := h.2
  rw [List.length_append, List.length_singleton] at hover
  omega

/-- A byte that was emitted found room. -/
theorem Working.had_room {v : Byte} (h : Working s0 (out ++ [v]) s) : out.length ≠ s0.cfg.OUT_CAP := by
  have hfits := h.fits
  rw [List.length_append, List.length_singleton] at hfits
  omega

/-- The end of an output, in OUT and in the window. -/
structure Appending (s0 : State) (out : List Byte) (s : State) : Prop where
  working : Working s0 out s
  windowed : Windowed out s

theorem Appending.append (hc : s0.cfg.wf) (h : Appending s0 out s) (v : Byte) :
    (append v s).Leaves (fun t => t = pushWindow v (pushOut v s) ∧ Appending s0 (out ++ [v]) t)
      (fun t => EndsRaised s0 t .capacityOverflow ∧ out.length = s0.cfg.OUT_CAP) fun _ => False := by
  obtain ⟨hwork, hwindow⟩ := h
  refine ((hwork.emit hc v).mono (fun _ h => h) (fun t ht => ⟨ht.1, ht.was_full hwork.fits⟩) fun _ h => h).bind ?_
  rintro t ⟨rfl, ht⟩
  refine ⟨rfl, ⟨ht.cfg, ht.input, ht.status, ht.op, ht.fits, ht.canonical, ht.emitted, ht.beyond⟩, ?_⟩
  exact Windowed.push (s := pushOut v s) (by rw [pushOut_cfg, hwork.cfg]; exact hc) hwindow.set v

theorem Appending.set {t : State} (h : Appending s0 out s) (ht : t.shared = s.shared := by rfl)
    (hwp : t.wp = s.wp := by rfl) : Appending s0 out t := by
  refine ⟨h.working.set ht, ?_⟩
  simp only [State.shared, Shared.mk.injEq] at ht
  obtain ⟨hcfg, -, -, -, -, -, -, -, hwin⟩ := ht
  exact h.windowed.set hcfg hwin hwp

end Window

/-! ## Tokens (R221 to R224) -/

section LzDec
variable {s0 s : State} {b rest out : List Byte}

/-- The fetch of an LZ77 token decodes the bytes that are left: the marker, the length check and the operands see what
`decode` sees (R221). -/
theorem fetchLz_of_drop (hwork : Working s0 out s) (hinput : InputIs s0 b) {m : Byte}
    (h : b.drop s.ip.toNat = m :: rest) : fetchLz s = fetchedFrom .lz (.ok (m :: rest)) := by
  obtain ⟨hlt, hm, hnext⟩ := next_of_drop h
  have hleft : b.length - s.ip.toNat = rest.length + 1 := by
    have := congrArg List.length h
    simpa using this
  simp only [fetchLz, hwork.readIn hinput hm, hwork.inLen hinput]
  by_cases h0 : m = 0
  · subst h0
    match rest, h with
    | [], _ => exact if_pos (by simp at hleft ⊢; omega)
    | v :: rest, h =>
      have hread : readIns s s.ip.toNat 2 = .ok [0, v] := hwork.readIns hinput [0, v] rest _ h
      refine (if_neg (by simp at hleft ⊢; omega)).trans ?_
      rw [hread]
      rfl
  · by_cases h1 : m = 1
    · subst h1
      match rest, h with
      | [], _ => exact if_pos (by simp at hleft ⊢; omega)
      | [_], _ => exact if_pos (by simp at hleft ⊢; omega)
      | [_, _], _ => exact if_pos (by simp at hleft ⊢; omega)
      | hi :: lo :: len :: rest, h =>
        have hread : readIns s s.ip.toNat 4 = .ok [1, hi, lo, len] := hwork.readIns hinput [1, hi, lo, len] rest _ h
        refine (if_neg (by simp at hleft ⊢; omega)).trans ?_
        rw [hread]
        rfl
    · simp only [lzTokenLength, fetchedFrom, decode, if_neg h0, if_neg h1]

/-- LD_COPY: the bytes of a MATCH are appended one by one, each read from the window. -/
theorem lzDec_copy (hc : s0.cfg.wf) {Q : State → Prop} {n : Nat} {ip : Word} {off : BitVec 16} (hpos : 1 ≤ off.toNat)
    (hW : off.toNat ≤ s0.cfg.W) (count : Nat) :
    ∀ (out : List Byte) (s : State), s.phase = .ldCopy → s.cnt.toNat = count → s.ip = ip → s.off = off →
      off.toNat ≤ out.length → Appending s0 out s →
      (Reference.copied s0.cfg off.toNat count out = none → ∀ t, EndsRaised s0 t .capacityOverflow → Q t) →
      (∀ out', Reference.copied s0.cfg off.toNat count out = some out' → ∀ t, Appending s0 out' t → t.phase = .ldToken →
        t.ip = ip + 4 → EndsWithin lzDecStep Q n t) →
      EndsWithin lzDecStep Q (n + max count 1) s := by
  induction count with
  | zero =>
    intro out s hph hcnt hip _ _ happ _ hnext
    refine endsWithin_of_step ?_
    rw [lzDecStep, hph]
    dsimp only
    rw [copyStep, if_neg (by omega)]
    exact hnext out rfl _ happ.set rfl (by rw [← hip]; rfl)
  | succ count ih =>
    intro out s hph hcnt hip hoff hout happ hraise hnext
    have hcfg := happ.working.cfg
    have hread := happ.windowed.read_copySource (by rwa [hoff]) (by rwa [hoff, hcfg]) (by rwa [hoff])
    rw [hoff] at hread
    rw [Reference.copied] at hraise hnext
    suffices h : EndsWithin lzDecStep Q (n + count + 1) s from h.more (by omega)
    refine endsWithin_of_step ?_
    rw [lzDecStep, hph]
    dsimp only
    rw [copyStep, if_pos (by omega), hread]
    dsimp only
    refine ((happ.append hc _).mono (fun _ h => h) (fun t ht => hraise (if_pos ht.2) t ht.1) fun _ h => h).bind ?_
    rintro t ⟨rfl, ht⟩
    rw [if_neg ht.working.had_room] at hraise hnext
    split
    · rename_i hlast
      rw [pushWindow_cnt, pushOut_cnt, hcnt] at hlast
      obtain rfl : count = 0 := by omega
      exact (hnext _ rfl _ ht.set rfl (by rw [← hip]; rfl)).more (by omega)
    · rename_i hmore
      rw [pushWindow_cnt, pushOut_cnt, hcnt] at hmore
      have hcnt' : (s.cnt - 1).toNat = count := by
        rw [BitVec.toNat_sub_of_le (BitVec.le_def.2 (by simp; omega))]
        simp
        omega
      refine (ih _ { pushWindow _ (pushOut _ s) with cnt := s.cnt - 1 } hph hcnt' hip hoff ?_ ht.set hraise hnext).more
        (by omega)
      rw [List.length_append]
      omega

/-- The end of LZ.DEC with the given bytes left to decode onto what is decoded so far. -/
abbrev LzDecEnds (s0 : State) (fuel : Nat) (rest out : List Byte) (t : State) : Prop :=
  EndsAs s0 t (Reference.lzExpanded s0.cfg fuel rest out)

/-- The tokens that stand in an LZ77 stream. -/
theorem lzToken_cases {i : Instr} (h : streamOf i = .lz) :
    (∃ v, i = .lit v) ∨ ∃ offset length, i = .matchRef offset length := by
  cases i with
  | lit v => exact .inl ⟨v, rfl⟩
  | matchRef offset length => exact .inr ⟨offset, length, rfl⟩
  | _ => cases h

theorem Appending.raised (h : Appending s0 out s) (e : ErrKind) : EndsRaised s0 { s with ERR := e, STATE := .error } e :=
  h.working.raised e

/-- A LIT token is appended, and the next token is due. -/
theorem lzDec_lit (hc : s0.cfg.wf) {v : Byte} {fuel n : Nat} (happ : Appending s0 out s) (hph : s.phase = .ldToken)
    {bytes : List Byte} (hdecode : decode .lz bytes = .ok (.lit v, rest))
    (hnext : ∀ t, Appending s0 (out ++ [v]) t → t.phase = .ldToken → t.ip = s.ip + 2 →
      EndsWithin lzDecStep (LzDecEnds s0 fuel rest (out ++ [v])) n t) :
    (beginLit v s).Leaves (EndsWithin lzDecStep (LzDecEnds s0 (fuel + 1) bytes out) n)
      (LzDecEnds s0 (fuel + 1) bytes out) fun _ => False := by
  unfold LzDecEnds
  rw [Reference.lzExpanded_lit _ _ _ hdecode]
  refine ((happ.append hc v).mono (fun _ h => h) (fun t ht => ?_) fun _ h => h).bind ?_
  · rw [if_pos ht.2]
    exact ht.1
  · rintro t ⟨rfl, ht⟩
    rw [if_neg ht.working.had_room]
    exact hnext _ ht.set hph rfl

theorem beginMatch_of_bad {offset : BitVec 16} {length : Byte} (h : BadMatch s.cfg offset length s.op.toNat) :
    beginMatch offset length s = raise .invalidInput { s with off := offset, len := length } := by
  unfold BadMatch at h
  unfold beginMatch
  dsimp only
  split_ifs
  · rfl
  · rfl
  · rfl
  · omega

theorem beginMatch_of_good {offset : BitVec 16} {length : Byte} (h : ¬BadMatch s.cfg offset length s.op.toNat) :
    beginMatch offset length s = .go { s with off := offset, len := length, cnt := length, phase := .ldCopy } := by
  unfold BadMatch at h
  unfold beginMatch
  dsimp only
  rw [if_neg (by omega), if_neg (by omega), if_neg (by omega)]

/-- A MATCH token is checked and copied, and the next token is due. -/
theorem lzDec_match (hc : s0.cfg.wf) {offset : BitVec 16} {length : Byte} {fuel n : Nat} (happ : Appending s0 out s)
    {bytes : List Byte} (hdecode : decode .lz bytes = .ok (.matchRef offset length, rest))
    (hnext : ∀ out' t, Appending s0 out' t → t.phase = .ldToken → t.ip = s.ip + 4 →
      EndsWithin lzDecStep (LzDecEnds s0 fuel rest out') n t) :
    (beginMatch offset length s).Leaves (EndsWithin lzDecStep (LzDecEnds s0 (fuel + 1) bytes out) (n + 255))
      (LzDecEnds s0 (fuel + 1) bytes out) fun _ => False := by
  have hcfg := happ.working.cfg
  have hop := happ.working.op
  unfold LzDecEnds
  rw [Reference.lzExpanded_matchRef _ _ _ hdecode]
  by_cases hbad : BadMatch s0.cfg offset length out.length
  · rw [if_pos hbad, beginMatch_of_bad (by rwa [hcfg, hop])]
    exact (happ.set (t := { s with off := offset, len := length })).raised _
  · rw [if_neg hbad, beginMatch_of_good (by rwa [hcfg, hop])]
    unfold BadMatch at hbad
    have := length.isLt
    have hmore : n + max length.toNat 1 ≤ n + 255 := by omega
    refine EndsWithin.more ?_ hmore
    refine lzDec_copy hc (off := offset) (ip := s.ip) (by omega) (by omega) length.toNat out _ rfl rfl rfl rfl (by omega)
      happ.set (fun hnone t ht => ?_) fun out' hsome t ht htph htip => ?_
    · rw [hnone]
      exact ht
    · rw [hsome]
      exact hnext out' t ht htph htip

/-- LD_TOKEN, to the end of the input. -/
theorem lzDec_tokens (hc : s0.cfg.wf) (hinput : InputIs s0 b) (fuel : Nat) :
    ∀ (rest out : List Byte) (s : State), s.phase = .ldToken → b.drop s.ip.toNat = rest → rest.length ≤ fuel →
      Appending s0 out s → EndsWithin lzDecStep (LzDecEnds s0 fuel rest out) (300 * rest.length + 1) s := by
  have hend : ∀ (fuel : Nat) (out : List Byte) (s : State), s.phase = .ldToken → b.drop s.ip.toNat = [] →
      Appending s0 out s → EndsWithin lzDecStep (LzDecEnds s0 fuel [] out) 1 s := by
    intro fuel out s hph hleft happ
    refine endsWithin_of_step ?_
    rw [lzDecStep, hph]
    dsimp only
    rw [lzTokenStep, if_neg (happ.working.not_lt_of_drop_nil hinput hleft)]
    unfold LzDecEnds
    rw [Reference.lzExpanded_nil]
    exact happ.working.completed
  induction fuel with
  | zero =>
    intro rest out s hph hleft hfuel happ
    obtain rfl := List.length_eq_zero_iff.1 (Nat.le_zero.1 hfuel)
    exact hend 0 out s hph hleft happ
  | succ fuel ih =>
    intro rest out s hph hleft hfuel happ
    cases rest with
    | nil => exact hend _ out s hph hleft happ
    | cons m rest =>
      obtain ⟨hlt, -, -⟩ := next_of_drop hleft
      have hlen := happ.working.inLen hinput
      have hleftlen : b.length - s.ip.toNat = rest.length + 1 := by
        have := congrArg List.length hleft
        simpa using this
      suffices h : EndsWithin lzDecStep (LzDecEnds s0 (fuel + 1) (m :: rest) out) (300 * rest.length + 300 + 1) s from
        h.more (by simp; omega)
      refine endsWithin_of_step ?_
      rw [lzDecStep, hph]
      dsimp only
      rw [lzTokenStep, if_pos (by rwa [hlen]), fetchLz_of_drop happ.working hinput hleft, fetchedFrom]
      cases hdecode : decode .lz (m :: rest) with
      | error e =>
        unfold LzDecEnds
        rw [Reference.lzExpanded_error _ _ _ hdecode]
        exact happ.raised _
      | ok decoded =>
        obtain ⟨i, tail⟩ := decoded
        obtain ⟨hstream, hbytes⟩ := encode_of_decode_lz hdecode
        have hbyteslen := congrArg List.length hbytes
        rw [List.length_append, List.length_cons] at hbyteslen
        rw [List.length_cons] at hfuel
        have hdrop : b.drop (s.ip.toNat + (encode i).length) = tail := by
          rw [← List.drop_drop, hleft, hbytes, List.drop_left]
        rcases lzToken_cases hstream with ⟨v, rfl⟩ | ⟨offset, length, rfl⟩
        · have hsize : (encode (.lit v)).length = 2 := rfl
          rw [hsize] at hbyteslen hdrop
          have hip : (s.ip + 2).toNat = s.ip.toNat + 2 := ip_add_two (by rw [hlen]; omega)
          refine (lzDec_lit hc (n := 300 * tail.length + 1) happ hph hdecode fun t ht htph htip => ?_).mono
            (fun _ h => h.more (by omega)) (fun _ h => h) fun _ h => h
          exact ih tail _ t htph (by rw [htip, hip, hdrop]) (by omega) ht
        · have hsize : (encode (.matchRef offset length)).length = 4 := rfl
          rw [hsize] at hbyteslen hdrop
          have hip : (s.ip + 4).toNat = s.ip.toNat + 4 := ip_add_four (by rw [hlen]; omega)
          refine (lzDec_match hc (n := 300 * tail.length + 1) happ hdecode fun out' t ht htph htip => ?_).mono
            (fun _ h => h.more (by omega)) (fun _ h => h) fun _ h => h
          exact ih tail _ t htph (by rw [htip, hip, hdrop]) (by omega) ht

theorem lzDec_ends (hc : s0.cfg.wf) (hout : s0.OUT.wf) (hwin : s0.WIN.wf) (hentry : AtEntry s0) (hinput : InputIs s0 b)
    (hne : 1 ≤ b.length) (hcap : b.length ≤ s0.cfg.IN_CAP) :
    EndsWithin lzDecStep (fun t => EndsAs s0 t (Reference.codec s0.cfg .lzDec b)) (300 * b.length + 2) s0 := by
  have hwork := hentry.working hout
  refine endsWithin_of_step ?_
  rw [lzDecStep, hentry.phase_eq]
  dsimp only
  rw [entryChecks_passed hinput hne hcap]
  have hwindow : Windowed [] { s0 with ip := 0, wp := 0, phase := .ldToken } :=
    ⟨hwin, by simp, fun d hd => absurd hd (by simp)⟩
  exact lzDec_tokens hc hinput b.length b [] _ rfl rfl (Nat.le_refl _) ⟨hwork.set, hwindow⟩

end LzDec

/-- Settles O47: token by token the output grows as the reference decodes, with the window in step. -/
theorem lzDecRuns : Obligations.LzDecRuns := by
  unfold Obligations.LzDecRuns
  intro s b hc hout hwin hentry hinput
  obtain ⟨t, ht, hends⟩ := exec_endsAs (i := .lzDec) rfl hentry hout hinput (by omega) (lzDec_ends hc hout hwin hentry hinput)
  have hframe := exec_frame rfl ht
  exact ⟨t, ht, hends, exec_hostSideKept rfl ht, (congrArg State.cur hframe :),
    exec_treeKept (.inr (.inr (.inr rfl))) ht, exec_packerKept rfl ht nofun, exec_walkKept rfl ht nofun,
    exec_matcherKept rfl ht nofun⟩

/-! ## The round trip (R227, 70_reset_and_hazards.md R274) -/

namespace Reference

/-- A copy of bytes that repeat what stands `off` back gives the next bytes of the input. -/
theorem copied_take {c : Config} {b : List Byte} (hcap : b.length ≤ c.OUT_CAP) {off : Nat} (len : Nat) :
    ∀ p, 1 ≤ off → off ≤ p → p + len ≤ b.length → (∀ i, i < len → b[p - off + i]? = b[p + i]?) →
      copied c off len (b.take p) = some (b.take (p + len)) := by
  induction len with
  | zero => exact fun _ _ _ _ _ => rfl
  | succ len ih =>
    intro p hpos hoff hlen hrepeats
    have htake : (b.take p).length = p := List.length_take_of_le (by omega)
    have hbyte : (b.take p).getD (p - off) 0 = b[p] := by
      have hcopy := hrepeats 0 (by omega)
      rw [Nat.add_zero, Nat.add_zero, List.getElem?_eq_getElem (by omega), List.getElem?_eq_getElem (by omega)] at hcopy
      rw [List.getD_eq_getElem _ _ (by omega), List.getElem_take]
      exact Option.some.inj hcopy
    rw [copied, htake, if_neg (by omega), hbyte, List.take_concat_get' _ _ (by omega), ih (p + 1) hpos (by omega) (by omega)
      fun i hi => ?_]
    · rw [Nat.add_right_comm, Nat.add_assoc]
    · have hnext := hrepeats (i + 1) (by omega)
      rwa [show p - off + (i + 1) = p + 1 - off + i by omega, show p + (i + 1) = p + 1 + i by omega] at hnext

/-- The tokens from a position on, decoded onto the input up to there, give the input. -/
theorem lzExpanded_tokensFrom {c c' : Config} {b : List Byte} (hc : c.wf) (hW : c.W ≤ c'.W) (hM : c.M ≤ c'.M)
    (hcap : b.length ≤ c'.OUT_CAP) (n : Nat) :
    ∀ p fuel, b.length ≤ p + n → ((tokensFrom c b n p).flatMap encode).length ≤ fuel →
      lzExpanded c' fuel ((tokensFrom c b n p).flatMap encode) (b.take p) = .ok b := by
  induction n with
  | zero =>
    intro p fuel hp _
    rw [tokensFrom, List.flatMap_nil, lzExpanded_nil, List.take_of_length_le (by omega)]
  | succ n ih =>
    intro p fuel hp hfuel
    rcases Nat.lt_or_ge p b.length with hlt | hge
    · have hv : b[p]? = some b[p] := List.getElem?_eq_getElem hlt
      have htake : (b.take p).length = p := List.length_take_of_le (by omega)
      have hmin := minMatch_pos hc
      obtain ⟨-, -, ⟨-, hWmax⟩, ⟨-, hMmax⟩, -⟩ := hc
      rw [tokensFrom, hv] at hfuel ⊢
      dsimp only at hfuel ⊢
      split at hfuel
      · rename_i hmatch
        obtain ⟨⟨hlen, hlenM, hfits⟩, ⟨hoff, hoffW, hoffp⟩, hrepeats⟩ := goodMatch_of_bestMatch (c := c) (by omega) hlt
        rw [if_pos hmatch, List.flatMap_cons]
        rw [List.flatMap_cons, List.length_append] at hfuel
        have hsize : (encode (.matchRef (BitVec.ofNat 16 (bestMatch c b p).2) (BitVec.ofNat 8 (bestMatch c b p).1))).length =
          4 := rfl
        rw [hsize] at hfuel
        obtain ⟨fuel, rfl⟩ := Nat.exists_eq_add_of_le' (Nat.le_trans (Nat.le_add_right _ _) hfuel)
        have hoff' : (BitVec.ofNat 16 (bestMatch c b p).2).toNat = (bestMatch c b p).2 := Nat.mod_eq_of_lt (by omega)
        have hlen' : (BitVec.ofNat 8 (bestMatch c b p).1).toNat = (bestMatch c b p).1 := Nat.mod_eq_of_lt (by omega)
        have hgood : ¬BadMatch c' (BitVec.ofNat 16 (bestMatch c b p).2) (BitVec.ofNat 8 (bestMatch c b p).1)
            (b.take p).length := by
          unfold BadMatch
          rw [hoff', hlen', htake]
          omega
        rw [lzExpanded_matchRef c' (fuel + 3) _ (decode_encode_matchRef _ _ _), if_neg hgood, hoff', hlen',
          copied_take hcap _ _ hoff hoffp hfits hrepeats]
        exact ih _ _ (by omega) (by omega)
      · rename_i hlit
        rw [if_neg hlit, List.flatMap_cons]
        rw [List.flatMap_cons, List.length_append] at hfuel
        have hsize : (encode (.lit b[p])).length = 2 := rfl
        rw [hsize] at hfuel
        obtain ⟨fuel, rfl⟩ := Nat.exists_eq_add_of_le' (Nat.le_trans (Nat.le_add_right _ _) hfuel)
        rw [lzExpanded_lit c' (fuel + 1) _ (v := b[p]) rfl, htake, if_neg (by omega), List.take_concat_get' _ _ hlt]
        exact ih _ _ (by omega) (by omega)
    · rw [tokensFrom_of_le c _ hge, List.flatMap_nil, lzExpanded_nil, List.take_of_length_le hge]

/-- What LZ.ENC gives, LZ.DEC gives back, on a machine with other capacities, a larger window and a larger maximum length
too. -/
theorem run_lzDec_of_run_lzEnc {c c' : Config} {b e : List Byte} (hc : c.wf) (hW : c.W ≤ c'.W) (hM : c.M ≤ c'.M)
    (h : run c .lzEnc b = .ok e) (hin : e.length ≤ c'.IN_CAP) (hout : b.length ≤ c'.OUT_CAP) :
    run c' .lzDec e = .ok b := by
  unfold run at h
  split_ifs at h with hzero _
  simp only [codec, withinCapacity] at h
  split_ifs at h
  cases h
  have hexpanded : lzExpanded c' (lzEncoded c b).length (lzEncoded c b) [] = .ok b :=
    lzExpanded_tokensFrom hc hW hM hout b.length 0 _ (by omega) (Nat.le_refl _)
  have hpos : (lzEncoded c b).length ≠ 0 := fun hlen => by
    rw [List.length_eq_zero_iff.1 hlen, lzExpanded_nil] at hexpanded
    cases hexpanded
    exact hzero rfl
  rw [run, if_neg hpos, if_neg (by omega), codec, hexpanded]

end Reference

end Sys2Proof.Machine
end

section
/-! # HUF.ENC against the reference function (42_huffman_encode.md R160 to R170) -/

namespace Sys2Proof.Machine

/-! ## The frequency table (R161) -/

theorem getElem?_countByte (freq : FreqTable) (v : Byte) (x : Nat) :
    (countByte freq v)[x]? = if x = v.toNat then freq[x]?.map (· + 1) else freq[x]? := by
  have hv : freq[v.toNat]? = some freq[v.toNat] := Vector.getElem?_eq_getElem v.isLt
  rw [countByte, hv]
  dsimp only
  rw [Vector.getElem?_setIfInBounds]
  by_cases hx : x = v.toNat
  · rw [if_pos hx, if_pos hx.symm, if_pos v.isLt, hx, hv]
    rfl
  · rw [if_neg hx, if_neg (Ne.symm hx)]

/-- Counting bytes one by one adds up their counts. -/
theorem getElem?_foldl_countByte (bytes : List Byte) {x : Nat} (hx : x < 256) (freq : FreqTable) :
    (bytes.foldl countByte freq)[x]? = freq[x]?.map (· + BitVec.ofNat 32 (bytes.count (BitVec.ofNat 8 x))) := by
  induction bytes generalizing freq with
  | nil => simp
  | cons v bytes ih =>
    have hv : x = v.toNat ↔ v = BitVec.ofNat 8 x := by
      rw [← BitVec.toNat_inj, BitVec.toNat_ofNat, Nat.mod_eq_of_lt hx, eq_comm]
    rw [List.foldl_cons, ih, getElem?_countByte, List.count_cons]
    by_cases h : x = v.toNat
    · rw [if_pos h, if_pos (beq_iff_eq.2 (hv.1 h)), Option.map_map]
      congr 1
      funext w
      rw [Function.comp_apply, BitVec.ofNat_add, BitVec.add_assoc, BitVec.add_comm 1]
      rfl
    · rw [if_neg h, if_neg fun heq => h (hv.2 (beq_iff_eq.1 heq)), Nat.add_zero]

/-- The table before a byte is counted. -/
def noCounts : FreqTable := Vector.replicate 256 0

theorem getElem?_freqOf (b : List Byte) {x : Nat} (hx : x < 256) :
    (Reference.freqOf b)[x]? = some (BitVec.ofNat 32 (b.count (BitVec.ofNat 8 x))) := by
  rw [Reference.freqOf, getElem?_tableOf _ hx]
  simp [hx]

/-- HE_FREQ counts what the reference table counts. -/
theorem foldl_countByte_eq_freqOf (b : List Byte) : b.foldl countByte noCounts = Reference.freqOf b := by
  ext1 x hx
  have hcount := getElem?_foldl_countByte b hx noCounts
  rw [show noCounts[x]? = some 0 by rw [noCounts, Vector.getElem?_replicate, if_pos hx], Option.map_some] at hcount
  rw [← Option.some_inj, ← Vector.getElem?_eq_getElem, ← Vector.getElem?_eq_getElem, getElem?_freqOf b hx, hcount]
  exact congrArg some (BitVec.zero_add _)

theorem freqSum_foldl_countByte (bytes : List Byte) (freq : FreqTable) (h : freqSum freq + bytes.length < 2 ^ 32) :
    freqSum (bytes.foldl countByte freq) = freqSum freq + bytes.length := by
  induction bytes generalizing freq with
  | nil => rfl
  | cons v bytes ih =>
    rw [List.length_cons] at h ⊢
    have hone := freqSum_count freq v (by omega)
    rw [List.foldl_cons, ih _ (by omega), hone]
    omega

theorem freqSum_noCounts : freqSum noCounts = 0 := by
  rw [freqSum, noCounts, Vector.toList_replicate, List.map_replicate, List.sum_replicate]
  rfl

/-- The counts of an input sum to its length. -/
theorem freqSum_freqOf {b : List Byte} (h : b.length < 2 ^ 32) : freqSum (Reference.freqOf b) = b.length := by
  rw [← foldl_countByte_eq_freqOf, freqSum_foldl_countByte _ _ (by rw [freqSum_noCounts]; omega), freqSum_noCounts,
    Nat.zero_add]

/-- The table of an input with a byte has a leaf. -/
theorem leafCount_freqOf {b : List Byte} (hne : 1 ≤ b.length) (h : b.length < 2 ^ 32) :
    leafCount (Reference.freqOf b) ≠ 0 := fun hzero => by
  have := leafCount_zero _ hzero
  rw [freqSum_freqOf h] at this
  omega

/-! ## The bit-packer (R167, R168) -/

/-- Bits shifted into an empty accumulator, the first of them highest. -/
def accOf (few : List Bool) : Byte := few.foldl (fun acc c => acc <<< 1 ||| (BitVec.ofBool c).setWidth 8) 0

theorem accOf_append_singleton (few : List Bool) (c : Bool) :
    accOf (few ++ [c]) = accOf few <<< 1 ||| (BitVec.ofBool c).setWidth 8 := List.foldl_concat ..

/-- Eight bits shifted in are the byte. -/
theorem accOf_eight (c0 c1 c2 c3 c4 c5 c6 c7 : Bool) :
    accOf [c0, c1, c2, c3, c4, c5, c6, c7] = Reference.byteOfBits c0 c1 c2 c3 c4 c5 c6 c7 := by
  revert c0 c1 c2 c3 c4 c5 c6 c7
  decide

/-- The eighth bit completes a byte. -/
theorem packed_of_seven {few : List Bool} (h : few.length = 7) (c : Bool) (rest : List Bool) :
    Reference.packed (few ++ c :: rest) = accOf (few ++ [c]) :: Reference.packed rest := by
  match few, h with
  | [c0, c1, c2, c3, c4, c5, c6], _ =>
    refine Eq.trans ?_ (congrArg (· :: Reference.packed rest) (accOf_eight c0 c1 c2 c3 c4 c5 c6 c).symm)
    rw [List.cons_append, List.cons_append, List.cons_append, List.cons_append, List.cons_append, List.cons_append,
      List.cons_append, List.nil_append, Reference.packed]

/-- Zero bits shifted in. -/
theorem accOf_append_zeros (few : List Bool) (k : Nat) : accOf (few ++ List.replicate k false) = accOf few <<< k := by
  induction k with
  | zero => simp
  | succ k ih =>
    rw [List.replicate_succ', ← List.append_assoc, accOf_append_singleton, ih, BitVec.shiftLeft_add]
    simp

/-- The last bits, padded with zeros (R168). -/
theorem packed_partial {few : List Bool} (hne : few ≠ []) (h : few.length < 8) :
    Reference.packed few = [accOf few <<< (8 - few.length)] := by
  have hfew : ∀ c0 c1 c2 c3 c4 c5 c6 c7 rest, few ≠ c0 :: c1 :: c2 :: c3 :: c4 :: c5 :: c6 :: c7 :: rest := by
    rintro c0 c1 c2 c3 c4 c5 c6 c7 rest rfl
    simp at h
    omega
  have hpad : few ++ List.replicate (8 - few.length) false =
      [few.getD 0 false, few.getD 1 false, few.getD 2 false, few.getD 3 false, few.getD 4 false, few.getD 5 false,
        few.getD 6 false, few.getD 7 false] := by
    match few, hne, h with
    | [_], _, _ | [_, _], _, _ | [_, _, _], _, _ | [_, _, _, _], _, _ | [_, _, _, _, _], _, _ | [_, _, _, _, _, _], _, _
    | [_, _, _, _, _, _, _], _, _ => rfl
  rw [packed_few hne hfew, ← accOf_append_zeros, hpad, accOf_eight]

/-- The accumulator holds the bits not yet emitted. -/
structure Packing (few : List Bool) (s : State) : Prop where
  short : few.length < 8
  nbits : s.nbits.toNat = few.length
  acc : s.acc = accOf few

section HufEnc
variable {s0 s : State} {b out : List Byte} {whole : List Byte}

/-- Bits are packed: what is emitted, with the bits in the accumulator and those to come packed behind it, is the same whole. -/
structure PacksTo (s0 : State) (whole : List Byte) (more : List Bool) (s : State) : Prop where
  output : ∃ out few, Working s0 out s ∧ Packing few s ∧ out ++ Reference.packed (few ++ more) = whole

theorem packBit_packs (hc : s0.cfg.wf) {c : Bool} {more : List Bool} (h : PacksTo s0 whole (c :: more) s) :
    (packBit c s).Leaves
      (fun t => (∃ mem op acc n, t = { s with OUT := mem, op := op, acc := acc, nbits := n }) ∧ PacksTo s0 whole more t)
      (Overflows s0 whole) fun _ => False := by
  obtain ⟨out, few, hwork, ⟨hshort, hnbits, hacc⟩, hwhole⟩ := h
  have hnew := accOf_append_singleton few c
  rw [← hacc] at hnew
  unfold packBit
  dsimp only
  rw [← hnew, hnbits]
  split
  · rename_i hseven
    rw [packed_of_seven hseven, List.append_cons] at hwhole
    refine (((hwork.set (t := { s with acc := accOf (few ++ [c]) })).emit hc _).mono (fun _ h => h)
      (fun _ h => h.of_prefix ⟨_, hwhole⟩) fun _ h => h).bind ?_
    rintro t ⟨rfl, ht⟩
    exact ⟨⟨_, _, _, _, rfl⟩, _, [], ht.set, ⟨by simp, rfl, rfl⟩, hwhole⟩
  · rename_i hfew
    have hnext : (s.nbits + 1).toNat = few.length + 1 := by
      rw [BitVec.toNat_add, hnbits]
      exact Nat.mod_eq_of_lt (show few.length + 1 < 8 by omega)
    refine ⟨⟨_, _, _, _, rfl⟩, out, few ++ [c], hwork.set, ⟨by simp; omega, by simpa using hnext, rfl⟩, ?_⟩
    rwa [List.append_assoc]

theorem packBits_pack (hc : s0.cfg.wf) {more : List Bool} (bits : List Bool) :
    ∀ s, PacksTo s0 whole (bits ++ more) s → (packBits bits s).Leaves
      (fun t => (∃ mem op acc n, t = { s with OUT := mem, op := op, acc := acc, nbits := n }) ∧ PacksTo s0 whole more t)
      (Overflows s0 whole) fun _ => False := by
  induction bits with
  | nil => exact fun s h => ⟨⟨_, _, _, _, rfl⟩, h⟩
  | cons c bits ih =>
    intro s h
    refine (packBit_packs hc h).bind ?_
    rintro t ⟨⟨mem, op, acc, n, rfl⟩, ht⟩
    refine (ih _ ht).mono ?_ (fun _ h => h) fun _ h => h
    rintro u ⟨⟨mem', op', acc', n', rfl⟩, hu⟩
    exact ⟨⟨_, _, _, _, rfl⟩, hu⟩

/-! ## The phases -/

/-- FREQ, K and ROOT are those of the input. -/
structure TablesOf (b : List Byte) (s : State) : Prop where
  freq : s.FREQ = Reference.freqOf b
  count : s.K = BitVec.ofNat 9 (leafCount (Reference.freqOf b))
  root : s.ROOT = BitVec.ofNat 9 (rootOf (Reference.freqOf b))

/-- How HUF.ENC ends, past the entry checks. -/
structure HufEncEnds (s0 : State) (b : List Byte) (t : State) : Prop where
  ends : EndsAs s0 t (Reference.codec s0.cfg .hufEnc b)
  tables : t.STATE = .done → TablesOf b t

theorem Overflows.hufEncEnds {t : State} (h : Overflows s0 (Reference.hufEncoded b) t) : HufEncEnds s0 b t :=
  ⟨h.endsAs, fun hdone => by cases h.1.1.symm.trans hdone⟩

/-- HE_FLUSH. -/
theorem hufEnc_flush (hc : s0.cfg.wf) (hph : s.phase = .heFlush) (htables : TablesOf b s)
    (h : PacksTo s0 (Reference.hufEncoded b) [] s) : EndsWithin hufEncStep (HufEncEnds s0 b) 1 s := by
  obtain ⟨out, few, hwork, ⟨hshort, hnbits, hacc⟩, hwhole⟩ := h
  rw [List.append_nil] at hwhole
  have hcomplete : ∀ t, Working s0 (Reference.hufEncoded b) t → TablesOf b t →
      HufEncEnds s0 b { t with OUT_LEN := t.op, STATE := .done } := fun t ht htab =>
    ⟨ht.completed_endsAs, fun _ => ⟨htab.freq, htab.count, htab.root⟩⟩
  refine endsWithin_of_step ?_
  rw [hufEncStep, hph]
  dsimp only
  rw [flushStep, hnbits, hacc]
  by_cases hne : few = []
  · subst hne
    rw [Reference.packed, List.append_nil] at hwhole
    exact hcomplete s (hwhole ▸ hwork) htables
  · rw [packed_partial hne hshort] at hwhole
    rw [if_pos (List.length_pos_iff.2 hne)]
    have hemit := hwork.emit hc (accOf few <<< (8 - few.length))
    rw [hwhole] at hemit
    refine (hemit.mono (fun _ h => h) (fun _ h => h.hufEncEnds) fun _ h => h).bind ?_
    rintro t ⟨rfl, ht⟩
    exact hcomplete _ ht ⟨htables.freq, htables.count, htables.root⟩

/-- HE_PACK, to the end of the input. -/
theorem hufEnc_pack (hc : s0.cfg.wf) (hinput : InputIs s0 b) (rest : List Byte) :
    ∀ s, s.phase = .hePack → b.drop s.ip.toNat = rest → TablesOf b s →
      (∀ x, codeBits s.CODE s.LEN x = Reference.codeOf (Reference.freqOf b) x) →
      PacksTo s0 (Reference.hufEncoded b) (rest.flatMap (Reference.codeOf (Reference.freqOf b))) s →
      EndsWithin hufEncStep (HufEncEnds s0 b) (rest.length + 2) s := by
  induction rest with
  | nil =>
    intro s hph hleft htables _ hpack
    obtain ⟨out, few, hwork, hpacking, hwhole⟩ := hpack
    refine endsWithin_of_step ?_
    rw [hufEncStep, hph]
    dsimp only
    rw [packStep, if_neg (hwork.not_lt_of_drop_nil hinput hleft)]
    exact hufEnc_flush hc rfl ⟨htables.freq, htables.count, htables.root⟩
      ⟨out, few, hwork.set, ⟨hpacking.short, hpacking.nbits, hpacking.acc⟩, hwhole⟩
  | cons v rest ih =>
    intro s hph hleft htables hcodes hpack
    obtain ⟨out, few, hwork, -, -⟩ := hpack.output
    obtain ⟨hlt, hv, hnext⟩ := next_of_drop hleft
    refine endsWithin_of_step ?_
    rw [hufEncStep, hph]
    dsimp only
    rw [packStep, if_pos (by rwa [hwork.inLen hinput]), hwork.readIn hinput hv, Flow.onRead_ok, hcodes v]
    rw [List.flatMap_cons] at hpack
    refine ((packBits_pack hc _ s hpack).mono (fun _ h => h) (fun _ h => h.hufEncEnds) fun _ h => h).bind ?_
    rintro t ⟨⟨mem, op, acc, n, rfl⟩, out', few', hwork', hpacking', hwhole'⟩
    refine ih _ hph ?_ ⟨htables.freq, htables.count, htables.root⟩ hcodes
      ⟨out', few', hwork'.set, ⟨hpacking'.short, hpacking'.nbits, hpacking'.acc⟩, hwhole'⟩
    show b.drop (s.ip + 1).toNat = rest
    rw [hwork.ip_succ hinput hlt, hnext]

/-- HE_HDR and HE_CODE, over the tree of the input in whatever NODE and CODE held. -/
theorem hufEnc_header (hc : s0.cfg.wf) (hinput : InputIs s0 b) (hne : 1 ≤ b.length) (hph : s.phase = .heHdr)
    (htables : TablesOf b s) {nodes : NodeTable} (hnodes : s.NODE = (grow (Reference.freqOf b) nodes).NODE)
    (hwork : Working s0 [] s) : EndsWithin hufEncStep (HufEncEnds s0 b) (b.length + 4) s := by
  have hlen : s.IN_LEN = BitVec.ofNat 32 b.length := by
    rw [← hwork.inLen hinput, BitVec.ofNat_toNat, BitVec.setWidth_eq]
  have hlt : b.length < 2 ^ 32 := by
    rw [← hinput.1]
    exact s0.IN_LEN.isLt
  refine endsWithin_of_step (n := b.length + 3) ?_
  rw [hufEncStep, hph]
  dsimp only
  rw [headerStep, hlen, htables.freq]
  refine ((hwork.emitAll hc _).mono (fun _ h => h) (fun _ h => (h.of_prefix ⟨_, rfl⟩).hufEncEnds) fun _ h => h).bind ?_
  rintro t ⟨⟨mem, op, rfl⟩, ht⟩
  refine endsWithin_of_step (n := b.length + 2) ?_
  dsimp only [hufEncStep]
  refine hufEnc_pack hc hinput b _ rfl rfl ⟨htables.freq, htables.count, htables.root⟩ (fun x => ?_)
    ⟨_, [], ht.set, ⟨by simp, rfl, rfl⟩, rfl⟩
  have hcodes := (treeIsAFunctionOfFreqAlone (Reference.freqOf b) nodes s.CODE (leafCount_freqOf hne hlt)).2 x
  dsimp only
  rw [htables.root, toNat_rootOf, hnodes]
  exact hcodes

/-- HE_FREQ, to the end of the input, and HE_TREE. -/
theorem hufEnc_count (hc : s0.cfg.wf) (hinput : InputIs s0 b) (hne : 1 ≤ b.length) (rest : List Byte) :
    ∀ s, s.phase = .heFreq → b.drop s.ip.toNat = rest → rest.foldl countByte s.FREQ = Reference.freqOf b →
      Working s0 [] s → EndsWithin hufEncStep (HufEncEnds s0 b) (rest.length + 1 + 1 + (b.length + 4)) s := by
  induction rest with
  | nil =>
    intro s hph hleft hfreq hwork
    rw [List.foldl_nil] at hfreq
    have hlt : b.length < 2 ^ 32 := by
      rw [← hinput.1]
      exact s0.IN_LEN.isLt
    suffices h : EndsWithin hufEncStep (HufEncEnds s0 b) (b.length + 4 + 1 + 1) s from h.more (by omega)
    refine endsWithin_of_step ?_
    rw [hufEncStep, hph]
    dsimp only
    rw [freqStep, if_neg (hwork.not_lt_of_drop_nil hinput hleft)]
    refine endsWithin_of_step ?_
    dsimp only [hufEncStep]
    rw [buildTree, if_neg (by rw [hfreq]; exact leafCount_freqOf hne hlt)]
    refine hufEnc_header hc hinput hne rfl ⟨hfreq, ?_, ?_⟩ (nodes := s.NODE) ?_ hwork.set
    · rw [← hfreq]; rfl
    · rw [← hfreq]; rfl
    · rw [← hfreq]; rfl
  | cons v rest ih =>
    intro s hph hleft hfreq hwork
    obtain ⟨hlt, hv, hnext⟩ := next_of_drop hleft
    suffices h : EndsWithin hufEncStep (HufEncEnds s0 b) (rest.length + 1 + 1 + (b.length + 4) + 1) s from
      h.more (by rw [List.length_cons]; omega)
    refine endsWithin_of_step ?_
    rw [hufEncStep, hph]
    dsimp only
    rw [freqStep, if_pos (by rwa [hwork.inLen hinput]), hwork.readIn hinput hv, Flow.onRead_ok]
    refine ih _ hph ?_ hfreq hwork.set
    show b.drop (s.ip + 1).toNat = rest
    rw [hwork.ip_succ hinput hlt, hnext]

theorem hufEnc_ends (hc : s0.cfg.wf) (hout : s0.OUT.wf) (hentry : AtEntry s0) (hinput : InputIs s0 b) (hne : 1 ≤ b.length)
    (hcap : b.length ≤ s0.cfg.IN_CAP) : EndsWithin hufEncStep (HufEncEnds s0 b) (2 * b.length + 7) s0 := by
  have hwork := hentry.working hout
  suffices h : EndsWithin hufEncStep (HufEncEnds s0 b) (b.length + 1 + 1 + (b.length + 4) + 1) s0 from h.more (by omega)
  refine endsWithin_of_step ?_
  rw [hufEncStep, hentry.phase_eq]
  dsimp only
  rw [entryChecks_passed hinput hne hcap]
  exact hufEnc_count hc hinput hne b _ rfl rfl (foldl_countByte_eq_freqOf b) hwork.set

end HufEnc

/-- Settles O37: the table counts the input, the tree's codes are the reference codes (O34), and the packer emits the payload
behind the header. -/
theorem hufEncRuns : Obligations.HufEncRuns := by
  unfold Obligations.HufEncRuns
  intro s b hc hout hentry hinput
  obtain ⟨t, ht, hends, htables⟩ := exec_endsAs_and (i := .hufEnc) (P := fun t => t.STATE = .done → TablesOf b t) rfl hentry
    hout hinput (n := 2 * b.length + 7) (by omega) (fun _ => nofun) fun hne hcap =>
      (hufEnc_ends hc hout hentry hinput hne hcap).mono fun t ht => ⟨ht.ends, ht.tables⟩
  refine ⟨t, ht, hends, exec_hostSideKept rfl ht, exec_rleKept (.inl rfl) ht, exec_walkKept rfl ht nofun,
    exec_matcherKept rfl ht nofun, exec_windowKept rfl ht nofun, fun hdone => ?_⟩
  obtain ⟨hfreq, hcount, hroot⟩ := htables hdone
  have hle := leafCount_le (Reference.freqOf b)
  rw [hfreq, hcount, hroot, toNat_rootOf]
  exact ⟨rfl, Nat.mod_eq_of_lt (by omega), rfl⟩

end Sys2Proof.Machine
end

section
/-! # HUF.DEC against the reference function (43_huffman_decode.md R180 to R186) -/

namespace Sys2Proof.Machine

/-! ## The bits of the payload (20_memory.md R67) -/

theorem getElem?_byteBits (v : Byte) {t : Nat} (ht : t < 8) : (byteBits v)[t]? = some (v.getMsbD t) := by
  interval_cases t <;> rfl

/-- Bit t of a payload is bit t mod 8 of its byte t div 8, the most significant first. -/
theorem getElem?_flatMap_byteBits (payload : List Byte) :
    ∀ t, (payload.flatMap byteBits)[t]? = payload[t / 8]?.map fun v => v.getMsbD (t % 8) := by
  induction payload with
  | nil => exact fun _ => rfl
  | cons v payload ih =>
    intro t
    rw [List.flatMap_cons]
    rcases Nat.lt_or_ge t 8 with hlt | hge
    · rw [List.getElem?_append_left (by rwa [length_byteBits]), getElem?_byteBits v hlt, Nat.div_eq_of_lt hlt,
        Nat.mod_eq_of_lt hlt]
      rfl
    · obtain ⟨u, rfl⟩ := Nat.exists_eq_add_of_le' hge
      rw [List.getElem?_append_right (by rwa [length_byteBits]), length_byteBits, Nat.add_sub_cancel, ih u,
        Nat.add_div_right u (by omega), Nat.add_mod_right]
      rfl

/-- The payload of an input. -/
def payloadOf (b : List Byte) : List Bool := (b.drop headerLength).flatMap byteBits

theorem length_payloadOf (b : List Byte) : (payloadOf b).length = 8 * (b.length - headerLength) := by
  rw [payloadOf, length_flatMap_byteBits, List.length_drop]

section HufDec
variable {s0 s : State} {b out : List Byte}

theorem payloadBit_eq (hwork : Working s0 out s) (hinput : InputIs s0 b) {t : Nat} {c : Bool}
    (h : (payloadOf b)[t]? = some c) : payloadBit s t = .ok c := by
  rw [payloadOf, getElem?_flatMap_byteBits, List.getElem?_drop] at h
  obtain ⟨v, hv, rfl⟩ := Option.map_eq_some_iff.1 h
  rw [payloadBit, hwork.readIn hinput hv]

/-! ## HD_WALK (R185) -/

/-- The symbols a walk from node x spells, behind what is decoded so far. -/
def decodedFrom (s : State) (bits : List Bool) (x : BitVec 9) (out : List Byte) : Reference.Result :=
  (Reference.walked s.NODE s.ROOT bits x (s.N.toNat - out.length)).elim (.err .invalidInput) fun more => .ok (out ++ more)

/-- Where all N symbols are decoded, nothing more is read (R186). -/
theorem decodedFrom_of_all {bits : List Bool} {x : BitVec 9} (h : s.N.toNat ≤ out.length) :
    decodedFrom s bits x out = .ok out := by
  rw [decodedFrom, Nat.sub_eq_zero_of_le h, Reference.walked.eq_1]
  exact congrArg _ (List.append_nil out)

/-- Where the bits run out, nothing is decoded. -/
theorem decodedFrom_nil {x : BitVec 9} (h : out.length < s.N.toNat) : decodedFrom s [] x out = .err .invalidInput := by
  obtain ⟨n, hn⟩ := Nat.exists_eq_succ_of_ne_zero (Nat.sub_ne_zero_of_lt h)
  rw [decodedFrom, hn]
  rfl

/-- One bit leads nowhere, to a leaf or to a node. -/
theorem decodedFrom_cons {c : Bool} {bits : List Bool} {x : BitVec 9} {nd : Node} (h : out.length < s.N.toNat)
    (hnd : s.NODE[x.toNat]? = some nd) :
    decodedFrom s (c :: bits) x out =
      if (if c then nd.right else nd.left) = noChild then .err .invalidInput
      else if isLeaf (if c then nd.right else nd.left).toNat then
        decodedFrom s bits s.ROOT (out ++ [(if c then nd.right else nd.left).setWidth 8])
      else decodedFrom s bits (if c then nd.right else nd.left) out := by
  obtain ⟨n, hn⟩ := Nat.exists_eq_succ_of_ne_zero (Nat.sub_ne_zero_of_lt h)
  have hn' : s.N.toNat - (out.length + 1) = n := by omega
  simp only [decodedFrom, hn, Reference.walked, hnd, List.length_append, List.length_singleton, hn']
  generalize (if c then nd.right else nd.left) = y
  split_ifs
  · rfl
  · rw [Option.elim_map]
    congr 1
    funext more
    simp
  · rfl

/-- HD_WALK at a node of the table, with some bits of the payload left. -/
structure WalkAt (s0 : State) (b out : List Byte) (bits : List Bool) (s : State) : Prop where
  working : Working s0 out s
  phase : s.phase = .hdWalk
  root : s.ROOT ≠ noChild
  node : s.node ≠ noChild
  decoded : out.length ≤ s.N.toNat
  room : s.N.toNat ≤ s0.cfg.OUT_CAP
  left : (payloadOf b).drop s.bitpos.toNat = bits
  inside : s.bitpos.toNat ≤ (payloadOf b).length

theorem exists_node {nodes : NodeTable} {x : BitVec 9} (h : x ≠ noChild) : ∃ nd, nodes[x.toNat]? = some nd := by
  have hlt : x.toNat < 511 := by
    have hne : x.toNat ≠ 511 := fun heq => h (BitVec.eq_of_toNat_eq heq)
    have := x.isLt
    omega
  exact ⟨_, Vector.getElem?_eq_getElem hlt⟩

/-- A bit that is left is the next one, and bitpos does not wrap behind it. -/
theorem WalkAt.next {c : Bool} {bits : List Bool} (hinput : InputIs s0 b) (h : WalkAt s0 b out (c :: bits) s) :
    s.bitpos.toNat ≠ 8 * (s.IN_LEN.toNat - headerLength) ∧ payloadBit s s.bitpos.toNat = .ok c ∧
      (payloadOf b).drop (s.bitpos + 1).toNat = bits ∧ (s.bitpos + 1).toNat ≤ (payloadOf b).length := by
  have hlen := h.working.inLen hinput
  have hpayload := length_payloadOf b
  have hlt : s.bitpos.toNat < (payloadOf b).length := by
    have hleft := congrArg List.length h.left
    rw [List.length_drop, List.length_cons] at hleft
    omega
  have hdrop := h.left
  rw [List.drop_eq_getElem_cons hlt] at hdrop
  cases hdrop
  have hnext : (s.bitpos + 1).toNat = s.bitpos.toNat + 1 := by
    have := s.IN_LEN.isLt
    rw [BitVec.toNat_add]
    exact Nat.mod_eq_of_lt (show s.bitpos.toNat + 1 < 2 ^ 35 by omega)
  exact ⟨by omega, payloadBit_eq h.working hinput (List.getElem?_eq_getElem hlt), by rw [hnext], by omega⟩

/-- One bit of the walk. -/
theorem walkBit_walks (hc : s0.cfg.wf) (hinput : InputIs s0 b) {c : Bool} {bits : List Bool} {n : Nat}
    (h : WalkAt s0 b out (c :: bits) s) (hmore : out.length < s.N.toNat)
    (hnext : ∀ out' t, WalkAt s0 b out' bits t → t.NODE = s.NODE → t.ROOT = s.ROOT → t.N = s.N →
      EndsWithin hufDecStep (fun u => EndsAs s0 u (decodedFrom t bits t.node out')) n t) :
    (walkBit c s).Leaves
      (EndsWithin hufDecStep (fun u => EndsAs s0 u (decodedFrom s (c :: bits) s.node out)) n)
      (fun u => EndsAs s0 u (decodedFrom s (c :: bits) s.node out)) fun _ => False := by
  obtain ⟨-, -, hleft, hinside⟩ := h.next hinput
  obtain ⟨hwork, hph, hroot, hnode, hdecoded, hroom, -, -⟩ := h
  obtain ⟨nd, hnd⟩ := exists_node (nodes := s.NODE) hnode
  rw [decodedFrom_cons hmore hnd, walkBit, hnd]
  dsimp only
  generalize (if c then nd.right else nd.left) = y
  unfold arrive
  by_cases hnone : y = noChild
  · rw [if_pos hnone, if_pos hnone]
    exact (hwork.set (t := takeBit s)).raised _
  · rw [if_neg hnone, if_neg hnone]
    by_cases hleaf : isLeaf y.toNat
    · rw [if_pos hleaf, if_pos hleaf]
      have hfits := hwork.fits
      refine (((hwork.set (t := { takeBit s with node := y })).emit hc (y.setWidth 8)).mono (fun _ h => h)
        (fun t ht => absurd (ht.was_full hfits) (by omega)) fun _ h => h).bind ?_
      rintro t ⟨rfl, ht⟩
      refine hnext (out ++ [y.setWidth 8]) _ ⟨ht.set, hph, hroot, hroot, ?_, hroom, hleft, hinside⟩ rfl rfl rfl
      rw [List.length_append, List.length_singleton]
      exact hmore
    · rw [if_neg hleaf, if_neg hleaf]
      exact hnext out _ ⟨hwork.set, hph, hroot, hnone, hdecoded, hroom, hleft, hinside⟩ rfl rfl rfl

/-- HD_WALK, until N symbols are decoded or the bits run out. -/
theorem hufDec_walk (hc : s0.cfg.wf) (hinput : InputIs s0 b) (bits : List Bool) :
    ∀ out s, WalkAt s0 b out bits s →
      EndsWithin hufDecStep (fun t => EndsAs s0 t (decodedFrom s bits s.node out)) (bits.length + 1) s := by
  induction bits with
  | nil =>
    intro out s h
    have hop := h.working.op
    refine endsWithin_of_step ?_
    rw [hufDecStep, h.phase]
    dsimp only
    rw [walkStep, hop]
    split
    · rename_i hmore
      have hpos : s.bitpos.toNat = 8 * (s.IN_LEN.toNat - headerLength) := by
        have hlen := h.working.inLen hinput
        have hpayload := length_payloadOf b
        have hleft := List.drop_eq_nil_iff.1 h.left
        have hinside := h.inside
        omega
      rw [if_pos hpos, decodedFrom_nil hmore]
      exact h.working.raised _
    · rw [decodedFrom_of_all (by omega)]
      exact h.working.completed
  | cons c bits ih =>
    intro out s h
    have hop := h.working.op
    refine endsWithin_of_step ?_
    rw [hufDecStep, h.phase]
    dsimp only
    rw [walkStep, hop]
    split
    · rename_i hmore
      obtain ⟨hpos, hbit, -, -⟩ := h.next hinput
      rw [if_neg hpos, hbit, Flow.onRead_ok]
      exact walkBit_walks hc hinput h hmore fun out' t ht _ _ _ => ih out' t ht
    · rw [decodedFrom_of_all (by omega)]
      exact h.working.completed

/-! ## HD_HDR and HD_TREE (R181 to R184) -/

/-- How HUF.DEC ends on a loaded header. -/
abbrev HufDecEnds (s0 : State) (b : List Byte) (total : Word) (freq : FreqTable) (t : State) : Prop :=
  EndsAs s0 t (Reference.hufDecoded s0.cfg total freq (b.drop headerLength))

/-- HD_TREE: the capacity check, the tree, and the walk from its root. -/
theorem hufDec_tree (hc : s0.cfg.wf) (hinput : InputIs s0 b) {total : Word} {freq : FreqTable} (hwork : Working s0 [] s)
    (hph : s.phase = .hdTree) (hN : s.N = total) (hfreq : s.FREQ = freq) (hsum : freqSum freq ≠ 0)
    (htotal : freqSum freq = total.toNat) :
    EndsWithin hufDecStep (HufDecEnds s0 b total freq) ((payloadOf b).length + 2) s := by
  have hcount : leafCount freq ≠ 0 := fun hzero => hsum (leafCount_zero _ hzero)
  refine endsWithin_of_step ?_
  rw [hufDecStep, hph]
  dsimp only
  unfold HufDecEnds
  rw [treeStep, Reference.hufDecoded, if_neg hsum, if_neg (not_not.2 htotal), hN, hwork.cfg]
  split
  · exact hwork.raised _
  · rename_i hroom
    rw [buildTree, if_neg (by rwa [hfreq])]
    have hroot := rootOf_ne_noChild freq
    have hwalk : WalkAt s0 b [] (payloadOf b) (enterWalk (plantTree s)) := by
      refine ⟨hwork.set, rfl, ?_, ?_, Nat.zero_le _, ?_, rfl, Nat.zero_le _⟩
      · rw [enterWalk_ROOT, plantTree_ROOT, hfreq]; exact hroot
      · rw [enterWalk_node, plantTree_ROOT, hfreq]; exact hroot
      · rw [enterWalk_N, plantTree_N, hN]; omega
    refine (hufDec_walk hc hinput _ _ _ hwalk).mono fun t ht => ?_
    have htree := (treeIsAFunctionOfFreqAlone freq s.NODE s.CODE hcount).1 (payloadOf b) total.toNat
    rw [decodedFrom, enterWalk_node, enterWalk_ROOT, enterWalk_NODE, enterWalk_N, plantTree_ROOT, plantTree_NODE, plantTree_N,
      hfreq, hN, List.length_nil, Nat.sub_zero, htree] at ht
    rw [← payloadOf]
    cases hwalked : Reference.walked (Reference.treeOf freq) (BitVec.ofNat 9 (rootOf freq)) (payloadOf b)
      (BitVec.ofNat 9 (rootOf freq)) total.toNat with
    | none => rw [hwalked] at ht; exact ht
    | some symbols => rw [hwalked] at ht; exact ht

/-- HD_HDR: the header is loaded and checked. -/
theorem hufDec_header (hc : s0.cfg.wf) (hinput : InputIs s0 b) (hwork : Working s0 [] s) (hph : s.phase = .hdHdr) :
    EndsWithin hufDecStep (fun t => EndsAs s0 t (Reference.codec s0.cfg .hufDec b)) ((payloadOf b).length + 3) s := by
  have hinput' : InputIs s b := by
    obtain ⟨hin, hlen⟩ := hwork.input
    rw [InputIs, hin, hlen]
    exact hinput
  refine endsWithin_of_step ?_
  rw [hufDecStep, hph]
  dsimp only
  rcases Nat.lt_or_ge b.length headerLength with hshort | hlong
  · have hdecode : decode .hufHeader b = .error .truncated := by rw [decode, if_pos hshort]
    rw [fetchHeader, if_pos (by rwa [hwork.inLen hinput]), Reference.codec, hdecode]
    exact hwork.raised _
  · obtain ⟨total, ws, hspells⟩ := exists_spellsHeader (List.length_take_of_le (l := b) hlong)
    have hdecode := hspells.decode_append (b.drop headerLength)
    rw [List.take_append_drop] at hdecode
    rw [fetchHeader_of_input hinput' hspells, Reference.codec, hdecode]
    dsimp only [Fetched.run, beginHufHeader]
    generalize tableOf ws = freq
    have hwork' : Working s0 [] (loadHeader total freq s) := hwork.set
    have hfsum : (loadHeader total freq s).fsum.toNat = freqSum freq := Nat.mod_eq_of_lt (freqSum_lt freq)
    rw [beginHeader, checkHeader, hfsum, loadHeader_N]
    by_cases hzero : freqSum freq = 0
    · rw [if_pos hzero, Reference.hufDecoded, if_pos hzero]
      exact hwork'.raised _
    · by_cases htotal : freqSum freq = total.toNat
      · rw [if_neg hzero, if_neg (not_not.2 htotal)]
        exact hufDec_tree hc hinput hwork'.set rfl rfl rfl hzero htotal
      · rw [if_neg hzero, if_pos htotal, Reference.hufDecoded, if_neg hzero, if_pos htotal]
        exact hwork'.raised _

theorem hufDec_ends (hc : s0.cfg.wf) (hout : s0.OUT.wf) (hentry : AtEntry s0) (hinput : InputIs s0 b) (hne : 1 ≤ b.length)
    (hcap : b.length ≤ s0.cfg.IN_CAP) :
    EndsWithin hufDecStep (fun t => EndsAs s0 t (Reference.codec s0.cfg .hufDec b)) (8 * b.length + 4) s0 := by
  have hwork := hentry.working hout
  have hpayload := length_payloadOf b
  suffices h : EndsWithin hufDecStep (fun t => EndsAs s0 t (Reference.codec s0.cfg .hufDec b))
    ((payloadOf b).length + 3 + 1) s0 from h.more (by omega)
  refine endsWithin_of_step ?_
  rw [hufDecStep, hentry.phase_eq]
  dsimp only
  rw [entryChecks_passed hinput hne hcap]
  exact hufDec_header hc hinput hwork.set rfl

end HufDec

/-- Settles O38: the checks come in the reference's order, and the walk spells what the reference walk does (O34). -/
theorem hufDecRuns : Obligations.HufDecRuns := by
  unfold Obligations.HufDecRuns
  intro s b hc hout hentry hinput
  obtain ⟨t, ht, hends⟩ := exec_endsAs (i := .hufDec) rfl hentry hout hinput (by omega) (hufDec_ends hc hout hentry hinput)
  exact ⟨t, ht, hends, exec_hostSideKept rfl ht, exec_rleKept (.inr (.inl rfl)) ht, exec_packerKept rfl ht nofun,
    exec_matcherKept rfl ht nofun, exec_windowKept rfl ht nofun⟩

end Sys2Proof.Machine
end

section
/-! # The Huffman decoder gives back what the encoder packed (40_command.md R131, 42_huffman_encode.md R166)

Every byte value that occurs is a leaf under the root, so the code assignment sets its code, and a set code is a path from the
root to its leaf, which the walk follows. -/

namespace Sys2Proof.Machine

/-! ## Paths through a tree -/

/-- The child that a bit of a code chooses: left is 0, right is 1. -/
def Node.child (nd : Node) (c : Bool) : BitVec 9 := if c then nd.right else nd.left

/-- A path of branches from the root to a node, through inner nodes. -/
inductive Descent (nodes : NodeTable) (root : Nat) : List Bool → Nat → Prop
  | root : Descent nodes root [] root
  | branch {path : List Bool} {x : Nat} {nd : Node} (c : Bool) (above : Descent nodes root path x) (inner : 256 ≤ x)
      (node : nodes[x]? = some nd) (child : nd.child c ≠ noChild) : Descent nodes root (path ++ [c]) (nd.child c).toNat

/-- Node y lies under node x. -/
inductive Under (nodes : NodeTable) (y : Nat) : Nat → Prop
  | self : Under nodes y y
  | branch {x : Nat} {nd : Node} (c : Bool) (inner : 256 ≤ x) (node : nodes[x]? = some nd)
      (below : Under nodes y (nd.child c).toNat) : Under nodes y x

/-- Every branch from an inner node up to the root leads to a smaller number, or nowhere. -/
def LeadsDown (nodes : NodeTable) (root : Nat) : Prop :=
  ∀ x nd, 256 ≤ x → x ≤ root → nodes[x]? = some nd → ∀ c, nd.child c ≠ noChild → (nd.child c).toNat < x

theorem isLeaf_eq_true {x : Nat} : isLeaf x = true ↔ x < 256 := decide_eq_true_iff

theorem lt_of_node {nodes : NodeTable} {x : Nat} {nd : Node} (h : nodes[x]? = some nd) : x < 511 :=
  (Vector.getElem?_eq_some_iff.1 h).1

section Tree
variable {nodes : NodeTable} {root x y : Nat} {path : List Bool} {book : CodeBook}

/-- A path gets shorter the higher its end stands. -/
theorem Descent.length_le (hdown : LeadsDown nodes root) (h : Descent nodes root path x) :
    x ≤ root ∧ path.length + (x - 255) ≤ root - 255 := by
  induction h with
  | root => exact ⟨Nat.le_refl _, by rw [List.length_nil]; omega⟩
  | branch c _ hinner hnode hchild ih =>
    have hlt := hdown _ _ hinner ih.1 hnode c hchild
    rw [List.length_append, List.length_singleton]
    omega

theorem Under.lt (hy : y < 256) (h : Under nodes y x) : x < 511 := by
  cases h with
  | self => omega
  | branch c hinner hnode hbelow => exact lt_of_node hnode

theorem ne_noChild_of_lt {z : BitVec 9} (h : z.toNat < 511) : z ≠ noChild := fun heq => by
  rw [heq] at h
  exact absurd h (by decide)

/-! ## The walk along a path (43_huffman_decode.md R185) -/

theorem toNat_ofNat_nine (h : x < 511) : (BitVec.ofNat 9 x).toNat = x := by
  rw [BitVec.toNat_ofNat]
  exact Nat.mod_eq_of_lt (by omega)

/-- The walk takes one branch. -/
theorem walked_branch (c : Bool) (bits : List Bool) (root : BitVec 9) (n : Nat) {nd : Node} (hnode : nodes[x]? = some nd)
    (hchild : nd.child c ≠ noChild) :
    Reference.walked nodes root (c :: bits) (BitVec.ofNat 9 x) (n + 1) =
      if isLeaf (nd.child c).toNat then (Reference.walked nodes root bits root n).map ((nd.child c).setWidth 8 :: ·)
      else Reference.walked nodes root bits (nd.child c) (n + 1) := by
  rw [Reference.walked, toNat_ofNat_nine (lt_of_node hnode), hnode]
  exact if_neg hchild

/-- The walk follows a path to an inner node. -/
theorem Descent.walked_inner (h : Descent nodes root path x) (n : Nat) :
    256 ≤ x → ∀ rest, Reference.walked nodes (BitVec.ofNat 9 root) (path ++ rest) (BitVec.ofNat 9 root) (n + 1) =
      Reference.walked nodes (BitVec.ofNat 9 root) rest (BitVec.ofNat 9 x) (n + 1) := by
  induction h with
  | root => exact fun _ _ => rfl
  | branch c _ hinner hnode hchild ih =>
    intro hx rest
    rw [List.append_assoc, ih hinner, List.singleton_append, walked_branch c rest _ n hnode hchild,
      if_neg (Bool.eq_false_iff.1 (isLeaf_eq_false.2 hx)), BitVec.ofNat_toNat, BitVec.setWidth_eq]

/-- The walk along the path to a leaf spells the leaf, and goes on at the root. -/
theorem Descent.walked_leaf (h : Descent nodes root path x) (hroot : 256 ≤ root) (hx : x < 256) (rest : List Bool) (n : Nat) :
    Reference.walked nodes (BitVec.ofNat 9 root) (path ++ rest) (BitVec.ofNat 9 root) (n + 1) =
      (Reference.walked nodes (BitVec.ofNat 9 root) rest (BitVec.ofNat 9 root) n).map (BitVec.ofNat 8 x :: ·) := by
  cases h with
  | root => omega
  | branch c habove hinner hnode hchild =>
    rw [List.append_assoc, habove.walked_inner n hinner, List.singleton_append, walked_branch c rest _ n hnode hchild,
      if_pos (isLeaf_eq_true.2 hx), BitVec.ofNat_toNat]

/-! ## The code assignment (42_huffman_encode.md R166) -/

/-- The code book holds a path to leaf y as its code. -/
def Coded (nodes : NodeTable) (root y : Nat) (book : CodeBook) : Prop :=
  ∃ path, Descent nodes root path y ∧ book.CODE[y]? = some path ∧ book.LEN[y]? = some (BitVec.ofNat 8 path.length)

theorem coded_set (hy : y < 256) (h : Descent nodes root path y) : Coded nodes root y (book.set y path) :=
  ⟨path, h, Vector.getElem?_setIfInBounds_self_of_lt hy, Vector.getElem?_setIfInBounds_self_of_lt hy⟩

theorem Coded.set (hy : y < 256) (h : Coded nodes root y book) (hdescent : Descent nodes root path x) :
    Coded nodes root y (book.set x path) := by
  by_cases hxy : x = y
  · subst hxy
    exact coded_set hy hdescent
  · obtain ⟨code, hcode, hbits, hlen⟩ := h
    exact ⟨code, hcode, (Vector.getElem?_setIfInBounds_ne hxy).trans hbits, (Vector.getElem?_setIfInBounds_ne hxy).trans hlen⟩

theorem assign_of_noChild (depth : Nat) (hx : x = noChild.toNat) : assign nodes depth x path book = book := by
  cases depth with
  | zero => rfl
  | succ depth => exact if_pos hx

theorem assign_of_leaf (depth : Nat) (hx : x < 256) : assign nodes (depth + 1) x path book = book.set x path := by
  have hsome : x ≠ noChild.toNat := Nat.ne_of_lt (hx.trans (by decide))
  rw [assign, if_neg hsome, if_pos (isLeaf_eq_true.2 hx)]

theorem assign_of_inner (depth : Nat) {nd : Node} (hx : 256 ≤ x) (hnode : nodes[x]? = some nd) :
    assign nodes (depth + 1) x path book =
      assign nodes depth (nd.child true).toNat (path ++ [true])
        (assign nodes depth (nd.child false).toNat (path ++ [false]) book) := by
  have hsome : x ≠ noChild.toNat := Nat.ne_of_lt (lt_of_node hnode)
  rw [assign, if_neg hsome, if_neg (Bool.eq_false_iff.1 (isLeaf_eq_false.2 hx)), hnode]
  rfl

/-- A path to an inner node goes on to each child that is there. -/
theorem Descent.child {nd : Node} (h : Descent nodes root path x) (hx : 256 ≤ x) (hnode : nodes[x]? = some nd) (c : Bool)
    (hchild : (nd.child c).toNat ≠ noChild.toNat) : Descent nodes root (path ++ [c]) (nd.child c).toNat :=
  .branch c h hx hnode fun heq => hchild (congrArg BitVec.toNat heq)

/-- A code once assigned stays a path to its leaf. -/
theorem Coded.assign (hy : y < 256) (depth : Nat) :
    ∀ x path book, (x ≠ noChild.toNat → Descent nodes root path x) → Coded nodes root y book →
      Coded nodes root y (assign nodes depth x path book) := by
  induction depth with
  | zero => exact fun _ _ _ _ h => h
  | succ depth ih =>
    intro x path book hdescent h
    by_cases hnone : x = noChild.toNat
    · rwa [assign_of_noChild _ hnone]
    · replace hdescent := hdescent hnone
      rcases Nat.lt_or_ge x 256 with hleaf | hinner
      · rw [assign_of_leaf depth hleaf]
        exact h.set hy hdescent
      · cases hnode : nodes[x]? with
        | none =>
          rw [Machine.assign, if_neg hnone, if_neg (Bool.eq_false_iff.1 (isLeaf_eq_false.2 hinner)), hnode]
          exact h
        | some nd =>
          rw [assign_of_inner depth hinner hnode]
          exact ih _ _ _ (hdescent.child hinner hnode true) (ih _ _ _ (hdescent.child hinner hnode false) h)

/-- The assignment reaches every leaf under its node. -/
theorem coded_assign (hdown : LeadsDown nodes root) (hy : y < 256) (depth : Nat) :
    ∀ x path book, Descent nodes root path x → Under nodes y x → 0 < depth → x < depth + 255 →
      Coded nodes root y (assign nodes depth x path book) := by
  induction depth with
  | zero => exact fun _ _ _ _ _ h => absurd h (Nat.lt_irrefl _)
  | succ depth ih =>
    intro x path book hdescent hunder _ hdepth
    cases hunder with
    | self =>
      rw [assign_of_leaf depth hy]
      exact coded_set hy hdescent
    | @branch _ nd c hinner hnode hbelow =>
      have hchild := ne_noChild_of_lt (hbelow.lt hy)
      have hlt := hdown x nd hinner (hdescent.length_le hdown).1 hnode c hchild
      have hcoded : ∀ book, Coded nodes root y (assign nodes depth (nd.child c).toNat (path ++ [c]) book) := fun book =>
        ih _ _ book (.branch c hdescent hinner hnode hchild) hbelow (by omega) (by omega)
      rw [assign_of_inner depth hinner hnode]
      cases c with
      | true => exact hcoded _
      | false => exact (hcoded book).assign hy depth _ _ _ (hdescent.child hinner hnode true)

end Tree

/-! ## Every byte value that occurs is under the root (42_huffman_encode.md R163, R164) -/

/-- Every byte value that occurs lies under a node that is still active. -/
def Rooted (freq : FreqTable) (f : Forest) : Prop :=
  ∀ y, y < 256 → 0 < occurrences freq y → ∃ x, f.active x = true ∧ Under f.NODE y x

section Rooted
variable {freq : FreqTable} {t : Nat} {f : Forest}

theorem rooted_leaves (freq : FreqTable) (nodes : NodeTable) : Rooted freq (leaves freq nodes) :=
  fun y hy hocc => ⟨y, active_leaves.2 ⟨hy, hocc⟩, .self⟩

/-- Both children of a node made so far have smaller numbers. -/
theorem Grown.child_lt (h : Grown freq t f) {x : Nat} {nd : Node} (hx : 256 ≤ x) (hxt : x < t) (hnode : f.NODE[x]? = some nd)
    (c : Bool) : (nd.child c).toNat < x := by
  obtain ⟨nd', hnode', -, hleft, hright⟩ := h.children x hx hxt
  cases hnode.symm.trans hnode'
  cases c with
  | true => exact hright
  | false => exact hleft

/-- What lies under a node made so far still does when one more is made. -/
theorem Grown.under_joined (h : Grown freq t f) {a b x y : Nat} (hunder : Under f.NODE y x) :
    x < t → Under (f.joined t a b).NODE y x := by
  induction hunder with
  | self => exact fun _ => .self
  | branch c hinner hnode _ ih =>
    intro hxt
    have hlt := h.child_lt hinner hxt hnode c
    exact .branch c hinner ((Forest.NODE_joined_other (by omega)).trans hnode) (ih (by omega))

theorem Rooted.merge (hrooted : Rooted freq f) (h : Grown freq t f) (ht : t + 1 < 256 + leafCount freq) (hge : 256 ≤ t) :
    Rooted freq (f.merge t) := by
  obtain ⟨a, b, hab⟩ := h.exists_takes ht
  have hlt := lt_of_merge ht
  have hnew : (f.joined t a b).active t = true := (Forest.active_joined hlt).2 (.inl rfl)
  rw [hab.merge_eq]
  intro y hy hocc
  obtain ⟨x, hactive, hunder⟩ := hrooted y hy hocc
  have hxt := h.below x hactive
  have hunder' := h.under_joined (a := a) (b := b) hunder hxt
  have hnumber := toNat_ofNat_nine (show x < 511 by omega)
  by_cases hxa : x = a
  · subst hxa
    refine ⟨t, hnew, .branch false hge (Forest.NODE_joined_same hlt) ?_⟩
    rwa [Node.child, if_neg Bool.false_ne_true, hnumber]
  · by_cases hxb : x = b
    · subst hxb
      refine ⟨t, hnew, .branch true hge (Forest.NODE_joined_same hlt) ?_⟩
      rwa [Node.child, if_pos rfl, hnumber]
    · exact ⟨x, (Forest.active_joined hlt).2 (.inr ⟨⟨hactive, hxa⟩, hxb⟩), hunder'⟩

theorem rooted_grow (nodes : NodeTable) (h : 2 ≤ leafCount freq) : Rooted freq (grow freq nodes) := by
  rw [grow_of_two_le nodes h]
  obtain ⟨-, -, hrooted⟩ := merges_induction (P := fun t f => 256 ≤ t ∧ Grown freq t f ∧ Rooted freq f)
    (fun t f ht ⟨hge, hgrown, hrooted⟩ => ⟨by omega, hgrown.merge ht, hrooted.merge hgrown ht hge⟩)
    (leafCount freq - 1) 256 (leaves freq nodes) (by omega)
    ⟨Nat.le_refl _, grown_leaves freq nodes, rooted_leaves freq nodes⟩
  exact hrooted

/-- With one byte value, node 256 has its leaf on the left and nothing on the right. -/
theorem node_grow_of_one (nodes : NodeTable) (h : leafCount freq = 1) :
    ∃ w a, a < 256 ∧ (∀ y, y < 256 → 0 < occurrences freq y → y = a) ∧
      (grow freq nodes).NODE[256]? = some { w := w, left := BitVec.ofNat 9 a, right := noChild } := by
  have hcard := (grown_leaves freq nodes).count
  obtain ⟨y, hy⟩ := Forest.exists_active (f := leaves freq nodes) (by omega)
  obtain ⟨a, ha⟩ := Forest.exists_lightest hy
  have hactive := Forest.active_of_lightest ha
  refine ⟨BitVec.ofNat 32 ((leaves freq nodes).weight a), a, (active_leaves.1 hactive).1, fun z hz hocc => ?_, ?_⟩
  · exact Finset.card_le_one.1 (show (leaves freq nodes).activeSet.card ≤ 1 by omega) z
      (Forest.mem_activeSet.2 (active_leaves.2 ⟨hz, hocc⟩)) a (Forest.mem_activeSet.2 hactive)
  · rw [grow, if_neg (by omega)]
    unfold Forest.single
    rw [ha]
    exact Forest.NODE_setNode_same _ (by omega)

theorem leadsDown_grow (nodes : NodeTable) (h : leafCount freq ≠ 0) : LeadsDown (grow freq nodes).NODE (rootOf freq) := by
  intro x nd hx hxroot hnode c hchild
  rcases Nat.lt_or_ge (leafCount freq) 2 with hone | htwo
  · obtain ⟨w, a, ha, -, hnode'⟩ := node_grow_of_one nodes (show leafCount freq = 1 by omega)
    have hroot : rootOf freq = 256 := by rw [rootOf]; omega
    obtain rfl : x = 256 := by omega
    cases hnode.symm.trans hnode'
    cases c with
    | true => exact absurd rfl hchild
    | false =>
      rw [Node.child, if_neg Bool.false_ne_true, toNat_ofNat_nine (by omega)]
      exact ha
  · exact (grown_grow nodes htwo).child_lt hx (by omega) hnode c

theorem under_root (nodes : NodeTable) {y : Nat} (hy : y < 256) (hocc : 0 < occurrences freq y) (h : leafCount freq ≠ 0) :
    Under (grow freq nodes).NODE y (rootOf freq) := by
  rcases Nat.lt_or_ge (leafCount freq) 2 with hone | htwo
  · obtain ⟨w, a, ha, honly, hnode⟩ := node_grow_of_one nodes (show leafCount freq = 1 by omega)
    obtain rfl := honly y hy hocc
    rw [show rootOf freq = 256 by rw [rootOf]; omega]
    refine .branch false (Nat.le_refl _) hnode ?_
    rw [Node.child, if_neg Bool.false_ne_true, toNat_ofNat_nine (by omega)]
    exact .self
  · obtain ⟨x, hactive, hunder⟩ := rooted_grow nodes htwo y hy hocc
    have hx := Forest.mem_activeSet.2 hactive
    rw [activeSet_grow nodes htwo, Finset.mem_singleton] at hx
    exact hx ▸ hunder

end Rooted

/-! ## The round trip (R131) -/

theorem leafCount_ne_zero {freq : FreqTable} {y : Nat} (hy : y < 256) (hocc : 0 < occurrences freq y) : leafCount freq ≠ 0 := by
  rw [leafCount_eq_card]
  exact Finset.card_ne_zero_of_mem (Finset.mem_filter.2 ⟨Finset.mem_range.2 hy, hocc⟩)

/-- The code of a byte value that occurs is a path from the root to its leaf (R166). -/
theorem descent_codeOf {freq : FreqTable} {v : Byte} (hocc : 0 < occurrences freq v.toNat) :
    Descent (Reference.treeOf freq) (rootOf freq) (Reference.codeOf freq v) v.toNat := by
  have hcount := leafCount_ne_zero v.isLt hocc
  have hdown := leadsDown_grow Reference.blankNodes hcount
  have hroot := rootOf_lt freq
  obtain ⟨path, hpath, hcode, hlen⟩ : Coded (Reference.treeOf freq) (rootOf freq) v.toNat
      (codesOf (Reference.treeOf freq) (rootOf freq) (Vector.replicate 256 [])) :=
    coded_assign hdown v.isLt _ _ _ _ .root (under_root _ v.isLt hocc hcount) (by decide) (by omega)
  have hshort := (hpath.length_le hdown).2
  rw [Reference.codeOf, codeBits, hcode, hlen]
  dsimp only
  rwa [BitVec.toNat_ofNat, Nat.mod_eq_of_lt (by omega), List.take_length]

namespace Reference

/-- The walk over the codes of a buffer spells the buffer. -/
theorem walked_codes {freq : FreqTable} (rest : List Bool) (b : List Byte) (hocc : ∀ v ∈ b, 0 < occurrences freq v.toNat) :
    walked (treeOf freq) (BitVec.ofNat 9 (rootOf freq)) (b.flatMap (codeOf freq) ++ rest) (BitVec.ofNat 9 (rootOf freq))
      b.length = some b := by
  induction b with
  | nil => exact walked.eq_1 _ _ _ _
  | cons v b ih =>
    rw [List.flatMap_cons, List.append_assoc, List.length_cons,
      (descent_codeOf (hocc v (List.mem_cons_self ..))).walked_leaf (rootOf_ge freq) v.isLt,
      ih fun w hw => hocc w (List.mem_cons_of_mem v hw), BitVec.ofNat_toNat, BitVec.setWidth_eq]
    rfl

/-- Unpacking a packed stream gives it back, before its padding. -/
theorem prefix_flatMap_packed (bits : List Bool) : bits <+: (packed bits).flatMap byteBits := by
  rw [List.prefix_iff_getElem?]
  intro t ht
  have hbit := (payloadBitOrder bits).2.1 t ht
  rw [List.getElem?_eq_getElem ht] at hbit
  rw [getElem?_flatMap_byteBits, ← hbit]
  refine congrArg (Option.map · _) (funext fun v => ?_)
  rw [BitVec.getMsbD, decide_eq_true (show t % 8 < 8 by omega), Bool.true_and, show 8 - 1 - t % 8 = 7 - t % 8 by omega]

theorem occurrences_freqOf {b : List Byte} {v : Byte} (hv : v ∈ b) (h : b.length < 2 ^ 32) :
    0 < occurrences (freqOf b) v.toNat := by
  have hcount := List.count_le_length (a := v) (l := b)
  have hpos := List.count_pos_iff.2 hv
  rw [occurrences_eq (getElem?_freqOf b v.isLt), BitVec.ofNat_toNat, BitVec.setWidth_eq, BitVec.toNat_ofNat,
    Nat.mod_eq_of_lt (by omega)]
  exact hpos

/-- What HUF.ENC gives, HUF.DEC gives back, on a machine with other capacities too. -/
theorem run_hufDec_of_run_hufEnc {c c' : Config} {b e : List Byte} (hc : c.wf) (h : run c .hufEnc b = .ok e)
    (hin : e.length ≤ c'.IN_CAP) (hout : b.length ≤ c'.OUT_CAP) : run c' .hufDec e = .ok b := by
  unfold run at h
  split_ifs at h with hzero hfits
  simp only [codec, withinCapacity] at h
  split_ifs at h
  cases h
  have hlength : b.length < 2 ^ 32 := by
    obtain ⟨⟨-, hcap⟩, -⟩ := hc
    omega
  obtain ⟨padding, hpadding⟩ := prefix_flatMap_packed (b.flatMap (codeOf (freqOf b)))
  have hpos : (hufEncoded b).length ≠ 0 := by
    rw [hufEncoded, List.length_append, headerBytes, Laws.EncodeLength.hufHdr]
    exact Nat.ne_of_gt (Nat.add_pos_left (Nat.zero_lt_succ _) _)
  have htotal : (BitVec.ofNat 32 b.length).toNat = b.length := by
    rw [BitVec.toNat_ofNat, Nat.mod_eq_of_lt (by omega)]
  rw [run, if_neg hpos, if_neg (by omega), codec, hufEncoded, headerBytes, decode_encode_hufHdr]
  dsimp only
  rw [hufDecoded, freqSum_freqOf hlength, htotal, if_neg hzero, if_neg (not_not.2 rfl), if_neg (by omega),
    ← hpadding, walked_codes padding b fun v hv => occurrences_freqOf hv hlength]

end Reference

end Sys2Proof.Machine
end

section
/-! # The six commands complete, and the decoders undo the encoders (40_command.md R126, R130, R131) -/

namespace Sys2Proof.Machine

/-- An operation that ends DONE ends with the reference function's output. -/
theorem exists_ok_of_endsAs {s t : State} {r : Reference.Result} (h : EndsAs s t r) (hdone : t.STATE = .done) :
    ∃ out, r = .ok out ∧ EndsDone s t out := by
  cases r with
  | ok out => exact ⟨out, rfl, h⟩
  | err e => exact absurd (h.1.symm.trans hdone) (by decide)

/-- What OUT reads as up to OUT_LEN is the output. -/
theorem eq_of_endsDone {s t : State} {out e : List Byte} (h : EndsDone s t out) (hlen : t.OUT_LEN.toNat = e.length)
    (hread : ∀ j, j < e.length → t.OUT.read j = e[j]?) : out = e := by
  obtain ⟨-, -, hlen', -, hread', -⟩ := h
  have hsame : out.length = e.length := hlen'.symm.trans hlen
  refine List.ext_getElem? fun j => ?_
  rcases Nat.lt_or_ge j e.length with hlt | hge
  · rw [← hread' j (hsame ▸ hlt), hread j hlt]
  · rw [List.getElem?_eq_none hge, List.getElem?_eq_none (hsame ▸ hge)]

/-- How each command ends, by the reference function (R130). -/
theorem command_endsAs {i : Instr} {s : State} {b : List Byte} (hcommand : isCommand i = true) (hc : s.cfg.wf)
    (hout : s.OUT.wf) (hwin : i = .lzDec → s.WIN.wf) (hentry : AtEntry s) (hinput : InputIs s b) :
    ∃ t, exec i s = .next t ∧ EndsAs s t (Reference.run s.cfg i b) := by
  rcases isCommand_iff.1 hcommand with rfl | rfl | rfl | rfl | rfl | rfl
  · obtain ⟨t, ht, hends, -⟩ := rleEncRuns s b hc hout hentry hinput
    exact ⟨t, ht, hends⟩
  · obtain ⟨t, ht, hends, -⟩ := hufEncRuns s b hc hout hentry hinput
    exact ⟨t, ht, hends⟩
  · obtain ⟨t, ht, hends, -⟩ := lzEncRuns s b hc hout hentry hinput
    exact ⟨t, ht, hends⟩
  · obtain ⟨t, ht, hends, -⟩ := rleDecRuns s b hc hout hentry hinput
    exact ⟨t, ht, hends⟩
  · obtain ⟨t, ht, hends, -⟩ := hufDecRuns s b hc hout hentry hinput
    exact ⟨t, ht, hends⟩
  · obtain ⟨t, ht, hends, -⟩ := lzDecRuns s b hc hout (hwin rfl) hentry hinput
    exact ⟨t, ht, hends⟩

/-- Settles O52: each command ends as the reference function says, which here gives an output. -/
theorem commandsComplete : Obligations.CommandsComplete := by
  unfold Obligations.CommandsComplete
  intro i s b out hi hc hout hwin hentry hinput hrun
  obtain ⟨t, ht, hends⟩ := command_endsAs (isCommand_iff.2 hi) hc hout (fun _ => hwin) hentry hinput
  rw [hrun] at hends
  exact ⟨t, ht, hends⟩

/-- On lists each decoder undoes its encoder. -/
theorem run_dec_of_run_enc {enc dec : Instr} {c : Config} {b e : List Byte}
    (hpair : (enc, dec) = (.rleEnc, .rleDec) ∨ (enc, dec) = (.hufEnc, .hufDec) ∨ (enc, dec) = (.lzEnc, .lzDec)) (hc : c.wf)
    (hrun : Reference.run c enc b = .ok e) (hin : e.length ≤ c.IN_CAP) (hout : b.length ≤ c.OUT_CAP) :
    Reference.run c dec e = .ok b := by
  rcases hpair with h | h | h <;> cases h
  · exact Reference.run_rleDec_of_run_rleEnc hrun hin hout
  · exact Reference.run_hufDec_of_run_hufEnc hc hrun hin hout
  · exact Reference.run_lzDec_of_run_lzEnc hc (Nat.le_refl _) (Nat.le_refl _) hrun hin hout

/-- Settles O53: on lists each decoder undoes its encoder, and the machine's encoders and decoders are those of the lists. -/
theorem roundTrip : Obligations.RoundTrip := by
  unfold Obligations.RoundTrip
  intro enc dec s s' t b e hpair hc hcfg hout hout' hwin' hentry hentry' hinput ht hdone hlen hread hinput' hin hfits
  obtain ⟨henc, hdec, hnotLzDec⟩ : isCommand enc = true ∧ isCommand dec = true ∧ enc ≠ .lzDec := by
    rcases hpair with h | h | h <;> cases h <;> decide
  obtain ⟨u, hu, hends⟩ := command_endsAs henc hc hout (fun h => absurd h hnotLzDec) hentry hinput
  cases ht.symm.trans hu
  obtain ⟨out, hrun, hended⟩ := exists_ok_of_endsAs hends hdone
  cases eq_of_endsDone hended hlen hread
  obtain ⟨t', ht', hends'⟩ := command_endsAs hdec (hcfg ▸ hc) hout' (fun _ => hwin') hentry' hinput'
  rw [hcfg, run_dec_of_run_enc hpair hc hrun hin hfits] at hends'
  exact ⟨t', ht', hends'⟩

end Sys2Proof.Machine
end

section
/-! # RLE: the shape of its output, its round trip and the RUN token (41_rle.md R143 to R148) -/

namespace Sys2Proof.Machine

/-! ## The shape of the output of RLE.ENC (R143) -/

namespace Reference

/-- The rule for the runs of a buffer: its bytes, from the last to the first, make the first run longer or begin a new one. -/
theorem runs_induction {P : List (Byte × Nat) → Prop} (nil : P [])
    (longer : ∀ v n more, P ((v, n) :: more) → P ((v, n + 1) :: more))
    (new : ∀ v rs, (∀ r ∈ rs.head?, v ≠ r.1) → P rs → P ((v, 1) :: rs)) (b : List Byte) : P (runs b) := by
  induction b with
  | nil => exact nil
  | cons v rest ih =>
    rw [runs]
    split
    · rename_i w n more hruns
      rw [hruns] at ih
      split
      · rename_i heq
        exact heq ▸ longer w n more ih
      · rename_i hne
        exact new v _ (by simpa using hne) ih
    · exact new v [] (by simp) nil

theorem one_le_of_mem_runs (b : List Byte) : ∀ r ∈ runs b, 1 ≤ r.2 := by
  refine runs_induction (P := fun rs => ∀ r ∈ rs, 1 ≤ r.2) nofun (fun v n more ih => ?_) (fun v rs _ ih => ?_) b
  · obtain ⟨-, hmore⟩ := List.forall_mem_cons.1 ih
    exact List.forall_mem_cons.2 ⟨Nat.le_add_left 1 n, hmore⟩
  · exact List.forall_mem_cons.2 ⟨Nat.le_refl 1, ih⟩

/-- The runs are maximal: neighbours have different values. -/
theorem isChain_runs (b : List Byte) : (runs b).IsChain fun r q => r.1 ≠ q.1 := by
  refine runs_induction .nil (fun v n more ih => ?_) (fun v rs hother ih => ?_) b
  · exact List.isChain_cons.2 (List.isChain_cons.1 ih)
  · exact List.isChain_cons.2 ⟨hother, ih⟩

theorem sum_runs (b : List Byte) : ((runs b).map Prod.snd).sum = b.length := by
  have hlength := congrArg List.length (flatMap_runs b)
  rw [List.length_flatMap] at hlength
  simpa only [List.length_replicate] using hlength

/-- A run of L bytes takes at most L pairs. -/
theorem length_rleEncoded_le (b : List Byte) : (rleEncoded b).length ≤ 2 * b.length := by
  rw [length_rleEncoded, ← sum_runs b]
  exact Nat.mul_le_mul_left 2 (List.sum_le_sum fun r hr => by have := one_le_of_mem_runs b r hr; omega)

/-- What the decoder expands to a byte or more is a pair or more. -/
theorem two_le_length_rleEncoded {b : List Byte} (h : b ≠ []) : 2 ≤ (rleEncoded b).length := by
  have hne : rleEncoded b ≠ [] := fun hnil => h (by rw [← rleExpanded_rleEncoded b, hnil]; rfl)
  have hpos := List.length_pos_of_ne_nil hne
  rw [length_rleEncoded] at hpos ⊢
  omega

/-- No pair of a list of pairs has the count 0. -/
def CountsNonzero (pairs : List Byte) : Prop := ∀ (i : Nat) (count : Byte), pairs[2 * i]? = some count → count ≠ 0

theorem countsNonzero_nil : CountsNonzero [] := nofun

theorem CountsNonzero.cons {count : Byte} {rest : List Byte} (hcount : count ≠ 0) (h : CountsNonzero rest) (v : Byte) :
    CountsNonzero (count :: v :: rest)
  | 0, _, hget => Option.some.inj hget ▸ hcount
  | i + 1, other, hget => h i other hget

/-- The full pairs have the count 255, and a remainder of 0 has no pair. -/
theorem CountsNonzero.pairsOfRun_append {rest : List Byte} (h : CountsNonzero rest) (v : Byte) (n : Nat) :
    CountsNonzero (pairsOfRun v n ++ rest) := by
  induction n using Nat.strongRecOn with
  | ind n ih =>
    rcases Nat.lt_or_ge n 255 with hlt | hge
    · rw [pairsOfRun_of_lt v hlt]
      split
      · exact h
      · exact h.cons (count := BitVec.ofNat 8 n) (by bv_omega) v
    · obtain ⟨m, rfl⟩ := Nat.exists_eq_add_of_le' hge
      rw [pairsOfRun_add_full]
      exact (ih m (by omega)).cons (count := 255) (by decide) v

theorem countsNonzero_rleEncoded (b : List Byte) : CountsNonzero (rleEncoded b) := by
  rw [rleEncoded]
  induction runs b with
  | nil => exact countsNonzero_nil
  | cons r rs ih => exact ih.pairsOfRun_append r.1 r.2

end Reference

/-- Settles O24: the lengths come from the lengths of the pairs of a run, the maximality from how a byte enters the runs. -/
theorem rleOutputShape : Obligations.RleOutputShape := by
  unfold Obligations.RleOutputShape
  intro b hne
  exact ⟨rfl, Reference.length_rleEncoded b, Reference.two_le_length_rleEncoded hne, Reference.length_rleEncoded_le b,
    Reference.countsNonzero_rleEncoded b, Reference.one_le_of_mem_runs b, Reference.isChain_runs b, Reference.flatMap_runs b⟩

/-- Settles O28: the expansion of the pairs of the runs is the buffer. -/
theorem rleRoundTrip : Obligations.RleRoundTrip := by
  unfold Obligations.RleRoundTrip
  intro c c' b e
  exact Reference.run_rleDec_of_run_rleEnc

/-! ## The RUN token (R146) -/

section RunToken
variable {s0 s t : State} {value : Byte} {n : Nat}

/-- A RUN token begun in s0 has filled OUT with its value from the op of s0 up to the op of s; nothing else is changed outside
the RLE engine and STATUS. -/
structure RunFills (s0 : State) (value : Byte) (s : State) : Prop where
  frame : (frameOf .rleDec s).hideStatus = (frameOf .rleDec s0).hideStatus
  cur : s.cur = value
  canonical : s.OUT.wf
  op_le : s0.op.toNat ≤ s.op.toNat
  fits : s.op.toNat ≤ s0.cfg.OUT_CAP
  filled : ∀ j, s0.op.toNat ≤ j → j < s.op.toNat → s.OUT.read j = some value
  kept : ∀ j, j < s0.op.toNat ∨ s.op.toNat ≤ j → s.OUT.read j = s0.OUT.read j

theorem RunFills.cfg (h : RunFills s0 value s) : s.cfg = s0.cfg := (congrArg State.cfg h.frame :)

section
variable (h : RunFills s0 value t)
include h

theorem RunFills.hostSideKept : HostSideKept s0 t :=
  ⟨(congrArg State.cfg h.frame :), (congrArg State.IN h.frame :), (congrArg State.IN_LEN h.frame :),
    (congrArg State.ALG h.frame :), (congrArg State.DIR h.frame :), (congrArg State.host h.frame :),
    (congrArg State.replies h.frame :), (congrArg State.freeCtr h.frame :)⟩

theorem RunFills.treeKept : TreeKept s0 t :=
  ⟨(congrArg State.FREQ h.frame :), (congrArg State.NODE h.frame :), (congrArg State.ROOT h.frame :),
    (congrArg State.K h.frame :), (congrArg State.ACTIVE h.frame :)⟩

theorem RunFills.packerKept : PackerKept s0 t :=
  ⟨(congrArg State.CODE h.frame :), (congrArg State.LEN h.frame :), (congrArg State.acc h.frame :),
    (congrArg State.nbits h.frame :)⟩

theorem RunFills.walkKept : WalkKept s0 t :=
  ⟨(congrArg State.N h.frame :), (congrArg State.node h.frame :), (congrArg State.bitpos h.frame :),
    (congrArg State.fsum h.frame :)⟩

theorem RunFills.matcherKept : MatcherKept s0 t :=
  ⟨(congrArg State.o h.frame :), (congrArg State.k h.frame :), (congrArg State.best h.frame :),
    (congrArg State.boff h.frame :)⟩

theorem RunFills.windowKept : WindowKept s0 t :=
  ⟨(congrArg State.WIN h.frame :), (congrArg State.wp h.frame :), (congrArg State.off h.frame :),
    (congrArg State.len h.frame :)⟩

end

/-- Updates of STATUS, the program counter and cnt do not matter. -/
theorem RunFills.set (h : RunFills s0 value s)
    (hframe : (frameOf .rleDec t).hideStatus = (frameOf .rleDec s).hideStatus := by rfl) (hcur : t.cur = s.cur := by rfl)
    (hout : t.OUT = s.OUT := by rfl) (hop : t.op = s.op := by rfl) : RunFills s0 value t := by
  obtain ⟨hframe', hcur', hcanonical, hle, hfits, hfilled, hkept⟩ := h
  rw [← hout] at hcanonical hfilled hkept
  rw [← hop] at hle hfits hfilled hkept
  exact ⟨hframe.trans hframe', hcur.trans hcur', hcanonical, hle, hfits, hfilled, hkept⟩

/-- One more byte of the value. -/
theorem RunFills.pushOut (hc : s0.cfg.wf) (h : RunFills s0 value s) (hroom : s.op.toNat < s0.cfg.OUT_CAP) :
    RunFills s0 value (pushOut value s) := by
  have hnext : (Machine.pushOut value s).op.toNat = s.op.toNat + 1 := toNat_op_succ (h.cfg ▸ hc) (h.cfg ▸ hroom)
  obtain ⟨hframe, hcur, hcanonical, hle, hfits, hfilled, hkept⟩ := h
  refine ⟨hframe, hcur, Memory.wf_write _ _ hcanonical, by omega, by omega, fun j hj hlt => ?_, fun j hj => ?_⟩ <;>
    rw [read_pushOut value hcanonical]
  · split
    · rfl
    · exact hfilled j hj (by omega)
  · rw [if_neg (by omega), hkept j (by omega)]

/-- The RUN token begun in s0 is done: from s, n bytes were still to be appended. -/
structure RunDone (s0 : State) (value : Byte) (n : Nat) (s t : State) : Prop where
  fills : RunFills s0 value t
  status : StatusKept s t
  op : t.op.toNat = s.op.toNat + n
  ip : t.ip = s.ip + 2
  cnt : t.cnt = 0
  phase : t.phase = .rdPair

/-- The RUN token begun in s0 has found OUT full: from s, n bytes were still to be appended. -/
structure RunOverflows (s0 : State) (value : Byte) (n : Nat) (s t : State) : Prop where
  fills : RunFills s0 value t
  status : t.STATE = .error ∧ t.ERR = .capacityOverflow ∧ t.OUT_LEN = s.OUT_LEN
  op : t.op.toNat = s0.cfg.OUT_CAP
  ip : t.ip = s.ip
  exceeds : s0.cfg.OUT_CAP < s.op.toNat + n

/-- RD_REP appends the bytes that cnt counts, or raises at the one that finds OUT full. -/
theorem repLoop_leaves (hc : s0.cfg.wf) (n : Nat) :
    ∀ s, RunFills s0 value s → s.phase = .rdRep → s.cnt.toNat = n →
      (iterate repStep (fun s => decide (s.phase = .rdRep)) (n + 1) s).Leaves (RunDone s0 value n s)
        (RunOverflows s0 value n s) fun _ => False := by
  induction n with
  | zero =>
    intro s h hph hcnt
    rw [iterate_succ, if_pos (decide_eq_true hph), repStep, if_neg (by omega)]
    exact ⟨h.set, ⟨rfl, rfl, rfl⟩, rfl, rfl, BitVec.eq_of_toNat_eq hcnt, rfl⟩
  | succ n ih =>
    intro s h hph hcnt
    have hfits := h.fits
    have hcfg := h.cfg
    rw [iterate_succ, if_pos (decide_eq_true hph), repStep, if_pos (by omega), h.cur]
    rcases emit_cases value s with ⟨hfull, he⟩ | ⟨hroom, he⟩ <;> rw [he]
    · rw [hcfg] at hfull
      exact ⟨h.set, ⟨rfl, rfl, rfl⟩, hfull, rfl, by omega⟩
    · rw [hcfg] at hroom
      have hroom' : s.op.toNat < s0.cfg.OUT_CAP := by omega
      have hpush := h.pushOut hc hroom'
      have hop : (pushOut value s).op.toNat = s.op.toNat + 1 := toNat_op_succ (hcfg ▸ hc) (hcfg ▸ hroom')
      rw [Flow.bind_go, pushOut_cnt]
      split
      · rename_i hlast
        obtain rfl : n = 0 := by omega
        exact ⟨hpush.set, ⟨rfl, rfl, rfl⟩, hop, rfl, rfl, rfl⟩
      · have hcnt' : (s.cnt - 1).toNat = n := by bv_omega
        refine (ih { pushOut value s with cnt := s.cnt - 1 } hpush.set hph hcnt').mono (fun t ht => ?_) (fun t ht => ?_)
          fun _ h => h
        · obtain ⟨hfills, hstatus, htop, hip, hcnt0, htph⟩ := ht
          exact ⟨hfills, hstatus, by rw [htop]; simp only [hop]; omega, hip, hcnt0, htph⟩
        · obtain ⟨hfills, hstatus, htop, hip, hexceeds⟩ := ht
          exact ⟨hfills, hstatus, htop, hip, by simp only [hop] at hexceeds; omega⟩

end RunToken

/-- Settles O26: RD_REP fills OUT byte by byte with the value, and either all the bytes fit or one finds OUT full. -/
theorem runToken : Obligations.RunToken := by
  unfold Obligations.RunToken
  intro count value s hc hout hbusy hop
  have hloop := repLoop_leaves hc count.toNat { s with cnt := count, cur := value, phase := .rdRep }
    ⟨rfl, rfl, hout, Nat.le_refl _, hop, fun j hj hlt => absurd hlt (Nat.not_lt.2 hj), fun _ _ => rfl⟩ rfl rfl
  have hexec := whileBusy_busy (f := fun s => (beginRun count value s).bind
    (iterate repStep (fun s => decide (s.phase = .rdRep)) (count.toNat + 1))) hbusy
  obtain ⟨t, ht, hends⟩ | ⟨e, -, hfault⟩ := hloop.outcome
  · have hfills : RunFills s value t := hends.elim RunDone.fills RunOverflows.fills
    refine ⟨t, hexec.trans ht, hfills.hostSideKept, hfills.treeKept, hfills.packerKept, hfills.walkKept,
      hfills.matcherKept, hfills.windowKept, hfills.cur, hfills.op_le, hfills.filled, hfills.kept, fun hroom => ?_,
      fun hfull => ?_⟩
    · obtain h | h := hends
      · exact ⟨h.status, h.op, h.ip, h.cnt, h.phase⟩
      · exact absurd h.exceeds (Nat.not_lt.2 hroom)
    · obtain h | h := hends
      · have htop : t.op.toNat = s.op.toNat + count.toNat := h.op
        have := hfills.fits
        omega
      · obtain ⟨hstate, herr, hlen⟩ := h.status
        exact ⟨hstate, herr, hlen, h.op, h.ip⟩
  · exact hfault.elim

/-! ## A count of 0 (R147) -/

/-- The one turn of RD_REP with cnt at 0 ends the token. -/
theorem execRun_zero (value : Byte) {s : State} (hbusy : s.STATE = .busy) :
    exec (.run 0 value) s = .next (endRun { s with cnt := 0, cur := value, phase := .rdRep }) :=
  whileBusy_busy (f := fun s => (beginRun 0 value s).bind
    (iterate repStep (fun s => decide (s.phase = .rdRep)) ((0 : Byte).toNat + 1))) hbusy

/-- A list of whole pairs that does not begin with a pair is empty. -/
theorem eq_nil_of_no_pair {bytes : List Byte} (heven : bytes.length % 2 = 0)
    (hshort : ∀ count value rest, bytes = count :: value :: rest → False) : bytes = [] :=
  match bytes with
  | [] => rfl
  | [_] => nomatch heven
  | count :: value :: rest => (hshort count value rest rfl).elim

/-- Bytes of the input stand in IN. -/
theorem standsAt_of_drop {s : State} {b bytes rest : List Byte} {k : Nat} (hinput : InputIs s b)
    (h : b.drop k = bytes ++ rest) (hne : bytes ≠ []) : StandsAt s bytes k := by
  obtain ⟨hlen, hread⟩ := hinput
  have hpos := List.length_pos_of_ne_nil hne
  have hlength : b.length - k = bytes.length + rest.length := by rw [← List.length_drop, h, List.length_append]
  refine ⟨by omega, fun j hj => ?_⟩
  rw [hread _ (by omega), ← List.getElem?_drop, h, List.getElem?_append_left hj]

theorem fetchRun_of_input {s : State} {b rest : List Byte} {count value : Byte} (hinput : InputIs s b)
    (h : b.drop s.ip.toNat = count :: value :: rest) : fetchRun s = .instr (.run count value) := by
  have hread : readIns s s.ip.toNat 2 = .ok [count, value] := (standsAt_of_drop (bytes := [count, value]) hinput h nofun).readIns
  rw [fetchRun, hread]
  rfl

/-- An operation completed with an empty output, and OUT as it was given. -/
abbrev CompletesEmpty (out : Memory) (t : State) : Prop := t.STATE = .done ∧ t.ERR = .noError ∧ t.OUT_LEN = 0 ∧ t.OUT = out

/-- RD_PAIR with nothing emitted and only pairs of count 0 left: a pair takes two steps, which move ip on. -/
theorem rleDec_zeroPairs {b rest : List Byte} :
    ∀ s, s.phase = .rdPair → InputIs s b → s.ERR = .noError → s.op = 0 → b.drop s.ip.toNat = rest → rest.length % 2 = 0 →
      (∀ i, 2 * i < rest.length → rest[2 * i]? = some 0) →
      EndsWithin rleDecStep (CompletesEmpty s.OUT) (rest.length + 1) s := by
  induction rest using Reference.rleExpanded.induct with
  | case1 count value rest ih =>
    intro s hph hinput herr hop hleft heven hzero
    obtain ⟨hlt, -, hnext⟩ := next_of_drop hleft
    obtain ⟨hlt', -, hnext'⟩ := next_of_drop hnext
    have hlen := hinput.1
    have hip : (s.ip + 2).toNat = s.ip.toNat + 2 := ip_add_two (by omega)
    obtain rfl : count = 0 := Option.some.inj (hzero 0 (by simp))
    rw [List.length_cons, List.length_cons] at heven hzero ⊢
    refine endsWithin_of_step ?_
    rw [rleDecStep, hph]
    dsimp only
    rw [pairStep, if_pos (by omega), fetchRun_of_input hinput hleft]
    refine endsWithin_of_step ?_
    exact ih (endRun { s with cnt := 0, cur := value, phase := .rdRep }) rfl hinput herr hop
      (by rw [endRun_ip, hip, hnext']) (by omega) fun i hi => hzero (i + 1) (by omega)
  | case2 rest hshort =>
    intro s hph hinput herr hop hleft heven _
    obtain rfl := eq_nil_of_no_pair heven hshort
    have hge : b.length ≤ s.ip.toNat := List.drop_eq_nil_iff.1 hleft
    refine endsWithin_of_step ?_
    rw [rleDecStep, hph]
    dsimp only
    rw [pairStep, if_neg (by rw [hinput.1]; omega)]
    exact ⟨rfl, herr, hop, rfl⟩

/-- Settles O27: a turn of RD_REP with cnt at 0 ends the token, and a stream of such tokens completes with nothing emitted. -/
theorem zeroCountAppendsNothing : Obligations.ZeroCountAppendsNothing := by
  unfold Obligations.ZeroCountAppendsNothing
  refine ⟨fun value s hbusy => execRun_zero value hbusy, fun s b hc hentry hinput hne hcap heven hzero => ?_⟩
  obtain ⟨hbusy, herr, -, hph, hip, hop⟩ := hentry
  have hlen := hinput.1
  have hends : EndsWithin rleDecStep (CompletesEmpty s.OUT) (b.length + 3) s := by
    refine endsWithin_of_step ?_
    rw [rleDecStep, hph]
    dsimp only
    rw [entryChecks_passed hinput (List.length_pos_of_ne_nil hne) hcap]
    refine endsWithin_of_step ?_
    dsimp only [rleDecStep]
    rw [parityCheck, if_neg (by simp only; omega)]
    exact rleDec_zeroPairs { s with ip := 0, phase := .rdPair } rfl hinput herr hop rfl heven hzero
  exact exec_of_endsWithin (i := .rleDec) rfl hbusy hends (by unfold stepBound; omega)

end Sys2Proof.Machine
end

section
/-! # The frequency table, one merge, and the codes of the tree (42_huffman_encode.md R161 to R166) -/

namespace Sys2Proof.Machine

/-! ## The frequency table (R161) -/

/-- Settles O29: the entries are the counts (`getElem?_freqOf`), which fit 32 bits, and their sum is `freqSum_freqOf`. -/
theorem frequenciesCount : Obligations.FrequenciesCount := by
  unfold Obligations.FrequenciesCount
  refine fun b hlen => ⟨fun x => ⟨_, getElem?_freqOf b x.isLt, ?_⟩, freqSum_freqOf hlen⟩
  have hcount := List.count_le_length (a := x) (l := b)
  rw [BitVec.ofNat_toNat, BitVec.setWidth_eq, BitVec.toNat_ofNat, Nat.mod_eq_of_lt (by omega)]

/-! ## The choice and the merge (R163) -/

/-- Settles O30: the choice over all 511 numbers is the lightest active node. -/
theorem lightestBreaksTies : Obligations.LightestBreaksTies := by
  unfold Obligations.LightestBreaksTies
  exact fun f a => Forest.lightest_eq_some_iff.trans and_assoc

/-- Settles O31: the two lightest nodes are those the merge takes and joins. -/
theorem mergeCombinesTheTwoLightest : Obligations.MergeCombinesTheTwoLightest := by
  unfold Obligations.MergeCombinesTheTwoLightest
  intro f t a b _ ht ha hb
  rw [Forest.Takes.merge_eq ⟨ha, hb⟩]
  refine ⟨Forest.NODE_joined_same ht, fun x hx => Forest.NODE_joined_other hx, fun x _ => ?_⟩
  rw [Forest.active_joined ht, and_assoc]

/-! ## The leaves of the tree occur (R162 to R164) -/

theorem ne_zero_iff_occurs {freq : FreqTable} {x : Nat} {w : Word} (h : freq[x]? = some w) :
    w ≠ 0 ↔ 0 < occurrences freq x := by
  rw [occurrences_eq h, Nat.pos_iff_ne_zero, ne_eq, ne_eq, ← BitVec.toNat_inj]
  rfl

/-- With one byte value, node 256 has the weight of that value, its leaf on the left and nothing on the right. -/
theorem exists_rootNode_of_one {freq : FreqTable} (nodes : NodeTable) (h : leafCount freq = 1) :
    ∃ (x : Byte) (w : Word), freq[x.toNat]? = some w ∧ w ≠ 0 ∧
      (grow freq nodes).NODE[256]? = some { w := w, left := x.setWidth 9, right := noChild } := by
  have hcard := (grown_leaves freq nodes).count
  obtain ⟨y, hy⟩ := Forest.exists_active (f := leaves freq nodes) (by omega)
  obtain ⟨a, ha⟩ := Forest.exists_lightest hy
  have hactive := Forest.active_of_lightest ha
  obtain ⟨halt, hocc⟩ := active_leaves.1 hactive
  have hnumber : (BitVec.ofNat 8 a).toNat = a := by rw [BitVec.toNat_ofNat, Nat.mod_eq_of_lt halt]
  have hfreq : freq[a]? = some freq[a] := Vector.getElem?_eq_getElem halt
  refine ⟨BitVec.ofNat 8 a, freq[a], by rw [hnumber, hfreq], (ne_zero_iff_occurs hfreq).2 hocc, ?_⟩
  rw [grow, if_neg (by omega)]
  unfold Forest.single
  rw [ha]
  dsimp only
  rw [Forest.NODE_setNode_same _ (by omega), weight_leaves hactive, occurrences_eq hfreq, BitVec.ofNat_toNat,
    BitVec.setWidth_eq, ← BitVec.ofNat_toNat, hnumber]

@[simp] theorem Node.child_false (nd : Node) : nd.child false = nd.left := rfl
@[simp] theorem Node.child_true (nd : Node) : nd.child true = nd.right := rfl

/-- Every leaf that an inner node below t leads to is a byte value that occurs. -/
def LeavesOccur (freq : FreqTable) (t : Nat) (nodes : NodeTable) : Prop :=
  ∀ x nd, 256 ≤ x → x < t → nodes[x]? = some nd →
    ∀ c, (nd.child c).toNat < 256 → 0 < occurrences freq (nd.child c).toNat

/-- Every leaf that is still active is a byte value that occurs. -/
def ActiveLeavesOccur (freq : FreqTable) (f : Forest) : Prop :=
  ∀ x, f.active x = true → x < 256 → 0 < occurrences freq x

section Joined
variable {freq : FreqTable} {t a b : Nat} {f : Forest}

theorem ActiveLeavesOccur.joined (h : ActiveLeavesOccur freq f) (hge : 256 ≤ t) (ht : t < 511) :
    ActiveLeavesOccur freq (f.joined t a b) := fun x hx hleaf => by
  obtain rfl | ⟨⟨hold, -⟩, -⟩ := (Forest.active_joined ht).1 hx
  · omega
  · exact h x hold hleaf

theorem LeavesOccur.joined (h : LeavesOccur freq t f.NODE) (hactive : ActiveLeavesOccur freq f) (hab : f.Takes a b)
    (ht : t < 511) : LeavesOccur freq (t + 1) (f.joined t a b).NODE := by
  intro x nd hx hxt hnode c hleaf
  by_cases hnew : x = t
  · subst hnew
    rw [Forest.NODE_joined_same ht] at hnode
    cases hnode
    cases c with
    | false =>
      rw [Node.child_false, toNat_ofNat_nine (Forest.active_lt hab.active_left)] at hleaf ⊢
      exact hactive a hab.active_left hleaf
    | true =>
      rw [Node.child_true, toNat_ofNat_nine (Forest.active_lt hab.active_right.1)] at hleaf ⊢
      exact hactive b hab.active_right.1 hleaf
  · rw [Forest.NODE_joined_other hnew] at hnode
    exact h x nd hx (by omega) hnode c hleaf

end Joined

theorem leavesOccur_grow_of_two_le {freq : FreqTable} (nodes : NodeTable) (h : 2 ≤ leafCount freq) :
    LeavesOccur freq (rootOf freq + 1) (grow freq nodes).NODE := by
  rw [grow_of_two_le nodes h, ← next_after_root h]
  obtain ⟨-, -, -, hleaves⟩ := merges_induction
    (P := fun t f => 256 ≤ t ∧ Grown freq t f ∧ ActiveLeavesOccur freq f ∧ LeavesOccur freq t f.NODE)
    (fun t f ht ⟨hge, hgrown, hactive, hleaves⟩ => by
      obtain ⟨a, b, hab⟩ := hgrown.exists_takes ht
      have hlt := lt_of_merge ht
      refine ⟨by omega, hgrown.merge ht, ?_⟩
      rw [hab.merge_eq]
      exact ⟨hactive.joined hge hlt, hleaves.joined hactive hab hlt⟩)
    (leafCount freq - 1) 256 (leaves freq nodes) (by omega)
    ⟨Nat.le_refl _, grown_leaves freq nodes, fun x hx _ => (active_leaves.1 hx).2, fun x _ h1 h2 => by omega⟩
  exact hleaves

theorem leavesOccur_grow {freq : FreqTable} (nodes : NodeTable) (h : leafCount freq ≠ 0) :
    LeavesOccur freq (rootOf freq + 1) (grow freq nodes).NODE := by
  rcases Nat.lt_or_ge (leafCount freq) 2 with hone | htwo
  · obtain ⟨v, w, hfreq, hw, hroot⟩ := exists_rootNode_of_one nodes (show leafCount freq = 1 by omega)
    intro x nd hx hxroot hnode c hleaf
    obtain rfl : x = 256 := by rw [rootOf] at hxroot; omega
    cases hnode.symm.trans hroot
    cases c with
    | true => exact absurd (show noChild.toNat < 256 from hleaf) (by decide)
    | false =>
      rw [Node.child_false, BitVec.toNat_setWidth_of_le (by decide)]
      exact (ne_zero_iff_occurs hfreq).1 hw
  · exact leavesOccur_grow_of_two_le nodes htwo

/-- A leaf at the end of a path from the root is a byte value that occurs. -/
theorem occurs_of_descent {freq : FreqTable} {path : List Bool} {y : Nat} (hcount : leafCount freq ≠ 0) (hy : y < 256)
    (h : Descent (Reference.treeOf freq) (rootOf freq) path y) : 0 < occurrences freq y := by
  have hge := rootOf_ge freq
  cases h with
  | root => omega
  | branch c habove hinner hnode _ =>
    have hle := (habove.length_le (leadsDown_grow Reference.blankNodes hcount)).1
    exact leavesOccur_grow Reference.blankNodes hcount _ _ hinner (by omega) hnode c hy

/-! ## The codes (R166) -/

/-- What holds of the code book and is kept by each code set at the end of a path, the assignment keeps. -/
theorem assign_keeps {nodes : NodeTable} {root : Nat} {P : CodeBook → Prop}
    (hset : ∀ x path book, x < 256 → Descent nodes root path x → P book → P (book.set x path))
    (depth x : Nat) (path : List Bool) (book : CodeBook) (hdescent : x ≠ noChild.toNat → Descent nodes root path x)
    (h : P book) : P (assign nodes depth x path book) := by
  fun_induction assign nodes depth x path book with
  | case1 => exact h
  | case2 => exact h
  | case3 depth x path book hsome hleaf => exact hset x path book (isLeaf_eq_true.1 hleaf) (hdescent hsome) h
  | case4 => exact h
  | case5 depth x path book hsome hinner nd hnode ihleft ihright =>
    have hchild := (hdescent hsome).child (isLeaf_eq_false.1 (Bool.eq_false_iff.2 hinner)) hnode
    exact ihright (hchild true) (ihleft (hchild false) h)

/-- A byte value that does not occur has no code. -/
theorem codeOf_eq_nil {freq : FreqTable} {x : Byte} (hcount : leafCount freq ≠ 0) (hx : occurrences freq x.toNat = 0) :
    Reference.codeOf freq x = [] := by
  have hlen : (codesOf (Reference.treeOf freq) (rootOf freq) (Vector.replicate 256 [])).LEN[x.toNat]? = some 0 :=
    assign_keeps (P := fun book => book.LEN[x.toNat]? = some 0)
      (fun y path book hy hdescent hzero => by
        have hocc := occurs_of_descent hcount hy hdescent
        rw [CodeBook.set, Vector.getElem?_setIfInBounds_ne (by rintro rfl; omega), hzero])
      257 (rootOf freq) [] _ (fun _ => .root) (by rw [Vector.getElem?_replicate, if_pos x.isLt])
  rw [Reference.codeOf, codeBits, Vector.getElem?_eq_getElem x.isLt, hlen]
  exact List.take_zero

section Occurs
variable {freq : FreqTable} {x : Byte}

/-- The walk along a code, and on over more bits, spells the byte value first. -/
theorem walked_codeOf (hocc : 0 < occurrences freq x.toNat) (rest : List Bool) :
    Reference.walked (Reference.treeOf freq) (BitVec.ofNat 9 (rootOf freq)) (Reference.codeOf freq x ++ rest)
      (BitVec.ofNat 9 (rootOf freq)) 1 = some [x] := by
  rw [(descent_codeOf hocc).walked_leaf (rootOf_ge freq) x.isLt, Reference.walked.eq_1, BitVec.ofNat_toNat,
    BitVec.setWidth_eq]
  rfl

theorem codeOf_length_pos (hocc : 0 < occurrences freq x.toNat) : 1 ≤ (Reference.codeOf freq x).length := by
  have hwalk := walked_codeOf hocc []
  refine List.length_pos_of_ne_nil fun hnil => ?_
  rw [hnil] at hwalk
  exact nomatch hwalk

theorem codeOf_length_le (hocc : 0 < occurrences freq x.toNat) :
    (Reference.codeOf freq x).length ≤ max 1 (leafCount freq - 1) := by
  have hdown := leadsDown_grow Reference.blankNodes (leafCount_ne_zero x.isLt hocc)
  have hle := ((descent_codeOf hocc).length_le hdown).2
  rw [rootOf] at hle
  omega

end Occurs

/-- Settles O35: the code is a path to the leaf, each branch of which leads to a smaller number, and the code assignment
reaches byte values that occur alone. -/
theorem codesLeadToTheirLeaves : Obligations.CodesLeadToTheirLeaves := by
  unfold Obligations.CodesLeadToTheirLeaves
  refine fun freq x w _ hfreq => ⟨fun hw => ?_, fun hw hcount => ?_⟩
  · have hocc := (ne_zero_iff_occurs hfreq).1 hw
    have hwalk := walked_codeOf hocc []
    rw [List.append_nil] at hwalk
    exact ⟨hwalk, codeOf_length_pos hocc, codeOf_length_le hocc⟩
  · exact codeOf_eq_nil hcount (by rw [occurrences_eq hfreq, hw]; rfl)

/-- Settles O36: a walk along the longer code spells the byte value of the shorter one. -/
theorem codesArePrefixFree : Obligations.CodesArePrefixFree := by
  unfold Obligations.CodesArePrefixFree
  rintro freq x y v w - hv hw hvne hwne hxy ⟨rest, hrest⟩
  have hx := walked_codeOf ((ne_zero_iff_occurs hv).1 hvne) rest
  have hy := walked_codeOf ((ne_zero_iff_occurs hw).1 hwne) []
  rw [hrest, ← List.append_nil (Reference.codeOf freq y), hy] at hx
  cases hx
  exact hxy rfl

/-! ## The tree of one byte value (R164) -/

/-- A 1 bit at a root with nothing on its right leads nowhere. -/
theorem walked_noChild {nodes : NodeTable} {root : BitVec 9} {nd : Node} (hnode : nodes[root.toNat]? = some nd)
    (hright : nd.right = noChild) (bits : List Bool) (n : Nat) :
    Reference.walked nodes root (true :: bits) root (n + 1) = none := by
  rw [Reference.walked, hnode]
  exact if_pos hright

/-- Settles O33: the code has one bit, and a 1 bit leads nowhere. -/
theorem singleSymbolTree : Obligations.SingleSymbolTree := by
  unfold Obligations.SingleSymbolTree
  intro freq hcount
  obtain ⟨x, w, hfreq, hw, hnode⟩ := exists_rootNode_of_one Reference.blankNodes hcount
  have hroot : rootOf freq = 256 := by rw [rootOf, hcount]
  have hnowhere := walked_noChild (nodes := Reference.treeOf freq) (root := 256) hnode rfl
  have hocc := (ne_zero_iff_occurs hfreq).1 hw
  have hwalk := walked_codeOf hocc []
  have hlength : (Reference.codeOf freq x).length = 1 := by
    have hpos := codeOf_length_pos hocc
    have hle := codeOf_length_le hocc
    omega
  obtain ⟨c, hcode⟩ := List.length_eq_one_iff.1 hlength
  refine ⟨x, w, hfreq, hw, hroot, hnode, ?_, hnowhere⟩
  cases c with
  | false => exact hcode
  | true =>
    rw [hcode, hroot] at hwalk
    exact nomatch hwalk.symm.trans (hnowhere [] 0)

end Sys2Proof.Machine
end

section
/-! # The Huffman decoder: its round trip, the header and the payload (43_huffman_decode.md R181 to R187) -/

namespace Sys2Proof.Machine

/-! ## The round trip (R187) -/

/-- Settles O43: the walk over the packed codes of the input spells the input (`run_hufDec_of_run_hufEnc`). -/
theorem huffmanRoundTrip : Obligations.HuffmanRoundTrip := by
  unfold Obligations.HuffmanRoundTrip
  intro c c' b e
  exact Reference.run_hufDec_of_run_hufEnc

/-! ## The header (R181 to R183) -/

section Header
variable {total : Word} {freq : FreqTable}

/-- fsum holds the sum exactly (10_state.md R35). -/
theorem toNat_loadHeader_fsum (total : Word) (freq : FreqTable) (s : State) :
    (loadHeader total freq s).fsum.toNat = freqSum freq := Nat.mod_eq_of_lt (freqSum_lt freq)

theorem beginHeader_of_sum (hsum : freqSum freq = total.toNat) (hne : freqSum freq ≠ 0) (s : State) :
    beginHeader total freq s = .go { loadHeader total freq s with phase := .hdTree } := by
  rw [beginHeader, checkHeader, toNat_loadHeader_fsum, if_neg hne]
  exact if_neg (not_not.2 hsum)

theorem beginHeader_of_corrupt (h : freqSum freq = 0 ∨ freqSum freq ≠ total.toNat) (s : State) :
    beginHeader total freq s = raise .invalidInput (loadHeader total freq s) := by
  rw [beginHeader, checkHeader, toNat_loadHeader_fsum, loadHeader_N]
  split_ifs with hzero hsum
  · rfl
  · rfl
  · exact absurd h (not_or.2 ⟨hzero, hsum⟩)

theorem execHufHdr_busy {s : State} (hbusy : s.STATE = .busy) :
    exec (.hufHdr total freq) s = (beginHeader total freq s).outcome := whileBusy_busy hbusy

end Header

/-- Settles O40: fsum does not wrap, so that the checks on the registers are checks on the sum itself. -/
theorem headerToken : Obligations.HeaderToken := by
  unfold Obligations.HeaderToken
  refine fun total freq s hbusy => ⟨fun hsum hne => ?_, fun hcorrupt => ?_⟩
  · rw [execHufHdr_busy hbusy, beginHeader_of_sum hsum hne]
    exact ⟨_, rfl, toNat_loadHeader_fsum total freq s, rfl⟩
  · rw [execHufHdr_busy hbusy, beginHeader_of_corrupt hcorrupt]
    exact ⟨_, rfl, toNat_loadHeader_fsum total freq s, rfl⟩

/-! ## What the walk leaves alone -/

/-- A state without what the walk of a payload works on. -/
def walkFrame (s : State) : State :=
  { s with phase := .pEntry, ip := 0, op := 0, OUT := [], node := 0, bitpos := 0 }

theorem isFrame_walkFrame : IsFrame walkFrame := ⟨fun _ _ _ => rfl, fun _ _ => rfl, fun _ => rfl⟩

theorem walkBit_walkFrame (c : Bool) (s : State) : (walkBit c s).Frames walkFrame s := by
  unfold walkBit
  split
  · trivial
  · refine Flow.Frames.ite rfl (Flow.Frames.ite ?_ rfl)
    exact (isFrame_walkFrame.emit _ _).bind fun _ => rfl

theorem walkBits_walkFrame (bits : List Bool) (s : State) : (walkBits bits s).Frames walkFrame s := by
  induction bits generalizing s with
  | nil => exact Flow.Frames.ite (isFrame_walkFrame.raised s _) (isFrame_walkFrame.completed s)
  | cons c bits ih => exact Flow.Frames.ite ((walkBit_walkFrame c s).bind ih) (isFrame_walkFrame.completed s)

/-- What has the same frame has the host's side, the tree, N, fsum and the other engines' registers in common. -/
theorem kept_of_walkFrame {s t : State} (h : (walkFrame t).hideStatus = (walkFrame s).hideStatus) :
    HostSideKept s t ∧ RleKept s t ∧ TreeKept s t ∧ PackerKept s t ∧ MatcherKept s t ∧ WindowKept s t ∧
      t.N = s.N ∧ t.fsum = s.fsum :=
  ⟨⟨(congrArg State.cfg h :), (congrArg State.IN h :), (congrArg State.IN_LEN h :), (congrArg State.ALG h :),
      (congrArg State.DIR h :), (congrArg State.host h :), (congrArg State.replies h :), (congrArg State.freeCtr h :)⟩,
    ⟨(congrArg State.cur h :), (congrArg State.cnt h :)⟩,
    ⟨(congrArg State.FREQ h :), (congrArg State.NODE h :), (congrArg State.ROOT h :), (congrArg State.K h :),
      (congrArg State.ACTIVE h :)⟩,
    ⟨(congrArg State.CODE h :), (congrArg State.LEN h :), (congrArg State.acc h :), (congrArg State.nbits h :)⟩,
    ⟨(congrArg State.o h :), (congrArg State.k h :), (congrArg State.best h :), (congrArg State.boff h :)⟩,
    ⟨(congrArg State.WIN h :), (congrArg State.wp h :), (congrArg State.off h :), (congrArg State.len h :)⟩,
    (congrArg State.N h :), (congrArg State.fsum h :)⟩

/-! ## The walk over the bits of a payload (R185) -/

theorem walkBits_of_done {s : State} (h : ¬s.op.toNat < s.N.toNat) (bits : List Bool) : walkBits bits s = complete s := by
  cases bits <;> exact if_neg h

theorem walkBits_cons {s : State} (h : s.op.toNat < s.N.toNat) (c : Bool) (bits : List Bool) :
    walkBits (c :: bits) s = (walkBit c s).bind (walkBits bits) := if_pos h

theorem walkBits_nil {s : State} (h : s.op.toNat < s.N.toNat) : walkBits [] s = raise .invalidInput s := if_pos h

theorem execHufPay_busy {s : State} (hbusy : s.STATE = .busy) (payload : List Byte) :
    exec (.hufPay payload) s = (walkBits (payload.flatMap byteBits) (enterWalk s)).outcome :=
  whileBusy_busy (f := fun s => walkBits (payload.flatMap byteBits) (enterWalk s)) hbusy

theorem Reference.length_of_walked {nodes : NodeTable} {root : BitVec 9} (bits : List Bool) :
    ∀ x n out, walked nodes root bits x n = some out → out.length = n := by
  induction bits with
  | nil =>
    intro x n out h
    cases n with
    | zero => cases h; rfl
    | succ n => cases h
  | cons c bits ih =>
    intro x n out h
    cases n with
    | zero => cases h; rfl
    | succ n =>
      cases hnd : nodes[x.toNat]? with
      | none =>
        rw [walked, hnd] at h
        cases h
      | some nd =>
        rw [walked, hnd] at h
        dsimp only at h
        generalize (if c then nd.right else nd.left) = y at h
        split_ifs at h
        · obtain ⟨more, hmore, rfl⟩ := Option.map_eq_some_iff.1 h
          rw [List.length_cons, ih _ _ _ hmore]
        · exact ih _ _ _ h

/-- What arriving at a node can do. -/
theorem arrive_cases (x : BitVec 9) (s : State) :
    (x = noChild ∧ arrive x s = raise .invalidInput s) ∨
    (x ≠ noChild ∧ isLeaf x.toNat = true ∧
      arrive x s = (emit (x.setWidth 8) { s with node := x }).bind fun s => .go { s with node := s.ROOT }) ∨
    (x ≠ noChild ∧ isLeaf x.toNat ≠ true ∧ arrive x s = .go { s with node := x }) := by
  unfold arrive
  split_ifs with hnone hleaf
  · exact .inl ⟨hnone, rfl⟩
  · exact .inr (.inl ⟨hnone, hleaf, rfl⟩)
  · exact .inr (.inr ⟨hnone, hleaf, rfl⟩)

section Walk
variable {s0 s : State} {out : List Byte}

/-- The walk begun in s0 stands at a node of the table, and at the root once all N symbols are decoded. -/
structure Walking (s0 : State) (out : List Byte) (s : State) : Prop where
  working : Working s0 out s
  root : s.ROOT ≠ noChild
  node : s.node ≠ noChild
  decoded : out.length ≤ s.N.toNat
  room : s.N.toNat ≤ s0.cfg.OUT_CAP
  atRoot : out.length = s.N.toNat → s.node = s.ROOT

/-- The walk begun in s0 ended as a reference function says, at the root if it completed. -/
abbrev WalkEnds (s0 : State) (r : Reference.Result) (t : State) : Prop :=
  EndsAs s0 t r ∧ (t.STATE = .done → t.node = t.ROOT)

theorem Working.walk_raised (h : Working s0 out s) :
    WalkEnds s0 (.err .invalidInput) { s with ERR := .invalidInput, STATE := .error } := ⟨h.raised _, nofun⟩

/-- One bit of the walk: what is spelt from where it leads is what was spelt before it. -/
theorem walkBit_spells (hc : s0.cfg.wf) {c : Bool} (bits : List Bool) (h : Walking s0 out s)
    (hmore : out.length < s.N.toNat) :
    (walkBit c s).Leaves
      (fun t => ∃ out', Walking s0 out' t ∧ decodedFrom t bits t.node out' = decodedFrom s (c :: bits) s.node out)
      (WalkEnds s0 (decodedFrom s (c :: bits) s.node out)) fun _ => False := by
  obtain ⟨hwork, hroot, hnode, -, hroom, -⟩ := h
  obtain ⟨nd, hnd⟩ := exists_node (nodes := s.NODE) hnode
  rw [decodedFrom_cons hmore hnd, walkBit, hnd]
  dsimp only
  generalize (if c then nd.right else nd.left) = y
  rcases arrive_cases y (takeBit s) with ⟨hnone, he⟩ | ⟨hnone, hleaf, he⟩ | ⟨hnone, hleaf, he⟩ <;> rw [he]
  · rw [if_pos hnone]
    exact (hwork.set (t := takeBit s)).walk_raised
  · rw [if_neg hnone, if_pos hleaf]
    have hfits := hwork.fits
    refine (((hwork.set (t := { takeBit s with node := y })).emit hc (y.setWidth 8)).mono (fun _ h => h)
      (fun t ht => absurd (ht.was_full hfits) (by omega)) fun _ h => h).bind ?_
    rintro t ⟨rfl, ht⟩
    refine ⟨_, ⟨ht.set, hroot, hroot, ?_, hroom, fun _ => rfl⟩, rfl⟩
    rw [List.length_append, List.length_singleton]
    exact hmore
  · rw [if_neg hnone, if_neg hleaf]
    exact ⟨out, ⟨hwork.set, hroot, hnone, hmore.le, hroom, fun hall => absurd hall hmore.ne⟩, rfl⟩

theorem Walking.completed {bits : List Bool} (h : Walking s0 out s) (hall : ¬out.length < s.N.toNat) :
    WalkEnds s0 (decodedFrom s bits s.node out) { s with OUT_LEN := s.op, STATE := .done } := by
  rw [decodedFrom_of_all (Nat.not_lt.1 hall)]
  exact ⟨h.working.completed, fun _ => h.atRoot (Nat.le_antisymm h.decoded (Nat.not_lt.1 hall))⟩

/-- The walk, until N symbols are decoded or the bits run out. -/
theorem walkBits_spell (hc : s0.cfg.wf) (bits : List Bool) :
    ∀ out s, Walking s0 out s →
      (walkBits bits s).Leaves (fun _ => False) (WalkEnds s0 (decodedFrom s bits s.node out)) fun _ => False := by
  induction bits with
  | nil =>
    intro out s h
    have hop := h.working.op
    by_cases hmore : out.length < s.N.toNat
    · rw [walkBits_nil (hop ▸ hmore), decodedFrom_nil hmore]
      exact h.working.walk_raised
    · rw [walkBits_of_done (hop ▸ hmore)]
      exact h.completed hmore
  | cons c bits ih =>
    intro out s h
    have hop := h.working.op
    by_cases hmore : out.length < s.N.toNat
    · rw [walkBits_cons (hop ▸ hmore)]
      refine (walkBit_spells hc bits h hmore).bind ?_
      rintro t ⟨out', ht, hsame⟩
      exact hsame ▸ ih out' t ht
    · rw [walkBits_of_done (hop ▸ hmore)]
      exact h.completed hmore

end Walk

/-- HUFPAY ends as the bits spell, and leaves its frame alone. -/
theorem execHufPay_ends {s : State} (hc : s.cfg.wf) (hwork : Working s [] s) (hroot : s.ROOT ≠ noChild)
    (hroom : s.N.toNat ≤ s.cfg.OUT_CAP) (payload : List Byte) :
    ∃ t, exec (.hufPay payload) s = .next t ∧
      WalkEnds s (decodedFrom s (payload.flatMap byteBits) s.ROOT []) t ∧
      (walkFrame t).hideStatus = (walkFrame s).hideStatus := by
  have hwalking : Walking s [] (enterWalk s) := ⟨hwork.set, hroot, hroot, Nat.zero_le _, hroom, fun _ => rfl⟩
  have hwalk := (walkBits_spell hc (payload.flatMap byteBits) [] _ hwalking).and (walkBits_walkFrame _ _)
  rw [execHufPay_busy hwork.status.1]
  obtain ⟨t, ht, ⟨hfalse, -⟩ | hends⟩ | ⟨-, -, hfalse, -⟩ := hwalk.outcome
  · exact hfalse.elim
  · exact ⟨t, ht, hends⟩
  · exact hfalse.elim

/-- Settles O41: every bit leads to a node that spells the rest of what was spelt before it, and the walk is at the root when
the N-th symbol is out. -/
theorem payloadToken : Obligations.PayloadToken := by
  unfold Obligations.PayloadToken
  intro payload s hc hout hbusy herr hlen hop hroot hroom
  have hwork : Working s [] s :=
    ⟨rfl, ⟨rfl, rfl⟩, ⟨hbusy, herr, hlen⟩, by rw [hop]; rfl, Nat.zero_le _, hout, nofun, fun _ _ => rfl⟩
  obtain ⟨t, ht, ⟨hends, hnode⟩, hframe⟩ := execHufPay_ends hc hwork hroot hroom payload
  have hkept := kept_of_walkFrame hframe
  rw [decodedFrom, List.length_nil, Nat.sub_zero] at hends
  refine ⟨fun out hspelt => ?_, fun hnone => ?_⟩
  · rw [hspelt] at hends
    have ⟨hstate, _, houtLen, _⟩ : EndsDone s t out := hends
    have hroot' : t.ROOT = s.ROOT := (congrArg State.ROOT hframe :)
    exact ⟨t, ht, hends, BitVec.eq_of_toNat_eq (houtLen.trans (Reference.length_of_walked _ _ _ _ hspelt)),
      (hnode hstate).trans hroot', hkept⟩
  · rw [hnone] at hends
    exact ⟨t, ht, hends, hkept⟩

/-! ## The bits after the last code (R186) -/

/-- A bit of the walk is taken, or the walk raises. -/
theorem walkBit_takes (c : Bool) (s : State) :
    (walkBit c s).Leaves (fun u => u.bitpos = s.bitpos + 1) (fun u => u.STATE = .error) fun _ => True := by
  unfold walkBit
  split
  · trivial
  · rename_i nd _
    generalize (if c then nd.right else nd.left) = y
    rcases arrive_cases y (takeBit s) with ⟨-, he⟩ | ⟨-, -, he⟩ | ⟨-, -, he⟩ <;> rw [he]
    · exact rfl
    · rcases emit_cases (y.setWidth 8) { takeBit s with node := y } with ⟨-, he⟩ | ⟨-, he⟩ <;> rw [he] <;> exact rfl
    · exact rfl

/-- The walk from s takes some of the given bits, from the first one on, and answers t whatever stands behind those. -/
def AnswersAfterPrefix (s t : State) (bits : List Bool) : Prop :=
  ∃ taken, taken <+: bits ∧ t.bitpos.toNat = s.bitpos.toNat + taken.length ∧
    ∀ rest, (walkBits (taken ++ rest) s).outcome = .next t

section Prefix
variable {s t u : State} {c : Bool} {bits : List Bool}

/-- Where all N symbols are decoded, no bit is taken. -/
theorem answersAfterPrefix_of_done (hall : ¬s.op.toNat < s.N.toNat) (h : (walkBits bits s).outcome = .next t) :
    AnswersAfterPrefix s t bits := by
  have hcomplete (bits : List Bool) : (walkBits bits s).outcome = .next { s with OUT_LEN := s.op, STATE := .done } := by
    rw [walkBits_of_done hall]
    rfl
  cases (hcomplete bits).symm.trans h
  exact ⟨[], List.nil_prefix, rfl, fun rest => hcomplete rest⟩

/-- Where symbols are missing and a bit is taken, the walk from where it leads decides. -/
theorem AnswersAfterPrefix.cons (hmore : s.op.toNat < s.N.toNat) (hbit : walkBit c s = .go u)
    (hpos : u.bitpos.toNat = s.bitpos.toNat + 1) (h : AnswersAfterPrefix u t bits) : AnswersAfterPrefix s t (c :: bits) := by
  obtain ⟨taken, hprefix, htaken, hrest⟩ := h
  refine ⟨c :: taken, List.cons_prefix_cons.2 ⟨rfl, hprefix⟩, by rw [List.length_cons]; omega, fun rest => ?_⟩
  rw [List.cons_append, walkBits_cons hmore, hbit]
  exact hrest rest

/-- A walk that completes is answered after the bits it has taken. -/
theorem answersAfterPrefix_of_completed (hdone : t.STATE = .done) (bits : List Bool) :
    ∀ s, (walkBits bits s).outcome = .next t → s.bitpos.toNat + bits.length < 2 ^ 35 →
      AnswersAfterPrefix s t bits := by
  induction bits with
  | nil =>
    intro s h _
    by_cases hmore : s.op.toNat < s.N.toNat
    · rw [walkBits_nil hmore] at h
      cases h
      cases hdone
    · exact answersAfterPrefix_of_done hmore h
  | cons c bits ih =>
    intro s h hbound
    rw [List.length_cons] at hbound
    by_cases hmore : s.op.toNat < s.N.toNat
    · have htakes := walkBit_takes c s
      rw [walkBits_cons hmore] at h
      cases hbit : walkBit c s with
      | go u =>
        rw [hbit] at h htakes
        have hnext : u.bitpos = s.bitpos + 1 := htakes
        have hpos : u.bitpos.toNat = s.bitpos.toNat + 1 := by
          rw [hnext, BitVec.toNat_add]
          exact Nat.mod_eq_of_lt (show s.bitpos.toNat + 1 < 2 ^ 35 by omega)
        exact (ih u h (by omega)).cons hmore hbit hpos
      | ended u =>
        rw [hbit] at h htakes
        cases h
        exact nomatch hdone.symm.trans htakes
      | stop e =>
        rw [hbit] at h
        cases h
    · exact answersAfterPrefix_of_done hmore h

end Prefix

/-- Settles O42: both payloads begin with the bits that a completed walk has taken, and these decide its end. -/
theorem bitsAfterTheLastCodeAreIgnored : Obligations.BitsAfterTheLastCodeAreIgnored := by
  unfold Obligations.BitsAfterTheLastCodeAreIgnored
  intro p q s t hwf hbusy hexec hdone hagree
  rw [execHufPay_busy hbusy] at hexec ⊢
  have hlength : (p.flatMap byteBits).length < 2 ^ 35 := by
    simp only [Instr.wf, payloadFits, Bool.and_eq_true, decide_eq_true_eq] at hwf
    rw [length_flatMap_byteBits]
    omega
  obtain ⟨taken, hprefix, htaken, hrest⟩ := answersAfterPrefix_of_completed hdone _ _ hexec (by simpa using hlength)
  have hsame : (p.flatMap byteBits).take t.bitpos.toNat = taken := by
    rw [htaken, enterWalk_bitpos]
    simpa using (List.prefix_iff_eq_take.1 hprefix).symm
  obtain ⟨rest, hq⟩ := hsame ▸ hagree
  rw [← hq]
  exact hrest rest

end Sys2Proof.Machine
end

section
/-! # The LZ77 encoder: the search and one token (44_lz77_encode.md R202, R204) -/

namespace Sys2Proof.Machine

/-! ## What the reference search finds (R202) -/

namespace Reference

/-- Among the offsets 1 to n the best length and the nearest offset that attains it; 0 and 0 where no offset gives a match. -/
structure NearestBest (c : Config) (b : List Byte) (p n : Nat) (found : Nat × Nat) : Prop where
  longest : ∀ d, 1 ≤ d → d ≤ n → matchLength c b p d ≤ found.1
  none_found : found.1 = 0 → found.2 = 0
  offset : found.1 ≠ 0 → 1 ≤ found.2 ∧ found.2 ≤ n ∧ matchLength c b p found.2 = found.1
  nearest : ∀ d, 1 ≤ d → d < found.2 → matchLength c b p d < found.1

section NearestBest
variable {c : Config} {b : List Byte} {p n : Nat} {found : Nat × Nat}

/-- One more offset: a longer match replaces the best one, a tie does not. -/
theorem NearestBest.betterMatch (h : NearestBest c b p n found) :
    NearestBest c b p (n + 1) (Reference.betterMatch c b p found (n + 1)) := by
  obtain ⟨hlongest, hnone, hoffset, hnearest⟩ := h
  unfold Reference.betterMatch
  split
  · rename_i hlonger
    refine ⟨fun d hd hle => ?_, fun hzero => ?_, fun _ => ⟨Nat.le_add_left 1 n, Nat.le_refl _, rfl⟩, fun d hd hlt => ?_⟩
    · rcases Nat.le_succ_iff.1 hle with hle | rfl
      · exact Nat.le_of_lt (Nat.lt_of_le_of_lt (hlongest d hd hle) hlonger)
      · exact Nat.le_refl _
    · exact absurd hlonger (by dsimp only at hzero; omega)
    · exact Nat.lt_of_le_of_lt (hlongest d hd (Nat.le_of_lt_succ hlt)) hlonger
  · rename_i hnot
    refine ⟨fun d hd hle => ?_, hnone, fun hne => ?_, hnearest⟩
    · rcases Nat.le_succ_iff.1 hle with hle | rfl
      · exact hlongest d hd hle
      · exact Nat.le_of_not_lt hnot
    · obtain ⟨hone, hle, hattained⟩ := hoffset hne
      exact ⟨hone, Nat.le_succ_of_le hle, hattained⟩

theorem nearestBest_foldl (c : Config) (b : List Byte) (p n : Nat) :
    NearestBest c b p n ((List.range' 1 n).foldl (Reference.betterMatch c b p) (0, 0)) := by
  induction n with
  | zero => exact ⟨fun d hd hle => by omega, fun _ => rfl, fun hne => absurd rfl hne, nofun⟩
  | succ n ih =>
    rw [List.range'_1_concat, List.foldl_append, Nat.add_comm 1 n]
    exact ih.betterMatch

theorem nearestBest_bestMatch (c : Config) (b : List Byte) (p : Nat) :
    NearestBest c b p (min c.W p) (bestMatch c b p) := nearestBest_foldl c b p _

/-- The best match lies inside the lookahead, is no longer than its offset, and repeats the input. -/
theorem bestMatch_fits_and_repeats (hp : p < b.length) :
    (bestMatch c b p).1 ≤ min (min c.M (b.length - p)) (bestMatch c b p).2 ∧
      ∀ i, i < (bestMatch c b p).1 → b[p - (bestMatch c b p).2 + i]? = b[p + i]? := by
  rcases Nat.eq_zero_or_pos (bestMatch c b p).1 with hzero | hpos
  · rw [hzero]
    exact ⟨Nat.zero_le _, nofun⟩
  · obtain ⟨-, -, hattained⟩ := (nearestBest_bestMatch c b p).offset (Nat.ne_of_gt hpos)
    have hle := matchLength_le c b p (bestMatch c b p).2
    exact ⟨by omega, (goodMatch_of_bestMatch hpos hp).repeats⟩

end NearestBest

end Reference

/-! ## LE_SEARCH from any state (R202) -/

/-- A running operation with nothing emitted yet, over the input of a state. -/
def nothingEmitted (s : State) : State :=
  { s with STATE := .busy, ERR := .noError, OUT := [], OUT_LEN := 0, op := 0 }

section Search
variable {s : State}

theorem working_nothingEmitted (s : State) : Working (nothingEmitted s) [] (nothingEmitted s) :=
  ⟨rfl, ⟨rfl, rfl⟩, ⟨rfl, rfl, rfl⟩, rfl, Nat.zero_le _, .nil, nofun, fun _ _ => rfl⟩

theorem matchFrom_nothingEmitted (s : State) (o lim fuel : Nat) :
    ∀ k, matchFrom (nothingEmitted s) o lim fuel k = matchFrom s o lim fuel k := by
  induction fuel with
  | zero => exact fun _ => rfl
  | succ fuel ih =>
    intro k
    rw [matchFrom, matchFrom, ih]
    rfl

theorem matchAt_nothingEmitted (s : State) (o : Nat) : matchAt (nothingEmitted s) o = matchAt s o :=
  matchFrom_nothingEmitted s o _ _ 0

theorem candidate_nothingEmitted (o k : Nat) (s : State) :
    candidate o k (nothingEmitted s) = nothingEmitted (candidate o k s) := by
  unfold candidate
  rw [apply_ite nothingEmitted]
  rfl

/-- A state with the registers of the matcher taken from another. -/
def takeMatcher (s t : State) : State := { s with o := t.o, k := t.k, best := t.best, boff := t.boff }

theorem takeMatcher_candidate (o k : Nat) (s t : State) : takeMatcher (candidate o k s) t = takeMatcher s t := by
  unfold candidate
  split <;> rfl

/-- The search neither reads nor changes STATUS and what is emitted. -/
theorem searchOver_nothingEmitted (os : List Nat) :
    ∀ s, searchOver os s = (searchOver os (nothingEmitted s)).bind fun t => .go (takeMatcher s t) := by
  induction os with
  | nil => exact fun _ => rfl
  | cons o os ih =>
    intro s
    rw [searchOver, searchOver, matchAt_nothingEmitted]
    cases matchAt s o with
    | error e => rfl
    | ok k =>
      rw [Flow.onRead_ok, Flow.onRead_ok, ih (candidate o k s), candidate_nothingEmitted]
      simp only [takeMatcher_candidate]

/-- LE_SEARCH with input left finds the reference match, and changes the registers of the matcher alone. -/
theorem search_of_input {b : List Byte} (hc : s.cfg.wf) (hinput : InputIs s b) (hlt : s.ip.toNat < b.length) :
    ∃ t, search s = .go (takeMatcher s t) ∧ (t.best.toNat, t.boff.toNat) = Reference.bestMatch s.cfg b s.ip.toNat := by
  obtain ⟨o, k, best, boff, hsearch, hfound⟩ :=
    search_eq (s0 := nothingEmitted s) hc hinput (working_nothingEmitted s) hlt
  have hwhole : search s = (search (nothingEmitted s)).bind fun t => .go (takeMatcher s t) :=
    searchOver_nothingEmitted (offsets s) { s with best := 0, boff := 0 }
  exact ⟨_, by rw [hwhole, hsearch, Flow.bind_go], hfound⟩

end Search

/-- Settles O45: the search finds the reference match, which is the nearest of the longest. -/
theorem searchFindsTheLongestNearestMatch : Obligations.SearchFindsTheLongestNearestMatch := by
  unfold Obligations.SearchFindsTheLongestNearestMatch
  intro s b hc _ hsel hph hinput hlt
  obtain ⟨t, hsearch, hfound⟩ := search_of_input hc hinput hlt
  have hstep : sequencerStep s = .go { takeMatcher s t with phase := .leEmit } := by
    rw [sequencerStep_eq_commandStep hsel, commandStep, lzEncStep, hph]
    dsimp only
    rw [searchStep, if_pos (by rwa [hinput.1]), hsearch, Flow.bind_go]
  have hnearest := Reference.nearestBest_bestMatch s.cfg b s.ip.toNat
  have hrepeats := Reference.bestMatch_fits_and_repeats (c := s.cfg) hlt
  rw [← hfound] at hnearest hrepeats
  refine ⟨_, hstep, rfl, hnearest.longest, fun hzero => ?_, fun hne => ?_, hrepeats⟩
  · exact BitVec.eq_of_toNat_eq (hnearest.none_found (congrArg BitVec.toNat hzero))
  · obtain ⟨hone, hle, hattained⟩ := hnearest.offset fun hzero => hne (BitVec.eq_of_toNat_eq hzero)
    exact ⟨hone, hle, hattained, hnearest.nearest⟩

/-! ## LE_EMIT where OUT has room (R204) -/

/-- The bytes stand in OUT from the op of s on, op is past them, and nothing else is changed. -/
structure Appended (vs : List Byte) (s t : State) : Prop where
  rest : t = { s with OUT := t.OUT, op := t.op }
  op : t.op.toNat = s.op.toNat + vs.length
  bytes : ∀ i v, vs[i]? = some v → t.OUT.read (s.op.toNat + i) = some v
  kept : ∀ j, j < s.op.toNat ∨ s.op.toNat + vs.length ≤ j → t.OUT.read j = s.OUT.read j

section Emit
variable {s : State}

theorem Appended.cons {t : State} {v : Byte} {vs : List Byte} (hout : s.OUT.wf)
    (hop : (pushOut v s).op.toNat = s.op.toNat + 1) (h : Appended vs (pushOut v s) t) : Appended (v :: vs) s t := by
  obtain ⟨hrest, hop', hbytes, hkept⟩ := h
  rw [hop] at hop' hbytes hkept
  refine ⟨hrest, by rw [List.length_cons]; omega, fun i w hw => ?_, fun j hj => ?_⟩
  · cases i with
    | zero => rw [Nat.add_zero, hkept _ (by omega), read_pushOut v hout, if_pos rfl]; exact hw
    | succ i => rw [Nat.add_comm i 1, ← Nat.add_assoc]; exact hbytes i w hw
  · rw [List.length_cons] at hj
    rw [hkept j (by omega), read_pushOut v hout, if_neg (by omega)]

/-- Bytes OUT has room for are all appended. -/
theorem emitAll_of_room (vs : List Byte) : ∀ {s : State}, s.cfg.wf → s.OUT.wf →
    s.op.toNat + vs.length ≤ s.cfg.OUT_CAP → ∃ t, emitAll vs s = .go t ∧ Appended vs s t := by
  induction vs with
  | nil => exact fun _ _ _ => ⟨_, rfl, rfl, rfl, nofun, fun _ _ => rfl⟩
  | cons v vs ih =>
    intro s hc hout hroom
    rw [List.length_cons] at hroom
    have hop : (pushOut v s).op.toNat = s.op.toNat + 1 := toNat_op_succ hc (by omega)
    have hroom' : (pushOut v s).op.toNat + vs.length ≤ (pushOut v s).cfg.OUT_CAP := by
      rw [hop, pushOut_cfg]
      omega
    obtain ⟨t, ht, happended⟩ := ih (s := pushOut v s) hc (Memory.wf_write _ _ hout) hroom'
    refine ⟨t, ?_, happended.cons hout hop⟩
    rw [emitAll_cons, emit, if_neg (by omega), Flow.bind_go, ht]

/-- LE_EMIT with a match long enough. -/
theorem tokenStep_match (h : s.cfg.MIN_MATCH ≤ s.best.toNat) :
    tokenStep s = (emitAll (encode (.matchRef s.boff s.best)) s).bind fun s =>
      .go { s with ip := s.ip + s.best.setWidth 32, phase := .leSearch } := if_pos h

/-- LE_EMIT with a match too short. -/
theorem tokenStep_lit {v : Byte} (h : s.best.toNat < s.cfg.MIN_MATCH) (hv : readIn s s.ip.toNat = .ok v) :
    tokenStep s = (emitAll (encode (.lit v)) s).bind fun s => .go { s with ip := s.ip + 1, phase := .leSearch } := by
  rw [tokenStep, if_neg (Nat.not_le.2 h), hv, Flow.onRead_ok]

end Emit

/-- Settles O46: both tokens are bytes OUT has room for. -/
theorem oneTokenIsEmitted : Obligations.OneTokenIsEmitted := by
  unfold Obligations.OneTokenIsEmitted
  intro s v hc hout _ hsel hph hlt hv
  have hstep : sequencerStep s = tokenStep s := by
    rw [sequencerStep_eq_commandStep hsel, commandStep, lzEncStep, hph]
  rw [hstep]
  refine ⟨fun hlong hroom => ?_, fun hshort hroom => ?_⟩
  · obtain ⟨t, ht, hrest, hop, hbytes, hkept⟩ := emitAll_of_room (encode (.matchRef s.boff s.best)) hc hout hroom
    rw [tokenStep_match hlong, ht, Flow.bind_go]
    refine ⟨_, rfl, ?_, hop, hbytes 0 _ rfl, hbytes 1 _ rfl, hbytes 2 _ rfl, hbytes 3 _ rfl, hkept⟩
    rw [hrest]
  · obtain ⟨t, ht, hrest, hop, hbytes, hkept⟩ := emitAll_of_room (encode (.lit v)) hc hout hroom
    rw [tokenStep_lit hshort (readIn_ok.2 ⟨hlt, hv⟩), ht, Flow.bind_go]
    refine ⟨_, rfl, ?_, hop, hbytes 0 _ rfl, hbytes 1 _ rfl, hkept⟩
    rw [hrest]

end Sys2Proof.Machine
end

section
/-! # The LZ77 decoder: its round trip and the LIT and MATCH tokens (45_lz77_decode.md R222 to R227) -/

namespace Sys2Proof.Machine

/-! ## The round trip (R227) -/

/-- Settles O51: each token the encoder wrote decodes to the piece of the input it stands for (`run_lzDec_of_run_lzEnc`). -/
theorem lzRoundTrip : Obligations.LzRoundTrip := by
  unfold Obligations.LzRoundTrip
  intro c c' b e
  exact Reference.run_lzDec_of_run_lzEnc

/-! ## What a token leaves alone and what `append` writes (R225) -/

/-- What has the same frame of LZ.DEC has the host's side and the other engines' registers in common. -/
theorem kept_of_lzDecFrame {s t : State} (h : (frameOf .lzDec t).hideStatus = (frameOf .lzDec s).hideStatus) :
    HostSideKept s t ∧ t.cur = s.cur ∧ TreeKept s t ∧ PackerKept s t ∧ WalkKept s t ∧ MatcherKept s t :=
  ⟨⟨(congrArg State.cfg h :), (congrArg State.IN h :), (congrArg State.IN_LEN h :), (congrArg State.ALG h :),
      (congrArg State.DIR h :), (congrArg State.host h :), (congrArg State.replies h :), (congrArg State.freeCtr h :)⟩,
    (congrArg State.cur h :),
    ⟨(congrArg State.FREQ h :), (congrArg State.NODE h :), (congrArg State.ROOT h :), (congrArg State.K h :),
      (congrArg State.ACTIVE h :)⟩,
    ⟨(congrArg State.CODE h :), (congrArg State.LEN h :), (congrArg State.acc h :), (congrArg State.nbits h :)⟩,
    ⟨(congrArg State.N h :), (congrArg State.node h :), (congrArg State.bitpos h :), (congrArg State.fsum h :)⟩,
    ⟨(congrArg State.o h :), (congrArg State.k h :), (congrArg State.best h :), (congrArg State.boff h :)⟩⟩

section Append
variable {s : State}

/-- What `append` does where OUT has room. -/
theorem append_of_room (v : Byte) (h : s.op.toNat ≠ s.cfg.OUT_CAP) : append v s = .go (pushWindow v (pushOut v s)) := by
  rcases append_cases v s with ⟨hfull, -⟩ | ⟨-, he⟩
  · exact absurd hfull h
  · exact he

/-- What `append` does where OUT is full. -/
theorem append_of_full (v : Byte) (h : s.op.toNat = s.cfg.OUT_CAP) : append v s = raise .capacityOverflow s := by
  rcases append_cases v s with ⟨-, he⟩ | ⟨hroom, -⟩
  · exact he
  · exact absurd h hroom

/-- The write pointer stays below W, which 16 bits hold (10_state.md R37). -/
theorem toNat_wp_appended (hc : s.cfg.wf) (v : Byte) :
    (pushWindow v (pushOut v s)).wp.toNat = (s.wp.toNat + 1) % s.cfg.W := by
  obtain ⟨-, -, ⟨hW, hWmax⟩, -⟩ := hc
  have := Nat.mod_lt (s.wp.toNat + 1) hW
  exact Nat.mod_eq_of_lt (by rw [pushOut_wp, pushOut_cfg]; omega)

theorem read_OUT_appended (hout : s.OUT.wf) (v : Byte) (j : Nat) :
    (pushWindow v (pushOut v s)).OUT.read j = if j = s.op.toNat then some v else s.OUT.read j := read_pushOut v hout j

theorem read_WIN_appended (hwin : s.WIN.wf) (v : Byte) (c : Nat) :
    (pushWindow v (pushOut v s)).WIN.read c = if c = s.wp.toNat then some v else s.WIN.read c :=
  Memory.read_write _ _ _ _ hwin

end Append

/-! ## LIT (R222) -/

theorem execLit_busy {s : State} (hbusy : s.STATE = .busy) (b : Byte) : exec (.lit b) s = (beginLit b s).outcome :=
  whileBusy_busy hbusy

/-- Settles O48: a LIT is one `append`, which writes one cell of OUT and one of the window, or raises. -/
theorem litToken : Obligations.LitToken := by
  unfold Obligations.LitToken
  intro b s hc hout hwin hbusy hop
  rw [execLit_busy hbusy, beginLit]
  rcases Nat.lt_or_eq_of_le hop with hroom | hfull
  · rw [append_of_room b (Nat.ne_of_lt hroom)]
    obtain ⟨hhost, hcur, htree, hpacker, hwalk, hmatcher⟩ :=
      kept_of_lzDecFrame (s := s) (t := { pushWindow b (pushOut b s) with ip := s.ip + 2 }) rfl
    refine ⟨_, rfl, hhost, ⟨hcur, rfl⟩, htree, hpacker, hwalk, hmatcher, rfl, rfl, rfl, fun _ => ?_,
      fun hfull => absurd hfull (Nat.ne_of_lt hroom)⟩
    have hread := read_OUT_appended hout b
    have hreadWin := read_WIN_appended hwin b
    exact ⟨⟨rfl, rfl, rfl⟩, toNat_op_succ hc hroom, rfl, toNat_wp_appended hc b, (hread _).trans (if_pos rfl),
      (hreadWin _).trans (if_pos rfl), fun j hj => (hread j).trans (if_neg hj), fun c hc => (hreadWin c).trans (if_neg hc)⟩
  · rw [append_of_full b hfull]
    obtain ⟨hhost, hcur, htree, hpacker, hwalk, hmatcher⟩ :=
      kept_of_lzDecFrame (s := s) (t := { s with ERR := .capacityOverflow, STATE := .error }) rfl
    exact ⟨_, rfl, hhost, ⟨hcur, rfl⟩, htree, hpacker, hwalk, hmatcher, rfl, rfl, rfl,
      fun hroom => absurd hfull (Nat.ne_of_lt hroom), fun _ => ⟨rfl, rfl, rfl, rfl, rfl, rfl, rfl, rfl⟩⟩

/-! ## The checks of a MATCH (R223) -/

theorem execMatch_busy {s : State} (hbusy : s.STATE = .busy) (offset : BitVec 16) (length : Byte) :
    exec (.matchRef offset length) s = ((beginMatch offset length s).bind
      (iterate copyStep (fun s => decide (s.phase = .ldCopy)) length.toNat)).outcome :=
  whileBusy_busy (f := fun s => (beginMatch offset length s).bind
    (iterate copyStep (fun s => decide (s.phase = .ldCopy)) length.toNat)) hbusy

/-- The operands that pass the checks. -/
theorem not_badMatch {c : Config} {offset : BitVec 16} {length : Byte} {decoded : Nat} (hoff : 1 ≤ offset.toNat)
    (hW : offset.toNat ≤ c.W) (hlen : 1 ≤ length.toNat) (hM : length.toNat ≤ c.M) (hback : offset.toNat ≤ decoded) :
    ¬BadMatch c offset length decoded := by
  unfold BadMatch
  omega

/-- Settles O49: the three checks of the token are one condition on its operands. -/
theorem matchChecks : Obligations.MatchChecks := by
  unfold Obligations.MatchChecks
  refine fun offset length s hbusy => ⟨fun hbad => ?_, fun hoff hW hlen hM hback => ?_⟩
  · rw [execMatch_busy hbusy, beginMatch_of_bad hbad]
    rfl
  · exact beginMatch_of_good (not_badMatch hoff hW hlen hM hback)

/-! ## The copy of a MATCH (R224, R226) -/

section MatchCopy
variable {s0 s t : State} {offset : BitVec 16} {length : Byte} {n : Nat}

/-- A MATCH begun in s0 has appended the bytes from the op of s0 up to the op of s, each equal to the one `offset` behind it,
to OUT and to the window; nothing else is changed outside the LZ.DEC engine and STATUS. -/
structure MatchFills (s0 : State) (offset : BitVec 16) (length : Byte) (s : State) : Prop where
  frame : (frameOf .lzDec s).hideStatus = (frameOf .lzDec s0).hideStatus
  operands : s.off = offset ∧ s.len = length
  op_le : s0.op.toNat ≤ s.op.toNat
  fits : s.op.toNat ≤ s0.cfg.OUT_CAP
  repeats : ∀ j, s0.op.toNat ≤ j → j < s.op.toNat →
    ∃ v, s.OUT.read j = some v ∧ s.OUT.read (j - offset.toNat) = some v
  outKept : ∀ j, j < s0.op.toNat ∨ s.op.toNat ≤ j → s.OUT.read j = s0.OUT.read j
  winKept : ∀ c, (∀ i, i < s.op.toNat - s0.op.toNat → c ≠ (s0.wp.toNat + i) % s0.cfg.W) →
    s.WIN.read c = s0.WIN.read c
  window : WinOk s

/-- A state without STATUS, the program counter and cnt. -/
def hideProgress (s : State) : State := { s.hideStatus with phase := .pEntry, ip := 0, cnt := 0 }

theorem matchFills_hideProgress : MatchFills s0 offset length (hideProgress s) ↔ MatchFills s0 offset length s := by
  constructor <;>
    exact fun ⟨hframe, hoperands, hle, hfits, hrepeats, hout, hwin, hwindow⟩ =>
      ⟨hframe, hoperands, hle, hfits, hrepeats, hout, hwin, hwindow⟩

/-- Updates of STATUS, the program counter and cnt do not matter. -/
theorem MatchFills.set (h : MatchFills s0 offset length s) (ht : hideProgress t = hideProgress s := by rfl) :
    MatchFills s0 offset length t :=
  matchFills_hideProgress.1 (ht ▸ matchFills_hideProgress.2 h)

/-- The byte `offset` behind op stands where the copy reads the window. -/
theorem MatchFills.exists_source (hgood : ¬BadMatch s0.cfg offset length s0.op.toNat) (hrun : MidRun s0 s)
    (h : MatchFills s0 offset length s) :
    ∃ v, s.WIN.read (copySource s) = some v ∧ s.OUT.read (s.op.toNat - offset.toNat) = some v := by
  unfold BadMatch at hgood
  have hle := h.op_le
  have hcfg := hrun.same.cfg
  obtain ⟨-, hpresent⟩ := hrun.base.output.1 hrun.busy
  obtain ⟨-, hrecent⟩ := h.window
  have hsource := hrecent (offset.toNat - 1) (by rw [hcfg]; omega)
  rw [Nat.sub_add_cancel (by omega)] at hsource
  obtain ⟨v, hv⟩ := Option.isSome_iff_exists.1 (hpresent (s.op.toNat - offset.toNat) (by omega))
  exact ⟨v, by rw [copySource, h.operands.1, hsource, hv], hv⟩

/-- One more byte of the copy. -/
theorem MatchFills.push (hstart : WinOk s0) (hgood : ¬BadMatch s0.cfg offset length s0.op.toNat) (hrun : MidRun s0 s)
    (h : MatchFills s0 offset length s) {v : Byte} (hv : s.OUT.read (s.op.toNat - offset.toNat) = some v)
    (hroom : s.op.toNat ≠ s.cfg.OUT_CAP) :
    MidRun s0 (pushWindow v (pushOut v s)) ∧ MatchFills s0 offset length (pushWindow v (pushOut v s)) ∧
      (s.op + 1).toNat = s.op.toNat + 1 := by
  have hruns := append_runs v hrun h.window
  rw [append_of_room v hroom] at hruns
  obtain ⟨-, hrun', hwindow', hop⟩ := hruns
  obtain ⟨hframe, hoperands, hle, -, hrepeats, hout, hwin, hwpNow, -⟩ := h
  obtain ⟨-, ⟨houtwf, -⟩, hwinwf, -⟩ := hrun.base.memory
  have hread := read_OUT_appended houtwf v
  have hwp : s.wp.toNat = (s0.wp.toNat + (s.op.toNat - s0.op.toNat)) % s0.cfg.W := by
    rw [hwpNow, hstart.1, hrun.same.cfg, Nat.mod_add_mod, Nat.add_sub_cancel' hle]
  obtain ⟨hfits, -⟩ := hrun'.base.output.1 hrun'.busy
  rw [hrun'.same.cfg] at hfits
  unfold BadMatch at hgood
  refine ⟨hrun', ⟨hframe, hoperands, by omega, hfits, fun j hj hlt => ?_, fun j hj => ?_, fun c hc => ?_, hwindow'⟩, hop⟩
  · rw [hread, hread, if_neg (show j - offset.toNat ≠ s.op.toNat by omega)]
    by_cases hlast : j = s.op.toNat
    · rw [if_pos hlast, hlast]
      exact ⟨v, rfl, hv⟩
    · rw [if_neg hlast]
      exact hrepeats j hj (by omega)
  · rw [hread, if_neg (by omega)]
    exact hout j (by omega)
  · have hother : c ≠ s.wp.toNat := hwp ▸ hc _ (by omega)
    rw [read_WIN_appended hwinwf, if_neg hother]
    exact hwin c fun i hi => hc i (by omega)

/-- The MATCH begun in s0 is done: from s, n bytes were still to be copied. -/
structure MatchDone (s0 : State) (offset : BitVec 16) (length : Byte) (n : Nat) (s t : State) : Prop where
  fills : MatchFills s0 offset length t
  status : StatusKept s t
  op : t.op.toNat = s.op.toNat + n
  ip : t.ip = s.ip + 4
  cnt : t.cnt = 0
  phase : t.phase = .ldToken

/-- The MATCH begun in s0 has found OUT full: from s, n bytes were still to be copied. -/
structure MatchOverflows (s0 : State) (offset : BitVec 16) (length : Byte) (n : Nat) (s t : State) : Prop where
  fills : MatchFills s0 offset length t
  status : t.STATE = .error ∧ t.ERR = .capacityOverflow ∧ t.OUT_LEN = s.OUT_LEN
  op : t.op.toNat = s0.cfg.OUT_CAP
  ip : t.ip = s.ip
  exceeds : s0.cfg.OUT_CAP < s.op.toNat + n

/-- LD_COPY copies the bytes that cnt counts, or raises at the one that finds OUT full. -/
theorem copyLoop_leaves (hstart : WinOk s0) (hgood : ¬BadMatch s0.cfg offset length s0.op.toNat) (n : Nat) :
    ∀ s, MidRun s0 s → MatchFills s0 offset length s → s.phase = .ldCopy → s.cnt.toNat = n → 1 ≤ n →
      (iterate copyStep (fun s => decide (s.phase = .ldCopy)) n s).Leaves (MatchDone s0 offset length n s)
        (MatchOverflows s0 offset length n s) fun _ => False := by
  induction n with
  | zero => exact fun _ _ _ _ _ hpos => absurd hpos (Nat.not_succ_le_zero 0)
  | succ n ih =>
    intro s hrun h hph hcnt _
    obtain ⟨v, hwin, hout⟩ := h.exists_source hgood hrun
    rw [iterate_succ, if_pos (decide_eq_true hph), copyStep, if_pos (by omega), hwin]
    dsimp only
    by_cases hfull : s.op.toNat = s.cfg.OUT_CAP
    · rw [append_of_full v hfull]
      rw [hrun.same.cfg] at hfull
      exact ⟨h.set, ⟨rfl, rfl, rfl⟩, hfull, rfl, by omega⟩
    · obtain ⟨hrun', h', hop⟩ := h.push hstart hgood hrun hout hfull
      rw [append_of_room v hfull, Flow.bind_go, pushWindow_cnt, pushOut_cnt]
      split
      · rename_i hlast
        obtain rfl : n = 0 := by omega
        exact ⟨h'.set, ⟨rfl, rfl, rfl⟩, hop, rfl, rfl, rfl⟩
      · have hcnt' : (s.cnt - 1).toNat = n := by bv_omega
        refine (ih { pushWindow v (pushOut v s) with cnt := s.cnt - 1 } hrun'.set h'.set hph hcnt' (by omega)).mono
          (fun t ht => ?_) (fun t ht => ?_) fun _ h => h
        · obtain ⟨hfills, hstatus, htop, hip, hcnt0, htph⟩ := ht
          exact ⟨hfills, hstatus, by rw [htop]; simp only [pushWindow_op, pushOut_op, hop]; omega, hip, hcnt0, htph⟩
        · obtain ⟨hfills, hstatus, htop, hip, hexceeds⟩ := ht
          exact ⟨hfills, hstatus, htop, hip, by simp only [pushWindow_op, pushOut_op, hop] at hexceeds; omega⟩

/-- A MATCH accepted in a state of the invariant is copied to its end, or to the end of OUT. -/
theorem execMatch_ends (hinv : Inv s) (hbusy : s.STATE = .busy) (hph : s.phase = .ldToken)
    (hgood : ¬BadMatch s.cfg offset length s.op.toNat) :
    ∃ t, exec (.matchRef offset length) s = .next t ∧
      (MatchDone s offset length length.toNat s t ∨ MatchOverflows s offset length length.toNat s t) := by
  have hstart : WinOk s := (hinv.window hbusy).1 (.inl hph)
  obtain ⟨hfits, -⟩ := hinv.output.1 hbusy
  have hfills : MatchFills s offset length { s with off := offset, len := length, cnt := length, phase := .ldCopy } :=
    ⟨rfl, ⟨rfl, rfl⟩, Nat.le_refl _, hfits, fun j hj hlt => absurd hlt (Nat.not_lt.2 hj), fun _ _ => rfl,
      fun _ _ => rfl, hstart⟩
  have hpos : 1 ≤ length.toNat := by
    unfold BadMatch at hgood
    omega
  have hloop := copyLoop_leaves hstart hgood length.toNat _ (hinv.mid hbusy).set hfills rfl rfl hpos
  rw [execMatch_busy hbusy, beginMatch_of_good hgood, Flow.bind_go]
  obtain ⟨t, ht, hdone | hover⟩ | ⟨_, _, hfalse⟩ := hloop.outcome
  · obtain ⟨hfills, hstatus, hop, hip, hcnt, hphase⟩ := hdone
    exact ⟨t, ht, .inl ⟨hfills, hstatus, hop, hip, hcnt, hphase⟩⟩
  · obtain ⟨hfills, hstatus, hop, hip, hexceeds⟩ := hover
    exact ⟨t, ht, .inr ⟨hfills, hstatus, hop, hip, hexceeds⟩⟩
  · exact hfalse.elim

end MatchCopy

/-- Settles O50: each turn of LD_COPY appends the byte `offset` behind, which the window holds, to OUT and to the window. -/
theorem matchCopies : Obligations.MatchCopies := by
  unfold Obligations.MatchCopies
  intro offset length s hinv hbusy hph hoff hW hlen hM hback
  obtain ⟨t, ht, hends⟩ := execMatch_ends hinv hbusy hph (not_badMatch hoff hW hlen hM hback)
  obtain ⟨hframe, ⟨htoff, htlen⟩, hle, hfits, hrepeats, hout, hwin, hwp, hrecent⟩ : MatchFills s offset length t :=
    hends.elim MatchDone.fills MatchOverflows.fills
  obtain ⟨hhost, hcur, htree, hpacker, hwalk, hmatcher⟩ := kept_of_lzDecFrame hframe
  rw [hhost.1] at hwp hrecent
  refine ⟨t, ht, hhost, hcur, htree, hpacker, hwalk, hmatcher, htoff, htlen, hle, hrepeats, hout, hwin, hwp,
    fun d hd hdle => ?_, fun hroom => ?_, fun hfull => ?_⟩
  · have hread := hrecent (d - 1) (by omega)
    rwa [Nat.sub_add_cancel hd] at hread
  · obtain h | h := hends
    · exact ⟨h.status, h.op, h.ip, h.cnt, h.phase⟩
    · exact absurd h.exceeds (Nat.not_lt.2 hroom)
  · obtain h | h := hends
    · have := h.op
      omega
    · obtain ⟨hstate, herr, hoLen⟩ := h.status
      exact ⟨hstate, herr, hoLen.trans (hinv.status.2 (by rw [hbusy]; decide)), h.op, h.ip⟩

end Sys2Proof.Machine
end

section
/-! # The reset input -/

namespace Sys2Proof.Machine

/-- The reset input is taken in every state, while an operation runs as well (70_reset_and_hazards.md R271). -/
theorem step_of_reset {s : State} {rest : List HostMove} (hhost : s.host = .reset :: rest) :
    step s = .next (resetInput { s with host := rest }) := by
  rw [step, hhost]
  rfl

/-- Settles O6: the registers and memories are those of reset (O5), and the rest is taken over from before the reset. -/
theorem resetAbandonsTheOperation : Obligations.ResetAbandonsTheOperation := by
  unfold Obligations.ResetAbandonsTheOperation
  intro s rest hhost
  obtain ⟨hstate, herr, hinLen, houtLen, hmemories⟩ := resetValues
  exact ⟨resetInput { s with host := rest }, step_of_reset hhost, hstate, herr, hinLen, houtLen, hmemories, rfl, rfl, rfl⟩

end Sys2Proof.Machine
end

section
/-! # The idle sequencer, and the errors an operation can raise (60_exceptions.md R241 to R256) -/

namespace Sys2Proof.Machine

/-! ## The idle sequencer (R256) -/

/-- Every instruction is pseudocode that a BUSY sequencer runs. -/
theorem exec_eq_whileBusy (i : Instr) : ∃ f, ∀ s, exec i s = whileBusy f s := by
  cases i <;> exact ⟨_, fun _ => rfl⟩

/-- Settles O17: no arm of `exec` runs while STATE is not BUSY, and neither does the turn. -/
theorem idleSequencerDoesNothing : Obligations.IdleSequencerDoesNothing := by
  unfold Obligations.IdleSequencerDoesNothing
  intro s i hidle
  obtain ⟨f, hf⟩ := exec_eq_whileBusy i
  exact ⟨(hf s).trans (whileBusy_idle hidle), fun hhost => (step_turn (.inl hhost)).trans (turn_idle hidle)⟩

/-! ## The error raised in place of a token or header (30_encoding.md R105) -/

/-- The decoders raise InvalidInput alone in place of a token or header. -/
def Fetched.RaisesInvalidInputOnly (x : Fetched) : Prop := ∀ k, x = .raises k → k = .invalidInput

theorem fetchedFrom_raisesInvalidInputOnly (st : Stream) (x : Except Fault (List Byte)) :
    (fetchedFrom st x).RaisesInvalidInputOnly := by
  intro k hk
  unfold fetchedFrom at hk
  split at hk
  · cases hk
  · split at hk <;> cases hk
    rfl

theorem fetchLz_raisesInvalidInputOnly (s : State) : (fetchLz s).RaisesInvalidInputOnly := by
  intro k hk
  unfold fetchLz at hk
  split at hk
  · cases hk
  · split at hk
    · cases hk
      rfl
    · split at hk
      · cases hk
        rfl
      · exact fetchedFrom_raisesInvalidInputOnly _ _ k hk

theorem fetchHeader_raisesInvalidInputOnly (s : State) : (fetchHeader s).RaisesInvalidInputOnly := by
  intro k hk
  unfold fetchHeader at hk
  split at hk
  · cases hk
    rfl
  · exact fetchedFrom_raisesInvalidInputOnly _ _ k hk

/-! ## An error an operation does not raise -/

/-- An error of kind e is not recorded, and the entry checks find no cause for it: the cause of EmptySequence is an empty
input (R241). -/
def Spared (e : ErrKind) (s : State) : Prop := s.ERR ≠ e ∧ (e = .emptySequence → s.IN_LEN ≠ 0)

/-- A piece of pseudocode raises no error of kind e. -/
abbrev Flow.Spares (e : ErrKind) (x : Flow) : Prop := x.Leaves (Spared e) (Spared e) fun _ => True

section Spares
variable {e : ErrKind} {s : State}

theorem Spared.raise {k : ErrKind} (h : Spared e s) (hk : k ≠ e) : (raise k s).Spares e := ⟨hk, h.2⟩

theorem Spared.complete (h : Spared e s) : (complete s).Spares e := h

theorem Flow.Spares.ite {c : Prop} [Decidable c] {x y : Flow} (hx : x.Spares e) (hy : y.Spares e) :
    (if c then x else y).Spares e := by
  by_cases h : c
  · rw [if_pos h]; exact hx
  · rw [if_neg h]; exact hy

theorem Flow.Spares.bind {x : Flow} {f : State → Flow} (hx : x.Spares e) (hf : ∀ t, Spared e t → (f t).Spares e) :
    (x.bind f).Spares e := Flow.Leaves.bind hx hf

theorem Flow.Spares.onRead {α : Type} {x : Except Fault α} {f : α → Flow} (hf : ∀ v, (f v).Spares e) :
    (Flow.onRead x f).Spares e := Flow.Leaves.onRead (fun v _ => hf v) fun _ _ => trivial

theorem Flow.Spares.run {x : Fetched} {begins : Instr → State → Flow} (hinvalid : .invalidInput ≠ e) (h : Spared e s)
    (hx : x.RaisesInvalidInputOnly) (hbegins : ∀ i, (begins i s).Spares e) : (x.run begins s).Spares e := by
  cases x with
  | instr i => exact hbegins i
  | raises k => exact h.raise (hx k rfl ▸ hinvalid)
  | fails f => trivial

theorem buildTree_spares (h : Spared e s) : (buildTree s).Spares e := Flow.Spares.ite trivial h

theorem searchOver_spares (h : Spared e s) (os : List Nat) : (searchOver os s).Spares e := by
  induction os generalizing s with
  | nil => exact h
  | cons o os ih =>
    refine Flow.Spares.onRead fun k => ih ?_
    unfold candidate
    split <;> exact h

/-! ### The encoders raise at the entry checks and where OUT is full -/

section Overflow
variable (hover : .capacityOverflow ≠ e)
include hover

theorem Spared.entryChecks {first : State → Flow} (h : Spared e s) (hfirst : (first s).Spares e) :
    (entryChecks first s).Spares e := by
  rcases entryChecks_cases first s with ⟨hlen, heq⟩ | ⟨-, -, heq⟩ | ⟨-, -, heq⟩ <;> rw [heq]
  · exact h.raise fun he => h.2 he.symm (BitVec.eq_of_toNat_eq hlen)
  · exact h.raise hover
  · exact hfirst

theorem Spared.emit (h : Spared e s) (v : Byte) : (emit v s).Spares e := Flow.Spares.ite (h.raise hover) h

theorem Spared.emitAll (h : Spared e s) (vs : List Byte) : (emitAll vs s).Spares e := by
  induction vs generalizing s with
  | nil => exact h
  | cons v vs ih => exact (h.emit hover v).bind fun _ => ih

theorem flushRun_spares (h : Spared e s) : (flushRun s).Spares e := Flow.Spares.ite (h.emitAll hover _) h

theorem rleEncStep_spares (h : Spared e s) : (rleEncStep s).Spares e := by
  unfold rleEncStep
  split
  · exact h.entryChecks hover (Flow.Spares.onRead fun _ => h)
  · refine Flow.Spares.ite (Flow.Spares.onRead fun b => Flow.Spares.bind ?_ fun _ ht => ht) h
    refine Flow.Spares.ite (Flow.Spares.ite ?_ h) ?_
    · exact (h.emitAll hover _).bind fun _ ht => ht
    · exact (flushRun_spares hover h).bind fun _ ht => ht
  · exact (flushRun_spares hover h).bind fun _ ht => ht.complete
  · trivial

theorem packBits_spares (h : Spared e s) (bits : List Bool) : (packBits bits s).Spares e := by
  induction bits generalizing s with
  | nil => exact h
  | cons c cs ih =>
    refine Flow.Spares.bind (Flow.Spares.ite ?_ h) fun _ => ih
    refine Flow.Spares.bind (Spared.emit hover ?_ _) fun _ ht => ht
    exact h

theorem hufEncStep_spares (h : Spared e s) : (hufEncStep s).Spares e := by
  unfold hufEncStep
  split
  · exact h.entryChecks hover h
  · exact Flow.Spares.ite (Flow.Spares.onRead fun _ => h) h
  · exact (buildTree_spares h).bind fun _ ht => ht
  · exact (h.emitAll hover _).bind fun _ ht => ht
  · exact h
  · exact Flow.Spares.ite (Flow.Spares.onRead fun _ => (packBits_spares hover h _).bind fun _ ht => ht) h
  · refine Flow.Spares.bind (Flow.Spares.ite (h.emit hover _) ?_) fun _ ht => ht.complete
    exact h
  · trivial

theorem lzEncStep_spares (h : Spared e s) : (lzEncStep s).Spares e := by
  unfold lzEncStep
  split
  · exact h.entryChecks hover h
  · exact Flow.Spares.ite ((searchOver_spares (s := { s with best := 0, boff := 0 }) h _).bind fun _ ht => ht) h.complete
  · exact Flow.Spares.ite ((h.emitAll hover _).bind fun _ ht => ht)
      (Flow.Spares.onRead fun _ => (h.emitAll hover _).bind fun _ ht => ht)
  · trivial

theorem append_spares (h : Spared e s) (v : Byte) : (append v s).Spares e := (h.emit hover v).bind fun _ ht => ht

/-! ### The decoders raise InvalidInput as well -/

section InvalidInput
variable (hinvalid : .invalidInput ≠ e)
include hinvalid

theorem rleDecStep_spares (h : Spared e s) : (rleDecStep s).Spares e := by
  unfold rleDecStep
  split
  · exact h.entryChecks hover h
  · exact Flow.Spares.ite (h.raise hinvalid) h
  · refine Flow.Spares.ite (Flow.Spares.run hinvalid h (fetchedFrom_raisesInvalidInputOnly _ _) fun i => ?_) h.complete
    cases i with
    | run count value => exact h
    | _ => trivial
  · exact Flow.Spares.ite ((h.emit hover _).bind fun _ ht => Flow.Spares.ite ht ht) h
  · trivial

theorem walkBit_spares (h : Spared e s) (c : Bool) : (walkBit c s).Spares e := by
  unfold walkBit
  split
  · trivial
  · refine Flow.Spares.ite (Spared.raise (s := takeBit s) h hinvalid) (Flow.Spares.ite ?_ h)
    refine Flow.Spares.bind (Spared.emit hover ?_ _) fun _ ht => ht
    exact h

theorem hufDecStep_spares (h : Spared e s) : (hufDecStep s).Spares e := by
  unfold hufDecStep
  split
  · exact h.entryChecks hover h
  · refine Flow.Spares.run hinvalid h (fetchHeader_raisesInvalidInputOnly s) fun i => ?_
    cases i with
    | hufHdr total freq =>
      have hloaded : Spared e (loadHeader total freq s) := h
      exact Flow.Spares.ite (hloaded.raise hinvalid) (Flow.Spares.ite (hloaded.raise hinvalid) h)
    | _ => trivial
  · exact Flow.Spares.ite (h.raise hover) ((buildTree_spares h).bind fun _ ht => ht)
  · exact Flow.Spares.ite
      (Flow.Spares.ite (h.raise hinvalid) (Flow.Spares.onRead fun c => walkBit_spares hover hinvalid h c)) h.complete
  · trivial

theorem lzDecStep_spares (h : Spared e s) : (lzDecStep s).Spares e := by
  unfold lzDecStep
  split
  · exact h.entryChecks hover h
  · refine Flow.Spares.ite (Flow.Spares.run hinvalid h (fetchLz_raisesInvalidInputOnly s) fun i => ?_) h.complete
    cases i with
    | lit b => exact (append_spares hover h b).bind fun _ ht => ht
    | matchRef offset length =>
      have hraise : (raise .invalidInput { s with off := offset, len := length }).Spares e :=
        Spared.raise (s := { s with off := offset, len := length }) h hinvalid
      exact Flow.Spares.ite hraise (Flow.Spares.ite hraise (Flow.Spares.ite hraise h))
    | _ => trivial
  · refine Flow.Spares.ite ?_ h
    split
    · trivial
    · exact (append_spares hover h _).bind fun _ ht => Flow.Spares.ite ht ht
  · trivial

end InvalidInput

/-- One step raises no error of kind e, unless that is CapacityOverflow, or InvalidInput in a decoder (R245). -/
theorem commandStep_spares {i : Instr} (hinvalid : (i = .rleEnc ∨ i = .hufEnc ∨ i = .lzEnc) ∨ .invalidInput ≠ e)
    (h : Spared e s) : (commandStep i s).Spares e := by
  cases i with
  | rleEnc => exact rleEncStep_spares hover h
  | hufEnc => exact hufEncStep_spares hover h
  | lzEnc => exact lzEncStep_spares hover h
  | rleDec => exact rleDecStep_spares hover (hinvalid.resolve_left (by decide)) h
  | hufDec => exact hufDecStep_spares hover (hinvalid.resolve_left (by decide)) h
  | lzDec => exact lzDecStep_spares hover (hinvalid.resolve_left (by decide)) h
  | _ => trivial

/-- What no step raises, the whole command does not raise. -/
theorem exec_spares {i : Instr} {t : State} (hcommand : isCommand i = true) (hbusy : s.STATE = .busy)
    (hinvalid : (i = .rleEnc ∨ i = .hufEnc ∨ i = .lzEnc) ∨ .invalidInput ≠ e) (h : Spared e s)
    (hexec : exec i s = .next t) : t.ERR ≠ e := by
  rw [exec_eq_runOperation hcommand] at hexec
  have hstep : ∀ u, Spared e u → (commandStep i u).Spares e := fun _ => commandStep_spares hover hinvalid
  rcases runOperation_cases hbusy hstep h with ⟨u, hu, hspared⟩ | ⟨f, hf, -⟩
  · cases hu.symm.trans hexec
    exact (hspared.elim id id).1
  · cases hf.symm.trans hexec

end Overflow

end Spares

/-- Settles O21: the entry checks raise EmptySequence on an empty input (O20), and nothing else does. -/
theorem emptySequenceOnlyAtEntry : Obligations.EmptySequenceOnlyAtEntry := by
  unfold Obligations.EmptySequenceOnlyAtEntry
  intro i s t hcommand hentry hexec
  obtain ⟨hbusy, herr, -, hphase, -⟩ := hentry
  constructor
  · intro hempty
    by_contra hlen
    exact exec_spares (by decide) hcommand hbusy (.inr (by decide)) ⟨by rw [herr]; decide, fun _ => hlen⟩ hexec hempty
  · intro hlen
    cases hexec.symm.trans ((entryChecks_inOrder i s hcommand hbusy hphase).1 hlen)
    rfl

/-- Settles O22: in no phase has an encoder a step that raises InvalidInput. -/
theorem encodersNeverRaiseInvalidInput : Obligations.EncodersNeverRaiseInvalidInput := by
  unfold Obligations.EncodersNeverRaiseInvalidInput
  intro i s t hencoder hbusy herr hexec
  have hcommand : isCommand i = true := isCommand_iff.2 (by rcases hencoder with rfl | rfl | rfl <;> decide)
  exact exec_spares (by decide) hcommand hbusy (.inl hencoder) ⟨by rw [herr]; decide, nofun⟩ hexec

end Sys2Proof.Machine
end
